-- ==== Sys2Proof/Word.lean ====
section
/-! DEFINITION. The word types of the Rohild and nothing else: 32-bit registers, 64-bit pairs and
instruction words, bytes and lane masks (R15, R16, R34, R135). -/

namespace Sys2Proof

/-- One 32-bit register value (R158). -/
abbrev Word := BitVec 32

/-- A 64-bit value: a register pair, an address operand or an instruction word (R16, R34). -/
abbrev DWord := BitVec 64

/-- One byte of memory, at the lowest address bits [7:0] of a value (R2). -/
abbrev Byte := BitVec 8

/-- A set of lanes of one group: bit i stands for lane i (R137, R152). -/
abbrev Mask := BitVec 64

end Sys2Proof
end

