-- ==== Sys2Proof/Syntax.lean ====
section
/-! DEFINITION. The steps of the Rohild as data: one constructor of `Instr` for each row of the table of
operations and events. Instruction words carry their operands as read from the fields of R37, R46 and R50;
commands, register writes and events carry the numbers that say which object they act on. -/

namespace Sys2Proof

/-! ## Operands of instruction words -/

/-- The guard of a word: a predicate, 7 being pt, and its complement bit (R37, R41). -/
structure Guard where
  pred : BitVec 3
  neg : Bool
deriving DecidableEq, Repr

/-- A source operand: a vector register, a scalar register (63 is sz) or the imm16 of R40. -/
inductive Src where
  | v (n : BitVec 8)
  | s (n : BitVec 6)
  | imm (x : BitVec 16)
deriving DecidableEq, Repr

/-- A register operand: a vector register (255 is vz) or a scalar one (63 is sz) (R38). -/
inductive Reg where
  | v (n : BitVec 8)
  | s (n : BitVec 6)
deriving DecidableEq, Repr

/-- The destination of a compare: a register or a predicate (R172, R185). -/
inductive CmpDst where
  | r (d : Reg)
  | p (n : BitVec 3)
deriving DecidableEq, Repr

/-- Guard, destination and one source. -/
structure Op1 where
  g : Guard
  d : Reg
  a : Src
deriving DecidableEq, Repr

/-- Guard, destination and two sources. -/
structure Op2 where
  g : Guard
  d : Reg
  a : Src
  b : Src
deriving DecidableEq, Repr

/-- Guard, destination and three sources. In an immediate form b is the immediate and c is `.imm 0` (R40). -/
structure Op3 where
  g : Guard
  d : Reg
  a : Src
  b : Src
  c : Src
deriving DecidableEq, Repr

/-- Integer types of R163. -/
inductive ITy where
  | s32 | n32 | s64 | n64
deriving DecidableEq, Repr

/-- Conditions of `ISET` (R172). -/
inductive Cc where
  | eq | ne | lt | le | gt | ge
deriving DecidableEq, Repr

/-- Conditions of `FSET` (R181). -/
inductive FCc where
  | eq | ne | lt | le | gt | ge | num | nan
deriving DecidableEq, Repr

/-- Rounding selector of R180: `fp.mode.rnd`, encoded by any of the values 000 to 011, or a mode of its own. -/
inductive RndSel where
  | mode (low : BitVec 2)
  | rn | rz | rp | rm
deriving DecidableEq, Repr

/-- Kinds of `PMOV` with their operands (R173). -/
inductive Pmov where
  | tov (d : BitVec 8) (p : BitVec 3)
  | fromv (p : BitVec 3) (a : BitVec 8)
  | tos (d : BitVec 6) (p : BitVec 3)
  | froms (p : BitVec 3) (a : BitVec 6)
  | lop (d a b c : BitVec 3) (lut : BitVec 8)
deriving DecidableEq, Repr

/-- The special registers of R176. -/
inductive SReg where
  | laneid | quadid | groupid | blockidX | blockidY | blockidZ | clusterid
  | timebase | timebaseHi | peal | pealHi | fragmask | fragmaskHi
deriving DecidableEq, Repr

/-- The registers of `CSRR`, `CSRW` and `CSRX` (R75). -/
inductive Csr where
  | fpMode | fpFlags | fpSeed | ctxId | spLimit | spCount | spLast | preempt | sysfence | tblState
deriving DecidableEq, Repr

/-- The floating-point formats of one vector element: FP32, FP16, BF16 (R12). -/
inductive F3 where
  | f32 | f16 | bf16
deriving DecidableEq, Repr

/-- The element types of `CVT` (R190). -/
inductive CTy where
  | f32 | f16 | bf16 | e4m3 | e5m2 | s4 | n4 | s8 | n8 | s16 | n16 | s32 | n32 | s64 | n64
deriving DecidableEq, Repr

/-- The 4-bit block types of R17 and R18. -/
inductive BTy where
  | int | e2m1 | pow2 | hyb
deriving DecidableEq, Repr

/-- Modes of `XLANE` (R146). -/
inductive XMode where
  | at | back | fwd | flip
deriving DecidableEq, Repr

/-- Directions of `QX` (R147). -/
inductive QDir where
  | h | v | d
deriving DecidableEq, Repr

/-- Operations of `VOTE` (R148). -/
inductive VoteOp where
  | all | any | uni
deriving DecidableEq, Repr

/-- Operations of `REDUX` (R150). -/
inductive RedOp where
  | add | min | max | and | or | xor
deriving DecidableEq, Repr

/-- Types of `REDUX` (R150). -/
inductive RedTy where
  | s32 | n32 | f32
deriving DecidableEq, Repr

/-- Kinds of `MASK` (R152). -/
inductive MaskKind where
  | frag | live | helper | lt | jmask | jpc
deriving DecidableEq, Repr

/-- The return forms of `ERET` (R330): retry, the next word, or chosen targets (va, sm, st). -/
inductive EretMode where
  | retry
  | next
  | x (va : BitVec 8) (sm st : BitVec 6)
deriving DecidableEq, Repr

/-- Access widths of R231. -/
inductive Width where
  | n8 | s8 | n16 | s16 | b32 | b64 | b128
deriving DecidableEq, Repr

/-- Scopes of R258. -/
inductive Scope where
  | grp | blk | cls | pkg | pod | sys
deriving DecidableEq, Repr

/-- The order field of a memory word (R230). -/
structure Order where
  acq : Bool
  rel : Bool
  scope : Scope
deriving DecidableEq, Repr

/-- The address of a memory word: a base pair and an offset (R226, R230). -/
structure MAddr where
  base : Reg
  off : Src
deriving DecidableEq, Repr

/-- Atomic operations of R244. -/
inductive AOp where
  | add | min | max | and | or | xor | exch
deriving DecidableEq, Repr

/-- Atomic types of R244. -/
inductive ATy where
  | s32 | n32 | s64 | n64 | f32 | bf16x2
deriving DecidableEq, Repr

/-- Scopes of barriers (R201). -/
inductive BScope where
  | blk | cls | grd
deriving DecidableEq, Repr

/-- A barrier's name: scope and index (R200, R201). -/
structure Bar where
  scope : BScope
  idx : Nat
deriving DecidableEq, Repr

/-- The operands of a matrix pass (R273): slot, A, B and stride pairs, format record, `.sat`. -/
structure PassArgs where
  slot : BitVec 3
  a : BitVec 6
  b : BitVec 6
  c : BitVec 6
  mf : BitVec 3
  sat : Bool
deriving DecidableEq, Repr

/-- The operations of a P-form slot with their modifiers (R49). -/
inductive POp where
  | nop | mov | add | sub | mul
  | min (n32 : Bool) | max (n32 : Bool)
  | and | or | xor | shl | shr | sar | abs | popc | clz | brev
  | fadd (r : RndSel) | fmul (r : RndSel) | fmin | fmax
  | pkadd (bf : Bool) (r : RndSel) | pkmul (bf : Bool) (r : RndSel) | pkmm (bf mx : Bool)
  | frcp | frsq | fsqrt (r : RndSel) | fex2 | flg2 | fsin | fcos | ftanh
  | cvtF32Int (n32 : Bool) (r : RndSel) | cvtIntF32 (n32 : Bool) (r : RndSel)
  | cvtF32Half (bf hi : Bool)
  | iset (cc : Cc) (n32 : Bool) | fset (cc : Cc)
  | ld | st | lds | sts | ldc (bank : BitVec 3) | rds (r : SReg) | add64
deriving DecidableEq, Repr

/-- One slot of a pair (R46). -/
structure PSlot where
  pred : BitVec 3
  op : POp
  d : BitVec 8
  a : Reg
deriving DecidableEq, Repr

/-! ## Operands of commands and events -/

/-- Status delivered by the environment of a re-formation (R356): the largest applied peal among the members,
the source's store image when this package lags, the new ring order. -/
structure Reform where
  peal : Nat
  image : Option (List (Nat × Byte))
  ring : List Nat
deriving DecidableEq, Repr

/-- What the partner's end of a colour tells (R404, R407): its window has ended, at or below its own CWARN or not; a flit there has passed
its CWARN or its retraining thresholds; its end is disabled, or has lost both feeds. -/
inductive Partner where
  | window (calm : Bool)
  | watch
  | retrain
  | dark
  | failed
deriving DecidableEq, Repr

/-- One fabric flit (R359), its 128-byte payload as bytes. -/
structure Flit where
  ty : Nat
  resp : Bool
  version : Nat
  tenant : Nat
  rgen : Nat
  dst : Nat
  src : Nat
  tag : Nat
  seq : Nat
  payload : List Byte
deriving DecidableEq, Repr

/-- The arrival of a flit on one colour of a link: how many symbols were in error, and the flit read
after correction (R359, R360, R364). -/
structure Arrival where
  link : Nat
  colour : Nat
  symErr : Nat
  crcBad : Bool
  flit : Flit
deriving DecidableEq, Repr

/-- A Carillon record: its 32 bytes by field (R344). -/
structure Record where
  kind : Nat
  arg : Nat
  tenant : Nat
  addr : Nat
  body : List Byte
deriving DecidableEq, Repr

/-- Who meets an uncorrectable error (R338): a thread word of a group, the resume of a block's image, or
a copy, matrix or drain operation of an engine. -/
inductive ErrorSite where
  | thread (grp : Nat) (recoverable : Bool)
  | image (blk : Nat)
  | transfer (t : Nat)
  | matrix (cl eid : Nat)
deriving DecidableEq, Repr

/-! ## The steps -/

/-- One step of the Rohild: an instruction word (the rows of R45, R47 and R51), a command, a host register
write, or an event. The number operands of events name the object and the choice the event resolves. -/
inductive Instr where
  -- integer words (R164)
  | nop (g : Guard)
  | mov (b64 : Bool) (o : Op1)
  | add (ty : ITy) (sat : Bool) (o : Op2)
  | sub (ty : ITy) (sat : Bool) (o : Op2)
  | mul (ty : ITy) (sat : Bool) (o : Op2)
  | mulh (ty : ITy) (wide : Bool) (o : Op2)
  | mad (ty : ITy) (sat wide : Bool) (o : Op3)
  | div (ty : ITy) (rem : Bool) (o : Op2)
  | min (ty : ITy) (o : Op2)
  | max (ty : ITy) (o : Op2)
  | abs (b64 sat : Bool) (o : Op1)
  | and (b64 : Bool) (o : Op2)
  | or (b64 : Bool) (o : Op2)
  | xor (b64 : Bool) (o : Op2)
  | bool3 (b64 : Bool) (lut : BitVec 8) (o : Op3)
  | shl (wrap b64 : Bool) (o : Op2)
  | shr (wrap b64 : Bool) (o : Op2)
  | sar (wrap b64 : Bool) (o : Op2)
  | xtr (sh : Bool) (o : Op3)
  | popc (b64 : Bool) (o : Op1)
  | clz (b64 : Bool) (o : Op1)
  | brev (b64 : Bool) (o : Op1)
  | bfx (signed b64 : Bool) (o : Op2)
  | bfi (b64 : Bool) (o : Op2)
  | iset (cc : Cc) (ty : ITy) (g : Guard) (d : CmpDst) (a b : Src)
  | sel (b64 : Bool) (p : BitVec 3) (compl : Bool) (o : Op2)
  | lea (n32 : Bool) (sh : BitVec 4) (o : Op2)
  | bytsel (o : Op3)
  | idp4 (aS bS sat x2 : Bool) (o : Op3)
  | pmov (g : Guard) (k : Pmov)
  | rds (b64 : Bool) (g : Guard) (d : Reg) (r : SReg)
  -- floating-point words (R181)
  | fadd (r : RndSel) (sat : Bool) (o : Op2)
  | fmul (r : RndSel) (sat : Bool) (o : Op2)
  | fma (r : RndSel) (sat : Bool) (o : Op3)
  | fmin (o : Op2)
  | fmax (o : Op2)
  | fset (cc : FCc) (g : Guard) (d : CmpDst) (a b : Src)
  | fclass (f : F3) (o : Op1)
  | frnd (r : RndSel) (o : Op1)
  | pkadd (bf : Bool) (r : RndSel) (sat : Bool) (o : Op2)
  | pkmul (bf : Bool) (r : RndSel) (sat : Bool) (o : Op2)
  | pkfma (bf : Bool) (r : RndSel) (sat : Bool) (o : Op3)
  | pkmm (bf mx : Bool) (o : Op2)
  | fdp2 (bf : Bool) (r : RndSel) (sat : Bool) (o : Op3)
  | fscale (r : RndSel) (sat : Bool) (o : Op2)
  | frcp (o : Op1)
  | frsq (o : Op1)
  | fsqrt (r : RndSel) (o : Op1)
  | fex2 (o : Op1)
  | flg2 (o : Op1)
  | fsin (o : Op1)
  | fcos (o : Op1)
  | ftanh (o : Op1)
  | fdiv (r : RndSel) (sat : Bool) (o : Op2)
  | tbl (g : Guard) (d a : BitVec 8) (b : BitVec 6)
  | tbld (g : Guard) (d a : BitVec 6)
  | cvt (dst src : CTy) (sel pos : BitVec 3) (r : RndSel) (sr sat : Bool) (g : Guard) (d a : Reg)
  | cvtq (ty : BTy) (l32 scale sr : Bool) (r : RndSel) (sat : Bool) (pos : BitVec 3) (g : Guard) (d a : BitVec 8)
  | cvtd (f : F3) (r : RndSel) (sat : Bool) (elem : BitVec 3) (half : Bool) (g : Guard) (d a : BitVec 8) (b : Reg)
  -- lane exchange and control flow (R143)
  | xlane (m : XMode) (wrap b64 : Bool) (g : Guard) (d a : BitVec 8) (b : Src) (scope : Option (BitVec 8))
  | qx (dir : QDir) (b64 : Bool) (g : Guard) (d a : BitVec 8)
  | vote (op : VoteOp) (g : Guard) (d a : BitVec 3) (scope : Option (BitVec 8))
  | ballot (g : Guard) (d : Reg) (a : BitVec 3) (scope : Option (BitVec 8))
  | matchLanes (b64 : Bool) (g : Guard) (d a : BitVec 8)
  | redux (op : RedOp) (ty : RedTy) (r : RndSel) (g : Guard) (d : Reg) (a : BitVec 8) (scope : Option (BitVec 8))
  | v2s (b64 : Bool) (g : Guard) (d : BitVec 6) (a : BitVec 8) (idx : Option Src)
  | mask (k : MaskKind) (g : Guard) (d : Reg) (j : BitVec 3)
  | bra (g : Guard) (off : BitVec 24)
  | brx (g : Guard) (t : Reg)
  | call (g : Guard) (off : BitVec 24) (spill : BitVec 6)
  | callx (g : Guard) (t : Reg) (spill : BitVec 6)
  | ret (g : Guard) (spill : BitVec 6)
  | enrol (g : Guard) (j : BitVec 3) (off : BitVec 16)
  | rejoin (j : BitVec 3)
  | strike (g : Guard) (j : BitVec 3)
  | exit (g : Guard)
  | wait (ld st cp mx bc : BitVec 6)
  | yield (imm : Bool) (n : BitVec 8)
  | safept (id : BitVec 16)
  | brk (g : Guard) (code : BitVec 16)
  | nap (t : Src)
  | trap (g : Guard) (code : BitVec 16)
  | eret (keep : Bool) (m : EretMode)
  -- memory words (R232)
  | ld (w : Width) (o : Order) (ev : Bool) (g : Guard) (d : Reg) (a : MAddr)
  | st (w : Width) (o : Order) (ev : Bool) (g : Guard) (d : BitVec 8) (a : MAddr)
  | lds (w : Width) (g : Guard) (d : Reg) (a : MAddr)
  | sts (w : Width) (g : Guard) (d : BitVec 8) (a : MAddr)
  | ldc (w : Width) (bank : BitVec 3) (g : Guard) (d : Reg) (a : MAddr)
  | ldfe (clr scr : Bool) (w : Width) (o : Order) (g : Guard) (d : Reg) (a : MAddr)
  | stfe (scr : Bool) (w : Width) (o : Order) (g : Guard) (d : BitVec 8) (a : MAddr)
  | ldp (g : Guard) (a : BitVec 6) (line : Src)
  | stp (g : Guard) (a : BitVec 6) (line : Src)
  | pref (llc wr : Bool) (g : Guard) (a : MAddr)
  | flushH (g : Guard) (a : Option MAddr)
  | invalH (g : Guard) (a : Option MAddr)
  | atom (op : AOp) (ty : ATy) (o : Order) (g : Guard) (d : Reg) (a : MAddr) (c : Reg)
  | atomc (w : Width) (o : Order) (g : Guard) (d : Reg) (a b c : Reg)
  | red (op : AOp) (ty : ATy) (o : Order) (g : Guard) (d : BitVec 8) (a : MAddr)
  | mcas (o : Order) (g : Guard) (d : Reg) (a : Reg) (n : Src)
  | fence (o : Order) (g : Guard)
  -- barriers (R207)
  | binit (d : BitVec 6) (bar : Bar) (a : BitVec 6)
  | arrive (d : BitVec 6) (bar : Bar)
  | bwait (a : BitVec 6)
  | bdrop (bar : Bar)
  | bsync (bar : Bar)
  | btest (d a : BitVec 6)
  -- matrix words (R273)
  | mfmt (d : BitVec 6) (mf : BitVec 3) (a : BitVec 6)
  | mzero (slot : BitVec 3)
  | mma (p : PassArgs)
  | mmap (p : PassArgs)
  | mdrn (z : Bool) (slot : BitVec 3) (a : BitVec 6)
  | mlda (slot : BitVec 3) (a : BitVec 6)
  | mvec (w t : Bool) (n : BitVec 3) (d : BitVec 8) (b : BitVec 6) (slot : BitVec 3)
  -- transfers and collectives (R298, R378)
  | tcpy (g : Guard) (a : BitVec 6)
  | gath (g : Guard) (a : BitVec 6)
  | scat (g : Guard) (a : BitVec 6)
  | fill (g : Guard) (a : BitVec 6)
  | coll (g : Guard) (a : BitVec 6)
  -- records, queues, pages (R350, R121, R108, R110, R320)
  | cbw (w : Width) (rel : Bool) (g : Guard) (d a b : BitVec 6)
  | cbc (b64 rel : Bool) (g : Guard) (d a b c : BitVec 6)
  | cba (b64 rel : Bool) (g : Guard) (d a b : BitVec 6)
  | cld (w : Width) (g : Guard) (d : Reg) (a : MAddr)
  | peal (ret : Bool) (g : Guard) (d : BitVec 6)
  | pfence (g : Guard) (a : BitVec 6)
  | launch (wait : Bool) (g : Guard) (d a b : BitVec 6)
  | qpush (wait : Bool) (g : Guard) (d a b : BitVec 6)
  | cont (g : Guard) (a : BitVec 8) (entry : BitVec 8)
  | cbpt (lvl : BitVec 2) (rel : Bool) (g : Guard) (d a b : BitVec 6)
  -- context registers (R89)
  | csrr (g : Guard) (d : Reg) (r : Csr)
  | csrw (g : Guard) (r : Csr) (a : BitVec 6)
  | csrx (g : Guard) (d : BitVec 6) (r : Csr) (a : BitVec 6)
  -- P-form and X-form (R46, R51)
  | pair (s0 s1 : PSlot)
  | movi (g : Guard) (d : Reg) (x : Word)
  | movh (g : Guard) (d : Reg) (x : Word)
  | addi (b64 : Bool) (g : Guard) (d : Reg) (x : Word)
  | fmovi (g : Guard) (d : Reg) (x : Word)
  | braL (g : Guard) (off : Word)
  | callL (g : Guard) (off : Word)
  | ldL (w : Width) (g : Guard) (d : Reg) (base : BitVec 6) (off : Word)
  | stL (w : Width) (g : Guard) (d : Reg) (base : BitVec 6) (off : Word)
  -- commands of a logical device's rings (R68, R96, R316, R328): ld is the device
  | create (ld : Nat)
  | bind (ld : Nat)
  | preempt (ld : Nat)
  | resume (ld : Nat)
  | destroy (ld : Nat)
  | setlimit (ld : Nat)
  | qcreate (ld : Nat)
  | qsuspend (ld : Nat)
  | qresume (ld : Nat)
  | qreset (ld : Nat)
  | qretire (ld : Nat)
  | inval (ld : Nat)
  | faultdone (ld : Nat)
  | pool (ld : Nat)
  | retireok (ld : Nat)
  | handler (ld : Nat)
  | forward (ld : Nat)
  | trapdone (ld : Nat)
  -- commands of the management ring (R387)
  | ldbind
  | ldreset
  | partition
  | topology
  | checkpoint
  | restore
  | unbind
  -- device and host events
  | deviceReset
  | powerLoss
  -- dispatch (R101 to R118)
  | packetTake (ld q : Nat)
  | queueStarvationPromote (ld q : Nat)
  | packetComplete (ld q n : Nat)
  | contDispatch (ctx bin entry : Nat)
  | blockPlace (grid : Nat) (at_ : List Nat)
  | gridComplete (grid : Nat)
  -- scheduling (R129, R130, R157, R161)
  | groupEnterActive (grp : Nat)
  | groupSwapOut (grp : Nat)
  | noReadyTimeout (grp : Nat)
  | yieldExpiry (grp lane : Nat)
  | napExpiry (grp lane : Nat)
  | registerLineFill (grp line : Nat)
  -- completions of memory words
  | loadComplete (grp op : Nat) (lanes : Mask)
  | storeAck (grp op : Nat) (lanes : Mask) (delay : Nat)
  | atomicPerform (grp op : Nat) (lanes : Mask) (delay : Nat)
  | ldfeLaneComplete (grp op lane : Nat)
  | mcasLockGrant (grp op : Nat)
  | mcasCommit (grp op : Nat) (delay : Nat)
  | mcasLockBreak (grp op : Nat)
  | persistentRequest (core line : Nat)
  | retRefillReturn (grp op : Nat)
  | tbldLoadComplete (grp op : Nat)
  -- faults and rings
  | sageAllocService (ld fid : Nat)
  | faultForward (ld fid : Nat)
  | replayResolve (grp op : Nat)
  | fetchFaultServed (grp lane : Nat)
  | ringEntryPost (ld r : Nat)
  -- copy engine (R300)
  | transferTake (t : Nat)
  | transferChunk (t : Nat)
  | transferPageMapped (t : Nat)
  | transferSignal (t : Nat)
  -- matrix engine (R276 to R289)
  | entryGrant (cl eid : Nat)
  | unitEstimate (cl eid : Nat)
  | unitRefill (cl : Nat)
  | passWindowEnd (die : Nat)
  | passComplete (cl eid : Nat)
  | passFault (cl eid : Nat)
  | passResume (cl eid : Nat)
  | drainComplete (cl eid : Nat)
  | mldaComplete (cl eid : Nat)
  | mzeroComplete (cl eid : Nat)
  | mvecComplete (cl eid : Nat)
  | mfmtComplete (grp op : Nat)
  | numericWindowStart (ld cls : Nat)
  -- traps, pre-emption, errors
  | handlerEntry (grp lane : Nat)
  | serviceComplete (ld rid : Nat)
  | groupPark (grp : Nat)
  | contextSaved (ctx : Nat)
  | drainLimitReached (ctx : Nat)
  | resumeBlockPlace (ctx : Nat) (at_ : List Nat)
  | uncorrectableError (pa : Nat) (site : ErrorSite)
  | regionMigrate (region : Nat)
  -- loop (R342 to R356)
  | recordEnterSendQueue (grp op : Nat)
  | recordReturned (peal : Nat)
  -- fabric (R359 to R373, R407)
  | generationClose
  | ingressHoldExpiry (i : Nat)
  | flitRetry (link tenant seq : Nat)
  | collStart (c : Nat)
  | collComplete (c : Nat)
  | visibilityTimeReached (grp lane : Nat)
  | wordFetchComplete (grp lane : Nat)
  | safeTierCopyComplete
  -- a management command that carries what the other packages report (R387)
  | loopform (r : Reform)
  -- host register writes (R95, R383, R385, R386, R291, R392, R363, R371, R3)
  | bellTailWrite (ld q : Nat) (t : DWord)
  | ringTailWrite (fn r : Nat) (t : DWord)
  | ringHeadWrite (fn r : Nat) (t : DWord)
  | ringDescriptorWrite (fn r : Nat) (base : DWord) (order : Byte)
  | feataccWrite (ld : Nat) (v : BitVec 128)
  | ldctlWrite (ld : Nat) (v : Word)
  | numericSettingWrite (ld cls : Nat) (window : Bool) (v : Word)
  | plimitWrite (v : Word)
  | cctlRetrain (link colour : Nat)
  | cctlEnableWrite (link colour : Nat) (en : Bool)
  | routeWrite (bank dst : Nat) (v : Word)
  | registerWrite (fn off size : Nat) (v : DWord)
  -- what the host does, and failures of the hardware
  | functionLevelReset (ld : Nat)
  | hostCxlMemAccess (ld pa len : Nat) (write : Option (List Byte))
  | hostSnoop (half : Nat) (write : Option (List (Nat × Byte)))
  | spdmRequest (fn : Nat) (nonce : DWord)
  | firmwareImageLoad (iod : Nat) (image : List Byte) (version : DWord)
  | computeDieFailure (die : Nat)
  | selfTestInject (core : Nat) (pass : Bool)
  | bankDrop (bank : Nat)
  -- arrivals on the loop (R342 to R356)
  | tokenArrive (peal : Nat)
  | recordApply (peal sender : Nat) (r : Record)
  | frameCrcRetransmit (peal : Nat)
  | loopBreakDetect (r : Reform)
  -- arrivals and changes on links (R359 to R373, R407)
  | readRequest (a : Arrival)
  | readResponse (a : Arrival)
  | write (a : Arrival)
  | writeAcknowledgement (a : Arrival)
  | collectiveData (a : Arrival)
  | collectiveControl (a : Arrival)
  | errorResponse (a : Arrival)
  | trainingStart (link colour : Nat)
  | trainingAttemptEnd (link colour : Nat) (ok : Bool)
  | colourWindowEnd (link colour : Nat) (atPartner : Option Partner)
  | branchAlarm (module branch : Nat)
  | flitAcknowledgement (link tenant seq : Nat)
  | freeSlotReturn (link tenant : Nat) (resp : Bool) (n : Nat)
  | branchPowerRestored (module branch : Nat)
deriving DecidableEq, Repr

end Sys2Proof
end

