-- ==== Sys2Proof/WellFormed.lean ====
section
/-! DEFINITION. Which instruction terms the encoding admits: pair bases, operand spaces, scalar destinations
and immediate forms (R38 to R44), each instruction's own limits (R143, R164, R181, R207, R232, R273, R298,
R330, R350), and the four rules of a pair (R48). -/

namespace Sys2Proof

/-- A register names a 64-bit pair (R44): an even register up to v252 or s60, or vz, sz. -/
def Reg.pairOk : Reg → Bool
  | .v n => n.toNat == 255 || (n.toNat % 2 == 0 && n.toNat ≤ 252)
  | .s n => n.toNat == 63 || (n.toNat % 2 == 0 && n.toNat ≤ 60)

/-- A register names four consecutive registers (R230, R350): a multiple of 4 up to v248 or s56, or vz, sz. -/
def Reg.quadOk : Reg → Bool
  | .v n => n.toNat == 255 || (n.toNat % 4 == 0 && n.toNat ≤ 248)
  | .s n => n.toNat == 63 || (n.toNat % 4 == 0 && n.toNat ≤ 56)

/-- A source names a pair, or is an immediate (R44). -/
def Src.pairOk : Src → Bool
  | .v n => Reg.pairOk (.v n)
  | .s n => Reg.pairOk (.s n)
  | .imm _ => true

def Src.isImm : Src → Bool
  | .imm _ => true
  | _ => false

def Src.isV : Src → Bool
  | .v _ => true
  | _ => false

def Src.isS : Src → Bool
  | .s _ => true
  | _ => false

def Reg.isS : Reg → Bool
  | .s _ => true
  | .v _ => false

/-- A scalar destination takes no vector source (R39). -/
def scalarRule (d : Reg) (srcs : List Src) : Bool :=
  !d.isS || srcs.all (fun x => !x.isV)

/-- Limits of a one-source word: immediate allowed, scalar destination allowed, which operands are pairs. -/
def Op1.wf (o : Op1) (imm sd dp ap : Bool) : Bool :=
  (imm || !o.a.isImm) && (sd || !o.d.isS) && scalarRule o.d [o.a] &&
  (!dp || o.d.pairOk) && (!ap || o.a.pairOk)

/-- Limits of a two-source word; only b may be an immediate (R40). -/
def Op2.wf (o : Op2) (imm sd dp ap bp : Bool) : Bool :=
  !o.a.isImm && (imm || !o.b.isImm) && (sd || !o.d.isS) && scalarRule o.d [o.a, o.b] &&
  (!dp || o.d.pairOk) && (!ap || o.a.pairOk) && (!bp || o.b.pairOk)

/-- Limits of a three-source word; in the immediate form c does not exist and is written `.imm 0` (R40). -/
def Op3.wf (o : Op3) (imm sd dp ap bp cp : Bool) : Bool :=
  !o.a.isImm && (imm || !o.b.isImm) && (o.b.isImm == o.c.isImm) && (!o.c.isImm || o.c == .imm 0) &&
  (sd || !o.d.isS) && scalarRule o.d [o.a, o.b, o.c] &&
  (!dp || o.d.pairOk) && (!ap || o.a.pairOk) && (!bp || o.b.pairOk) && (!cp || o.c.pairOk)

def ITy.wide : ITy → Bool
  | .s64 | .n64 => true
  | _ => false

def ITy.signed : ITy → Bool
  | .s32 | .s64 => true
  | _ => false

/-- Bits of an element type of `CVT` (R190). -/
def CTy.bits : CTy → Nat
  | .f32 | .s32 | .n32 => 32
  | .f16 | .bf16 | .s16 | .n16 => 16
  | .e4m3 | .e5m2 | .s8 | .n8 => 8
  | .s4 | .n4 => 4
  | .s64 | .n64 => 64

def CTy.isFloat : CTy → Bool
  | .f32 | .f16 | .bf16 | .e4m3 | .e5m2 => true
  | _ => false

/-- The destinations to which `.sr` may convert (R21, R190). -/
def CTy.srDest : CTy → Bool
  | .e4m3 | .e5m2 | .s8 | .n8 | .s4 | .n4 => true
  | _ => false

/-- Number of elements a register holds of a type: 1 for 32- and 64-bit types (R190). -/
def CTy.count (t : CTy) : Nat := if t.bits ≥ 32 then 1 else 32 / t.bits

/-- Bytes of a width code (R231). -/
def Width.bytes : Width → Nat
  | .n8 | .s8 => 1
  | .n16 | .s16 => 2
  | .b32 => 4
  | .b64 => 8
  | .b128 => 16

/-- A data operand of a width (R230): a pair for 8 bytes, four registers for 16. -/
def Width.regOk (w : Width) (d : Reg) : Bool :=
  match w with
  | .b64 => d.pairOk
  | .b128 => d.quadOk
  | _ => true

/-- A store has no sign-extending width (R231). -/
def Width.storeOk : Width → Bool
  | .s8 | .s16 => false
  | _ => true

/-- The widths of `LDFE` and `STFE` (R232). -/
def Width.feOk : Width → Bool
  | .b32 | .b64 | .b128 => true
  | _ => false

/-- An order field with no acquire and no release has scope 000 (R230). -/
def Order.wf (o : Order) (acq rel : Bool) : Bool :=
  (acq || !o.acq) && (rel || !o.rel) && (o.acq || o.rel || o.scope == .grp)

def Order.plain (o : Order) : Bool := !o.acq && !o.rel && o.scope == .grp

/-- A virtual-address operand: a pair base; a scalar destination needs a scalar address (R39, R232). -/
def MAddr.wf (a : MAddr) (pair : Bool) (d : Reg) (imm : Bool) : Bool :=
  (!pair || a.base.pairOk) && (imm || !a.off.isImm) && (!d.isS || (a.base.isS && !a.off.isV))

/-- The scope operand of a lane exchange is a vector pair (R143). -/
def scopeOk (sc : Option (BitVec 8)) : Bool :=
  match sc with
  | none => true
  | some n => Reg.pairOk (.v n)

def AOp.typeOk (op : AOp) (ty : ATy) : Bool :=
  match ty with
  | .f32 => op == .add || op == .exch
  | .bf16x2 => op == .add
  | _ => true

def ATy.wide : ATy → Bool
  | .s64 | .n64 => true
  | _ => false

/-- A barrier's name exists (R201): 16 block barriers, 4 cluster barriers, one grid barrier. -/
def Bar.wf (b : Bar) : Bool :=
  match b.scope with
  | .blk => b.idx < 16
  | .cls => b.idx < 4
  | .grd => b.idx == 0

/-- A scalar pair base from s0 to s60 with no sz (R273). -/
def sPairStrict (n : BitVec 6) : Bool := n.toNat % 2 == 0 && n.toNat ≤ 60

def sPair (n : BitVec 6) : Bool := Reg.pairOk (.s n)

def slotNumOk (n : BitVec 3) : Bool := n.toNat ≤ 5

/-! ## Pairs (R46, R48, R49) -/

/-- Whether a P-form operation's a field may be scalar: every operation but `RDS` and `NOP`. A pair operand
must be a pair base. -/
def POp.aPair : POp → Bool
  | .ld | .st | .add64 => true
  | _ => false

/-- Operations whose address is a vector pair (R253). -/
def POp.vAddr : POp → Bool
  | .ld | .st => true
  | _ => false

def POp.dPair : POp → Bool
  | .add64 => true
  | _ => false

/-- The limited operations of R49. -/
def POp.limited : POp → Bool
  | .frcp | .frsq | .fsqrt _ | .fex2 | .flg2 | .fsin | .fcos | .ftanh
  | .ld | .st | .lds | .sts | .ldc _ | .rds _ => true
  | _ => false

/-- Whether the operation reads d (R49, column Reads). -/
def POp.readsD : POp → Bool
  | .add | .sub | .mul | .min _ | .max _ | .and | .or | .xor | .shl | .shr | .sar
  | .fadd _ | .fmul _ | .fmin | .fmax | .pkadd _ _ | .pkmul _ _ | .pkmm _ _
  | .iset _ _ | .fset _ | .st | .sts | .add64 => true
  | _ => false

/-- Whether the operation reads a (R49). -/
def POp.readsA : POp → Bool
  | .nop | .rds _ => false
  | _ => true

/-- Whether the operation writes d (R48, R49): stores and `NOP` write no register. -/
def POp.writesD : POp → Bool
  | .nop | .st | .sts => false
  | _ => true

/-- The vector registers a pair or single operand covers; scalars, vz and absent operands have none (R48). -/
def Reg.vregs (r : Reg) (pair : Bool) : List Nat :=
  match r with
  | .s _ => []
  | .v n => if n.toNat == 255 then [] else if pair then [n.toNat, n.toNat + 1] else [n.toNat]

/-- Registers read by a slot, each once (R48 rule 2). -/
def PSlot.reads (p : PSlot) : List Nat :=
  let ds := if p.op.readsD then Reg.vregs (.v p.d) p.op.dPair else []
  let as := if p.op.readsA then p.a.vregs p.op.aPair else []
  ds ++ as.filter (fun r => !ds.contains r)

def PSlot.writes (p : PSlot) : List Nat :=
  if p.op.writesD then Reg.vregs (.v p.d) p.op.dPair else []

/-- A slot's own fields: pair bases, no scalar a where the field is a number or must be 0 (R46, R49). -/
def PSlot.wf (p : PSlot) : Bool :=
  (!p.op.aPair || p.a.pairOk) && !(p.op.vAddr && p.a.isS) && (!p.op.dPair || Reg.pairOk (.v p.d)) &&
  match p.op with
  | .nop => p.d == 0 && p.a == .v 0
  | .rds _ => p.a == .v 0
  | _ => true

def banks (rs : List Nat) : List Nat := rs.map (· % 4)

/-- The lowest-numbered rule of R48 that a pair breaks, if any. -/
def pairRule (s0 s1 : PSlot) : Option Nat :=
  if (banks s0.writes).any (fun b => (banks s1.writes).contains b) then some 1
  else if [0, 1, 2, 3].any (fun b => ((banks s0.reads ++ banks s1.reads).filter (· == b)).length > 3) then some 2
  else if s0.op.limited && s1.op.limited then some 3
  else if s1.reads.any (fun r => s0.writes.contains r) then some 4
  else none

/-! ## Every word -/

/-- The encoding admits this term. Commands, register writes and events have no word: `true`. -/
def Instr.wf : Instr → Bool
  | .mov b o => o.wf true true b b
  | .add t _ o | .sub t _ o | .mul t _ o | .div t _ o | .min t o | .max t o => o.wf true true t.wide t.wide t.wide
  | .mulh t w o => (!w || !t.wide) && o.wf true true (t.wide || w) t.wide t.wide
  | .mad t _ w o => (!w || !t.wide) && o.wf false true (t.wide || w) t.wide t.wide (t.wide || w)
  | .abs b _ o => o.wf false true b b
  | .and b o | .or b o | .xor b o => o.wf true true b b b
  | .bool3 b _ o => o.wf true true b b b b
  | .shl _ b o | .shr _ b o | .sar _ b o => o.wf true true b b false
  | .xtr _ o => o.wf false true false false false false
  | .popc b o | .clz b o => o.wf false true false b
  | .brev b o => o.wf false true b b
  | .bfx _ b o | .bfi b o => o.wf true true b b false
  | .iset _ t _ d a b =>
      !a.isImm && (!t.wide || (a.pairOk && b.pairOk)) &&
      match d with
      | .r r => scalarRule r [a, b]
      | .p _ => true
  | .sel b _ _ o => o.wf true true b b b
  | .lea n _ o => o.wf true true true true false && !(n && o.b.isImm)
  | .bytsel o => o.wf true true false false false false
  | .idp4 _ _ _ _ o => o.wf false true false false false false
  | .pmov _ k =>
      match k with
      | .tos d _ => sPair d
      | .froms _ a => sPair a
      | _ => true
  | .rds b _ d r =>
      (!b || (d.pairOk && (r == .timebase || r == .peal || r == .fragmask))) &&
      (!d.isS || !(r == .laneid || r == .quadid))
  | .fadd _ _ o | .fmul _ _ o | .fscale _ _ o => o.wf true true false false false
  | .fmin o | .fmax o => o.wf true true false false false
  | .fma _ _ o => o.wf false true false false false false
  | .fset _ _ d a b =>
      !a.isImm &&
      match d with
      | .r r => scalarRule r [a, b]
      | .p _ => true
  | .fclass _ o | .frnd _ o => o.wf false true false false
  | .pkadd _ _ _ o | .pkmul _ _ _ o | .pkmm _ _ o | .fdiv _ _ o => o.wf true false false false false
  | .pkfma _ _ _ o | .fdp2 _ _ _ o => o.wf false false false false false false
  | .frcp o | .frsq o | .fsqrt _ o | .fex2 o | .flg2 o | .fsin o | .fcos o | .ftanh o => o.wf false false false false
  | .tbl _ _ _ b => sPair b
  | .tbld _ _ a => sPair a
  | .cvt dst src el pos r sr _ _ d a =>
      el.toNat < src.count && pos.toNat < dst.count &&
      (dst.bits < 64 || d.pairOk) && (src.bits < 64 || a.pairOk) &&
      (!d.isS || a.isS) &&
      (!sr || (r == .mode 0 && !d.isS && src.isFloat && dst.srDest))
  | .cvtq _ _ scale sr r _ pos _ _ _ =>
      (!sr || (r == .mode 0 && !scale)) && (!scale || pos == 0)
  | .cvtd f _ _ _ half _ _ _ _ => !(f == .f32) || !half
  | .xlane _ _ b _ d a k sc =>
      (!b || (Reg.pairOk (.v d) && Reg.pairOk (.v a))) && scopeOk sc &&
      match k with
      | .imm x => x.toNat ≤ 63 && sc == none
      | _ => true
  | .qx _ b _ d a => !b || (Reg.pairOk (.v d) && Reg.pairOk (.v a))
  | .vote _ _ _ _ sc => scopeOk sc
  | .ballot _ d _ sc => d.pairOk && scopeOk sc && (!d.isS || sc == none)
  | .matchLanes b _ d a => Reg.pairOk (.v d) && (!b || Reg.pairOk (.v a))
  | .redux op t r _ d _ sc =>
      scopeOk sc && (!d.isS || sc == none) &&
      (!(t == .f32) || (op == .add || op == .min || op == .max)) && (t == .f32 || r == .mode 0)
  | .v2s b _ d a idx =>
      (!b || (sPair d && Reg.pairOk (.v a))) &&
      match idx with
      | some (.imm x) => x.toNat ≤ 255
      | some (.v _) => false
      | _ => true
  | .mask k _ d j =>
      d.pairOk && (d.isS == !(k == .lt)) && (k == .jmask || k == .jpc || j == 0)
  | .brx _ t => t.pairOk
  | .call _ _ sp => sPair sp
  | .callx _ t sp => t.pairOk && sPair sp
  | .ret _ sp => sPair sp
  | .yield imm n => imm || n == 0
  | .nap t => !t.isV
  | .eret _ m =>
      match m with
      | .x va sm tg => Reg.pairOk (.v va) && sPair sm && sPair tg
      | _ => true
  | .ld w o _ _ d a => o.wf true false && w.regOk d && a.wf true d true
  | .st w o _ _ d a => o.wf false true && w.storeOk && w.regOk (.v d) && a.wf true (.v d) true
  | .lds w _ d a | .ldc w _ _ d a => w.regOk d && a.wf false d true
  | .sts w _ d a => w.storeOk && w.regOk (.v d) && a.wf false (.v d) true
  | .ldfe _ scr w o _ d a =>
      o.wf (!scr) false && w.feOk && w.regOk d && a.wf (!scr) d true
  | .stfe scr w o _ d a => o.wf false (!scr) && w.feOk && w.regOk (.v d) && a.wf (!scr) (.v d) true
  | .ldp _ a l | .stp _ a l => sPair a && !l.isV
  | .pref _ _ _ a => a.wf true (.v 0) true
  | .flushH _ a | .invalH _ a =>
      match a with
      | some m => m.wf true (.v 0) true
      | none => true
  | .atom op t o _ d a c =>
      o.wf true true && op.typeOk t && a.wf true d false && (!d.isS || c.isS) &&
      (!t.wide || (d.pairOk && c.pairOk))
  | .atomc w o _ d a b c =>
      o.wf true true && w.feOk && a.pairOk && w.regOk d && w.regOk b && w.regOk c &&
      (!d.isS || (a.isS && b.isS && c.isS))
  | .red op t o _ d a => o.wf false true && op.typeOk t && a.wf true (.v d) true && (!t.wide || Reg.pairOk (.v d))
  | .mcas o _ d a n =>
      o.wf true true && a.pairOk && (!d.isS || (a.isS && !n.isV)) &&
      match n with
      | .imm x => 1 ≤ x.toNat && x.toNat ≤ 8
      | _ => true
  | .fence o _ => o.acq || o.rel
  | .binit _ bar _ => bar.wf && !(bar.scope == .grd)
  | .arrive _ bar | .bdrop bar | .bsync bar => bar.wf
  | .mfmt _ _ a => sPairStrict a
  | .mzero s => slotNumOk s
  | .mma p | .mmap p => slotNumOk p.slot && sPairStrict p.a && sPairStrict p.b && sPairStrict p.c
  | .mdrn _ s a | .mlda s a => slotNumOk s && sPairStrict a
  | .mvec _ _ n d _ s => slotNumOk s && ((d.toNat == 255 && n == 0) || d.toNat + n.toNat ≤ 254)
  | .tcpy _ a | .gath _ a | .scat _ a | .fill _ a | .coll _ a => sPair a
  | .cbw w _ _ d _ b =>
      sPair d && w.storeOk &&
      match w with
      | .b64 => sPair b
      | .b128 => Reg.quadOk (.s b)
      | _ => true
  | .cbc b64 _ _ d _ b c => Reg.quadOk (.s d) && (!b64 || (sPair b && sPair c))
  | .cba b64 _ _ d _ b => Reg.quadOk (.s d) && (!b64 || sPair b)
  | .cld w _ d a => w.regOk d && a.wf false d true
  | .peal _ _ d => sPair d
  | .pfence _ a => sPair a
  | .launch _ _ _ a _ | .qpush _ _ _ a _ => sPair a
  | .cont _ a _ => a.toNat % 4 == 0 && a.toNat ≤ 252
  | .cbpt l _ _ d a b => !(l == 3) && sPair d && sPairStrict a && sPairStrict b
  | .pair s0 s1 => s0.wf && s1.wf && (pairRule s0 s1).isNone
  | .movh _ d _ => d.pairOk
  | .addi b _ d _ => !b || d.pairOk
  | .ldL w _ d base _ => sPair base && !(w == .b128) && w.regOk d
  | .stL w _ d base _ => sPair base && w.storeOk && !(w == .b128) && w.regOk d
  | _ => true

end Sys2Proof
end

