-- ==== Sys2Proof/Decode.lean ====
section
/-! DEFINITION. Decoding and encoding of the 64-bit instruction word: the F-form, P-form and X-form layouts
(R37, R46, R50), the opcode map (R45, R49, R51), each entry's fields, and the order of the checks of a word
(R52, R53). The decoder reads the fields, and accepts the word only when the term is well formed and encodes
back to exactly that word, so a nonzero unused field is refused (R43). -/

namespace Sys2Proof

/-- Why a word is no instruction (R52): a field failure of the word, a field failure of one slot of a pair,
or a rule of R48. -/
inductive DecodeError where
  | illegal
  | illegalSlot (slot : Nat)
  | illegalPair (rule : Nat)
deriving DecidableEq, Repr

/-- The fields of an F-form word (R37). -/
structure FWord where
  op : Nat
  pred : Nat := 7
  pneg : Nat := 0
  d : Nat := 0
  a : Nat := 0
  b : Nat := 0
  c : Nat := 0
  fn : Nat := 0
  md : Nat := 0
deriving DecidableEq, Repr

/-- The fields of an X-form word (R50). -/
structure XWord where
  op : Nat
  d : Nat := 0
  pred : Nat := 7
  pneg : Nat := 0
  fn : Nat := 0
  imm : Nat := 0
deriving DecidableEq, Repr

def FWord.toNat (f : FWord) : Nat :=
  f.op * 2 ^ 54 + f.pred * 2 ^ 51 + f.pneg * 2 ^ 50 + f.d * 2 ^ 42 + f.a * 2 ^ 34 + f.b * 2 ^ 26 +
  f.c * 2 ^ 18 + f.fn * 2 ^ 12 + f.md

def FWord.ofNat (w : Nat) : FWord where
  op := w / 2 ^ 54 % 256
  pred := w / 2 ^ 51 % 8
  pneg := w / 2 ^ 50 % 2
  d := w / 2 ^ 42 % 256
  a := w / 2 ^ 34 % 256
  b := w / 2 ^ 26 % 256
  c := w / 2 ^ 18 % 256
  fn := w / 2 ^ 12 % 64
  md := w % 4096

def XWord.toNat (x : XWord) : Nat :=
  2 * 2 ^ 62 + x.op * 2 ^ 56 + x.d * 2 ^ 48 + x.pred * 2 ^ 45 + x.pneg * 2 ^ 44 + x.fn * 2 ^ 32 + x.imm

def XWord.ofNat (w : Nat) : XWord where
  op := w / 2 ^ 56 % 64
  d := w / 2 ^ 48 % 256
  pred := w / 2 ^ 45 % 8
  pneg := w / 2 ^ 44 % 2
  fn := w / 2 ^ 32 % 4096
  imm := w % 2 ^ 32

/-! ## Codes of the enumerated fields -/

def ITy.code : ITy → Nat
  | .s32 => 0 | .n32 => 1 | .s64 => 2 | .n64 => 3

def ITy.ofCode : Nat → ITy
  | 0 => .s32 | 1 => .n32 | 2 => .s64 | _ => .n64

def Cc.code : Cc → Nat
  | .eq => 0 | .ne => 1 | .lt => 2 | .le => 3 | .gt => 4 | .ge => 5

def Cc.ofCode : Nat → Option Cc
  | 0 => some .eq | 1 => some .ne | 2 => some .lt | 3 => some .le | 4 => some .gt | 5 => some .ge | _ => none

def FCc.code : FCc → Nat
  | .eq => 0 | .ne => 1 | .lt => 2 | .le => 3 | .gt => 4 | .ge => 5 | .num => 6 | .nan => 7

def FCc.ofCode : Nat → FCc
  | 0 => .eq | 1 => .ne | 2 => .lt | 3 => .le | 4 => .gt | 5 => .ge | 6 => .num | _ => .nan

def RndSel.code : RndSel → Nat
  | .mode k => k.toNat | .rn => 4 | .rz => 5 | .rp => 6 | .rm => 7

def RndSel.ofCode (n : Nat) : RndSel :=
  if n < 4 then .mode (BitVec.ofNat 2 n) else if n = 4 then .rn else if n = 5 then .rz else if n = 6 then .rp else .rm

def SReg.code : SReg → Nat
  | .laneid => 0 | .quadid => 1 | .groupid => 2 | .blockidX => 3 | .blockidY => 4 | .blockidZ => 5
  | .clusterid => 6 | .timebase => 8 | .timebaseHi => 9 | .peal => 10 | .pealHi => 11 | .fragmask => 12
  | .fragmaskHi => 13

def SReg.ofCode : Nat → Option SReg
  | 0 => some .laneid | 1 => some .quadid | 2 => some .groupid | 3 => some .blockidX | 4 => some .blockidY
  | 5 => some .blockidZ | 6 => some .clusterid | 8 => some .timebase | 9 => some .timebaseHi
  | 10 => some .peal | 11 => some .pealHi | 12 => some .fragmask | 13 => some .fragmaskHi | _ => none

def Csr.code : Csr → Nat
  | .fpMode => 0x000 | .fpFlags => 0x001 | .fpSeed => 0x002 | .ctxId => 0x100 | .spLimit => 0x101
  | .spCount => 0x102 | .spLast => 0x103 | .preempt => 0x104 | .sysfence => 0x105 | .tblState => 0x200

def Csr.ofCode (n : Nat) : Option Csr :=
  if n = 0x000 then some .fpMode else if n = 0x001 then some .fpFlags else if n = 0x002 then some .fpSeed
  else if n = 0x100 then some .ctxId else if n = 0x101 then some .spLimit else if n = 0x102 then some .spCount
  else if n = 0x103 then some .spLast else if n = 0x104 then some .preempt else if n = 0x105 then some .sysfence
  else if n = 0x200 then some .tblState else none

def F3.code : F3 → Nat
  | .f32 => 0 | .f16 => 1 | .bf16 => 2

def F3.ofCode : Nat → Option F3
  | 0 => some .f32 | 1 => some .f16 | 2 => some .bf16 | _ => none

def CTy.code : CTy → Nat
  | .f32 => 0 | .f16 => 1 | .bf16 => 2 | .e4m3 => 3 | .e5m2 => 4 | .s4 => 5 | .n4 => 6 | .s8 => 8 | .n8 => 9
  | .s16 => 10 | .n16 => 11 | .s32 => 12 | .n32 => 13 | .s64 => 14 | .n64 => 15

def CTy.ofCode : Nat → Option CTy
  | 0 => some .f32 | 1 => some .f16 | 2 => some .bf16 | 3 => some .e4m3 | 4 => some .e5m2 | 5 => some .s4
  | 6 => some .n4 | 8 => some .s8 | 9 => some .n8 | 10 => some .s16 | 11 => some .n16 | 12 => some .s32
  | 13 => some .n32 | 14 => some .s64 | 15 => some .n64 | _ => none

def BTy.code : BTy → Nat
  | .int => 0 | .e2m1 => 1 | .pow2 => 2 | .hyb => 3

def BTy.ofCode : Nat → BTy
  | 0 => .int | 1 => .e2m1 | 2 => .pow2 | _ => .hyb

def XMode.code : XMode → Nat
  | .at => 0 | .back => 1 | .fwd => 2 | .flip => 3

def XMode.ofCode : Nat → XMode
  | 0 => .at | 1 => .back | 2 => .fwd | _ => .flip

def QDir.code : QDir → Nat
  | .h => 1 | .v => 2 | .d => 3

def QDir.ofCode : Nat → Option QDir
  | 1 => some .h | 2 => some .v | 3 => some .d | _ => none

def VoteOp.code : VoteOp → Nat
  | .all => 0 | .any => 1 | .uni => 2

def VoteOp.ofCode : Nat → Option VoteOp
  | 0 => some .all | 1 => some .any | 2 => some .uni | _ => none

def RedOp.code : RedOp → Nat
  | .add => 0 | .min => 1 | .max => 2 | .and => 3 | .or => 4 | .xor => 5

def RedOp.ofCode : Nat → Option RedOp
  | 0 => some .add | 1 => some .min | 2 => some .max | 3 => some .and | 4 => some .or | 5 => some .xor | _ => none

def RedTy.code : RedTy → Nat
  | .s32 => 0 | .n32 => 1 | .f32 => 2

def RedTy.ofCode : Nat → Option RedTy
  | 0 => some .s32 | 1 => some .n32 | 2 => some .f32 | _ => none

def MaskKind.code : MaskKind → Nat
  | .frag => 0 | .live => 1 | .helper => 2 | .lt => 3 | .jmask => 4 | .jpc => 5

def MaskKind.ofCode : Nat → Option MaskKind
  | 0 => some .frag | 1 => some .live | 2 => some .helper | 3 => some .lt | 4 => some .jmask | 5 => some .jpc
  | _ => none

def Width.code : Width → Nat
  | .n8 => 0 | .s8 => 1 | .n16 => 2 | .s16 => 3 | .b32 => 4 | .b64 => 5 | .b128 => 6

def Width.ofCode : Nat → Option Width
  | 0 => some .n8 | 1 => some .s8 | 2 => some .n16 | 3 => some .s16 | 4 => some .b32 | 5 => some .b64
  | 6 => some .b128 | _ => none

def Scope.code : Scope → Nat
  | .grp => 0 | .blk => 1 | .cls => 2 | .pkg => 3 | .pod => 4 | .sys => 5

def Scope.ofCode : Nat → Option Scope
  | 0 => some .grp | 1 => some .blk | 2 => some .cls | 3 => some .pkg | 4 => some .pod | 5 => some .sys | _ => none

def AOp.code : AOp → Nat
  | .add => 0 | .min => 1 | .max => 2 | .and => 3 | .or => 4 | .xor => 5 | .exch => 6

def AOp.ofCode : Nat → Option AOp
  | 0 => some .add | 1 => some .min | 2 => some .max | 3 => some .and | 4 => some .or | 5 => some .xor
  | 6 => some .exch | _ => none

/-- fn[4:3] and md[11:10] of an atomic type (R244). -/
def ATy.code : ATy → Nat × Nat
  | .s32 => (0, 0) | .n32 => (1, 0) | .s64 => (2, 0) | .n64 => (3, 0) | .f32 => (0, 1) | .bf16x2 => (0, 2)

def ATy.ofCode (t k : Nat) : Option ATy :=
  match k, t with
  | 0, 0 => some .s32 | 0, 1 => some .n32 | 0, 2 => some .s64 | 0, 3 => some .n64
  | 1, 0 => some .f32 | 2, 0 => some .bf16x2 | _, _ => none

def BScope.code : BScope → Nat
  | .blk => 0 | .cls => 1 | .grd => 2

def BScope.ofCode : Nat → Option BScope
  | 0 => some .blk | 1 => some .cls | 2 => some .grd | _ => none

def Bar.code (b : Bar) : Nat := b.scope.code * 64 + b.idx

def Bar.ofCode (n : Nat) : Option Bar := (BScope.ofCode (n / 64)).map (fun sc => ⟨sc, n % 64⟩)

/-! ## Field readers and writers -/

def Bool.bit (b : Bool) (k : Nat) : Nat := if b then 2 ^ k else 0

def FWord.g (f : FWord) : Guard := ⟨BitVec.ofNat 3 f.pred, f.pneg == 1⟩
def FWord.fnBit (f : FWord) (k : Nat) : Bool := f.fn / 2 ^ k % 2 == 1
def FWord.mdBit (f : FWord) (k : Nat) : Bool := f.md / 2 ^ k % 2 == 1
def FWord.imm16 (f : FWord) : Nat := f.b * 256 + f.c
def FWord.off24 (f : FWord) : Nat := f.a * 65536 + f.b * 256 + f.c

/-- A register field under its select bit (R38, R39). -/
def mkReg (scalar : Bool) (n : Nat) : Reg := if scalar then .s (BitVec.ofNat 6 n) else .v (BitVec.ofNat 8 n)

def Reg.num : Reg → Nat
  | .v n => n.toNat
  | .s n => n.toNat

def Reg.src : Reg → Src
  | .v n => .v n
  | .s n => .s n

def FWord.rd (f : FWord) : Reg := mkReg (f.mdBit 3) f.d
def FWord.ra (f : FWord) : Reg := mkReg (f.mdBit 0) f.a
def FWord.rb (f : FWord) : Reg := mkReg (f.mdBit 1) f.b
def FWord.rc (f : FWord) : Reg := mkReg (f.mdBit 2) f.c

/-- Source b: the immediate when fn[5] = 1 (R40). -/
def FWord.sb (f : FWord) : Src := if f.fnBit 5 then .imm (BitVec.ofNat 16 f.imm16) else f.rb.src
def FWord.sc (f : FWord) : Src := if f.fnBit 5 then .imm 0 else f.rc.src
def FWord.op1 (f : FWord) : Op1 := ⟨f.g, f.rd, f.ra.src⟩
/-- `MOV` takes its immediate in place of source a (R164). -/
def FWord.op1i (f : FWord) : Op1 := ⟨f.g, f.rd, if f.fnBit 5 then f.sb else f.ra.src⟩
def FWord.op2 (f : FWord) : Op2 := ⟨f.g, f.rd, f.ra.src, f.sb⟩
def FWord.op3 (f : FWord) : Op3 := ⟨f.g, f.rd, f.ra.src, f.sb, f.sc⟩
def FWord.maddr (f : FWord) : MAddr := ⟨f.ra, f.sb⟩
def FWord.rnd (f : FWord) : RndSel := RndSel.ofCode (f.md / 32 % 8)
def FWord.sat (f : FWord) : Bool := f.mdBit 8
def FWord.order (f : FWord) : Option Order :=
  (Scope.ofCode (f.md / 16 % 8)).map (fun sc => ⟨f.mdBit 7, f.mdBit 8, sc⟩)
def FWord.cmpDst (f : FWord) : CmpDst := if f.mdBit 4 then .p (BitVec.ofNat 3 f.d) else .r f.rd
def FWord.scope (f : FWord) : Option (BitVec 8) := if f.mdBit 4 then some (BitVec.ofNat 8 f.c) else none
def FWord.pass (f : FWord) : PassArgs :=
  ⟨BitVec.ofNat 3 f.d, BitVec.ofNat 6 f.a, BitVec.ofNat 6 f.b, BitVec.ofNat 6 f.c,
   BitVec.ofNat 3 (f.md / 16 % 8), f.mdBit 7⟩

/-- A register source a, b or c: its number and its select bit. -/
def Src.num : Src → Nat
  | .v n => n.toNat
  | .s n => n.toNat
  | .imm x => x.toNat

def Src.sel (x : Src) (k : Nat) : Nat := Bool.bit x.isS k
def Reg.sel (x : Reg) (k : Nat) : Nat := Bool.bit x.isS k

def Src.bField : Src → Nat
  | .imm x => x.toNat / 256
  | x => x.num

def Src.cField (b : Src) (c : Nat) : Nat :=
  match b with
  | .imm x => x.toNat % 256
  | _ => c

/-- A guarded word with no operands yet. -/
def fw (op : Nat) (g : Guard) : FWord := { op := op, pred := g.pred.toNat, pneg := Bool.bit g.neg 0 }

def enc1 (op : Nat) (o : Op1) (fn md : Nat) : FWord :=
  { fw op o.g with d := o.d.num, a := if o.a.isImm then 0 else o.a.num, b := if o.a.isImm then o.a.bField else 0,
                   c := o.a.cField 0, fn := fn + Bool.bit o.a.isImm 5, md := md + o.a.sel 0 + o.d.sel 3 }

def enc2 (op : Nat) (o : Op2) (fn md : Nat) : FWord :=
  { fw op o.g with d := o.d.num, a := o.a.num, b := o.b.bField, c := o.b.cField 0,
                   fn := fn + Bool.bit o.b.isImm 5, md := md + o.a.sel 0 + o.b.sel 1 + o.d.sel 3 }

def enc3 (op : Nat) (o : Op3) (fn md : Nat) : FWord :=
  { fw op o.g with d := o.d.num, a := o.a.num, b := o.b.bField, c := o.b.cField o.c.num,
                   fn := fn + Bool.bit o.b.isImm 5, md := md + o.a.sel 0 + o.b.sel 1 + o.c.sel 2 + o.d.sel 3 }

def Order.bits (o : Order) : Nat := o.scope.code * 16 + Bool.bit o.acq 7 + Bool.bit o.rel 8

/-- A memory word: data or destination d, base a, offset b (R230). -/
def encM (op : Nat) (g : Guard) (d : Reg) (m : MAddr) (fn md : Nat) : FWord :=
  { fw op g with d := d.num, a := m.base.num, b := m.off.bField, c := m.off.cField 0,
                 fn := fn + Bool.bit m.off.isImm 5, md := md + m.base.sel 0 + m.off.sel 1 + d.sel 3 }

def CmpDst.num : CmpDst → Nat
  | .r d => d.num
  | .p n => n.toNat

def CmpDst.md : CmpDst → Nat
  | .r d => d.sel 3
  | .p _ => 16

def fpMd (r : RndSel) (sat : Bool) : Nat := r.code * 32 + Bool.bit sat 8

def encScope (sc : Option (BitVec 8)) : Nat × Nat :=
  match sc with
  | none => (0, 0)
  | some n => (n.toNat, 16)

def encPass (op : Nat) (p : PassArgs) : FWord :=
  { op := op, d := p.slot.toNat, a := p.a.toNat, b := p.b.toNat, c := p.c.toNat,
    md := 7 + p.mf.toNat * 16 + Bool.bit p.sat 7 }

/-! ## The encoder -/

/-- The F-form fields of an instruction, or `none` for a step that has no F-form word. -/
def encodeF : Instr → Option FWord
  | .nop g => some (fw 0x00 g)
  | .mov b o => some (enc1 0x01 o (Bool.bit b 0) 0)
  | .add t s o => some (enc2 0x02 o (t.code + Bool.bit s 2) 0)
  | .sub t s o => some (enc2 0x03 o (t.code + Bool.bit s 2) 0)
  | .mul t s o => some (enc2 0x04 o (t.code + Bool.bit s 2) 0)
  | .mulh t w o => some (enc2 0x05 o (t.code + Bool.bit w 3) 0)
  | .mad t s w o => some (enc3 0x06 o (t.code + Bool.bit s 2 + Bool.bit w 3) 0)
  | .div t r o => some (enc2 0x07 o (t.code + Bool.bit r 2) 0)
  | .min t o => some (enc2 0x08 o t.code 0)
  | .max t o => some (enc2 0x09 o t.code 0)
  | .abs b s o => some (enc1 0x0A o (Bool.bit b 1 + Bool.bit s 2) 0)
  | .and b o => some (enc2 0x0B o (Bool.bit b 0) 0)
  | .or b o => some (enc2 0x0C o (Bool.bit b 0) 0)
  | .xor b o => some (enc2 0x0D o (Bool.bit b 0) 0)
  | .bool3 b lut o => some (enc3 0x0E o (Bool.bit b 0) (lut.toNat * 16))
  | .shl w b o => some (enc2 0x0F o (Bool.bit b 0 + Bool.bit w 1) 0)
  | .shr w b o => some (enc2 0x10 o (Bool.bit b 0 + Bool.bit w 1) 0)
  | .sar w b o => some (enc2 0x11 o (Bool.bit b 0 + Bool.bit w 1) 0)
  | .xtr sh o => some (enc3 0x12 o (Bool.bit sh 0) 0)
  | .popc b o => some (enc1 0x13 o (Bool.bit b 0) 0)
  | .clz b o => some (enc1 0x14 o (Bool.bit b 0) 0)
  | .brev b o => some (enc1 0x15 o (Bool.bit b 0) 0)
  | .bfx s b o => some (enc2 0x16 o (Bool.bit s 0 + Bool.bit b 1) 0)
  | .bfi b o => some (enc2 0x17 o (Bool.bit b 1) 0)
  | .iset cc t g d a b =>
      let f := enc2 0x18 ⟨g, .v 0, a, b⟩ (t.code + cc.code * 4) d.md
      some { f with d := d.num }
  | .sel b p k o => some (enc2 0x19 o (Bool.bit b 0) (p.toNat * 16 + Bool.bit k 7))
  | .lea n sh o => some (enc2 0x1A o (Bool.bit n 0) (sh.toNat * 16))
  | .bytsel o => some (enc3 0x1B o 0 0)
  | .idp4 as bs s x o => some (enc3 0x1C o (Bool.bit as 0 + Bool.bit bs 1 + Bool.bit s 2 + Bool.bit x 3) 0)
  | .pmov g k =>
      match k with
      | .tov d p => some { fw 0x1D g with d := d.toNat, a := p.toNat, fn := 0 }
      | .fromv p a => some { fw 0x1D g with d := p.toNat, a := a.toNat, fn := 1 }
      | .tos d p => some { fw 0x1D g with d := d.toNat, a := p.toNat, fn := 2, md := 8 }
      | .froms p a => some { fw 0x1D g with d := p.toNat, a := a.toNat, fn := 3, md := 1 }
      | .lop d a b c lut =>
          some { fw 0x1D g with d := d.toNat, a := a.toNat, b := b.toNat, c := c.toNat, fn := 4, md := lut.toNat * 16 }
  | .rds b g d r => some { fw 0x1E g with d := d.num, c := r.code, fn := 32 + Bool.bit b 0, md := d.sel 3 }
  | .fadd r s o => some (enc2 0x20 o 0 (fpMd r s))
  | .fmul r s o => some (enc2 0x21 o 0 (fpMd r s))
  | .fma r s o => some (enc3 0x22 o 0 (fpMd r s))
  | .fmin o => some (enc2 0x23 o 0 0)
  | .fmax o => some (enc2 0x24 o 0 0)
  | .fset cc g d a b =>
      let f := enc2 0x25 ⟨g, .v 0, a, b⟩ cc.code d.md
      some { f with d := d.num }
  | .fclass t o => some (enc1 0x26 o t.code 0)
  | .frnd r o => some (enc1 0x27 o 0 (fpMd r false))
  | .pkadd b r s o => some (enc2 0x28 o (Bool.bit b 0) (fpMd r s))
  | .pkmul b r s o => some (enc2 0x29 o (Bool.bit b 0) (fpMd r s))
  | .pkfma b r s o => some (enc3 0x2A o (Bool.bit b 0) (fpMd r s))
  | .pkmm b m o => some (enc2 0x2B o (Bool.bit b 0 + Bool.bit m 1) 0)
  | .fdp2 b r s o => some (enc3 0x2C o (Bool.bit b 0) (fpMd r s))
  | .fscale r s o => some (enc2 0x2D o 0 (fpMd r s))
  | .frcp o => some (enc1 0x2E o 0 0)
  | .frsq o => some (enc1 0x2F o 0 0)
  | .fsqrt r o => some (enc1 0x30 o 0 (fpMd r false))
  | .fex2 o => some (enc1 0x31 o 0 0)
  | .flg2 o => some (enc1 0x32 o 0 0)
  | .fsin o => some (enc1 0x33 o 0 0)
  | .fcos o => some (enc1 0x34 o 0 0)
  | .ftanh o => some (enc1 0x35 o 0 0)
  | .fdiv r s o => some (enc2 0x36 o 0 (fpMd r s))
  | .tbl g d a b => some { fw 0x37 g with d := d.toNat, a := a.toNat, b := b.toNat, md := 2 }
  | .tbld g d a => some { fw 0x38 g with d := d.toNat, a := a.toNat, md := 9 }
  | .cvt dst src el pos r sr s g d a =>
      some { fw 0x39 g with d := d.num, a := a.num, b := dst.code * 16 + src.code, c := el.toNat + pos.toNat * 8,
                            fn := Bool.bit sr 0, md := fpMd r s + a.sel 0 + d.sel 3 }
  | .cvtq t l sc sr r s pos g d a =>
      some { fw 0x3A g with d := d.toNat, a := a.toNat, c := pos.toNat, md := fpMd r s,
                            fn := t.code + Bool.bit l 2 + Bool.bit sc 3 + Bool.bit sr 4 }
  | .cvtd t r s el h g d a b =>
      some { fw 0x3B g with d := d.toNat, a := a.toNat, b := b.num, c := el.toNat + Bool.bit h 3, fn := t.code,
                            md := fpMd r s + b.sel 1 }
  | .xlane m w b g d a k sc =>
      some { fw 0x40 g with d := d.toNat, a := a.toNat, b := k.bField, c := k.cField (encScope sc).1,
                            fn := m.code + Bool.bit b 2 + Bool.bit w 3 + Bool.bit k.isImm 5,
                            md := k.sel 1 + (encScope sc).2 }
  | .qx dir b g d a => some { fw 0x41 g with d := d.toNat, a := a.toNat, fn := dir.code + Bool.bit b 2 }
  | .vote v g d a sc =>
      some { fw 0x42 g with d := d.toNat, a := a.toNat, c := (encScope sc).1, fn := v.code, md := (encScope sc).2 }
  | .ballot g d a sc =>
      some { fw 0x43 g with d := d.num, a := a.toNat, c := (encScope sc).1, md := d.sel 3 + (encScope sc).2 }
  | .matchLanes b g d a => some { fw 0x44 g with d := d.toNat, a := a.toNat, fn := Bool.bit b 2 }
  | .redux p t r g d a sc =>
      some { fw 0x45 g with d := d.num, a := a.toNat, c := (encScope sc).1, fn := p.code + t.code * 8,
                            md := d.sel 3 + (encScope sc).2 + r.code * 32 }
  | .v2s b g d a idx =>
      match idx with
      | none => some { fw 0x46 g with d := d.toNat, a := a.toNat, fn := 1 + Bool.bit b 1, md := 8 }
      | some k => some { fw 0x46 g with d := d.toNat, a := a.toNat, b := k.bField, c := k.cField 0,
                                        fn := Bool.bit b 1 + Bool.bit k.isImm 5, md := 8 + k.sel 1 }
  | .mask k g d j => some { fw 0x47 g with d := d.num, a := j.toNat, fn := k.code, md := d.sel 3 }
  | .bra g o => some { fw 0x50 g with a := o.toNat / 65536, b := o.toNat / 256 % 256, c := o.toNat % 256 }
  | .brx g t => some { fw 0x51 g with a := t.num, md := t.sel 0 }
  | .call g o sp =>
      some { fw 0x52 g with a := o.toNat / 65536, b := o.toNat / 256 % 256, c := o.toNat % 256, md := sp.toNat * 16 }
  | .callx g t sp => some { fw 0x53 g with a := t.num, b := sp.toNat, md := t.sel 0 + 2 }
  | .ret g sp => some { fw 0x54 g with a := sp.toNat, md := 1 }
  | .enrol g j o => some { fw 0x55 g with d := j.toNat, b := o.toNat / 256, c := o.toNat % 256, fn := 32 }
  | .rejoin j => some { op := 0x56, d := j.toNat }
  | .strike g j => some { fw 0x57 g with d := j.toNat }
  | .exit g => some (fw 0x58 g)
  | .wait l s c m b => some { op := 0x59, d := l.toNat, a := s.toNat, b := c.toNat, c := m.toNat, md := b.toNat * 16 }
  | .yield i n => some { op := 0x5A, c := n.toNat, fn := Bool.bit i 5 }
  | .safept i => some { op := 0x5B, b := i.toNat / 256, c := i.toNat % 256, fn := 32 }
  | .brk g k => some { fw 0x5C g with b := k.toNat / 256, c := k.toNat % 256, fn := 32 }
  | .nap t =>
      match t with
      | .imm x => some { op := 0x5D, b := x.toNat / 256, c := x.toNat % 256, fn := 32 }
      | x => some { op := 0x5D, a := x.num, md := 1 }
  | .trap g k => some { fw 0x5E g with b := k.toNat / 256, c := k.toNat % 256, fn := 32 }
  | .eret k m =>
      match m with
      | .retry => some { op := 0x5F, fn := Bool.bit k 2 }
      | .next => some { op := 0x5F, fn := 1 + Bool.bit k 2 }
      | .x va sm tg => some { op := 0x5F, a := va.toNat, b := sm.toNat, c := tg.toNat, fn := 2 + Bool.bit k 2, md := 6 }
  | .ld w o e g d a => some (encM 0x60 g d a w.code (o.bits + Bool.bit e 9))
  | .st w o e g d a => some (encM 0x61 g (.v d) a w.code (o.bits + Bool.bit e 9))
  | .lds w g d a => some (encM 0x62 g d a w.code 0)
  | .sts w g d a => some (encM 0x63 g (.v d) a w.code 0)
  | .ldc w k g d a => some (encM 0x64 g d a w.code (k.toNat * 16))
  | .ldfe k sc w o g d a => some (encM 0x65 g d a (w.code + Bool.bit k 3 + Bool.bit sc 4) o.bits)
  | .stfe sc w o g d a => some (encM 0x66 g (.v d) a (w.code + Bool.bit sc 4) o.bits)
  | .ldp g a l => some (encM 0x67 g (.v 0) ⟨.s a, l⟩ 0 0)
  | .stp g a l => some (encM 0x68 g (.v 0) ⟨.s a, l⟩ 0 0)
  | .pref l w g a => some (encM 0x69 g (.v 0) a (Bool.bit l 0 + Bool.bit w 1) 0)
  | .flushH g a =>
      match a with
      | none => some { fw 0x6A g with fn := 1 }
      | some m => some (encM 0x6A g (.v 0) m 0 0)
  | .invalH g a =>
      match a with
      | none => some { fw 0x6B g with fn := 1 }
      | some m => some (encM 0x6B g (.v 0) m 0 0)
  | .atom p t o g d a c =>
      let f := encM 0x6C g d a (p.code + t.code.1 * 8) (o.bits + t.code.2 * 1024 + c.sel 2)
      some { f with c := c.num }
  | .atomc w o g d a b c =>
      some { fw 0x6D g with d := d.num, a := a.num, b := b.num, c := c.num, fn := w.code - 4,
                            md := o.bits + a.sel 0 + b.sel 1 + c.sel 2 + d.sel 3 }
  | .red p t o g d a => some (encM 0x6E g (.v d) a (p.code + t.code.1 * 8) (o.bits + t.code.2 * 1024))
  | .mcas o g d a n => some (encM 0x6F g d ⟨a, n⟩ 0 o.bits)
  | .fence o g => some { fw 0x70 g with md := o.bits }
  | .binit d r a => some { op := 0x80, d := d.toNat, a := a.toNat, b := r.code, md := 9 }
  | .arrive d r => some { op := 0x81, d := d.toNat, b := r.code, md := 8 }
  | .bwait a => some { op := 0x82, a := a.toNat, md := 1 }
  | .bdrop r => some { op := 0x83, b := r.code }
  | .bsync r => some { op := 0x84, b := r.code }
  | .btest d a => some { op := 0x85, d := d.toNat, a := a.toNat, md := 9 }
  | .mfmt d m a => some { op := 0x88, d := d.toNat, a := a.toNat, b := m.toNat, md := 9 }
  | .mzero s => some { op := 0x89, d := s.toNat }
  | .mma p => some (encPass 0x8A p)
  | .mmap p => some (encPass 0x8B p)
  | .mdrn z s a => some { op := 0x8C, d := s.toNat, a := a.toNat, md := 1 + Bool.bit z 4 }
  | .mlda s a => some { op := 0x8D, d := s.toNat, a := a.toNat, md := 1 }
  | .mvec w t n d b s =>
      some { op := 0x8E, d := d.toNat, b := b.toNat, c := s.toNat, fn := Bool.bit w 0 + Bool.bit t 1 + n.toNat * 4, md := 2 }
  | .tcpy g a => some { fw 0xA0 g with a := a.toNat, md := 1 }
  | .gath g a => some { fw 0xA1 g with a := a.toNat, md := 1 }
  | .scat g a => some { fw 0xA2 g with a := a.toNat, md := 1 }
  | .fill g a => some { fw 0xA3 g with a := a.toNat, md := 1 }
  | .coll g a => some { fw 0xA4 g with a := a.toNat, md := 1 }
  | .cbw w r g d a b =>
      some { fw 0xB0 g with d := d.toNat, a := a.toNat, b := b.toNat, fn := w.code, md := 11 + Bool.bit r 4 }
  | .cbc q r g d a b c =>
      some { fw 0xB1 g with d := d.toNat, a := a.toNat, b := b.toNat, c := c.toNat, fn := 4 + Bool.bit q 0,
                            md := 15 + Bool.bit r 4 }
  | .cba q r g d a b =>
      some { fw 0xB2 g with d := d.toNat, a := a.toNat, b := b.toNat, fn := 4 + Bool.bit q 0, md := 11 + Bool.bit r 4 }
  | .cld w g d a => some (encM 0xB3 g d a w.code 0)
  | .peal r g d => some { fw 0xB4 g with d := d.toNat, fn := Bool.bit r 0, md := 8 }
  | .pfence g a => some { fw 0xB5 g with a := a.toNat, md := 1 }
  | .launch w g d a b => some { fw 0xB6 g with d := d.toNat, a := a.toNat, b := b.toNat, fn := Bool.bit w 0, md := 11 }
  | .qpush w g d a b => some { fw 0xB7 g with d := d.toNat, a := a.toNat, b := b.toNat, fn := Bool.bit w 0, md := 11 }
  | .cont g a e => some { fw 0xB8 g with a := a.toNat, c := e.toNat, fn := 32 }
  | .cbpt l r g d a b =>
      some { fw 0xB9 g with d := d.toNat, a := a.toNat, b := b.toNat, fn := l.toNat, md := 11 + Bool.bit r 4 }
  | .csrr g d r => some { fw 0xC0 g with d := d.num, b := r.code / 256, c := r.code % 256, fn := 32, md := d.sel 3 }
  | .csrw g r a => some { fw 0xC1 g with a := a.toNat, b := r.code / 256, c := r.code % 256, fn := 32, md := 1 }
  | .csrx g d r a =>
      some { fw 0xC2 g with d := d.toNat, a := a.toNat, b := r.code / 256, c := r.code % 256, fn := 32, md := 9 }
  | _ => none

/-- An X-form word with its destination (R50). -/
def xw (op : Nat) (g : Guard) (d : Reg) (fn : Nat) (imm : Word) : XWord :=
  { op := op, d := d.num, pred := g.pred.toNat, pneg := Bool.bit g.neg 0, fn := fn + Bool.bit d.isS 11, imm := imm.toNat }

/-- The X-form fields of an instruction (R51). -/
def encodeX : Instr → Option XWord
  | .movi g d x => some (xw 0 g d 0 x)
  | .movh g d x => some (xw 1 g d 0 x)
  | .addi b g d x => some (xw 2 g d (Bool.bit b 0) x)
  | .fmovi g d x => some (xw 3 g d 0 x)
  | .braL g x => some (xw 4 g (.v 0) 0 x)
  | .callL g x => some (xw 5 g (.v 0) 0 x)
  | .ldL w g d b x => some (xw 6 g d (b.toNat + w.code * 64) x)
  | .stL w g d b x => some (xw 7 g d (b.toNat + w.code * 64) x)
  | _ => none

/-- Operation number and mod[4:0] of a slot (R49). -/
def POp.code : POp → Nat × Nat
  | .nop => (0x00, 0) | .mov => (0x01, 0) | .add => (0x02, 0) | .sub => (0x03, 0) | .mul => (0x04, 0)
  | .min n => (0x05, Bool.bit n 0) | .max n => (0x06, Bool.bit n 0)
  | .and => (0x07, 0) | .or => (0x08, 0) | .xor => (0x09, 0) | .shl => (0x0A, 0) | .shr => (0x0B, 0)
  | .sar => (0x0C, 0) | .abs => (0x0D, 0) | .popc => (0x0E, 0) | .clz => (0x0F, 0) | .brev => (0x10, 0)
  | .fadd r => (0x11, r.code) | .fmul r => (0x12, r.code) | .fmin => (0x13, 0) | .fmax => (0x14, 0)
  | .pkadd b r => (0x15, r.code + Bool.bit b 3) | .pkmul b r => (0x16, r.code + Bool.bit b 3)
  | .pkmm b m => (0x17, Bool.bit m 0 + Bool.bit b 3)
  | .frcp => (0x18, 0) | .frsq => (0x19, 0) | .fsqrt r => (0x1A, r.code) | .fex2 => (0x1B, 0)
  | .flg2 => (0x1C, 0) | .fsin => (0x1D, 0) | .fcos => (0x1E, 0) | .ftanh => (0x1F, 0)
  | .cvtF32Int n r => (0x20, r.code + Bool.bit n 3) | .cvtIntF32 n r => (0x21, r.code + Bool.bit n 3)
  | .cvtF32Half b h => (0x22, Bool.bit b 3 + Bool.bit h 4)
  | .iset cc n => (0x23, cc.code + Bool.bit n 3) | .fset cc => (0x24, cc.code)
  | .ld => (0x25, 0) | .st => (0x26, 0) | .lds => (0x27, 0) | .sts => (0x28, 0) | .ldc k => (0x29, k.toNat)
  | .rds _ => (0x2A, 0) | .add64 => (0x2B, 0)

/-- Field a of a slot: the special register's number for `RDS` (R49). -/
def PSlot.aField (p : PSlot) : Nat :=
  match p.op with
  | .rds r => r.code
  | _ => p.a.num

/-- The 31 bits of a slot (R46). -/
def PSlot.toNat (p : PSlot) : Nat :=
  p.op.code.1 * 2 ^ 25 + p.d.toNat * 2 ^ 17 + p.aField * 2 ^ 9 + p.pred.toNat * 2 ^ 6 + Bool.bit p.a.isS 5 + p.op.code.2

/-- The word of an instruction: `none` for commands, register writes and events, which have no word. -/
def encode (i : Instr) : Option Nat :=
  match i with
  | .pair s0 s1 => some (2 ^ 62 + s0.toNat * 2 ^ 31 + s1.toNat)
  | _ =>
    match encodeF i with
    | some f => some f.toNat
    | none => (encodeX i).map XWord.toNat

/-! ## The decoder -/

/-- `PMOV` by kind (R173). -/
def FWord.pmov (f : FWord) : Option Pmov :=
  match f.fn with
  | 0 => some (.tov (BitVec.ofNat 8 f.d) (BitVec.ofNat 3 f.a))
  | 1 => some (.fromv (BitVec.ofNat 3 f.d) (BitVec.ofNat 8 f.a))
  | 2 => some (.tos (BitVec.ofNat 6 f.d) (BitVec.ofNat 3 f.a))
  | 3 => some (.froms (BitVec.ofNat 3 f.d) (BitVec.ofNat 6 f.a))
  | 4 => some (.lop (BitVec.ofNat 3 f.d) (BitVec.ofNat 3 f.a) (BitVec.ofNat 3 f.b) (BitVec.ofNat 3 f.c)
                (BitVec.ofNat 8 (f.md / 16)))
  | _ => none

def FWord.eret (f : FWord) : Option EretMode :=
  match f.fn % 4 with
  | 0 => some .retry
  | 1 => some .next
  | 2 => some (.x (BitVec.ofNat 8 f.a) (BitVec.ofNat 6 f.b) (BitVec.ofNat 6 f.c))
  | _ => none

def FWord.ty (f : FWord) : ITy := ITy.ofCode (f.fn % 4)
def FWord.d6 (f : FWord) : BitVec 6 := BitVec.ofNat 6 f.d
def FWord.a6 (f : FWord) : BitVec 6 := BitVec.ofNat 6 f.a
def FWord.b6 (f : FWord) : BitVec 6 := BitVec.ofNat 6 f.b
def FWord.c6 (f : FWord) : BitVec 6 := BitVec.ofNat 6 f.c
def FWord.d3 (f : FWord) : BitVec 3 := BitVec.ofNat 3 f.d
def FWord.a3 (f : FWord) : BitVec 3 := BitVec.ofNat 3 f.a
def FWord.d8 (f : FWord) : BitVec 8 := BitVec.ofNat 8 f.d
def FWord.a8 (f : FWord) : BitVec 8 := BitVec.ofNat 8 f.a
def FWord.width (f : FWord) : Option Width := Width.ofCode (f.fn % 8)

/-- Integer words, majors 0x00 to 0x1E (R164). -/
def rawInt (f : FWord) : Option Instr :=
  match f.op with
  | 0x00 => some (.nop f.g)
  | 0x01 => some (.mov (f.fnBit 0) f.op1i)
  | 0x02 => some (.add f.ty (f.fnBit 2) f.op2)
  | 0x03 => some (.sub f.ty (f.fnBit 2) f.op2)
  | 0x04 => some (.mul f.ty (f.fnBit 2) f.op2)
  | 0x05 => some (.mulh f.ty (f.fnBit 3) f.op2)
  | 0x06 => some (.mad f.ty (f.fnBit 2) (f.fnBit 3) f.op3)
  | 0x07 => some (.div f.ty (f.fnBit 2) f.op2)
  | 0x08 => some (.min f.ty f.op2)
  | 0x09 => some (.max f.ty f.op2)
  | 0x0A => some (.abs (f.fnBit 1) (f.fnBit 2) f.op1)
  | 0x0B => some (.and (f.fnBit 0) f.op2)
  | 0x0C => some (.or (f.fnBit 0) f.op2)
  | 0x0D => some (.xor (f.fnBit 0) f.op2)
  | 0x0E => some (.bool3 (f.fnBit 0) (BitVec.ofNat 8 (f.md / 16)) f.op3)
  | 0x0F => some (.shl (f.fnBit 1) (f.fnBit 0) f.op2)
  | 0x10 => some (.shr (f.fnBit 1) (f.fnBit 0) f.op2)
  | 0x11 => some (.sar (f.fnBit 1) (f.fnBit 0) f.op2)
  | 0x12 => some (.xtr (f.fnBit 0) f.op3)
  | 0x13 => some (.popc (f.fnBit 0) f.op1)
  | 0x14 => some (.clz (f.fnBit 0) f.op1)
  | 0x15 => some (.brev (f.fnBit 0) f.op1)
  | 0x16 => some (.bfx (f.fnBit 0) (f.fnBit 1) f.op2)
  | 0x17 => some (.bfi (f.fnBit 1) f.op2)
  | 0x18 => (Cc.ofCode (f.fn / 4 % 8)).map (fun cc => .iset cc f.ty f.g f.cmpDst f.ra.src f.sb)
  | 0x19 => some (.sel (f.fnBit 0) (BitVec.ofNat 3 (f.md / 16 % 8)) (f.mdBit 7) f.op2)
  | 0x1A => some (.lea (f.fnBit 0) (BitVec.ofNat 4 (f.md / 16 % 16)) f.op2)
  | 0x1B => some (.bytsel f.op3)
  | 0x1C => some (.idp4 (f.fnBit 0) (f.fnBit 1) (f.fnBit 2) (f.fnBit 3) f.op3)
  | 0x1D => f.pmov.map (fun k => .pmov f.g k)
  | 0x1E => (SReg.ofCode f.imm16).map (fun r => .rds (f.fnBit 0) f.g f.rd r)
  | _ => none

/-- Floating-point words, majors 0x20 to 0x3B (R181, R190, R192, R193). -/
def rawFloat (f : FWord) : Option Instr :=
  match f.op with
  | 0x20 => some (.fadd f.rnd f.sat f.op2)
  | 0x21 => some (.fmul f.rnd f.sat f.op2)
  | 0x22 => some (.fma f.rnd f.sat f.op3)
  | 0x23 => some (.fmin f.op2)
  | 0x24 => some (.fmax f.op2)
  | 0x25 => some (.fset (FCc.ofCode (f.fn % 8)) f.g f.cmpDst f.ra.src f.sb)
  | 0x26 => (F3.ofCode (f.fn % 4)).map (fun t => .fclass t f.op1)
  | 0x27 => some (.frnd f.rnd f.op1)
  | 0x28 => some (.pkadd (f.fnBit 0) f.rnd f.sat f.op2)
  | 0x29 => some (.pkmul (f.fnBit 0) f.rnd f.sat f.op2)
  | 0x2A => some (.pkfma (f.fnBit 0) f.rnd f.sat f.op3)
  | 0x2B => some (.pkmm (f.fnBit 0) (f.fnBit 1) f.op2)
  | 0x2C => some (.fdp2 (f.fnBit 0) f.rnd f.sat f.op3)
  | 0x2D => some (.fscale f.rnd f.sat f.op2)
  | 0x2E => some (.frcp f.op1)
  | 0x2F => some (.frsq f.op1)
  | 0x30 => some (.fsqrt f.rnd f.op1)
  | 0x31 => some (.fex2 f.op1)
  | 0x32 => some (.flg2 f.op1)
  | 0x33 => some (.fsin f.op1)
  | 0x34 => some (.fcos f.op1)
  | 0x35 => some (.ftanh f.op1)
  | 0x36 => some (.fdiv f.rnd f.sat f.op2)
  | 0x37 => some (.tbl f.g f.d8 f.a8 f.b6)
  | 0x38 => some (.tbld f.g f.d6 f.a6)
  | 0x39 => do
      let dst ← CTy.ofCode (f.b / 16)
      let src ← CTy.ofCode (f.b % 16)
      some (.cvt dst src (BitVec.ofNat 3 (f.c % 8)) (BitVec.ofNat 3 (f.c / 8)) f.rnd (f.fnBit 0) f.sat f.g f.rd f.ra)
  | 0x3A => some (.cvtq (BTy.ofCode (f.fn % 4)) (f.fnBit 2) (f.fnBit 3) (f.fnBit 4) f.rnd f.sat
                  (BitVec.ofNat 3 f.c) f.g f.d8 f.a8)
  | 0x3B => (F3.ofCode (f.fn % 4)).map (fun t =>
      .cvtd t f.rnd f.sat (BitVec.ofNat 3 (f.c % 8)) (f.c / 8 % 2 == 1) f.g f.d8 f.a8 f.rb)
  | _ => none

/-- Lane-exchange and control-flow words, majors 0x40 to 0x5F (R143, R89, R330). -/
def rawGroup (f : FWord) : Option Instr :=
  match f.op with
  | 0x40 => some (.xlane (XMode.ofCode (f.fn % 4)) (f.fnBit 3) (f.fnBit 2) f.g f.d8 f.a8 f.sb f.scope)
  | 0x41 => (QDir.ofCode (f.fn % 4)).map (fun q => .qx q (f.fnBit 2) f.g f.d8 f.a8)
  | 0x42 => (VoteOp.ofCode (f.fn % 4)).map (fun v => .vote v f.g f.d3 f.a3 f.scope)
  | 0x43 => some (.ballot f.g f.rd f.a3 f.scope)
  | 0x44 => some (.matchLanes (f.fnBit 2) f.g f.d8 f.a8)
  | 0x45 => do
      let p ← RedOp.ofCode (f.fn % 8)
      let t ← RedTy.ofCode (f.fn / 8)
      some (.redux p t f.rnd f.g f.rd f.a8 f.scope)
  | 0x46 => some (.v2s (f.fnBit 1) f.g f.d6 f.a8 (if f.fnBit 0 then none else some (if f.fnBit 5 then f.sb else .s f.b6)))
  | 0x47 => (MaskKind.ofCode (f.fn % 8)).map (fun k => .mask k f.g f.rd f.a3)
  | 0x50 => some (.bra f.g (BitVec.ofNat 24 f.off24))
  | 0x51 => some (.brx f.g f.ra)
  | 0x52 => some (.call f.g (BitVec.ofNat 24 f.off24) (BitVec.ofNat 6 (f.md / 16)))
  | 0x53 => some (.callx f.g f.ra f.b6)
  | 0x54 => some (.ret f.g f.a6)
  | 0x55 => some (.enrol f.g f.d3 (BitVec.ofNat 16 f.imm16))
  | 0x56 => some (.rejoin f.d3)
  | 0x57 => some (.strike f.g f.d3)
  | 0x58 => some (.exit f.g)
  | 0x59 => some (.wait f.d6 f.a6 f.b6 f.c6 (BitVec.ofNat 6 (f.md / 16)))
  | 0x5A => some (.yield (f.fnBit 5) (BitVec.ofNat 8 f.c))
  | 0x5B => some (.safept (BitVec.ofNat 16 f.imm16))
  | 0x5C => some (.brk f.g (BitVec.ofNat 16 f.imm16))
  | 0x5D => some (.nap (if f.fnBit 5 then f.sb else .s f.a6))
  | 0x5E => some (.trap f.g (BitVec.ofNat 16 f.imm16))
  | 0x5F => f.eret.map (fun m => .eret (f.fnBit 2) m)
  | _ => none

/-- Memory words, majors 0x60 to 0x70 (R232, R263). -/
def rawMem (f : FWord) : Option Instr :=
  match f.op with
  | 0x60 => do some (.ld (← f.width) (← f.order) (f.mdBit 9) f.g f.rd f.maddr)
  | 0x61 => do some (.st (← f.width) (← f.order) (f.mdBit 9) f.g f.d8 f.maddr)
  | 0x62 => do some (.lds (← f.width) f.g f.rd f.maddr)
  | 0x63 => do some (.sts (← f.width) f.g f.d8 f.maddr)
  | 0x64 => do some (.ldc (← f.width) (BitVec.ofNat 3 (f.md / 16 % 8)) f.g f.rd f.maddr)
  | 0x65 => do some (.ldfe (f.fnBit 3) (f.fnBit 4) (← f.width) (← f.order) f.g f.rd f.maddr)
  | 0x66 => do some (.stfe (f.fnBit 4) (← f.width) (← f.order) f.g f.d8 f.maddr)
  | 0x67 => some (.ldp f.g f.a6 f.sb)
  | 0x68 => some (.stp f.g f.a6 f.sb)
  | 0x69 => some (.pref (f.fnBit 0) (f.fnBit 1) f.g f.maddr)
  | 0x6A => some (.flushH f.g (if f.fnBit 0 then none else some f.maddr))
  | 0x6B => some (.invalH f.g (if f.fnBit 0 then none else some f.maddr))
  | 0x6C => do
      some (.atom (← AOp.ofCode (f.fn % 8)) (← ATy.ofCode (f.fn / 8 % 4) (f.md / 1024)) (← f.order) f.g f.rd f.maddr f.rc)
  | 0x6D => do
      let w ← Width.ofCode (f.fn % 4 + 4)
      some (.atomc w (← f.order) f.g f.rd f.ra f.rb f.rc)
  | 0x6E => do
      some (.red (← AOp.ofCode (f.fn % 8)) (← ATy.ofCode (f.fn / 8 % 4) (f.md / 1024)) (← f.order) f.g f.d8 f.maddr)
  | 0x6F => do some (.mcas (← f.order) f.g f.rd f.ra f.sb)
  | 0x70 => do some (.fence (← f.order) f.g)
  | _ => none

/-- Barrier and matrix words, majors 0x80 to 0x8E (R207, R273). -/
def rawBarMat (f : FWord) : Option Instr :=
  match f.op with
  | 0x80 => (Bar.ofCode f.b).map (fun r => .binit f.d6 r f.a6)
  | 0x81 => (Bar.ofCode f.b).map (fun r => .arrive f.d6 r)
  | 0x82 => some (.bwait f.a6)
  | 0x83 => (Bar.ofCode f.b).map (fun r => .bdrop r)
  | 0x84 => (Bar.ofCode f.b).map (fun r => .bsync r)
  | 0x85 => some (.btest f.d6 f.a6)
  | 0x88 => some (.mfmt f.d6 (BitVec.ofNat 3 f.b) f.a6)
  | 0x89 => some (.mzero f.d3)
  | 0x8A => some (.mma f.pass)
  | 0x8B => some (.mmap f.pass)
  | 0x8C => some (.mdrn (f.mdBit 4) f.d3 f.a6)
  | 0x8D => some (.mlda f.d3 f.a6)
  | 0x8E => some (.mvec (f.fnBit 0) (f.fnBit 1) (BitVec.ofNat 3 (f.fn / 4)) f.d8 f.b6 (BitVec.ofNat 3 f.c))
  | _ => none

/-- Transfer, record, queue and context-register words, majors 0xA0 to 0xC2 (R298, R350, R121, R89). -/
def rawSys (f : FWord) : Option Instr :=
  match f.op with
  | 0xA0 => some (.tcpy f.g f.a6)
  | 0xA1 => some (.gath f.g f.a6)
  | 0xA2 => some (.scat f.g f.a6)
  | 0xA3 => some (.fill f.g f.a6)
  | 0xA4 => some (.coll f.g f.a6)
  | 0xB0 => do some (.cbw (← f.width) (f.mdBit 4) f.g f.d6 f.a6 f.b6)
  | 0xB1 => some (.cbc (f.fnBit 0) (f.mdBit 4) f.g f.d6 f.a6 f.b6 f.c6)
  | 0xB2 => some (.cba (f.fnBit 0) (f.mdBit 4) f.g f.d6 f.a6 f.b6)
  | 0xB3 => do some (.cld (← f.width) f.g f.rd f.maddr)
  | 0xB4 => some (.peal (f.fnBit 0) f.g f.d6)
  | 0xB5 => some (.pfence f.g f.a6)
  | 0xB6 => some (.launch (f.fnBit 0) f.g f.d6 f.a6 f.b6)
  | 0xB7 => some (.qpush (f.fnBit 0) f.g f.d6 f.a6 f.b6)
  | 0xB8 => some (.cont f.g f.a8 (BitVec.ofNat 8 f.c))
  | 0xB9 => some (.cbpt (BitVec.ofNat 2 f.fn) (f.mdBit 4) f.g f.d6 f.a6 f.b6)
  | 0xC0 => (Csr.ofCode f.imm16).map (fun r => .csrr f.g f.rd r)
  | 0xC1 => (Csr.ofCode f.imm16).map (fun r => .csrw f.g r f.a6)
  | 0xC2 => (Csr.ofCode f.imm16).map (fun r => .csrx f.g f.d6 r f.a6)
  | _ => none

/-- The F-form opcode map (R45), by rows. -/
def rawF (f : FWord) : Option Instr :=
  if f.op < 0x20 then rawInt f
  else if f.op < 0x40 then rawFloat f
  else if f.op < 0x60 then rawGroup f
  else if f.op < 0x80 then rawMem f
  else if f.op < 0x90 then rawBarMat f
  else rawSys f

/-- The X-form operations (R51). -/
def rawX (x : XWord) : Option Instr :=
  let g : Guard := ⟨BitVec.ofNat 3 x.pred, x.pneg == 1⟩
  let d := mkReg (x.fn / 2048 == 1) x.d
  let imm : Word := BitVec.ofNat 32 x.imm
  let base : BitVec 6 := BitVec.ofNat 6 (x.fn % 64)
  match x.op with
  | 0 => some (.movi g d imm)
  | 1 => some (.movh g d imm)
  | 2 => some (.addi (x.fn % 2 == 1) g d imm)
  | 3 => some (.fmovi g d imm)
  | 4 => some (.braL g imm)
  | 5 => some (.callL g imm)
  | 6 => (Width.ofCode (x.fn / 64 % 8)).map (fun w => .ldL w g d base imm)
  | 7 => (Width.ofCode (x.fn / 64 % 8)).map (fun w => .stL w g d base imm)
  | _ => none

/-- A slot's operation from its number and mod[4:0] (R49). -/
def POp.ofCode (op md a : Nat) : Option POp :=
  let r := RndSel.ofCode (md % 8)
  let b3 := md / 8 % 2 == 1
  match op with
  | 0x00 => some .nop | 0x01 => some .mov | 0x02 => some .add | 0x03 => some .sub | 0x04 => some .mul
  | 0x05 => some (.min (md % 2 == 1)) | 0x06 => some (.max (md % 2 == 1))
  | 0x07 => some .and | 0x08 => some .or | 0x09 => some .xor | 0x0A => some .shl | 0x0B => some .shr
  | 0x0C => some .sar | 0x0D => some .abs | 0x0E => some .popc | 0x0F => some .clz | 0x10 => some .brev
  | 0x11 => some (.fadd r) | 0x12 => some (.fmul r) | 0x13 => some .fmin | 0x14 => some .fmax
  | 0x15 => some (.pkadd b3 r) | 0x16 => some (.pkmul b3 r) | 0x17 => some (.pkmm b3 (md % 2 == 1))
  | 0x18 => some .frcp | 0x19 => some .frsq | 0x1A => some (.fsqrt r) | 0x1B => some .fex2
  | 0x1C => some .flg2 | 0x1D => some .fsin | 0x1E => some .fcos | 0x1F => some .ftanh
  | 0x20 => some (.cvtF32Int b3 r) | 0x21 => some (.cvtIntF32 b3 r)
  | 0x22 => some (.cvtF32Half b3 (md / 16 == 1))
  | 0x23 => (Cc.ofCode (md % 8)).map (fun cc => .iset cc b3)
  | 0x24 => (Cc.ofCode (md % 8)).map (fun cc => .fset cc)
  | 0x25 => some .ld | 0x26 => some .st | 0x27 => some .lds | 0x28 => some .sts
  | 0x29 => some (.ldc (BitVec.ofNat 3 md))
  | 0x2A => (SReg.ofCode a).map .rds
  | 0x2B => some .add64
  | _ => none

/-- The fields of one slot (R46). -/
def rawSlot (n : Nat) : Option PSlot := do
  let a := n / 2 ^ 9 % 256
  let op ← POp.ofCode (n / 2 ^ 25 % 64) (n % 32) a
  let ar : Reg := match op with
    | .rds _ => .v 0
    | _ => mkReg (n / 32 % 2 == 1) a
  some ⟨BitVec.ofNat 3 (n / 2 ^ 6 % 8), op, BitVec.ofNat 8 (n / 2 ^ 17 % 256), ar⟩

/-- A slot that passes its own field checks (R53 step 2). `RDS` in a slot reads a 32-bit register into a
vector register. -/
def decodeSlot (n : Nat) : Option PSlot :=
  match rawSlot n with
  | some p => if p.wf && p.toNat == n then some p else none
  | none => none

/-- Accept a term only if it is well formed and stands for exactly this word (R43, R52). -/
def accept (w : Nat) (r : Option Instr) : Except DecodeError Instr :=
  match r with
  | some i => if i.wf && encode i == some w then .ok i else .error .illegal
  | none => .error .illegal

/-- Decode a pair: each slot's fields, slot 0 first, then the pairing rules (R53). -/
def decodePair (w : Nat) : Except DecodeError Instr :=
  match decodeSlot (w / 2 ^ 31 % 2 ^ 31), decodeSlot (w % 2 ^ 31) with
  | none, _ => .error (.illegalSlot 0)
  | some _, none => .error (.illegalSlot 1)
  | some s0, some s1 =>
    match pairRule s0 s1 with
    | some r => .error (.illegalPair r)
    | none => .ok (.pair s0 s1)

/-- Decode one 64-bit word (R34, R52, R53). -/
def decodeWord (w : Nat) : Except DecodeError Instr :=
  match w / 2 ^ 62 % 4 with
  | 0 => accept w (rawF (FWord.ofNat w))
  | 1 => decodePair w
  | 2 => accept w (rawX (XWord.ofNat w))
  | _ => .error .illegal

/-- The little-endian value of a list of bytes, the first at the lowest address (R2). -/
def bytesVal : List Byte → Nat
  | [] => 0
  | b :: bs => b.toNat + 256 * bytesVal bs

/-- `k` bytes of a value, lowest first (R2). -/
def valBytes : Nat → Nat → List Byte
  | 0, _ => []
  | k + 1, v => BitVec.ofNat 8 v :: valBytes k (v / 256)

/-- Decode from the bytes at an address: the instruction, and the bytes after it (R34). Fewer than eight
bytes are no word. -/
def decodeBytes (bs : List Byte) : Except DecodeError (Instr × List Byte) :=
  if bs.length < 8 then .error .illegal
  else (decodeWord (bytesVal (bs.take 8))).map (fun i => (i, bs.drop 8))

/-- What the decoder reads from an instruction whose bits are w, numbered as the operation table numbers
them. Every Rohild instruction is one 64-bit word, so the bits above nbits are zero. -/
def decodeTableWord (nbits w : Nat) : Option Instr :=
  match decodeBytes (valBytes 8 (w % 2 ^ nbits)) with
  | .ok (i, _) => some i
  | .error _ => none

end Sys2Proof
end

