-- ==== Sys2Proof/Config.lean ====
section
/-! DEFINITION. What one Rohild fixes for all programs: capacities of R10, and the free values, opaque constants
that stand for what the spec leaves open. Nothing can evaluate a free value. -/

namespace Sys2Proof.Config

/-- 768 GiB of device memory (R10, R306). -/
def deviceBytes : Nat := 768 * 2 ^ 30
/-- Size of a region (R318). -/
def regionBytes : Nat := 2 ^ 30
/-- The Carillon store's size (R10). -/
def storeBytes : Nat := 64 * 2 ^ 20
/-- A logical device's slice of the bell window (R93). -/
def bellSlice : Nat := 16384
def numCores : Nat := 640
def numClusters : Nat := 160
def dies : Nat := 8
/-- Clocks of a millisecond at 2.1 GHz (R10). -/
def clocksPerMs : Nat := 2100000
/-- The largest scratch of a core (R112, R116). -/
def scratchMax : Nat := 3670016
/-- Slots of the Carillon send queue (R342). -/
def sendSlots : Nat := 4096

/-- The address hash (R221): which slice a physical line falls to is not stated, nor how it changes when banks are dropped
(R319); the first argument counts the re-stripings a line has been through. Log entry 6. -/
opaque hash : Nat → Nat → Nat
/-- The home slice of a physical line, one of 512 (R7, R221). -/
def homeSlice (moves line : Nat) : Nat := hash moves line % 512
/-- The set of a local array in which a line is cached, and with a fused L1 the array: its address bits choose, which is not
stated (R216, R218). Log entry 6. -/
opaque lineSet : Nat → Nat
opaque lineArray : Nat → Nat
/-- A choice between two outcomes that the spec allows, fresh for each count. Log entry 3. -/
opaque freeBit : Nat → Bool
/-- A number the spec leaves to the Rohild, fresh for each count. Log entry 3. -/
opaque freeNat : Nat → Nat
/-- The order in which the machine's parts take their steps, the delays and places it chooses, and the clocks a step takes:
numbers the spec leaves open, fresh for each count. Log entry 4. -/
opaque order : Nat → Nat
/-- The bytes of device memory where the spec calls all of it undefined (R389), fresh for each count. Log entry 3. -/
opaque freeMemory : Nat → List (Nat × BitVec 8)
/-- Which of the two bracketing values a faithful transcendental gives (R188), by word, operand, `daz`, `ftz`.
Log entry 7. -/
opaque faithful : Nat → Word → Bool → Bool → Bool
/-- The value a transcendental proposes, taken when it lies within the bound of R188. Log entry 7. -/
opaque transcendental : Nat → Word → Bool → Bool → Word
/-- The signature over an SPDM answer (R390): the key and the scheme are outside the spec. Log entry 8. -/
opaque signature : List (BitVec 8) → List (BitVec 8)
/-- Whether a firmware image carries a valid signature (R390). Log entry 8. -/
opaque imageSigned : List (BitVec 8) → Bool
/-- Whether an image is for the sage cores or is firmware (R390): its form is outside the spec. Log entry 8. -/
opaque imageSage : List (BitVec 8) → Bool
/-- The boot ROM of each I/O die (R390). Log entry 8. -/
opaque bootRom : Nat → List (BitVec 8)
/-- The measurement of an image (R390). Log entry 8. -/
opaque measure : List (BitVec 8) → List (BitVec 8)

/-- Where firmware would keep a new record (R335), fresh for each count: the place it reserves is not stated. Log entry 13. -/
opaque recordAddr : Nat → Nat

end Sys2Proof.Config
end

