-- ==== Sys2Proof/Machine/State.lean ====
section
/-! DEFINITION. The state of one Rohild package as plain data: groups and lanes, blocks, grids, contexts,
queues, memories, engines, the Carillon loop and store, the fabric ports, and the host's rings and registers.
Sparse collections are lists of key and value with strictly rising keys; what an absent key reads as is said
at each accessor of Machine/Ops.lean. The fields named `free`, `clk`, `turn`, `nextId`, `agenda` and `cur`
are the model's own (log entries 2, 3, 4). -/

namespace Sys2Proof.Machine

/-- A sparse map: strictly rising keys. -/
abbrev SMap (α : Type) := List (Nat × α)

/-- The five outstanding-operation counters of a group (R132), and `own` for a `RET` refill and a handler's report
store, which no counter counts. -/
inductive Ctr where
  | ld | st | cp | mx | bc | own
deriving DecidableEq, Repr

/-- Where one translated access lands (R214, R306): device memory, host memory, an offset of the logical
device's bell slice, a scratch offset of the issuing block, memory of another package, a constant (an access
that reads zeros), or an offset of the local Carillon store. -/
inductive Phys where
  | dev (pa : Nat)
  | host (pa : Nat)
  | bell (off : Nat)
  | scratch (off : Nat)
  | remote (pkg pa : Nat)
  | zero
  | store (off : Nat)
deriving DecidableEq, Repr

/-- How one lane's part of a memory word stands: waiting for fault service `fid`, ready to be performed, read but not yet written
to all its lanes (a uniform load, R134), performed, or failed. -/
inductive AccSt where
  | fault (fid : Nat)
  | ready
  | got
  | done
  | failed
deriving DecidableEq, Repr

/-- One access of a pending memory word: the lane whose operands it takes, the lanes it stands for (every executing
lane of a uniform word; lanes that store to the same bytes, R226), its address and width, and for a store its bytes
by offset. -/
structure LaneAcc where
  lane : Nat
  who : Mask
  va : Nat
  n : Nat
  phys : Phys
  data : List (Nat × Byte)
  st : AccSt
deriving DecidableEq, Repr

/-- Progress of one word's `MCAS` sequence (R250): the lanes still to run, and of the lane in turn the lines locked,
the attempts, whether a lock was broken, the lanes of which a TLB invalidation has hit an entry, the expected and new values
read from its block, and after a failed comparison the result with the values to store. -/
structure McasProg where
  todo : List Nat
  locked : List Nat
  attempt : Nat
  broken : Bool
  stale : List Nat
  vals : List (Nat × Nat)
  store : Option (Nat × List Nat)
deriving DecidableEq, Repr

/-- A format record mf0 to mf7 (R269). -/
structure MFmt where
  afmt : Nat
  bfmt : Nat
  blen : Nat
  units : Nat
  k : Nat
  ascale : Int
  asrow : Int
  asblk : Int
  bscale : Int
  bsrow : Int
  bsblk : Int
  atrail : Nat
  btrail : Nat
deriving DecidableEq, Repr

/-- The operands a pass captures at issue (R274, R278). -/
structure PassCap where
  paired : Bool
  a : Nat
  b : Nat
  sa : Int
  sb : Int
  sat : Bool
  fmt : MFmt
deriving DecidableEq, Repr

/-- A launch descriptor (R112). -/
structure Desc where
  entry : Nat
  text : Nat
  sptab : Nat
  spcount : Nat
  width : Nat
  regs : Nat
  groups : Nat
  accmask : Nat
  scratch : Nat
  cluster : Bool
  pair : Bool
  fused : Bool
  prot : Bool
  ckpt : Bool
  gridbar : Bool
  cpb : Nat
  cls : Nat
  consts : Nat
deriving DecidableEq, Repr

/-- What a pending operation will do when it completes. -/
inductive OpKind where
  | load (d : Reg) (w : Width)
  | ldc (d : Reg) (w : Width)
  | probe
  | store
  | ldfe (d : Reg) (w : Width) (clr : Bool)
  | stfe
  | ldp (line : Nat)
  | stp
  | flushH (all : Bool)
  | invalH (all : Bool)
  | atom (op : AOp) (ty : ATy) (d : Reg) (x : SMap DWord)
  | red (op : AOp) (ty : ATy) (x : SMap DWord)
  | atomc (w : Width) (d : Reg) (x y : SMap Nat)
  | mcas (d : Reg) (blk : SMap (Nat × List Phys)) (ent : SMap (List (Nat × Nat))) (prog : McasProg)
  | tbld (d : Nat) (sa : Nat)
  | refill (ex : Mask)
  | status (d : Nat) (v : Word)
  | push (d q : Nat) (wait : Bool) (pkt : List Byte) (child : Option (Desc × List Nat))
  | posted (q : Nat) (recs : List (List Byte))
  | report
  | mfmt (d mf sa : Nat)
  | matrix (eid : Nat)
  | transfer (t : Nat)
  | coll (c : Nat)
  | record (d : Nat) (before : Bool) (r : Record) (rel : Bool)
deriving DecidableEq, Repr

/-- An operation that a group has issued and that has not retired (R132, R133). `num` is its place in its
counter's issue order, `id` its place in the package's issue order, `since` the clock of its issue. A `probe` stands for a word held while pages it
reads wait in replay; the word is then executed again. `ver` is the topology version under which a pod line's access was issued
(R372). A `report` is a handler's report store whose page waits in replay
(R329). -/
structure PendOp where
  id : Nat
  ctr : Ctr
  num : Nat
  pc : Nat
  word : DWord
  kind : OpKind
  order : Order
  lanes : List LaneAcc
  done : Bool
  err : Option (Nat × Nat × Nat × Nat)
  since : Nat
  ver : Nat := 0
deriving DecidableEq, Repr

/-- A deferred error recorded at retirement (R325): cause, reason, addr, info, and the operation's counter and
number. -/
structure Deferred where
  cause : Nat
  reason : Nat
  addr : Nat
  info : Nat
  ctr : Ctr
  num : Nat
  seq : Nat
deriving DecidableEq, Repr

/-- A safe point's live set (R65): bit n stands for vn, sn, pn, jn, an. -/
structure LiveSet where
  v : Nat
  s : Nat
  p : Nat
  j : Nat
  a : Nat
deriving DecidableEq, Repr

/-- Where a fragment stopped for pre-emption (R83): a safe point with its live set and stub offset, a wait point, or
the kernel's entry. -/
inductive StopKind where
  | safePoint (live : LiveSet) (stub : Option Nat)
  | waitPoint
  | entry
deriving DecidableEq, Repr

/-- The states of a lane (R136). -/
inductive LaneSt where
  | running
  | arrived (j : Nat)
  | service (rid : Nat)
  | stopped (k : StopKind)
  | helper
  | exited
deriving DecidableEq, Repr

/-- Why a fragment is not ready although its lanes are RUNNING (R126). The PC stands at the waiting word, which is
executed again, not counted again, when its wait is over; `sync` is the wait of a `BSYNC` that has arrived, which pre-emption
keeps; after `NAP` and `YIELD` it stands at the next word. `op` is a
blocking `LDFE`, `gate` the release of a transfer word or `TRAP` at a scope, for its fragment or for every lane of its group, of what
was issued before a number (R299, R333), `busy` any other operation that holds its word, `ready` a wait that an event has ended; `push` a `.wait` push to
queue `q` with its operation; `yield 0` marks a fragment that may issue after every other one of its group (R128). -/
inductive Hold where
  | none
  | wait (ld st cp mx bc : Nat)
  | nap (until_ : Nat)
  | yield (until_ : Nat)
  | barrier (bar : Bar) (phase : Nat)
  | sync (bar : Bar) (phase : Nat)
  | release (acq rel : Bool) (scope : Scope)
  | gate (before : Nat) (all : Bool) (scope : Scope)
  | pfence (n : Nat)
  | op (id : Nat)
  | busy (id : Nat)
  | ready
  | push (q id : Nat)
  | ckpt
  | fault (fid : Nat)
  | exit
  | handler
deriving DecidableEq, Repr

/-- One thread: its PC, state, hold, handler state with the trap PC (R329), the saved v0:v1 of the handler,
its return stack (newest first) and depth (R154), and its stochastic-rounding state (R23). `kept` is the wait of a STOPPED
lane, which goes on if its group goes on in place (R86); `stop` the PC at which it stopped, until it issues again (R87).
`issued` is the group's word count when the lane last issued (R128); `feDone` marks a lane that a stopped `LDFE` has completed
(R83, R237). -/
structure Lane where
  pc : BitVec 56
  st : LaneSt
  hold : Hold
  kept : Hold
  stop : Option (BitVec 56)
  hnd : Option (BitVec 56)
  saved : Option (Word × Word)
  rs : List DWord
  depth : Nat
  rng : Word
  issued : Nat
  feDone : Bool
deriving DecidableEq, Repr

/-- A trap report (R326). -/
structure Report where
  cause : Nat
  reason : Nat
  detail : Nat
  ctx : Nat
  group : Nat
  flags : Nat
  pc : Nat
  lanes : Mask
  siblings : Mask
  block : Nat
  word : DWord
  addr : Nat
  info : Nat
deriving DecidableEq, Repr

/-- A trapped fragment that waits for handler entry (R329): its report, the handler and report area set when it trapped (R328),
and the deferred error it raises (R325). -/
structure TrapWait where
  rep : Report
  handler : Nat
  area : Nat
  err : Option Deferred
deriving DecidableEq, Repr

/-- The states of a group (R124). -/
inductive GState where
  | pending | active | parked | saved | exiting | exited
deriving DecidableEq, Repr

/-- Operations issued so far on each counter. -/
structure Issued where
  ld : Nat
  st : Nat
  cp : Nat
  mx : Nat
  bc : Nat
  own : Nat
deriving DecidableEq, Repr

/-- States of a reservation-table entry (R276, R280): posted; granted, with the clock of the grant; stalled
on a page fault; withdrawn because the twin trapped (R281). -/
inductive EntSt where
  | posted
  | granted (at_ : Nat)
  | stalled (fid : Nat)
  | withdrawn
deriving DecidableEq, Repr

/-- The operation of a reservation-table entry (R276). -/
inductive MKind where
  | pass (p : PassCap)
  | zero
  | drain (z : Bool) (desc : Nat)
  | mlda (desc : Nat)
  | mvec (w t : Bool) (n d pos : Nat) (lanes : Mask) (vals : SMap Word)
deriving DecidableEq, Repr

/-- What an engine operation still has to write, by line, and the pages of source and destination (R300, R286). -/
structure Claim where
  pieces : SMap (List (Phys × Byte))
  src : SMap Phys
  dst : SMap Phys
deriving DecidableEq, Repr

/-- A byte of memory before a write: the clock of the write, the place, the byte; `own` marks a write of the engine operation's own
group that it issued later. -/
structure OldByte where
  clk : Nat
  key : Nat
  byte : Byte
  own : Bool
deriving DecidableEq, Repr

/-- The bytes overwritten while an engine operation has its sources to read (R260, R275): its number and group, and the clock from
which it reads. -/
structure Old where
  op : Nat
  grp : Nat
  since : Nat
  log : List OldByte
deriving DecidableEq, Repr

/-- A destination part with its shape: format code, dimensions, bases, trailer, block type, the origins of its dimensions 0
and 1, and those of the others. -/
structure Part where
  fmt : Nat
  dims : List (Nat × Int)
  base : Nat
  sbase : Nat
  trail : Nat
  btype : Nat
  o0 : Nat
  o1 : Nat
  rest : List Nat
deriving DecidableEq, Repr

/-- A drain descriptor with its parts: the primary, and in mode 1 the transposed one. -/
structure DrainDesc where
  mode : Nat
  rnd : Nat
  sat : Bool
  seed : Word
  parts : List Part
deriving DecidableEq, Repr

/-- An entry of a cluster's reservation table (R276), numbered by its operation. `weight` is none until the estimate of
R277; `missed` counts the windows in which a paired half was released. A drain keeps its descriptor
as read, its claim with what it still writes, and its trailers (part, bytes). `begun` says that a drain has begun to write, or that
a pass or an accumulator load has begun to read; `wait` is a page fault it waits for. `seen` holds the numeric events of the
blocks that the pass has added, or of the elements that the drain has converted. -/
structure MEntry where
  eid : Nat
  grp : Nat
  ctx : Nat
  blk : Nat
  core : Nat
  slot : Nat
  pc : Nat
  kind : MKind
  age : Nat
  cls : Nat
  weight : Option Nat
  st : EntSt
  missed : Nat
  desc : Option DrainDesc
  claim : Option Claim
  begun : Bool
  tail : List (Nat × List Byte)
  wait : Option Nat
  seen : SMap Nat
deriving DecidableEq, Repr

/-- The registers of a group as a word that waits found them at its issue (R134): vector, shadow-lane and scalar registers, and
predicates. -/
structure Snap where
  v : SMap Word
  shadow : SMap Word
  s : SMap Word
  p : SMap Mask
deriving DecidableEq, Repr

/-- A group with everything its control record holds (R71, R158). `v` is keyed by register × 64 + lane;
`shadow` holds the values of shadow lanes that differ from their primary (R113, R229). `missing` lists the lines that its
slot's register cache does not hold, `lineUse` the clock of the last use of the others and whether they are dirty (R161); `snaps` the
sources of words that have issued and wait, by the number of their hold. -/
structure Group where
  grid : Nat
  blk : Nat
  idx : Nat
  core : Nat
  pos : Nat
  age : Nat
  width : Nat
  state : GState
  lanes : List Lane
  v : SMap Word
  shadow : SMap Word
  s : SMap Word
  p : SMap Mask
  j : SMap (Mask × BitVec 56)
  mf : SMap MFmt
  fpMode : Word
  fpFlags : Word
  fpSeed : Word
  spCount : Nat
  spLast : Option Nat
  flagged : Bool
  words : Nat
  issued : Issued
  ops : List PendOp
  errs : List Deferred
  fetched : SMap DWord
  missing : List Nat
  withdrawn : List MEntry
  lineUse : SMap (Nat × Bool)
  peal : Nat
  traps : List TrapWait
  readyClk : Nat
  idleClk : Nat
  snaps : SMap Snap := []
deriving DecidableEq, Repr

/-- A barrier (R200): member groups, whose number is E, arrived groups of the phase, arrived count A, phase, epoch. -/
structure Barrier where
  members : List Nat
  arrived : List Nat
  count : Nat
  phase : BitVec 16
  epoch : BitVec 8
deriving DecidableEq, Repr

/-- States of an accumulator slot (R267). -/
inductive SlotSt where
  | idle | busy | stalled | halted
deriving DecidableEq, Repr

/-- An accumulator slot reserved by a block: its elements keyed by row × 256 + column, absent ones +0. `seen` holds the numeric
events of the blocks that a halted pass has added (R290). -/
structure Slot where
  st : SlotSt
  data : SMap Word
  progress : Nat
  halted : Option PassCap
  seen : SMap Nat
deriving DecidableEq, Repr

/-- The shadow half of a checkpointed block's image (R211). -/
structure Shadow where
  groups : List (Nat × Group)
  scratch : SMap Byte
  sfe : List Nat
  bars : SMap Barrier
deriving DecidableEq, Repr

/-- A placed or saved block. `line0` is the first of its scratch line numbers (R216). `held` and `heldFe` are the stores a checkpointed block holds (R213), keyed by
`physKey`; `halt` stops its issue for a checkpoint (R211), with `rolling` for a rollback (R339). -/
structure Block where
  grid : Nat
  b : Nat
  core : Nat
  saved : Bool
  groups : List Nat
  line0 : Nat
  scratch : SMap Byte
  sfe : List Nat
  bars : SMap Barrier
  slots : SMap Slot
  shadow : Option Shadow
  held : SMap Byte
  heldFe : SMap Bool
  slotWritten : Bool
  rollbacks : Nat
  halt : Bool
  rolling : Bool
  liveSlots : List Nat
deriving DecidableEq, Repr

/-- States of a grid (R118). -/
inductive GridSt where
  | submitted | dispatching | running | drained | awaiting | complete | failed
deriving DecidableEq, Repr

/-- A grid: its context, the packet that launched it, its own copy of the descriptor and of the consts table
(R114), its extents, argument, parent and children (R120), the next block to place, and its cluster barriers
(keyed by set × 4 + index) and grid barrier (R200). `initV` gives v0 to v3 of a continuation group (R111);
`contLines` names the data lines of its records. `ccache` holds the constant bytes that each core has cached for it, keyed by
core × 2^40 + physical address (R236). -/
structure Grid where
  ctx : Nat
  ld : Nat
  queue : Option (Nat × Nat)
  desc : Desc
  x : Nat
  y : Nat
  z : Nat
  arg : DWord
  st : GridSt
  parent : Option Nat
  depth : Nat
  children : Nat
  consts : List Nat
  next : Nat
  clsBars : SMap Barrier
  grdBar : Option Barrier
  initV : SMap Word
  contLines : List Nat
  ccache : SMap Byte
deriving DecidableEq, Repr

/-- States of a context (R70). -/
inductive CtxSt where
  | created | ready | running | draining | saved | faulted | destroyed
deriving DecidableEq, Repr

/-- A context that is not EMPTY (R67 to R70, R328). `drain` is the end of a PREEMPT's drain limit; `order`
lists saved blocks in the order in which they were saved (R87). `ld` is the owner (R69), `ldev` the operand of BIND
(R76). `dead` says that the context has FAULTED, so that its transfers stop (R302). -/
structure Ctx where
  st : CtxSt
  ld : Nat
  ldev : Nat
  bound : Bool
  tenant : Nat
  poolBase : Nat
  poolSize : Nat
  spLimit : Nat
  tenantScope : Bool
  root : Nat
  sysfence : Word
  handler : Nat
  hmask : DWord
  report : Nat
  fmask : DWord
  drain : Option Nat
  order : List Nat
  dead : Bool := false
deriving DecidableEq, Repr

/-- The kinds of queue (R96). -/
inductive QKind where
  | host | device | cont
deriving DecidableEq, Repr

/-- The states of a queue other than RETIRED (R94, R97). -/
inductive QSt where
  | idle | active | blocked | suspended | error
deriving DecidableEq, Repr

/-- A packet's kind (R98, R99). -/
inductive PType where
  | launch | barrierAnd | copy | signal | podLaunch
deriving DecidableEq, Repr

/-- A started packet that has not completed (R101, R103). -/
structure Started where
  n : Nat
  ty : PType
  cword : Nat
  cvalue : DWord
  irq : Bool
  work : Nat
  done : Bool
  body : List Byte
deriving DecidableEq, Repr

/-- A continuation record taken from its ring and not yet started (R109, R111). -/
structure ContRec where
  entry : Nat
  data : DWord
  arg : DWord
deriving DecidableEq, Repr

/-- A queue that is not RETIRED: its bell record (R94), its ring (R96) and its started packets. `children`
maps packet numbers of `LAUNCH` to the child grids; `since` is when the head became startable (R102); `wait` the page
fault on which the head packet waits; `accepted` the descriptor and bank addresses read for a head launch that may not
start yet (R114); `entries` the entry table and `conts` the binned records of a continuation queue (R111). -/
structure Queue where
  ctx : Nat
  kind : QKind
  base : Nat
  log2 : Nat
  prio : Nat
  entries : Nat
  tail : Nat
  head : Nat
  st : QSt
  error : Nat
  held : Bool
  started : List Started
  children : SMap Nat
  since : Option Nat
  promoted : Bool
  wait : Option Nat
  accepted : Option (Desc × List Nat)
  conts : List ContRec
deriving DecidableEq, Repr

/-- What the bell record of a RETIRED queue still shows (R94). -/
structure RetQ where
  tail : Nat
  head : Nat
  error : Nat
  device : Bool
  ctx : Nat
deriving DecidableEq, Repr

/-- A ring descriptor (R383). `busy` marks a command whose completion is awaited. -/
structure Ring where
  base : Nat
  order : Nat
  vector : Nat
  lost : Nat
  tail : Nat
  head : Nat
  busy : Bool
deriving DecidableEq, Repr

/-- One class of the numeric event block (R290, R291); `start` is when its window began. -/
structure NumClass where
  count : Nat
  threshold : Nat
  window : Nat
  control : Nat
  nextThreshold : Nat
  nextWindow : Nat
  firedNow : Bool
  start : Nat
deriving DecidableEq, Repr

/-- An entry waiting to be written to a device-produced ring (R383): its bytes. -/
structure Pending where
  ring : Nat
  bytes : List Byte
deriving DecidableEq, Repr

/-- A logical device (R382 to R387): its binding, control and feature registers, rings 0 to 6, completion
words by index, queues by number, numeric event classes, allocation pool, and entries waiting for a ring. -/
structure LDev where
  bound : Bool
  port : Nat
  regFirst : Nat
  regCount : Nat
  tenFirst : Nat
  tenCount : Nat
  enable : Bool
  expert : Bool
  feat : BitVec 128
  rings : SMap Ring
  words : SMap DWord
  queues : SMap Queue
  retired : SMap RetQ
  num : SMap NumClass
  poolBase : Nat
  poolSize : Nat
  poolUsed : List (Nat × Nat)
  waiting : List Pending
deriving DecidableEq, Repr

/-- States of a page fault (R313, R315): not yet served; forwarded to the host; served; failed. -/
inductive FaultSt where
  | asked | forwarded | resolved | failed
deriving DecidableEq, Repr

/-- A page fault (R315): device, context, address, access code, entry kind found. A region in migration asks for no service.
`askers` are the engine operations and queues that have asked, as `opKey` and `queueKey` number them. -/
structure PFault where
  ld : Nat
  ctx : Nat
  va : Nat
  access : Nat
  kind : Nat
  st : FaultSt
  serviceless : Bool
  askers : List Nat
deriving DecidableEq, Repr

/-- An outstanding service record or forwarded trap report (R334, R335), and where it lies in device memory. -/
structure SvcRec where
  ld : Nat
  grp : Nat
  lanes : Mask
  pc : BitVec 56
  code : Option Nat
  bytes : List Byte
  announced : Bool
  addr : Nat
deriving DecidableEq, Repr

/-- The transfer words and the copy packet (R296, R303). -/
inductive TKind where
  | tcpy | gath | scat | fill
  | packet (ld q n : Nat)
deriving DecidableEq, Repr

/-- States of a transfer (R300). `finished` has ended, with a reason or none, but for the visibility of its writes (R303). -/
inductive TSt where
  | queued
  | checking (fid : Nat)
  | moving
  | reading
  | waiting (fid : Nat)
  | signalling
  | finished (fail : Option (Nat × Nat))
deriving DecidableEq, Repr

/-- A shape record (R66). -/
structure Shape where
  fmt : Nat
  dims : List (Nat × Int)
deriving DecidableEq, Repr

/-- A transfer in a die's copy engine (R293, R300). `sigPhys` is where its signal granule was found. -/
structure Transfer where
  die : Nat
  kind : TKind
  ctx : Nat
  grp : Nat
  op : Nat
  blk : Nat
  pc : Nat
  desc : Nat
  st : TSt
  src : Shape
  dst : Shape
  srcBase : Nat
  dstBase : Nat
  aux : Nat
  idx : List Nat
  flags : Nat
  sig : Nat
  sigPhys : Phys
  sigv : DWord
  chunk : Nat
  claimed : Option Claim
deriving DecidableEq, Repr

/-- States of a collective (R379). -/
inductive CSt where
  | queued | running | finished | signalled
deriving DecidableEq, Repr

/-- A collective descriptor (R375). -/
structure CDesc where
  op : Nat
  red : Nat
  fmt : Nat
  root : Nat
  nranks : Nat
  version : Nat
  count : Nat
  src : Nat
  dst : Nat
  tag : Nat
  sig : Nat
  sigv : DWord
deriving DecidableEq, Repr

/-- A collective of this package (R379). `got` holds the bytes of each rank's contribution as received, by rank; `wait` the
page fault its start waits for; `claimed` its destination lines and pages; `fail` the reason of a failure not yet told to the
other members. -/
structure Coll where
  die : Nat
  ctx : Nat
  grp : Nat
  op : Nat
  pc : Nat
  tenant : Nat
  desc : Nat
  st : CSt
  d : CDesc
  members : List Nat
  got : SMap (List Byte)
  wait : Option Nat
  claimed : Option Claim
  sigPhys : Phys
  fail : Option Nat
deriving DecidableEq, Repr

/-- A record with its sender's bookkeeping (R348): the group and operation to complete, its context, or the packet. -/
structure SendRec where
  grp : Nat
  op : Nat
  ctx : Option Nat
  packet : Option (Nat × Nat × Nat)
  cmd : Option Nat
  r : Record
  outOfRange : Bool
  failed : Bool
  before : Nat
deriving DecidableEq, Repr

/-- States of a colour (R363). -/
inductive ColSt where
  | dark | training | up | watch | retraining | failed
deriving DecidableEq, Repr

/-- One colour's registers and windows (R364, R366, R407). `winAt` is when the current window began, in ticks of the timebase; `calm`
counts completed windows in a row at or below CWARN at this end, `calmP` at the partner's. -/
structure Colour where
  st : ColSt
  feed : Bool
  tenant : Nat
  shareable : Bool
  enable : Bool
  ccorr : Nat
  cunc : Nat
  cuncWin : Nat
  cwarn : Nat
  cretr : Nat
  done : Nat
  fails : Nat
  marg : Word
  attempt : Nat
  calm : Nat
  calmP : Nat
  winAt : Nat
deriving DecidableEq, Repr

/-- A flit sent and not acknowledged (R360). `good` says that it has been sent on a colour where the receiver can correct it (R366). -/
structure Unacked where
  tenant : Nat
  seq : Nat
  colour : Nat
  flit : Flit
  good : Bool
deriving DecidableEq, Repr

/-- One fabric port (R358, R360, R366, R367). `out` holds packets not yet sent, the two flits of a write together, or
the second alone once the first has been sent; `serving` is the tenant of the weighted round and the flits it may still send (R369). -/
structure Link where
  preq : Nat
  colours : List Colour
  narrow : Bool
  txSeq : SMap Nat
  rxSeq : SMap Nat
  rxHeld : List Arrival
  unacked : List Unacked
  slots : SMap Nat
  last : SMap Nat
  out : List (List Flit)
  serving : Nat × Nat
deriving DecidableEq, Repr

/-- A write whose visibility time lies ahead (R255): its writer, its device-memory bytes, the
granules it fills (R219, R238), its time. `op` is the operation of the group; an engine's write has no lanes. -/
structure InvWrite where
  grp : Nat
  op : Nat
  lanes : Mask
  bytes : List (Nat × Byte)
  fe : List Nat
  vis : Nat
deriving DecidableEq, Repr

/-- A leaf of a tenant's shared table (R305, R321): its level, the address it maps and its entry. -/
structure SharedLeaf where
  tenant : Nat
  level : Nat
  va : Nat
  entry : DWord
deriving DecidableEq, Repr

/-- A cached translation (R310): owner context, or tenant + 4096 in the shared window; page base, size, leaf. -/
structure Tlb where
  owner : Nat
  base : Nat
  size : Nat
  leaf : DWord
deriving DecidableEq, Repr

/-- One core's own state: its activation tables (R194) and its copies of host memory (R223). -/
structure Core where
  bank : Bool
  tag0 : Option (Nat × Nat)
  tag1 : Option (Nat × Nat)
  img0 : SMap Word
  img1 : SMap Word
  hvalid : List Nat
  hdata : SMap Byte
  hdirty : List Nat
deriving DecidableEq, Repr

/-- The states of a half of a host line in the bridge (R223), Invalid ones unlisted. -/
inductive HalfSt where
  | shared | exclusive | modified
deriving DecidableEq, Repr

/-- One cluster's matrix engine (R266, R276, R277): its table in order of age, its unit account, the rate and the number of
its refills. -/
structure Cluster where
  table : List MEntry
  account : Int
  refill : Nat
  refills : Nat
deriving DecidableEq, Repr

/-- A request of this package on the fabric: its group and operation, destination, version (R241, R372). -/
structure Remote where
  tag : Nat
  grp : Nat
  op : Nat
  dst : Nat
  version : Nat
  tenant : Nat
deriving DecidableEq, Repr

/-- A delivered flit not yet forwarded or performed, with the end of its hold (R373). -/
structure Ingress where
  deadline : Nat
  f : Flit
deriving DecidableEq, Repr

/-- The management function and package-wide registers (R337, R386, R387, R390 to R392). `moving` is the region that a
re-striping has come to, `sweeping` the regions it retires at its end, `sweeps` the re-stripings that have ended (R318, R319);
`draw` is PDRAW, `limitAt` the clock of the last write to PLIMIT. `onModule` says RH1-M or RH1-P (R1), `mgsel` how its MGSEL pin is
wired (R382). `images` holds the measurement of the image last accepted, by I/O die and kind. -/
structure Mgmt where
  cmd : Ring
  ev : Ring
  evWaiting : List Pending
  expert : Bool
  sage : SMap Word
  plimit : Word
  stperiod : Word
  limitAt : Nat
  eccCnt : SMap Nat
  onModule : Bool
  mgsel : Nat
  modules : Nat
  alarms : List (Nat × Nat)
  accepted : Bool
  rollback : Nat
  images : SMap (List Byte)
  spdm : List (Nat × List Byte)
  deadDies : List Nat
  badCores : List Nat
  dropped : List Nat
  announced : Nat
  retired : List Nat
  vacated : List Nat
  moving : Option Nat
  sweeping : List Nat
  sweeps : Nat
  draw : Nat
  copy : Option Bool
deriving DecidableEq, Repr

/-- The issuing fragment of a word: its group, lanes, the word at its PC, and the hold under which the word waited
before (`none` at its first issue), and the clock of the issue. -/
structure Issue where
  grp : Nat
  lanes : Mask
  pc : BitVec 56
  word : DWord
  hold : Hold
  clk : Nat
deriving DecidableEq, Repr

/-- The answer to a host access of device memory (R381): the port and device it came through, the address, and the bytes read,
none of them for a write; no bytes at all for the poisoned response. -/
structure Answer where
  port : Nat
  ld : Nat
  pa : Nat
  bytes : Option (List Byte)
deriving DecidableEq, Repr

structure State where
  -- the model's own fields
  cur : Option Issue
  agenda : List Instr
  stays : Bool
  turn : Bool
  free : Nat
  nextId : Nat
  clk : Nat
  -- the package
  pkg : Nat
  mem : List Host.Cell
  full : List Nat
  poison : List Nat
  hostMem : List Host.Cell
  bridge : SMap HalfSt
  -- `owned` lists the lines engines own or claim, with the engine operation, in claim order (R222)
  invis : List InvWrite
  owned : List (Nat × Nat)
  locks : SMap (Nat × Nat)
  persistent : List (Nat × Nat)
  tlb : List Tlb
  shared : List SharedLeaf
  ldevs : SMap LDev
  rr : SMap Nat
  ctxs : SMap Ctx
  grids : SMap Grid
  blocks : SMap Block
  groups : SMap Group
  cores : SMap Core
  clusters : SMap Cluster
  faults : SMap PFault
  records : SMap SvcRec
  lastRec : Nat
  transfers : SMap Transfer
  colls : SMap Coll
  olds : List Old
  -- the loop and store
  peal : Nat
  store : SMap Byte
  sendq : List SendRec
  onLoop : SMap SendRec
  formed : Bool
  ring : List Nat
  frames : SMap Record
  visit : Nat
  -- the fabric
  links : SMap Link
  routes : SMap Nat
  tver : Nat
  tbank : Nat
  tprev : Nat
  topen : Bool
  tclose : Nat
  remotes : List Remote
  ingress : List Ingress
  -- the host side
  irqs : List (Nat × Nat)
  answers : List Answer
  mgmt : Mgmt
deriving DecidableEq, Repr

/-- The management function after device reset (R337, R383, R386, R391, R392): rings disabled, the power limit
5,000 W, the draw 0, self-test every 1,000,000 clocks, no firmware image accepted yet. MGCTL.expert is 0, a value the spec does
not state. The module's form, how MGSEL is wired, which laser modules are present, that none of their branches is in alarm, and the
fused rollback counter are set outside the spec (log entry 2). -/
def Mgmt.reset : Mgmt :=
  { cmd := ⟨0, 0, 0, 0, 0, 0, false⟩, ev := ⟨0, 0, 0, 0, 0, 0, false⟩, evWaiting := [], expert := false, sage := [],
    plimit := 5000, stperiod := 1000000, eccCnt := [], limitAt := 0, onModule := true, mgsel := 0, modules := 63, alarms := [], accepted := false, rollback := 0,
    images := [], spdm := [], deadDies := [], badCores := [], dropped := [], announced := 768, retired := [],
    vacated := [], moving := none, sweeping := [], sweeps := 0, draw := 0, copy := none }

/-- The package after device reset: no logical device bound, every context EMPTY, every queue RETIRED, every
full-empty bit 0 (R219), both tags of every activation table none (R194), every colour DARK, the loop not formed, the
timebase 0 (R177). Memory lists nothing. The model's own fields start at 0 (log entries 3 and 4). -/
def State.reset : State :=
  { cur := none, agenda := [], stays := false, turn := false, free := 0, nextId := 1, clk := 0, pkg := 0, mem := [], full := [],
    poison := [], hostMem := [], bridge := [], invis := [], owned := [], locks := [], persistent := [], tlb := [], shared := [],
    ldevs := [], rr := [], ctxs := [], grids := [], blocks := [], groups := [], cores := [], clusters := [], faults := [],
    records := [], lastRec := 0, transfers := [], colls := [], olds := [], peal := 0, store := [], sendq := [], onLoop := [], formed := false,
    ring := [], frames := [], visit := 0, links := [], routes := [], tver := 0, tbank := 0, tprev := 0, topen := false, tclose := 0,
    remotes := [], ingress := [], irqs := [], answers := [], mgmt := Mgmt.reset }

/-- Why a step cannot happen. -/
inductive Fault where
  /-- Raised by the meaning of a command, register write or event whose condition in the spec does not hold in
  this state: the machine takes no such step there. Safe: the model stops where no step exists. -/
  | notEnabled (row : String)
  /-- Raised by the meaning of an instruction word when no fragment is issuing (`cur` is none, or names no
  group). Safe: no word executes without a fragment that issues it (R135). -/
  | noIssuer
deriving DecidableEq, Repr

/-- The reasons a step has no meaning in the model. -/
inductive Refusal where
  /-- Answered by an arm of exec whose instruction has no meaning yet. Safe. -/
  | notModelled (mnemonic : String)
deriving DecidableEq, Repr

end Sys2Proof.Machine
end

