-- ==== Sys2Proof/Machine/Flags.lean ====
section
/-! DEFINITION. The sticky exception flags of `fp.flags` (R26): the bits, how a word ORs its flags in, and the
write-one-to-clear access. -/

namespace Sys2Proof.Machine

/-- The seven flags, by their bit numbers in `fp.flags` (R26). -/
abbrev Flags := BitVec 7

def fInvalid : Flags := 1
def fOverflow : Flags := 2
def fDivzero : Flags := 4
def fUnderflow : Flags := 8
def fInexact : Flags := 16
def fSat : Flags := 32
def fDenorm : Flags := 64

/-- A word ORs the flags of its lanes into the register when it completes (R26, R179). -/
def raiseFlags (r : Word) (f : Flags) : Word := r ||| f.setWidth 32

/-- A write of `a` clears the flags whose bits are 1; bits [31:7] are reserved and stay 0 (R26, R92). -/
def clearFlags (r a : Word) : Word := r &&& ~~~a

end Sys2Proof.Machine
end

