-- ==== Sys2Proof/Machine/Sparse.lean ====
section
/-! DEFINITION. Operations on sparse maps (strictly rising keys) and on byte memories in their one canonical form:
strictly rising addresses and no byte equal to what an unlisted address reads as, 0 (log entry 5). -/

namespace Sys2Proof.Machine

/-- The value at a key. -/
def SMap.find {α : Type} (m : SMap α) (k : Nat) : Option α :=
  match m with
  | [] => none
  | (i, x) :: r => if i = k then some x else SMap.find r k

def SMap.getD {α : Type} (m : SMap α) (k : Nat) (d : α) : α := (SMap.find m k).getD d

def SMap.has {α : Type} (m : SMap α) (k : Nat) : Bool := (SMap.find m k).isSome

/-- Insert or replace, keeping keys strictly rising. -/
def SMap.set {α : Type} (m : SMap α) (k : Nat) (x : α) : SMap α :=
  match m with
  | [] => [(k, x)]
  | (i, y) :: r => if k < i then (k, x) :: (i, y) :: r else if i = k then (k, x) :: r else (i, y) :: SMap.set r k x

def SMap.del {α : Type} (m : SMap α) (k : Nat) : SMap α := if SMap.has m k then m.filter (fun p => p.1 != k) else m

/-- Write `x`, dropping the key when `x` is what an absent key reads as. -/
def SMap.put {α : Type} [DecidableEq α] (m : SMap α) (k : Nat) (x d : α) : SMap α :=
  if x = d then SMap.del m k else SMap.set m k x

def SMap.upd {α : Type} (m : SMap α) (k : Nat) (f : α → α) : SMap α :=
  match SMap.find m k with
  | none => m
  | some x => SMap.set m k (f x)

def SMap.mapV {α β : Type} (m : SMap α) (f : Nat → α → β) : SMap β := m.map (fun p => (p.1, f p.1 p.2))

def SMap.keys {α : Type} (m : SMap α) : List Nat := m.map (·.1)

/-- Every key of the list exceeds `k`, and keys rise strictly. -/
def SMap.sortedFrom {α : Type} (k : Nat) (m : SMap α) : Bool :=
  match m with
  | [] => true
  | (i, _) :: r => decide (k < i) && SMap.sortedFrom i r

def SMap.sorted {α : Type} (m : SMap α) : Bool :=
  match m with
  | [] => true
  | (i, _) :: r => SMap.sortedFrom i r

/-- Sorted insertion into a set of numbers held as a strictly rising list. -/
def insertNat (l : List Nat) (k : Nat) : List Nat :=
  match l with
  | [] => [k]
  | i :: r => if k < i then k :: i :: r else if i = k then i :: r else i :: insertNat r k

def removeNat (l : List Nat) (k : Nat) : List Nat := l.filter (· != k)

def setNat (l : List Nat) (k : Nat) (b : Bool) : List Nat := if b then insertNat l k else removeNat l k

/-! ## Byte memories -/

/-- A byte memory in canonical form: addresses strictly rising, no listed byte 0. -/
def Memory.wf (m : List Host.Cell) : Bool := SMap.sorted m && m.all (fun c => c.2 != 0)

/-- One byte; an unlisted address reads 0. -/
def Memory.get (m : List Host.Cell) (a : Nat) : Byte := SMap.getD m a 0

/-- Write one byte, keeping the canonical form. -/
def Memory.set (m : List Host.Cell) (a : Nat) (b : Byte) : List Host.Cell := SMap.put m a b 0

/-- The n bytes from an address on, lowest address first. -/
def Memory.bytes (m : List Host.Cell) (a n : Nat) : List Byte := (List.range n).map (fun i => Memory.get m (a + i))

/-- Write bytes from an address on. -/
def Memory.write (m : List Host.Cell) (a : Nat) (bs : List Byte) : List Host.Cell :=
  match bs with
  | [] => m
  | b :: r => Memory.write (Memory.set m a b) (a + 1) r

/-- Write bytes at named addresses, in order. -/
def Memory.writeAll (m : List Host.Cell) (bs : List (Nat × Byte)) : List Host.Cell :=
  bs.foldl (fun acc p => Memory.set acc p.1 p.2) m

/-- Little-endian value of bytes (R2). -/
def leNat : List Byte → Nat
  | [] => 0
  | b :: r => b.toNat + 256 * leNat r

/-- The n little-endian bytes of a value (R2). -/
def leBytes : Nat → Nat → List Byte
  | 0, _ => []
  | n + 1, v => BitVec.ofNat 8 v :: leBytes n (v / 256)

def Memory.read (m : List Host.Cell) (a n : Nat) : Nat := leNat (Memory.bytes m a n)

/-- The bits of a mask, ascending. -/
def Mask.lanes (m : Mask) : List Nat := (List.range 64).filter (fun i => m.getLsbD i)

def Mask.has (m : Mask) (i : Nat) : Bool := m.getLsbD i

def Mask.one (i : Nat) : Mask := BitVec.ofNat 64 (2 ^ i)

def Mask.ofLanes (l : List Nat) : Mask := l.foldl (fun acc i => acc ||| Mask.one i) 0

/-- Replace element i of a list. -/
def listSet {α : Type} (l : List α) (i : Nat) (x : α) : List α := l.set i x

def listUpd {α : Type} (l : List α) (i : Nat) (f : α → α) : List α :=
  match l[i]? with
  | none => l
  | some x => l.set i (f x)

/-- Sum of a list. -/
def sumNat (l : List Nat) : Nat := l.foldl (· + ·) 0

def maxNat (l : List Nat) : Nat := l.foldl Nat.max 0

/-- The least element by a key, first among equals. -/
def leastBy {α : Type} (f : α → Nat) (l : List α) : Option α :=
  l.foldl (fun acc x => match acc with
    | none => some x
    | some y => if f x < f y then some x else some y) none

/-- Insertion sort by a key. -/
def insertBy {α : Type} (f : α → Nat) (x : α) : List α → List α
  | [] => [x]
  | y :: r => if f x < f y then x :: y :: r else y :: insertBy f x r

def sortBy {α : Type} (f : α → Nat) (l : List α) : List α := l.foldr (insertBy f) []

def ceilDiv (a b : Nat) : Nat := (a + b - 1) / b

end Sys2Proof.Machine
end

