-- ==== Sys2Proof/Machine/Float.lean ====
section
/-! DEFINITION. Number formats and rounding (R12 to R26, R29, R30): values are exact dyadic or rational numbers, and
one function rounds an exact magnitude to a format with its flags. -/

namespace Sys2Proof.Machine

/-- A floating-point format (R12). `ieee` is false for E4M3, which has no infinity. -/
structure Fmt where
  ew : Nat
  mw : Nat
  bias : Nat
  ieee : Bool
deriving DecidableEq, Repr

def fp32 : Fmt := ⟨8, 23, 127, true⟩
def fp16 : Fmt := ⟨5, 10, 15, true⟩
def bf16 : Fmt := ⟨8, 7, 127, true⟩
def e5m2 : Fmt := ⟨5, 2, 15, true⟩
def e4m3 : Fmt := ⟨4, 3, 7, false⟩

def Fmt.width (f : Fmt) : Nat := 1 + f.ew + f.mw

/-- Flushing applies to FP32, FP16 and BF16 only (R25). -/
def Fmt.flushes (f : Fmt) : Bool := f == fp32 || f == fp16 || f == bf16

/-- The sign bit's weight. -/
def Fmt.signBit (f : Fmt) : Nat := 2 ^ (f.ew + f.mw)

/-- The largest finite magnitude's bits (R13). -/
def Fmt.maxFinite (f : Fmt) : Nat := if f.ieee then (2 ^ f.ew - 1) * 2 ^ f.mw - 1 else 2 ^ (f.ew + f.mw) - 2

/-- Bits of +∞ (formats with infinities). -/
def Fmt.inf (f : Fmt) : Nat := (2 ^ f.ew - 1) * 2 ^ f.mw

/-- The canonical quiet NaN (R13). -/
def Fmt.qnan (f : Fmt) : Nat := if f.ieee then f.inf + 2 ^ (f.mw - 1) else 2 ^ (f.ew + f.mw) - 1

/-- The exponent of the smallest normal's power of two. -/
def Fmt.emin (f : Fmt) : Int := 1 - (f.bias : Int)

/-- The exponent of the spacing of subnormals. -/
def Fmt.qmin (f : Fmt) : Int := f.emin - (f.mw : Int)

/-- A value (R12): a NaN, quiet or signalling; an infinity; or (−1)^neg × m × 2^e. -/
inductive FV where
  | nan (sig : Bool)
  | inf (neg : Bool)
  | fin (neg : Bool) (m : Nat) (e : Int)
deriving DecidableEq, Repr

/-- The value of an encoding (R12, R13, R14). -/
def Fmt.value (f : Fmt) (bits : Nat) : FV :=
  let neg := bits / f.signBit % 2 == 1
  let e := bits / 2 ^ f.mw % 2 ^ f.ew
  let m := bits % 2 ^ f.mw
  if f.ieee && e == 2 ^ f.ew - 1 then
    if m == 0 then .inf neg else .nan (m / 2 ^ (f.mw - 1) == 0)
  else if !f.ieee && e == 2 ^ f.ew - 1 && m == 2 ^ f.mw - 1 then .nan false
  else if e == 0 then .fin neg m f.qmin
  else .fin neg (m + 2 ^ f.mw) (f.qmin + (e : Int) - 1)

def Fmt.subnormal (f : Fmt) (bits : Nat) : Bool :=
  bits / 2 ^ f.mw % 2 ^ f.ew == 0 && bits % 2 ^ f.mw != 0

/-- Operand read under `daz` (R25): a subnormal reads as zero of its sign and sets denorm. -/
def Fmt.daz (f : Fmt) (daz : Bool) (bits : Nat) : Nat × Flags :=
  if daz && f.flushes && f.subnormal bits then (bits / f.signBit % 2 * f.signBit, fDenorm) else (bits, 0)

/-! ## Rounding (R21 to R23) -/

/-- A rounding mode; `.sr` carries the 24 bits drawn (R23). -/
inductive RMode where
  | rn | rz | rp | rm
  | sr (bits24 : Nat)
deriving DecidableEq, Repr

/-- Whether the magnitude lo + rem/den (0 ≤ rem < den) goes to lo + 1. -/
def RMode.up (r : RMode) (neg : Bool) (lo rem den : Nat) : Bool :=
  match r with
  | .rn => decide (den < 2 * rem) || (2 * rem == den && lo % 2 == 1)
  | .rz => false
  | .rp => !neg && rem != 0
  | .rm => neg && rem != 0
  | .sr b => decide (b * den < rem * 2 ^ 24)

/-- Whether an overflow of this sign rounds away from zero (R22). -/
def RMode.away (r : RMode) (neg : Bool) : Bool :=
  match r with
  | .rn | .sr _ => true
  | .rz => false
  | .rp => !neg
  | .rm => neg

/-- num/den × 2^e as a fraction of the unit 2^q. -/
def scaleTo (num den : Nat) (e q : Int) : Nat × Nat :=
  if q ≤ e then (num * 2 ^ (e - q).toNat, den) else (num, den * 2 ^ (q - e).toNat)

/-- The exponent k with 2^k ≤ num/den × 2^e < 2^(k+1), for num > 0. -/
def magExp (num den : Nat) (e : Int) : Int :=
  let k : Int := (Nat.log2 num : Int) - (Nat.log2 den : Int) + e
  let p := scaleTo num den e k
  if p.2 ≤ p.1 then k else k - 1

/-- Settings of one rounding: mode, `.sat`, flush of tiny results. -/
structure Rnd where
  mode : RMode
  sat : Bool
  ftz : Bool
deriving DecidableEq, Repr

/-- An overflowed result (R22). -/
def Fmt.overflowed (f : Fmt) (r : Rnd) (neg : Bool) : Nat × Flags :=
  let s := if neg then f.signBit else 0
  if r.sat then (s + f.maxFinite, fOverflow ||| fInexact ||| fSat)
  else if r.mode.away neg then (if f.ieee then s + f.inf else f.qnan, fOverflow ||| fInexact)
  else (s + f.maxFinite, fOverflow ||| fInexact)

/-- Round the exact magnitude num/den × 2^e of a sign to the format (R21, R22, R25, R26). -/
def Fmt.round (f : Fmt) (r : Rnd) (neg : Bool) (num den : Nat) (e : Int) : Nat × Flags :=
  let s := if neg then f.signBit else 0
  if num == 0 then (s, 0) else
  let k := magExp num den e
  if r.ftz && f.flushes && decide (k < f.emin) then (s, fUnderflow ||| fInexact) else
  let q := if k - (f.mw : Int) < f.qmin then f.qmin else k - (f.mw : Int)
  let p := scaleTo num den e q
  let lo := p.1 / p.2
  let rem := p.1 % p.2
  let m := if r.mode.up neg lo rem p.2 then lo + 1 else lo
  let bits := (q - f.qmin).toNat * 2 ^ f.mw + m
  if f.maxFinite < bits then f.overflowed r neg else
  let u := scaleTo num den e (k - (f.mw : Int))
  let ulo := u.1 / u.2
  let urem := u.1 % u.2
  let um := if r.mode.up neg ulo urem u.2 then ulo + 1 else ulo
  let tiny := decide (k < f.emin) && !(k == f.emin - 1 && um == 2 ^ (f.mw + 1))
  let inexact := rem != 0
  (s + bits, (if inexact then fInexact else 0) ||| (if tiny && inexact then fUnderflow else 0))

/-- An infinite result under `.sat` or not (R22): used for conversions. -/
def Fmt.ofInf (f : Fmt) (sat neg : Bool) : Nat × Flags :=
  let s := if neg then f.signBit else 0
  if sat then (s + f.maxFinite, fSat)
  else if f.ieee then (s + f.inf, 0)
  else (f.qnan, fInvalid)

/-! ## Exact sums and products -/

/-- A dyadic number: m × 2^e. -/
structure Dy where
  m : Int
  e : Int
deriving DecidableEq, Repr

def Dy.add (a b : Dy) : Dy :=
  if a.e ≤ b.e then ⟨a.m + b.m * 2 ^ (b.e - a.e).toNat, a.e⟩ else ⟨a.m * 2 ^ (a.e - b.e).toNat + b.m, b.e⟩

def Dy.mul (a b : Dy) : Dy := ⟨a.m * b.m, a.e + b.e⟩

def FV.dy : FV → Dy
  | .fin neg m e => ⟨if neg then -(m : Int) else m, e⟩
  | _ => ⟨0, 0⟩

def FV.neg : FV → Bool
  | .fin n _ _ => n
  | .inf n => n
  | .nan _ => false

def FV.isNan : FV → Bool
  | .nan _ => true
  | _ => false

def FV.isInf : FV → Bool
  | .inf _ => true
  | _ => false

def FV.isZero : FV → Bool
  | .fin _ m _ => m == 0
  | _ => false

def FV.sig : FV → Bool
  | .nan s => s
  | _ => false

/-- Round an exact dyadic sum; `zneg` is the sign of an exactly zero sum (R21). -/
def Fmt.roundDy (f : Fmt) (r : Rnd) (x : Dy) (zneg : Bool) : Nat × Flags :=
  if x.m == 0 then ((if zneg then f.signBit else 0), 0) else f.round r (decide (x.m < 0)) x.m.natAbs 1 x.e

/-- The sign of an exactly zero sum of terms (R21): the common sign, else + but − under `.rm`. -/
def zeroSign (r : RMode) (signs : List Bool) : Bool :=
  match signs with
  | [] => false
  | s :: rest => if rest.all (· == s) then s else r == .rm

/-- Invalid is set by a signalling NaN among the operands (R14, R26). -/
def sigFlag (xs : List FV) : Flags := if xs.any FV.sig then fInvalid else 0

/-- A product of two values: NaN on ∞ × 0 (R182). -/
def FV.mul (a b : FV) : FV :=
  match a, b with
  | .nan s, _ => .nan s
  | _, .nan s => .nan s
  | .inf s, .inf t => .inf (s != t)
  | .inf s, .fin t m _ => if m == 0 then .nan false else .inf (s != t)
  | .fin s m _, .inf t => if m == 0 then .nan false else .inf (s != t)
  | .fin s m e, .fin t n g => .fin (s != t) (m * n) (e + g)

/-- The rounded sum of exact terms (R182, R187): NaN terms, opposite infinities, one infinity, or the exact sum
rounded once. -/
def Fmt.sum (f : Fmt) (r : Rnd) (xs : List FV) : Nat × Flags :=
  if xs.any FV.isNan then (f.qnan, 0)
  else
    let infs := xs.filter FV.isInf
    match infs with
    | [] => f.roundDy r (xs.foldl (fun acc x => acc.add x.dy) ⟨0, 0⟩) (zeroSign r.mode (xs.map FV.neg))
    | i :: rest =>
      if rest.all (fun j => j.neg == i.neg) then ((if i.neg then f.signBit else 0) + f.inf, 0) else (f.qnan, fInvalid)

/-- Whether a product is the invalid one, ∞ × 0. -/
def invalidMul (a b : FV) : Bool := (a.isInf && b.isZero) || (a.isZero && b.isInf)

/-- `FADD` in a format (R182). -/
def Fmt.fadd (f : Fmt) (r : Rnd) (a b : Nat) : Nat × Flags :=
  let x := f.value a
  let y := f.value b
  let z := f.sum r [x, y]
  (z.1, z.2 ||| sigFlag [x, y])

/-- `FMUL` in a format (R182). -/
def Fmt.fmul (f : Fmt) (r : Rnd) (a b : Nat) : Nat × Flags :=
  let x := f.value a
  let y := f.value b
  let z := f.sum r [x.mul y]
  (z.1, z.2 ||| sigFlag [x, y] ||| (if invalidMul x y then fInvalid else 0))

/-- `FMA` in a format (R182): one rounding. -/
def Fmt.fma (f : Fmt) (r : Rnd) (a b c : Nat) : Nat × Flags :=
  let x := f.value a
  let y := f.value b
  let w := f.value c
  let z := f.sum r [x.mul y, w]
  (z.1, z.2 ||| sigFlag [x, y, w] ||| (if invalidMul x y && !w.isNan then fInvalid else 0))

/-- `FDIV` (R182). -/
def Fmt.fdiv (f : Fmt) (r : Rnd) (a b : Nat) : Nat × Flags :=
  let x := f.value a
  let y := f.value b
  let neg := x.neg != y.neg
  let s := if neg then f.signBit else 0
  match x, y with
  | .nan _, _ => (f.qnan, sigFlag [x, y])
  | _, .nan _ => (f.qnan, sigFlag [x, y])
  | .inf _, .inf _ => (f.qnan, fInvalid)
  | .inf _, .fin _ _ _ => (s + f.inf, 0)
  | .fin _ _ _, .inf _ => (s, 0)
  | .fin _ m e, .fin _ n g =>
    if n == 0 then (if m == 0 then (f.qnan, fInvalid) else (s + f.inf, fDivzero))
    else f.round r neg m n (e - g)

/-- Integer square root by bits, from bit k down. -/
def isqrtFrom : Nat → Nat → Nat → Nat
  | 0, _, acc => acc
  | k + 1, n, acc => if (acc + 2 ^ k) * (acc + 2 ^ k) ≤ n then isqrtFrom k n (acc + 2 ^ k) else isqrtFrom k n acc

def isqrt (n : Nat) : Nat := isqrtFrom (Nat.log2 n / 2 + 1) n 0

/-- √(m × 2^e) as a dyadic with at least 40 extra bits and a sticky last bit, so that rounding it once to at most
24 bits rounds the exact root. -/
def sqrtDy (m : Nat) (e : Int) : Nat × Int :=
  let m1 := if e % 2 == 0 then m else 2 * m
  let e1 := if e % 2 == 0 then e else e - 1
  let m2 := m1 * 2 ^ 128
  let s := isqrt m2
  (2 * s + (if s * s == m2 then 0 else 1), (e1 - 128) / 2 - 1)

/-- `FSQRT` (R182). -/
def Fmt.fsqrt (f : Fmt) (r : Rnd) (a : Nat) : Nat × Flags :=
  match f.value a with
  | .nan s => (f.qnan, if s then fInvalid else 0)
  | .inf neg => if neg then (f.qnan, fInvalid) else (f.inf, 0)
  | .fin neg m e =>
    if m == 0 then (a, 0) else if neg then (f.qnan, fInvalid)
    else let p := sqrtDy m e; f.round r false p.1 1 p.2

/-- Order of two non-NaN values with −0 = +0. -/
def FV.lt (a b : FV) : Bool :=
  match a, b with
  | .inf s, .inf t => s && !t
  | .inf s, .fin _ _ _ => s
  | .fin _ _ _, .inf t => !t
  | .fin _ _ _, .fin _ _ _ => decide ((a.dy.add ⟨-b.dy.m, b.dy.e⟩).m < 0)
  | _, _ => false

/-- `FMIN` and `FMAX` (R184). -/
def Fmt.minmax (f : Fmt) (mx : Bool) (a b : Nat) : Nat × Flags :=
  let x := f.value a
  let y := f.value b
  let fl := sigFlag [x, y]
  if x.isNan && y.isNan then (f.qnan, fl)
  else if x.isNan then (b, fl)
  else if y.isNan then (a, fl)
  else
    let less := x.lt y || (x.isZero && y.isZero && x.neg && !y.neg)
    (if less != mx then a else if x.lt y == y.lt x && x.neg == y.neg then a else b, fl)

/-- `FSET` conditions (R185): codes of R181. -/
def fsetHolds (cc : FCc) (x y : FV) : Bool :=
  let un := x.isNan || y.isNan
  let lt := x.lt y
  let gt := y.lt x
  match cc with
  | .eq => !un && !lt && !gt
  | .ne => un || lt || gt
  | .lt => !un && lt
  | .le => !un && !gt
  | .gt => !un && gt
  | .ge => !un && !lt
  | .num => !un
  | .nan => un

/-- `FCLASS` (R186). -/
def Fmt.fclass (f : Fmt) (bits : Nat) : Nat :=
  match f.value bits with
  | .nan s => if s then 2 ^ 8 else 2 ^ 9
  | .inf n => if n then 1 else 2 ^ 7
  | .fin n m _ =>
    if m == 0 then (if n then 2 ^ 3 else 2 ^ 4)
    else if f.subnormal bits then (if n then 2 ^ 2 else 2 ^ 5)
    else (if n then 2 else 2 ^ 6)

/-- Round a magnitude to an integer (R21, R183, R30). -/
def roundInt (r : RMode) (neg : Bool) (m : Nat) (e : Int) : Nat × Bool :=
  let p := scaleTo m 1 e 0
  let lo := p.1 / p.2
  let rem := p.1 % p.2
  (if r.up neg lo rem p.2 then lo + 1 else lo, rem != 0)

/-- `FRND` (R183). -/
def Fmt.frnd (f : Fmt) (r : RMode) (a : Nat) : Nat × Flags :=
  match f.value a with
  | .nan s => (f.qnan, if s then fInvalid else 0)
  | .inf _ => (a, 0)
  | .fin neg m e =>
    if m == 0 then (a, 0)
    else ((f.round ⟨.rz, false, false⟩ neg (roundInt r neg m e).1 1 0).1, 0)

/-- `FSCALE` (R182). -/
def Fmt.fscale (f : Fmt) (r : Rnd) (a : Nat) (n : Int) : Nat × Flags :=
  match f.value a with
  | .nan s => (f.qnan, if s then fInvalid else 0)
  | .inf _ => (a, 0)
  | .fin neg m e =>
    if m == 0 then (a, 0)
    else
      -- beyond these limits every operand overflows or vanishes, whatever its exponent
      let n' := if n > 1000 then 1000 else if n < -1000 then -1000 else n
      f.round r neg m 1 (e + n')

/-! ## Conversions (R29, R30) -/

/-- Widening is exact (R29): every value of `f` is a value of `g`. -/
def Fmt.widensTo (f g : Fmt) : Bool := decide (f.ew ≤ g.ew) && decide (f.mw ≤ g.mw) && f != g

/-- Float to float (R22, R29). A conversion between equal formats rounds nothing, and a widened infinity stays infinite under `.sat`
too (log entry 9). -/
def Fmt.convert (src dst : Fmt) (r : Rnd) (bits : Nat) : Nat × Flags :=
  match src.value bits with
  | .nan s => (dst.qnan, if s then fInvalid else 0)
  | .inf n => dst.ofInf (r.sat && !src.widensTo dst) n
  | .fin n m e =>
    let r' := if src.widensTo dst || src == dst then { r with ftz := false } else r
    dst.round r' n m 1 e

/-- Smallest and largest value of an integer type of w bits (R15). -/
def intMin (sgn : Bool) (w : Nat) : Int := if sgn then -(2 ^ (w - 1) : Nat) else 0
def intMax (sgn : Bool) (w : Nat) : Int := if sgn then (2 ^ (w - 1) - 1 : Nat) else (2 ^ w - 1 : Nat)

/-- Float to integer (R30). -/
def Fmt.toInt (f : Fmt) (r : RMode) (sgn : Bool) (w : Nat) (bits : Nat) : Int × Flags :=
  match f.value bits with
  | .nan _ => (0, fInvalid)
  | .inf n => (if n then intMin sgn w else intMax sgn w, fInvalid)
  | .fin n m e =>
    let p := roundInt r n m e
    let v : Int := if n then -(p.1 : Int) else p.1
    if v > intMax sgn w then (intMax sgn w, fSat)
    else if v < intMin sgn w then (intMin sgn w, fSat)
    else (v, if p.2 then fInexact else 0)

/-- Integer to float (R30). -/
def Fmt.ofInt (f : Fmt) (r : Rnd) (v : Int) : Nat × Flags :=
  if v == 0 then (0, 0) else f.round r (decide (v < 0)) v.natAbs 1 0

/-! ## The 4-bit block format (R17 to R20) -/

/-- Twice-eight-scaled magnitudes of the codes of R18: values are eighths. -/
def codeMags (ty : BTy) : List Nat :=
  match ty with
  | .int => [0, 8, 16, 24, 32, 40, 48, 56]
  | .e2m1 => [0, 4, 8, 12, 16, 24, 32, 48]
  | .pow2 => [0, 1, 2, 4, 8, 16, 32, 64]
  | .hyb => [0, 8, 16, 24, 32, 48, 64, 128]

/-- A code's value: sign and magnitude in eighths (R18). -/
def codeValue (ty : BTy) (c : Nat) : Bool × Nat :=
  match ty with
  | .int => if c < 8 then (false, 8 * c) else (true, 8 * (16 - c))
  | t => (decide (8 ≤ c), (codeMags t).getD (c % 8) 0)

/-- The element of a block (R17, R19). -/
def blockElem (scale c : Nat) : FV :=
  let ty := match scale / 64 % 4 with | 0 => BTy.int | 1 => .e2m1 | 2 => .pow2 | _ => .hyb
  let E := scale % 64
  if E == 0 then .fin false 0 0
  else if E == 63 then .nan false
  else let v := codeValue ty c; .fin v.1 v.2 ((E : Int) - 35)

def FV.roundTo (x : FV) (f : Fmt) (r : Rnd) : Nat × Flags :=
  match x with
  | .nan _ => (f.qnan, 0)
  | .inf n => f.ofInf r.sat n
  | .fin n m e => f.round r n m 1 e

def BTy.code2 : BTy → Nat
  | .int => 0 | .e2m1 => 1 | .pow2 => 2 | .hyb => 3

/-- |x| ≤ k × 2^E-scale: compares m × 2^e with k × 2^(E−32). -/
def magLe (m : Nat) (e : Int) (k E : Nat) : Bool :=
  let p := scaleTo m 1 e ((E : Int) - 32)
  decide (p.1 ≤ k * p.2)

/-- Whether E fits a value under the type's condition (R20 step 5). -/
def fitsE (ty : BTy) (E : Nat) (x : FV) : Bool :=
  match x with
  | .inf _ => false
  | .nan _ => true
  | .fin neg m e =>
    match ty with
    | .int => magLe m e (if neg then 8 else 7) E
    | .e2m1 => magLe m e 6 E
    | .pow2 => magLe m e 8 E
    | .hyb => magLe m e 16 E

/-- The smallest E from 1 to 62 that fits every value, else 62 (R20 step 5). -/
def chooseE (ty : BTy) (xs : List FV) : Nat :=
  match (List.range 62).find? (fun i => xs.all (fitsE ty (i + 1))) with
  | some i => i + 1
  | none => 62

/-- Round a finite value divided by the scale to a code (R20 step 6, R21): the grid magnitudes around the exact
quotient, ties to the even index or even integer. -/
def quantCode (ty : BTy) (r : RMode) (E : Nat) (neg : Bool) (m : Nat) (e : Int) : Nat × Flags :=
  -- the quotient in eighths is p.1 / p.2
  let p := scaleTo m 1 e ((E : Int) - 35)
  let int := ty == BTy.int
  let grid : List Nat := if int && neg then (List.range 9).map (8 * ·) else codeMags ty
  let enc (i : Nat) : Nat := if int then (if neg then (16 - i) % 16 else i) else (if neg then 8 + i else i)
  let top := grid.length - 1
  if p.2 * grid.getD top 0 < p.1 then (enc top, fSat ||| fInexact)
  else
    let lo := (grid.filter (fun g => decide (g * p.2 ≤ p.1))).length - 1
    let gl := grid.getD lo 0
    let gh := grid.getD (lo + 1) 0
    let rem := p.1 - gl * p.2
    if rem == 0 then (enc lo, 0)
    else if r.up neg lo rem ((gh - gl) * p.2) then (enc (lo + 1), fInexact) else (enc lo, fInexact)

/-- The code of one element of a block at a scale (R20 steps 3 and 6). An infinite one is inexact as well as clamped (log entry
51). -/
def quantElem (ty : BTy) (E : Nat) (x : FV) (r : RMode) : Nat × Flags :=
  match x with
  | .inf n => (if ty == BTy.int then (if n then 8 else 7) else (if n then 15 else 7), fSat ||| fInexact)
  | .fin n m e => if m == 0 && ty == BTy.int then (0, 0) else quantCode ty r E n m e
  | .nan _ => (0, 0)

/-- Quantisation of a block (R20): the scale byte, the code of each element with its flags, and the block's own flag. `modes`
gives the mode of each element (R23 draws bits per element). -/
def quantBlock (ty : BTy) (sat : Bool) (xs : List FV) (modes : List RMode) : Nat × List (Nat × Flags) × Flags :=
  let none : List (Nat × Flags) := xs.map (fun _ => (0, 0))
  if xs.any FV.isNan || (!sat && xs.any FV.isInf) then (BTy.code2 ty * 64 + 63, none, fInvalid)
  else if xs.all FV.isZero then (BTy.code2 ty * 64, none, 0)
  else
    let E := chooseE ty xs
    (BTy.code2 ty * 64 + E, (xs.zip modes).map (fun p => quantElem ty E p.1 p.2), 0)

/-- A block's scale byte, codes and flags. -/
def quantise (ty : BTy) (sat : Bool) (xs : List FV) (modes : List RMode) : Nat × List Nat × Flags :=
  let q := quantBlock ty sat xs modes
  (q.1, q.2.1.map (·.1), q.2.1.foldl (fun acc x => acc ||| x.2) q.2.2)

/-! ## Stochastic rounding (R23, R24) -/

/-- One step of a lane's generator. -/
def rngStep (g : Word) : Word :=
  let a := g ^^^ (g <<< 13)
  let b := a ^^^ (a >>> 17)
  b ^^^ (b <<< 5)

/-- The 24 bits drawn by a step: bits [31:8] of the new state. -/
def rngBits (g : Word) : Nat := (rngStep g).toNat / 256

/-- The state of a lane after a write of the seed (R24). -/
def seedLane (seed : Word) (lane : Nat) : Word :=
  let g := seed ^^^ BitVec.ofNat 32 ((lane + 1) * 0x9E3779B9)
  if g == 0 then 1 else g

end Sys2Proof.Machine
end

