-- ==== Sys2Proof/Machine/Operands.lean ====
section
/-! DEFINITION. Operand forms (R38 to R41, R44, R162): reading vector, scalar and predicate registers and
immediates, the executing lanes of a word, the effect of a word on registers, the vector registers a word names,
and the counter it adds to (R132). -/

namespace Sys2Proof.Machine

/-! ## Reading registers -/

/-- A vector register of a lane; vz (255) reads zero (R38). -/
def Group.rv (g : Group) (n l : Nat) : Word := if n = 255 then 0 else g.v.getD (n * 64 + l) 0

/-- A scalar register; sz (63) reads zero (R38). -/
def Group.rs (g : Group) (n : Nat) : Word := if n = 63 then 0 else g.s.getD n 0

/-- A predicate bit; pt (7) reads true (R38). -/
def Group.rp (g : Group) (n l : Nat) : Bool := if n = 7 then true else Mask.has (g.p.getD n 0) l

/-- A 64-bit pair: even register low (R16, R44). -/
def Group.rv64 (g : Group) (n l : Nat) : DWord := if n = 255 then 0 else g.rv (n + 1) l ++ g.rv n l

def Group.rs64 (g : Group) (n : Nat) : DWord := if n = 63 then 0 else g.rs (n + 1) ++ g.rs n

end Sys2Proof.Machine

namespace Sys2Proof
open Machine

def Reg.get (g : Group) (l : Nat) : Reg → Word
  | .v n => g.rv n.toNat l
  | .s n => g.rs n.toNat

def Reg.get64 (g : Group) (l : Nat) : Reg → DWord
  | .v n => g.rv64 n.toNat l
  | .s n => g.rs64 n.toNat

/-- Register k places after a register: of a quad or a vector run; vz and sz stay themselves. -/
def Reg.plus (r : Reg) (k : Nat) : Reg :=
  match r with
  | .v n => if n.toNat = 255 then .v n else .v (n + BitVec.ofNat 8 k)
  | .s n => if n.toNat = 63 then .s n else .s (n + BitVec.ofNat 6 k)

end Sys2Proof

namespace Sys2Proof.Machine

/-- The value of an immediate as source b (R40). -/
inductive ImmKind where
  | sext | zext | fp | pk
deriving DecidableEq, Repr

def ImmKind.word (k : ImmKind) (x : BitVec 16) : Word :=
  match k with
  | .sext => x.signExtend 32
  | .zext => x.setWidth 32
  | .fp => x ++ (0 : BitVec 16)
  | .pk => x ++ x

def ImmKind.dword (k : ImmKind) (x : BitVec 16) : DWord :=
  match k with
  | .sext => x.signExtend 64
  | _ => x.setWidth 64

end Sys2Proof.Machine

namespace Sys2Proof
open Machine

/-- A source of a lane (R39, R40). -/
def Src.get (g : Group) (l : Nat) (k : ImmKind) : Src → Word
  | .v n => g.rv n.toNat l
  | .s n => g.rs n.toNat
  | .imm x => k.word x

def Src.get64 (g : Group) (l : Nat) (k : ImmKind) : Src → DWord
  | .v n => g.rv64 n.toNat l
  | .s n => g.rs64 n.toNat
  | .imm x => k.dword x

/-! ## Lanes -/

end Sys2Proof

namespace Sys2Proof.Machine

def deadLane : Lane := ⟨0, .exited, .none, .none, none, none, none, [], 0, 0, 0, false⟩

def Group.lane (g : Group) (l : Nat) : Lane := (g.lanes[l]?).getD deadLane

def Group.isHelper (g : Group) (l : Nat) : Bool := (g.lane l).st == .helper

def Group.isRunning (g : Group) (l : Nat) : Bool := (g.lane l).st == .running

/-- Every lane number of the group, 0 up to its visible width. -/
def Group.laneIds (g : Group) : List Nat := List.range g.width

/-- The lanes of a quad (R141). -/
def quadLanes (l : Nat) : List Nat := [l / 4 * 4, l / 4 * 4 + 1, l / 4 * 4 + 2, l / 4 * 4 + 3]

/-- The anchor of a helper lane: the lowest lane of its quad that is neither EXITED nor HELPER (R142). -/
def Group.anchor (g : Group) (l : Nat) : Option Nat :=
  (quadLanes l).find? (fun i => !((g.lane i).st == .exited) && !((g.lane i).st == .helper))

def Group.updLane (g : Group) (l : Nat) (f : Lane → Lane) : Group := { g with lanes := listUpd g.lanes l f }

def Group.updLanes (g : Group) (m : Mask) (f : Lane → Lane) : Group :=
  { g with lanes := g.lanes.mapIdx (fun i x => if Mask.has m i then f x else x) }

/-- The lanes of a mask that satisfy a condition. -/
def maskFilter (m : Mask) (f : Nat → Bool) : Mask := Mask.ofLanes ((Mask.lanes m).filter f)

/-- Lanes of the group that satisfy a condition, as a mask. -/
def Group.mask (g : Group) (f : Nat → Bool) : Mask := Mask.ofLanes (g.laneIds.filter f)

/-- The lanes of the fragment whose guard is true (R41), helper lanes included. -/
def Group.guarded (g : Group) (frag : Mask) (gd : Guard) : Mask :=
  if gd.pred = 7 && !gd.neg then frag
  else maskFilter frag (fun l => g.rp gd.pred.toNat l != gd.neg)

/-- The non-helper lanes of a mask: the executing lanes of R138, the participants of R145. -/
def Group.nonHelpers (g : Group) (m : Mask) : Mask := maskFilter m (fun l => !g.isHelper l)

/-! ## Effects on registers -/

/-- What a word writes: vector registers by register and lane, scalar registers, predicate bits by register and
lane, flags, and generator states by lane. -/
structure Eff where
  v : List (Nat × Nat × Word) := []
  s : List (Nat × Word) := []
  p : List (Nat × Nat × Bool) := []
  flags : Flags := 0
  rng : List (Nat × Word) := []
deriving DecidableEq, Repr

def Eff.append (a b : Eff) : Eff := ⟨a.v ++ b.v, a.s ++ b.s, a.p ++ b.p, a.flags ||| b.flags, a.rng ++ b.rng⟩

/-- Write a register of a lane; vz and sz discard the write (R38). -/
def wReg (d : Reg) (l : Nat) (x : Word) : Eff :=
  match d with
  | .v n => if n.toNat = 255 then {} else { v := [(n.toNat, l, x)] }
  | .s n => if n.toNat = 63 then {} else { s := [(n.toNat, x)] }

/-- Write a pair (R16, R44). -/
def wReg64 (d : Reg) (l : Nat) (x : DWord) : Eff :=
  match d with
  | .v n => if n.toNat = 255 then {} else { v := [(n.toNat, l, x.setWidth 32), (n.toNat + 1, l, (x >>> 32).setWidth 32)] }
  | .s n => if n.toNat = 63 then {} else { s := [(n.toNat, x.setWidth 32), (n.toNat + 1, (x >>> 32).setWidth 32)] }

/-- Write a predicate bit; pt discards the write (R38, R160). -/
def wPred (p : BitVec 3) (l : Nat) (b : Bool) : Eff := if p = 7 then {} else { p := [(p.toNat, l, b)] }

def wFlags (f : Flags) : Eff := { flags := f }

/-- The union of the effects of lanes, in ascending order. -/
def Eff.lanes (ls : List Nat) (f : Nat → Eff) : Eff := ls.foldl (fun acc l => acc.append (f l)) {}

/-- Run a word with a register destination: per lane in the executing lanes, or once for a scalar destination when
some executing lane is no helper (R39). -/
def runDst (g : Group) (ex : Mask) (d : Reg) (f : Nat → Eff) : Eff :=
  match d with
  | .v _ => Eff.lanes (Mask.lanes ex) f
  | .s _ => match Mask.lanes (g.nonHelpers ex) with
    | [] => {}
    | l :: _ => f l

/-- Write the registers of a group. -/
def Group.apply (g : Group) (e : Eff) : Group :=
  { g with
    v := e.v.foldl (fun m w => SMap.put m (w.1 * 64 + w.2.1) w.2.2 0) g.v
    s := e.s.foldl (fun m w => SMap.put m w.1 w.2 0) g.s
    p := e.p.foldl (fun m w =>
      let old := SMap.getD m w.1 0
      SMap.put m w.1 (if w.2.2 then old ||| Mask.one w.2.1 else old &&& ~~~(Mask.one w.2.1)) 0) g.p
    fpFlags := raiseFlags g.fpFlags e.flags
    lanes := e.rng.foldl (fun ls w => listUpd ls w.1 (fun x => { x with rng := w.2 })) g.lanes }

/-- The group as its shadow lanes hold it in protected mode (R113): the primary values but for those that differ. -/
def Group.shadowView (g : Group) : Group := { g with v := g.shadow.foldl (fun m w => SMap.put m w.1 w.2 0) g.v }

/-- Run a word's effect in the primary lanes and, in protected mode, in the shadow lanes. -/
def Group.run (g : Group) (f : Group → Eff) : Group :=
  let e := f g
  let g1 := g.apply e
  if g.shadow.isEmpty then g1
  else
    let sv := (g.shadowView.apply (f g.shadowView)).v
    let keys := (g.shadow.map (·.1)) ++ e.v.map (fun w => w.1 * 64 + w.2.1)
    { g1 with shadow := keys.foldl (fun m k =>
        if SMap.getD sv k 0 = SMap.getD g1.v k 0 then SMap.del m k else SMap.set m k (SMap.getD sv k 0)) g.shadow }

/-! ## The vector registers a word names (R44, R161) -/

end Sys2Proof.Machine

namespace Sys2Proof
open Machine

def Src.vreg (n : Nat) : Src → List (Nat × Nat)
  | .v k => if k.toNat = 255 then [] else [(k.toNat, n)]
  | _ => []

def Reg.vreg (n : Nat) : Reg → List (Nat × Nat)
  | .v k => if k.toNat = 255 then [] else [(k.toNat, n)]
  | .s _ => []

end Sys2Proof

namespace Sys2Proof.Machine

def vec (k : BitVec 8) (n : Nat) : List (Nat × Nat) := Reg.vreg n (.v k)

def scopeRegs (sc : Option (BitVec 8)) : List (Nat × Nat) :=
  match sc with
  | some k => vec k 2
  | none => []

def pr (b : Bool) : Nat := if b then 2 else 1

end Sys2Proof.Machine

namespace Sys2Proof
open Machine

def Op1.vregs (o : Op1) (d a : Nat) : List (Nat × Nat) := o.d.vreg d ++ o.a.vreg a
def Op2.vregs (o : Op2) (d a b : Nat) : List (Nat × Nat) := o.d.vreg d ++ o.a.vreg a ++ o.b.vreg b
def Op3.vregs (o : Op3) (d a b c : Nat) : List (Nat × Nat) := o.d.vreg d ++ o.a.vreg a ++ o.b.vreg b ++ o.c.vreg c

end Sys2Proof

namespace Sys2Proof.Machine

/-- Registers of a data operand of a width (R230). -/
def widthRegs (w : Width) : Nat :=
  match w with
  | .b64 => 2
  | .b128 => 4
  | _ => 1

end Sys2Proof.Machine

namespace Sys2Proof
open Machine

def MAddr.vregs (m : MAddr) (base : Nat) : List (Nat × Nat) := m.base.vreg base ++ m.off.vreg 1

def PSlot.vregs (p : PSlot) : List (Nat × Nat) :=
  match p.op with
  | .nop => []
  | .rds _ => vec p.d 1
  | op => vec p.d (pr op.dPair) ++ p.a.vreg (pr op.aPair)

/-- Runs of vector registers (first, count) that a word names; vz is none (R44). -/
def Instr.vregs : Instr → List (Nat × Nat)
  | .mov b o | .abs b _ o | .brev b o => o.vregs (pr b) (pr b)
  | .popc b o | .clz b o => o.vregs 1 (pr b)
  | .add t _ o | .sub t _ o | .mul t _ o | .div t _ o | .min t o | .max t o => o.vregs (pr t.wide) (pr t.wide) (pr t.wide)
  | .mulh t w o => o.vregs (pr (t.wide || w)) (pr t.wide) (pr t.wide)
  | .mad t _ w o => o.vregs (pr (t.wide || w)) (pr t.wide) (pr t.wide) (pr (t.wide || w))
  | .and b o | .or b o | .xor b o | .sel b _ _ o => o.vregs (pr b) (pr b) (pr b)
  | .bool3 b _ o => o.vregs (pr b) (pr b) (pr b) (pr b)
  | .shl _ b o | .shr _ b o | .sar _ b o | .bfx _ b o | .bfi b o => o.vregs (pr b) (pr b) 1
  | .xtr _ o | .bytsel o | .idp4 _ _ _ _ o | .fma _ _ o | .pkfma _ _ _ o | .fdp2 _ _ _ o => o.vregs 1 1 1 1
  | .iset _ t _ d a b =>
      (match d with | .r r => r.vreg 1 | .p _ => []) ++ a.vreg (pr t.wide) ++ b.vreg (pr t.wide)
  | .fset _ _ d a b => (match d with | .r r => r.vreg 1 | .p _ => []) ++ a.vreg 1 ++ b.vreg 1
  | .lea _ _ o => o.vregs 2 2 1
  | .pmov _ k =>
      match k with
      | .tov d _ => vec d 1
      | .fromv _ a => vec a 1
      | _ => []
  | .rds b _ d _ => d.vreg (pr b)
  | .fadd _ _ o | .fmul _ _ o | .fmin o | .fmax o | .pkadd _ _ _ o | .pkmul _ _ _ o | .pkmm _ _ o | .fscale _ _ o
  | .fdiv _ _ o => o.vregs 1 1 1
  | .fclass _ o | .frnd _ o | .frcp o | .frsq o | .fsqrt _ o | .fex2 o | .flg2 o | .fsin o | .fcos o
  | .ftanh o => o.vregs 1 1
  | .tbl _ d a _ => vec d 1 ++ vec a 1
  | .cvt dst src _ _ _ _ _ _ d a => d.vreg (pr (dst.bits == 64)) ++ a.vreg (pr (src.bits == 64))
  | .cvtq _ _ _ _ _ _ _ _ d a => vec d 1 ++ vec a 1
  | .cvtd _ _ _ _ _ _ d a b => vec d 1 ++ vec a 1 ++ b.vreg 1
  | .xlane _ _ b _ d a k sc => vec d (pr b) ++ vec a (pr b) ++ k.vreg 1 ++ scopeRegs sc
  | .qx _ b _ d a => vec d (pr b) ++ vec a (pr b)
  | .vote _ _ _ _ sc => scopeRegs sc
  | .ballot _ d _ sc => d.vreg 2 ++ scopeRegs sc
  | .matchLanes b _ d a => vec d 2 ++ vec a (pr b)
  | .redux _ _ _ _ d a sc => d.vreg 1 ++ vec a 1 ++ scopeRegs sc
  | .v2s b _ _ a _ => vec a (pr b)
  | .mask _ _ d _ => d.vreg 2
  | .brx _ t | .callx _ t _ => t.vreg 2
  | .eret _ m =>
      match m with
      | .x va _ _ => vec va 2
      | _ => []
  | .ld w _ _ _ d a => d.vreg (widthRegs w) ++ a.vregs 2
  | .st w _ _ _ d a => vec d (widthRegs w) ++ a.vregs 2
  | .lds w _ d a | .ldc w _ _ d a => d.vreg (widthRegs w) ++ a.vregs 1
  | .sts w _ d a => vec d (widthRegs w) ++ a.vregs 1
  | .ldfe _ sc w _ _ d a => d.vreg (widthRegs w) ++ a.vregs (pr (!sc))
  | .stfe sc w _ _ d a => vec d (widthRegs w) ++ a.vregs (pr (!sc))
  | .pref _ _ _ a => a.vregs 2
  | .flushH _ a | .invalH _ a =>
      match a with
      | some m => m.vregs 2
      | none => []
  | .atom _ t _ _ d a c => d.vreg (pr t.wide) ++ a.vregs 2 ++ c.vreg (pr t.wide)
  | .atomc w _ _ d a b c => d.vreg (widthRegs w) ++ a.vreg 2 ++ b.vreg (widthRegs w) ++ c.vreg (widthRegs w)
  | .red _ t _ _ d a => vec d (pr t.wide) ++ a.vregs 2
  | .mcas _ _ d a n => d.vreg 1 ++ a.vreg 2 ++ n.vreg 1
  | .mvec _ _ n d _ _ => vec d (n.toNat + 1)
  | .cld w _ d a => d.vreg (widthRegs w) ++ a.vregs 1
  | .cont _ a _ => vec a 4
  | .csrr _ d _ | .movi _ d _ | .fmovi _ d _ => d.vreg 1
  | .movh _ d _ => d.vreg 2
  | .addi b _ d _ => d.vreg (pr b)
  | .ldL w _ d _ _ | .stL w _ d _ _ => d.vreg (widthRegs w)
  | .pair a b => a.vregs ++ b.vregs
  | _ => []

/-- Every vector register a word names lies below the kernel's count (R44). -/
def Instr.regsOk (i : Instr) (regs : Nat) : Bool := i.vregs.all (fun r => decide (r.1 + r.2 ≤ regs))

end Sys2Proof

namespace Sys2Proof.Machine

/-- The register lines of a vector register (R161). -/
def regLines (width n : Nat) : List Nat := if width = 16 then [n / 2] else if width = 32 then [n] else [2 * n, 2 * n + 1]

end Sys2Proof.Machine

namespace Sys2Proof
open Machine

/-- The register lines a word needs (R161). -/
def Instr.lines (i : Instr) (width : Nat) : List Nat :=
  i.vregs.flatMap (fun r => (List.range r.2).flatMap (fun k => regLines width (r.1 + k)))

/-! ## Counters (R132) -/

def POp.ctr : POp → Option Ctr
  | .ld | .lds | .ldc _ => some .ld
  | .st | .sts => some .st
  | _ => none

/-- The counter a word adds to; the spill stores of calls count when they occur (R154). -/
def Instr.ctr : Instr → Option Ctr
  | .ld .. | .ldL .. | .lds .. | .ldc .. | .ldfe .. | .ldp .. | .atom .. | .atomc .. | .mcas .. | .cld .. | .tbld .. => some .ld
  | .st .. | .stL .. | .sts .. | .stfe .. | .stp .. | .red .. | .flushH .. | .invalH .. | .qpush .. | .launch ..
  | .cont .. => some .st
  | .tcpy .. | .gath .. | .scat .. | .fill .. | .coll .. => some .cp
  | .mfmt .. | .mzero .. | .mma .. | .mmap .. | .mdrn .. | .mlda .. | .mvec .. => some .mx
  | .cbw .. | .cbc .. | .cba .. | .cbpt .. => some .bc
  | .pair a b => (a.op.ctr).or b.op.ctr
  | _ => none

def POp.isMem : POp → Bool
  | .ld | .st | .lds | .sts | .ldc _ => true
  | _ => false

/-- A word that accesses memory by threads, and so needs room in the replay buffer (R126, R131); a call or return does so only where
it spills or refills. -/
def Instr.isMem : Instr → Bool
  | .ld .. | .ldL .. | .lds .. | .ldc .. | .ldfe .. | .ldp .. | .atom .. | .atomc .. | .mcas .. | .tbld ..
  | .st .. | .stL .. | .sts .. | .stfe .. | .stp .. | .red .. | .flushH .. | .invalH .. | .qpush .. | .launch ..
  | .cont .. | .mfmt .. => true
  | .pair a b => a.op.isMem || b.op.isMem
  | _ => false

/-- The accumulator slot a word names (R116). -/
def Instr.slot : Instr → Option Nat
  | .mzero s | .mdrn _ s _ | .mlda s _ | .mvec _ _ _ _ _ s => some s.toNat
  | .mma p | .mmap p => some p.slot.toNat
  | _ => none

/-- The bit of FEATACC a word needs (R385): the words of each feature are the model's reading (log entry 10). -/
def Instr.feature : Instr → Option Nat
  | .mcas .. => some 13
  | .coll .. => some 12
  | .cvtq .. | .cvtd .. => some 11
  | .cvt _ _ _ _ _ sr _ _ _ _ => if sr then some 10 else none
  | .cont .. => some 8
  | .mmap .. => some 7
  | .cbw .. | .cbc .. | .cba .. | .cld .. | .peal .. | .pfence .. | .cbpt .. => some 3
  | _ => none

/-- A second feature bit: stochastic rounding in `CVTQ.sr` (R385). -/
def Instr.feature2 : Instr → Option Nat
  | .cvtq _ _ _ sr _ _ _ _ _ _ => if sr then some 10 else none
  | _ => none

end Sys2Proof
end

