-- ==== Sys2Proof/Machine/Find.lean ====
section
/-! DEFINITION. Finding and changing the objects of the state, and the package's clock (R8). -/

namespace Sys2Proof.Machine

/-- The outcome of a step. -/
abbrev Out := Host.Outcome State Fault Refusal

/-- An event that does not occur in this state. -/
def notNow (row : String) : Out := .fault (.notEnabled row)

/-- An event with its condition. -/
def event (row : String) (c : Bool) (t : State) : Out := if c then .next t else notNow row

/-! ## Finding and changing objects -/

def State.grp (s : State) (g : Nat) : Option Group := s.groups.find g
def State.setGrp (s : State) (g : Nat) (x : Group) : State := { s with groups := s.groups.set g x }
def State.updGrp (s : State) (g : Nat) (f : Group → Group) : State := { s with groups := s.groups.upd g f }
def State.updGrid (s : State) (g : Nat) (f : Grid → Grid) : State := { s with grids := s.grids.upd g f }
def State.updBlk (s : State) (b : Nat) (f : Block → Block) : State := { s with blocks := s.blocks.upd b f }
def State.updCtx (s : State) (c : Nat) (f : Ctx → Ctx) : State := { s with ctxs := s.ctxs.upd c f }
def State.updLd (s : State) (l : Nat) (f : LDev → LDev) : State := { s with ldevs := s.ldevs.upd l f }

/-- A number of its own for a new object. -/
def State.fresh (s : State) : Nat × State := (s.nextId, { s with nextId := s.nextId + 1 })

/-- The grid, context and block of a group. -/
def State.gridOf (s : State) (g : Group) : Option Grid := s.grids.find g.grid
def State.ctxNum (s : State) (g : Group) : Nat := ((s.gridOf g).map (·.ctx)).getD 0
def State.ctxOf (s : State) (g : Group) : Option Ctx := s.ctxs.find (s.ctxNum g)
def State.ldOf (s : State) (g : Group) : Nat := ((s.gridOf g).map (·.ld)).getD 0
def State.blkOf (s : State) (g : Group) : Option Block := s.blocks.find g.blk

def emptyDesc : Desc := ⟨0, 0, 0, 0, 16, 1, 1, 0, 0, false, false, false, false, false, false, 0, 0, 0⟩

def State.descOf (s : State) (g : Group) : Desc := ((s.gridOf g).map (·.desc)).getD emptyDesc

def emptyCore : Core := ⟨false, none, none, [], [], [], [], []⟩
def State.core (s : State) (c : Nat) : Core := s.cores.getD c emptyCore
def State.setCore (s : State) (c : Nat) (x : Core) : State := { s with cores := s.cores.put c x emptyCore }

/-- A logical device before it is bound and after its reset (R383, R386, R388). FEATACC is 0, a value the spec does not state (log
entry 2). -/
def emptyLDev : LDev :=
  ⟨false, 0, 0, 0, 0, 0, false, false, 0, [], [], [], [], [], 0, 0, [], []⟩
def State.ld (s : State) (l : Nat) : LDev := s.ldevs.getD l emptyLDev

/-- A feature bit the driver accepted (R385). -/
def State.feature (s : State) (ld : Nat) (bit : Nat) : Bool := (s.ld ld).feat.getLsbD bit

/-- The cluster and the die of a core (R7). -/
def clusterOf (core : Nat) : Nat := core / 4
def dieOf (core : Nat) : Nat := core / 80

/-- The package timebase in ticks of 1 ns, from the core clock of 2.1 GHz (R8). -/
def timebaseOf (clk : Nat) : Nat := clk * 10 / 21

def State.timebase (s : State) : Nat := timebaseOf s.clk

end Sys2Proof.Machine
end

