-- ==== Sys2Proof/Machine/Store.lean ====
section
/-! DEFINITION. The spaces of memory (R214): the bell window (R93, R94), host memory in the local arrays and the bridge (R223),
what a thread reads, and writes with their visibility (R255), a checkpointed block's held stores among them (R213). -/

namespace Sys2Proof.Machine

/-! ## The bell window (R93, R94, R224) -/

def QSt.code : QSt → Nat
  | .idle => 1 | .active => 2 | .blocked => 3 | .suspended => 4 | .error => 5

/-- A queue's 64-byte bell record (R94); a RETIRED queue's counts and error stay as they were. -/
def bellRecord (d : LDev) (q : Nat) : List Byte :=
  match d.queues.find q with
  | none => match d.retired.find q with
    | none => leBytes 64 0
    | some x => leBytes 8 x.tail ++ leBytes 8 x.head ++ leBytes 1 0 ++ leBytes 1 x.error ++ leBytes 46 0
  | some x => leBytes 8 x.tail ++ leBytes 8 x.head ++ leBytes 1 (QSt.code x.st) ++ leBytes 1 x.error ++ leBytes 2 0 ++
      leBytes 4 x.started.length ++ leBytes 40 0

def emptyRing : Ring := ⟨0, 0, 0, 0, 0, 0, false⟩

/-- A ring descriptor's 32 bytes (R383). -/
def ringBytes (r : Ring) : List Byte :=
  leBytes 8 r.base ++ leBytes 1 r.order ++ leBytes 1 r.vector ++ leBytes 2 0 ++ leBytes 4 r.lost ++ leBytes 8 r.tail ++
  leBytes 8 r.head

/-- A byte of a logical device's slice (R93). -/
def bellByte (d : LDev) (off : Nat) : Byte :=
  if off < 0x1000 then ((bellRecord d (off / 64))[off % 64]?).getD 0
  else if off < 0x3000 then ((leBytes 8 (d.words.getD ((off - 0x1000) / 8) 0).toNat)[off % 8]?).getD 0
  else if off < 0x30E0 then ((ringBytes (d.rings.getD ((off - 0x3000) / 32) emptyRing))[off % 32]?).getD 0
  else 0

/-- The bytes of the slice that accept device writes: the completion words (R94). -/
def bellOpen (off : Nat) : Bool := decide (0x1000 ≤ off) && decide (off < 0x3000)

/-- A device write to a byte of the slice; the others ignore it (R94). -/
def bellWriteByte (d : LDev) (off : Nat) (b : Byte) : LDev :=
  if bellOpen off then
    let i := (off - 0x1000) / 8
    let sh := off % 8 * 8
    let old := d.words.getD i 0
    { d with words := d.words.put i ((old &&& ~~~((0xFF : DWord) <<< sh)) ||| (b.setWidth 64 <<< sh)) 0 }
  else d

/-! ## What engines read -/

/-- A place as an engine operation of a block knows it. -/
def srcKey (blk : Nat) : Phys → Nat
  | .dev pa => pa
  | .host pa => 2 ^ 61 + pa
  | .scratch off => 2 ^ 62 + blk * 2 ^ 32 + off
  | _ => 2 ^ 100

/-- Bytes are about to be overwritten by an operation of a group, or by another party (group 0): engine operations that still
have to read remember them (R260, R275). -/
def State.note (s : State) (gid op : Nat) (cells : List (Nat × Byte)) : State :=
  if s.olds.isEmpty then s
  else { s with olds := s.olds.map (fun o => { o with log := o.log ++ cells.map (fun c =>
    ⟨s.clk, c.1, c.2, gid != 0 && o.grp == gid && decide (o.op < op)⟩) }) }

/-! ## Host memory in the local arrays (R218, R223) -/

/-- The core whose array holds host lines for a core's blocks: with a fused L1 the cluster's four arrays act as one (R218). -/
def arrayCore (fused : Bool) (core : Nat) : Nat := if fused then core / 4 * 4 else core

def State.l1Core (s : State) (g : Group) : Nat := arrayCore (s.descOf g).fused g.core

/-- Write bytes of host memory (R223): by the bridge, on behalf of any agent. -/
def State.hostWrite (s : State) (bs : List (Nat × Byte)) : State :=
  { s.note 0 0 (bs.map (fun b => (2 ^ 61 + b.1, Memory.get s.hostMem b.1))) with hostMem := Memory.writeAll s.hostMem bs }

/-- Write bytes of host memory through the bridge, which takes their halves Exclusive and holds the merged bytes Modified
(R223). -/
def State.bridgeWrite (s : State) (bs : List (Nat × Byte)) : State :=
  { s.hostWrite bs with bridge := bs.foldl (fun m b => SMap.set m (b.1 / 64) .modified) s.bridge }

/-- The bridge takes a half Exclusive, which it may hold Modified already (R223). -/
def State.bridgeTake (s : State) (half : Nat) : State :=
  if SMap.find s.bridge half == some .modified then s else { s with bridge := SMap.set s.bridge half .exclusive }

/-- The bridge reads a half: Shared where it was Invalid (R223). -/
def State.bridgeRead (s : State) (half : Nat) : State :=
  if SMap.has s.bridge half then s else { s with bridge := SMap.set s.bridge half .shared }

/-- Fetch a half of a host line into an array that does not hold it; bytes already dirty keep their values. -/
def fetchHalf (host : List Host.Cell) (c : Core) (half : Nat) : Core :=
  if c.hvalid.contains half then c
  else { c with
    hvalid := insertNat c.hvalid half
    hdata := (List.range 64).foldl (fun m i =>
      if c.hdirty.contains (half * 64 + i) then m else SMap.put m (half * 64 + i) (Memory.get host (half * 64 + i)) 0) c.hdata }

/-- Write back the dirty bytes of a half through the bridge (R223). -/
def State.flushHalf (s : State) (core half : Nat) : State :=
  let c := s.core core
  let mine := c.hdirty.filter (fun a => a / 64 == half)
  if mine.isEmpty then s
  else
    (s.bridgeWrite (mine.map (fun a => (a, c.hdata.getD a 0)))).setCore core
      { c with hdirty := c.hdirty.filter (fun a => a / 64 != half) }

/-- Drop a half from an array. -/
def State.dropHalf (s : State) (core half : Nat) : State :=
  let c := s.core core
  s.setCore core { c with
    hvalid := removeNat c.hvalid half
    hdata := c.hdata.filter (fun p => p.1 / 64 != half) }

/-- The halves an array holds or has dirty bytes of. -/
def coreHalves (c : Core) : List Nat := (c.hdirty.map (· / 64)).foldl insertNat c.hvalid

/-- A host half may leave an array at any time, its dirty bytes written back (R223); which, and when, is free. -/
def State.evictWork (s : State) : State :=
  match s.cores.flatMap (fun p => (coreHalves p.2).map (fun h => (p.1, h))) with
  | [] => s
  | h :: r =>
    match (s :: (h :: r).map (fun x => (s.flushHalf x.1 x.2).dropHalf x.1 x.2))[Config.order (8 * s.free + 4) % (r.length + 2)]? with
    | some t => t
    | none => s

/-! ## What a thread reads (R233, R255) -/

/-- The block of a group runs in checkpointed mode (R112). -/
def State.ckpt (s : State) (g : Group) : Bool := (s.descOf g).ckpt

/-- The key under which a checkpointed block holds a byte of a space (R213): device memory, the bell slice and host
memory, apart. -/
def physKey : Phys → Nat
  | .dev pa => pa
  | .bell off => 2 ^ 60 + off
  | .host pa => 2 ^ 61 + pa
  | _ => 2 ^ 62

/-- A byte of device memory for a reader to whom some invisible writes are its own: the latest of them, or memory. -/
def State.byteOf (s : State) (own : InvWrite → Bool) (pa : Nat) : Byte :=
  if s.invis.isEmpty then Memory.get s.mem pa
  else match (s.invis.filterMap (fun w => if own w then SMap.find w.bytes pa else none)).getLast? with
    | some b => b
    | none => Memory.get s.mem pa

/-- A byte of device memory for lane `l` of a group. -/
def State.devByte (s : State) (gid l pa : Nat) : Byte := s.byteOf (fun w => w.grp == gid && Mask.has w.lanes l) pa

/-- A byte of device memory with every earlier store of the group. -/
def State.groupByte (s : State) (gid pa : Nat) : Byte := s.byteOf (fun w => w.grp == gid) pa

/-- The newest value of a byte of device memory, visible yet or not. -/
def State.newestByte (s : State) (pa : Nat) : Byte := s.byteOf (fun _ => true) pa

/-- Bytes of the local store. -/
def State.storeBytes (s : State) (off n : Nat) : List Byte := (List.range n).map (fun i => SMap.getD s.store (off + i) (0 : Byte))

/-- A tenant's partition: base and size. -/
def State.partition (s : State) (tenant : Nat) : Nat × Nat :=
  if tenant = 0xFFFF then (0, 0x100000) else (leNat (s.storeBytes (8 * tenant) 4), leNat (s.storeBytes (8 * tenant + 4) 4))

/-- The n bytes one access reads, held bytes aside, and the state after it: a host access may fetch halves. -/
def State.readRaw (s : State) (gid : Nat) (g : Group) (l : Nat) (ph : Phys) (n : Nat) : List Byte × State :=
  match ph with
  | .dev pa => ((List.range n).map (fun i => s.devByte gid l (pa + i)), s)
  | .host pa =>
    let k := s.l1Core g
    let c := s.core k
    let there := c.hvalid.contains (pa / 64) || (List.range n).all (fun i => c.hdirty.contains (pa + i))
    let c1 := if there then c else fetchHalf s.hostMem c (pa / 64)
    ((List.range n).map (fun i => SMap.getD c1.hdata (pa + i) 0), (if there then s else s.bridgeRead (pa / 64)).setCore k c1)
  | .bell off => ((List.range n).map (fun i => bellByte (s.ld (s.ldOf g)) (off + i)), s)
  | .scratch off => (match s.blkOf g with
      | some b => (List.range n).map (fun i => SMap.getD b.scratch (off + i) 0)
      | none => leBytes n 0, s)
  | .remote _ _ => (leBytes n 0, s)
  | .zero => (leBytes n 0, s)
  | .store off =>
    let p := s.partition (((s.ctxOf g).map (·.tenant)).getD 0)
    (if off + n ≤ p.2 then s.storeBytes (p.1 + off) n else leBytes n 0, s)

/-- The bytes of a place, with what a group's block holds of it over them (R213). -/
def State.overHeld (s : State) (g : Group) (ph : Phys) (bs : List Byte) : List Byte :=
  let held := ((s.blkOf g).map (·.held)).getD []
  if held.isEmpty then bs
  else match ph with
    | .dev _ | .bell _ | .host _ => bs.mapIdx (fun i b => SMap.getD held (physKey ph + i) b)
    | _ => bs

/-- The n bytes one access reads (R233): the block's held bytes over what the space holds (R213). -/
def State.readPhys (s : State) (gid : Nat) (g : Group) (l : Nat) (ph : Phys) (n : Nat) : List Byte × State :=
  let r := s.readRaw gid g l ph n
  (s.overHeld g ph r.1, r.2)

/-! ## Writes and visibility (R255) -/

def setFulls (fe : List Nat) (gs : List Nat) : List Nat := gs.foldl insertNat fe

/-- A write of whole 16-byte granules clears their poison; a partial write leaves it (R338). -/
def clearPoison (poison : List Nat) (bs : List (Nat × Byte)) : List Nat :=
  poison.filter (fun p => !(List.range 16).all (fun i => bs.any (fun b => b.1 == p * 16 + i)))

/-- Put bytes into device memory, visible at once: by an operation of a group, or (group 0) by another party. -/
def State.devWriteBy (s : State) (gid op : Nat) (bs : List (Nat × Byte)) (fe : List Nat) : State :=
  { s.note gid op (bs.map (fun b => (b.1, Memory.get s.mem b.1))) with
    mem := Memory.writeAll s.mem bs, full := setFulls s.full fe, poison := clearPoison s.poison bs }

def State.devWrite (s : State) (bs : List (Nat × Byte)) (fe : List Nat) : State := s.devWriteBy 0 0 bs fe

/-- The visibility of a performed write is never before that of an earlier write to the same bytes (R255). -/
def State.visFor (s : State) (bs : List (Nat × Byte)) (v : Nat) : Nat :=
  maxNat (v :: (s.invis.filter (fun w => w.bytes.any (fun b => bs.any (fun x => x.1 == b.1)))).map (·.vis))

/-- A thread's write to device memory by an operation, performed now and visible `delay` ticks ahead (R255). -/
def State.threadDev (s : State) (gid op : Nat) (who : Mask) (bs : List (Nat × Byte)) (fe : List Nat) (delay : Nat) : State :=
  let v := s.visFor bs (s.timebase + delay)
  if v ≤ s.timebase then s.devWriteBy gid op bs fe else { s with invis := s.invis ++ [⟨gid, op, who, bs, fe, v⟩] }

/-- A store to a core's copy of host memory: the bytes become dirty, nothing is fetched (R223). -/
def State.hostStore (s : State) (core : Nat) (bs : List (Nat × Byte)) : State :=
  let c := s.core core
  s.setCore core { c with
    hdata := bs.foldl (fun m x => SMap.put m x.1 x.2 0) c.hdata
    hdirty := bs.foldl (fun m x => insertNat m x.1) c.hdirty }

/-- A store of bytes at offsets of an access (R233, R234, R238): into scratch, held by a checkpointed block (R213), or
into its space. `fill` is the granule an `STFE` fills. -/
def State.storePhys (s : State) (gid op : Nat) (g : Group) (who : Mask) (ph : Phys) (data : List (Nat × Byte)) (fill : Bool)
    (delay : Nat) : State :=
  match ph with
  | .scratch off => (s.note gid op (data.map (fun x => (srcKey g.blk (.scratch (off + x.1)),
      ((s.blkOf g).map (fun b => SMap.getD b.scratch (off + x.1) 0)).getD 0)))).updBlk g.blk (fun b => { b with
      scratch := data.foldl (fun m x => SMap.put m (off + x.1) x.2 0) b.scratch
      sfe := if fill then insertNat b.sfe (off / 16) else b.sfe })
  | .remote _ _ | .zero | .store _ => s
  | _ =>
    if s.ckpt g && (s.blkOf g).isSome then
      let k := physKey ph
      let kept : List (Nat × Byte) := match ph with
        | .bell off => data.filter (fun (x : Nat × Byte) => bellOpen (off + x.1))
        | _ => data
      s.updBlk g.blk (fun b => { b with
        held := kept.foldl (fun m x => SMap.set m (k + x.1) x.2) b.held
        heldFe := if fill then SMap.set b.heldFe (k / 16) true else b.heldFe })
    else match ph with
      | .dev pa => s.threadDev gid op who (data.map (fun x => (pa + x.1, x.2))) (if fill then [pa / 16] else []) delay
      | .host pa => s.hostStore (s.l1Core g) (data.map (fun x => (pa + x.1, x.2)))
      | .bell off => s.updLd (s.ldOf g) (fun d => data.foldl (fun d x => bellWriteByte d (off + x.1) x.2) d)
      | _ => s

/-- Write bytes of device memory for a block: at once, or with the visibility of an earlier write to the same bytes, seen by
every thread of the block until then (R255). -/
def State.blockDev (s : State) (groups : List Nat) (bs : List (Nat × Byte)) (fe : List Nat) : State :=
  let v := s.visFor bs s.timebase
  if v ≤ s.timebase then s.devWrite bs fe
  else { s with invis := s.invis ++ groups.map (fun g => ⟨g, 0, BitVec.allOnes 64, bs, fe, v⟩) }

/-- Release what a block holds (R211 step 4, R213): every held byte goes to its space. -/
def State.releaseHeld (s : State) (b : Nat) : State :=
  match s.blocks.find b with
  | none => s
  | some x =>
    let gr := s.grids.find x.grid
    let ld := (gr.map (·.ld)).getD 0
    let dev := x.held.filter (fun p => decide (p.1 < 2 ^ 60))
    let bell := x.held.filter (fun p => decide (2 ^ 60 ≤ p.1) && decide (p.1 < 2 ^ 61))
    let host := x.held.filter (fun p => decide (2 ^ 61 ≤ p.1))
    let fe := (x.heldFe.filter (fun p => p.2)).map (·.1)
    let off := (x.heldFe.filter (fun p => !p.2)).map (·.1)
    let s1 := s.blockDev x.groups dev fe
    let s2 := { s1 with full := s1.full.filter (fun g => !off.contains g) }
    let s3 := s2.updLd ld (fun d => bell.foldl (fun d p => bellWriteByte d (p.1 - 2 ^ 60) p.2) d)
    let s4 := s3.hostStore (arrayCore ((gr.map (·.desc.fused)).getD false) x.core) (host.map (fun p => (p.1 - 2 ^ 61, p.2)))
    s4.updBlk b (fun y => { y with held := [], heldFe := [] })

/-- Writes whose visibility has come are what every party reads (R255), in the order in which they were performed. -/
def State.mergeVisible (s : State) : State :=
  let now := s.timebase
  (s.invis.filter (fun w => decide (w.vis ≤ now))).foldl (fun x w => if w.lanes == 0 then x.devWrite w.bytes w.fe
    else x.devWriteBy w.grp w.op w.bytes w.fe)
    { s with invis := s.invis.filter (fun w => decide (now < w.vis)) }

/-- Time passes, by any number of clocks: how long a step takes is free (R8, log entry 4). -/
def State.tick (s : State) : State :=
  let s1 := { s with clk := s.clk + Config.order (8 * s.free), free := s.free + 1 }
  if s1.invis.isEmpty then s1 else s1.mergeVisible

/-- No other party's write to these device bytes is still invisible: an atomic or an outside write waits for it. -/
def State.settled (s : State) (gid : Nat) (who : Mask) (pa n : Nat) : Bool :=
  s.invis.all (fun w => (w.grp == gid && w.lanes &&& who == who) || w.bytes.all (fun b => decide (b.1 < pa) || decide (pa + n ≤ b.1)))

end Sys2Proof.Machine
end

