-- ==== Sys2Proof/Machine/Ops.lean ====
section
/-! DEFINITION. The shared operations of the machine: posting events, failing a grid,
taking a trap and returning from a handler (R324 to R331), the wrapper every instruction word runs in (R53 to R55,
R81, R126), outstanding operations and their retirement (R132, R133, R325), and the conditions of a release (R256). -/

namespace Sys2Proof.Machine

/-! ## Bytes of records -/

/-- The bytes of a trap report (R326). -/
def Report.bytes (r : Report) : List Byte :=
  leBytes 2 r.cause ++ leBytes 1 r.reason ++ leBytes 1 r.detail ++ leBytes 2 r.ctx ++ leBytes 1 r.group ++
  leBytes 1 r.flags ++ leBytes 8 r.pc ++ leBytes 8 r.lanes.toNat ++ leBytes 8 r.siblings.toNat ++
  leBytes 8 r.block ++ leBytes 8 r.word.toNat ++ leBytes 8 r.addr ++ leBytes 8 r.info

/-- A 128-byte event entry (R384). -/
def eventBytes (s : State) (code ctx : Nat) (info : List Nat) (rep : List Byte) : List Byte :=
  leBytes 2 code ++ leBytes 2 ctx ++ leBytes 4 0 ++ leBytes 8 s.timebase ++
  (info.flatMap (leBytes 4) ++ leBytes 48 0).take 48 ++ (rep ++ leBytes 64 0).take 64

/-- Queue an entry for a device-produced ring of a logical device (R383): `RING_ENTRY_POST` writes it. -/
def State.queueEntry (s : State) (ld ring : Nat) (bs : List Byte) : State :=
  s.updLd ld (fun d => { d with waiting := d.waiting ++ [⟨ring, bs⟩] })

/-- Post an event on a logical device's event queue (R384). -/
def State.postEvent (s : State) (ld code ctx : Nat) (info : List Nat) (rep : List Byte) : State :=
  s.queueEntry ld 6 (eventBytes s code ctx info rep)

/-- Post an event on the management event queue (R384). -/
def State.postMgmt (s : State) (code : Nat) (info : List Nat) : State :=
  { s with mgmt := { s.mgmt with evWaiting := s.mgmt.evWaiting ++ [⟨7, eventBytes s code 0 info []⟩] } }

/-- An interrupt towards the host, by function and vector (R381, R383). Function 16 is the management function. -/
def State.interrupt (s : State) (fn vector : Nat) : State := { s with irqs := s.irqs ++ [(fn, vector)] }

/-- An engine operation and a queue as the askers of a page fault. -/
def opKey (op : Nat) : Nat := 2 * op + 1
def queueKey (ld q : Nat) : Nat := 2 * (64 * ld + q) + 2

/-- A queue takes an error and posts an event (R97, R100); the page faults it waits for are forgotten. -/
def State.queueError (s : State) (ld q err : Nat) : State :=
  match (s.ld ld).queues.find q with
  | none => s
  | some x =>
    ({ s.updLd ld (fun d => { d with queues := d.queues.set q { x with st := .error, error := err, since := none, wait := none } }) with
      faults := s.faults.mapV (fun _ f => { f with askers := removeNat f.askers (queueKey ld q) }) }).postEvent
      ld 2 x.ctx [q + 65536 * err] []

/-! ## Fragments (R135) -/

/-- A `YIELD` without time left only orders its fragment (R157): its lanes run like others. -/
def Hold.cond : Hold → Hold
  | .yield 0 => .none
  | h => h

/-- Lanes in the same condition: running or in one handler, under the same hold. -/
def Lane.sameCond (a b : Lane) : Bool := a.pc == b.pc && a.hold.cond == b.hold.cond && a.hnd.isSome == b.hnd.isSome

/-- The fragment of a RUNNING lane, with the helper lanes anchored in it (R135, R142). -/
def Group.fragment (g : Group) (l : Nat) : Mask :=
  let own := fun i => g.isRunning i && (g.lane i).sameCond (g.lane l)
  g.mask (fun i => own i || (g.isHelper i && (match g.anchor i with | some a => own a | none => false)))

/-- The RUNNING lanes that lead a fragment: the lowest of each. -/
def Group.leaders (g : Group) : List Nat :=
  g.laneIds.filter (fun l => g.isRunning l && (g.laneIds.filter (fun i => i < l)).all (fun i =>
    !(g.isRunning i && (g.lane i).sameCond (g.lane l))))

/-- Lanes not EXITED (R152). -/
def Group.live (g : Group) : Mask := g.mask (fun l => !((g.lane l).st == .exited))

/-- The lanes run a handler; helper lanes only follow (R142, R329). -/
def Group.inHandler (g : Group) (m : Mask) : Bool := (Mask.lanes (g.nonHelpers m)).any (fun l => (g.lane l).hnd.isSome)

/-- Some lane of the group is in handler state. -/
def Group.handlerOpen (g : Group) : Bool :=
  g.laneIds.any (fun l => (g.lane l).hnd.isSome && !((g.lane l).st == .exited) && !((g.lane l).st == .helper))

/-! ## Rejoin masks (R137 to R140) -/

/-- The release check of one mask (R137). -/
def Group.releaseCheck (g : Group) (j : Nat) : Group :=
  let x := g.j.getD j (0, 0)
  if x.1 != 0 && (Mask.lanes x.1).all (fun l => (g.lane l).st == .arrived j) then
    { g.updLanes x.1 (fun n => { n with st := .running, pc := x.2 + 8, hold := .none }) with j := g.j.del j }
  else g

/-- Release checks of every mask, ascending. -/
def Group.releaseAll (g : Group) : Group := [0, 1, 2, 3, 4, 5, 6, 7].foldl Group.releaseCheck g

/-- Take lanes out of a mask. An emptied mask keeps its PC until it is next enrolled or released. -/
def Group.strikeMask (g : Group) (j : Nat) (m : Mask) : Group :=
  let x := g.j.getD j (0, 0)
  { g with j := g.j.put j (x.1 &&& ~~~m, x.2) (0, 0) }

def Group.strikeAll (g : Group) (m : Mask) : Group :=
  [0, 1, 2, 3, 4, 5, 6, 7].foldl (fun x j => x.strikeMask j m) g

/-- The exit of lanes (R155, R142): each becomes HELPER while its quad still holds another lane that is neither
EXITED nor HELPER and does not exit here, else EXITED with the helpers of its quad; all are struck from every
mask, whose release checks then run (R139). -/
def Group.exitLanes (g : Group) (m : Mask) : Group :=
  let stays := fun q => (quadLanes (4 * q)).any (fun i =>
    !((g.lane i).st == .exited) && !((g.lane i).st == .helper) && !Mask.has m i)
  let touched := fun q => (quadLanes (4 * q)).any (fun i => Mask.has m i)
  let lanes := g.lanes.mapIdx (fun i x =>
    if Mask.has m i then { x with st := if stays (i / 4) then .helper else .exited, hold := .none }
    else if x.st == .helper && touched (i / 4) && !stays (i / 4) then { x with st := .exited }
    else x)
  (({ g with lanes := lanes }).strikeAll m).releaseAll

/-! ## Failing a grid (R118, R119) -/

/-- The grids that descend from those of a list, the list included; nesting is at most 15 deep (R120). -/
def descendants (s : State) : Nat → List Nat → List Nat
  | 0, gs => gs
  | n + 1, gs =>
    descendants s n (gs ++ (s.grids.filter (fun p =>
      (match p.2.parent with | some q => gs.contains q | none => false) && !gs.contains p.1 &&
      !(p.2.st == .complete) && !(p.2.st == .failed))).map (·.1))

/-- The outermost ancestor of a grid: a failed child fails its parent (R118). -/
def ancestor (s : State) : Nat → Nat → Nat
  | 0, g => g
  | n + 1, g => match (s.grids.find g).bind (·.parent) with
    | some p => ancestor s n p
    | none => g

/-- A RUNNING context is READY again when nothing of it is resident and no grid is being dispatched (R70). -/
def State.idleCtx (s : State) (ctx : Nat) : State :=
  let busy := s.blocks.any (fun p => !p.2.saved && (match s.grids.find p.2.grid with
    | some y => y.ctx == ctx | none => false)) ||
    s.grids.any (fun p => p.2.ctx == ctx && p.2.st == .dispatching)
  s.updCtx ctx (fun x => if x.st == .running && !busy then { x with st := .ready } else x)

/-- Operations of a removed group that still complete: writes of memory, and pushes (R119, R123, R324). -/
def OpKind.outlives : OpKind → Bool
  | .store | .stfe | .red .. | .atom .. | .atomc .. | .mcas .. | .stp | .flushH _ | .invalH _ | .status .. | .push .. |
    .posted .. => true
  | _ => false

/-- A group leaves without issuing again; what it has issued to memory or to a queue goes on (R119, R124). -/
def Group.removed (g : Group) : Group :=
  { g with
    state := .exited
    ops := g.ops.filter (fun (o : PendOp) => o.kind.outlives)
    withdrawn := [], traps := [], fetched := []
    lanes := g.lanes.map (fun x => { x with st := .exited, hold := .none }) }

/-- A group without a block, with no operation in flight, is forgotten. -/
def State.reapGroups (s : State) : State :=
  { s with groups := s.groups.filter (fun p => !(p.2.state == .exited) || (s.blocks.find p.2.blk).isSome || !p.2.ops.isEmpty ||
      s.transfers.any (fun t => t.2.grp == p.1) || s.colls.any (fun c => c.2.grp == p.1) ||
      s.remotes.any (fun r => r.grp == p.1)) }

/-- Grids enter FAILED with their parents and descendants: their groups are removed, their blocks leave the cores with held
stores released, and their matrix operations end with their slots (R118, R119, R267). Their records stay, so that `TRAPDONE` finds them (R340). No child
of theirs is unfinished any more (R120).
Each posts an event (R118, R384): the grid that a trap fails with its report, the others with cause 0. -/
def State.failGrids (s : State) (gs : List Nat) (trap : Option (Nat × List Nat × List Byte)) : State :=
  let all := descendants s 16 (gs.map (ancestor s 16))
  let news := s.grids.filter (fun p => all.contains p.1 && !(p.2.st == .complete) && !(p.2.st == .failed))
  let blks := (s.blocks.filter (fun p => all.contains p.2.grid)).map (·.1)
  let grps := (s.groups.filter (fun p => all.contains p.2.grid)).map (·.1)
  let own : Nat → List Nat × List Byte := fun k => match trap with
    | some t => if t.1 = k then (t.2.1, t.2.2) else ([0], [])
    | none => ([0], [])
  let ents := (s.clusters.flatMap (fun p => (p.2.table.filter (fun e => grps.contains e.grp)).map (fun (e : MEntry) => e.eid)))
  let s := blks.foldl State.releaseHeld s
  news.foldl (fun t p => (t.postEvent p.2.ld 3 p.2.ctx (own p.1).1 (own p.1).2).idleCtx p.2.ctx) { s with
    grids := s.grids.mapV (fun k x => if all.contains k && !(x.st == .complete) then { x with st := .failed, children := 0 } else x)
    blocks := s.blocks.filter (fun p => !blks.contains p.1)
    groups := s.groups.mapV (fun k x => if grps.contains k then x.removed else x)
    clusters := s.clusters.mapV (fun _ c => { c with table := c.table.filter (fun e =>
      !grps.contains e.grp) })
    owned := s.owned.filter (fun p => !ents.contains p.2) }

/-- An unhandled trap or a double trap: the grid enters FAILED and the report goes to the event queue (R327). -/
def State.failWith (s : State) (g : Group) (r : Report) : State :=
  s.failGrids [g.grid] (some (g.grid, [r.cause], r.bytes))

/-! ## Taking a trap (R324 to R329) -/

/-- A trap that a word raises: its cause, reason, the detail, addr and info fields of the report (R323, R326), and the deferred
error it raises (R325). -/
structure Trap where
  cause : Nat
  reason : Nat := 0
  detail : Nat := 0
  addr : Nat := 0
  info : Nat := 0
  src : Option Deferred := none
deriving DecidableEq, Repr

def trapOf (cause : Nat) : Trap := { cause := cause }

/-- Whether a PC's word is P-form: detail bit 0 (R326). -/
def isPair (w : DWord) : Bool := w.toNat / 2 ^ 62 == 1

/-- The report of a trap of the lanes `m` of a group (R326). -/
def mkReport (s : State) (g : Group) (t : Trap) (pc : BitVec 56) (word : DWord) (m : Mask) : Report :=
  { cause := t.cause, reason := t.reason, detail := t.detail + (if isPair word then 1 else 0), ctx := s.ctxNum g,
    group := g.idx, flags := (if t.src.isSome then 1 else 0) + (if g.inHandler m then 2 else 0), pc := pc.toNat,
    lanes := m, siblings := g.live &&& ~~~m, block := ((s.blkOf g).map (·.b)).getD 0, word := word, addr := t.addr,
    info := t.info }

/-- Park lanes off-core: each non-helper lane becomes SERVICE (R333). -/
def Group.parkService (g : Group) (m : Mask) (rid : Nat) : Group :=
  g.updLanes (g.nonHelpers m) (fun x => { x with st := .service rid, hold := .none })

/-- The group is PARKED when every lane is EXITED, SERVICE or a helper of a SERVICE lane, and one is SERVICE (R124,
R333). -/
def Group.parkCheck (g : Group) : Group :=
  let isSvc := fun i => (match (g.lane i).st with | .service _ => true | _ => false)
  let ok := g.laneIds.all (fun l => match (g.lane l).st with
    | .exited => true
    | .service _ => true
    | .helper => (match g.anchor l with | some a => isSvc a | none => false)
    | _ => false)
  if ok && g.laneIds.any isSvc && (g.state == .active || g.state == .pending) then { g with state := .parked } else g

/-- A paired pass. -/
def MEntry.paired (e : MEntry) : Bool := match e.kind with
  | .pass p => p.paired
  | _ => false

/-- The twin of a group of a pair grid (R115). -/
def State.twinOf (s : State) (g : Group) : Option Nat :=
  let d := s.descOf g
  match s.blkOf g with
  | none => none
  | some b =>
    let t := if b.b % (2 * d.cpb) < d.cpb then b.b + d.cpb else b.b - d.cpb
    if !d.pair then none
    else (s.groups.find? (fun p => p.2.grid == g.grid && p.2.idx == g.idx && (s.blkOf p.2).map (·.b) == some t)).map (·.1)

/-- The unfinished paired requests of a group in issue order, in the table or withdrawn: the n-th of one twin matches the
n-th of the other. -/
def State.pairedOf (s : State) (gid : Nat) : List MEntry :=
  match s.grp gid with
  | none => []
  | some g =>
    sortBy (·.eid) (((SMap.find s.clusters (clusterOf g.core)).map (fun c => c.table.filter (fun e => e.grp == gid && e.paired))).getD [] ++
      g.withdrawn.filter MEntry.paired)

/-- A group traps: requests of its twin that it has not matched are withdrawn into the twin's control record (R281). -/
def State.withdrawTwin (s : State) (gid : Nat) : State :=
  match (s.grp gid).bind s.twinOf with
  | none => s
  | some x =>
    match s.grp x with
    | none => s
    | some g =>
      let out := ((s.pairedOf x).drop (s.pairedOf gid).length).filter (fun e => e.st == .posted)
      let ids := out.map (·.eid)
      let kept := g.withdrawn.filter (fun e => !ids.contains e.eid)
      let t := s.setGrp x { g with withdrawn := kept ++ out.map (fun e => { e with st := EntSt.withdrawn }) }
      { t with
        clusters := s.clusters.mapV (fun _ c => { c with table := c.table.filter (fun e => !ids.contains e.eid) }) }

/-- The report of a double trap (R323, R327): its info is the cause of the second trap. -/
def Report.double (r : Report) (second : Nat) : Report := { r with cause := 0x1F, reason := 0, addr := 0, info := second }

def rangesMeet (x n y m : Nat) : Bool := decide (x < y + m) && decide (y < x + n)

/-- The id of a new record: an N32 that no outstanding record has, counted from 1 (R335, R397). -/
def State.newRecord (s : State) : Nat :=
  (((List.range (s.records.length + 1)).map (fun k => (s.lastRec + k) % (2 ^ 32 - 1) + 1)).find? (fun i => !SMap.has s.records i)).getD 0

/-- A region assigned to no logical device, and not retired (R318, R387). -/
def State.unassigned (s : State) (r : Nat) : Bool :=
  !s.mgmt.retired.contains r && s.ldevs.all (fun p => !p.2.bound || decide (r < p.2.regFirst) || decide (p.2.regFirst + p.2.regCount ≤ r))

/-- A record of `n` bytes may lie at an address: in one unassigned region, and apart from every other record (R335). -/
def State.recordFits (s : State) (n a : Nat) : Bool :=
  decide (a + n ≤ Config.deviceBytes) && a / Config.regionBytes == (a + n - 1) / Config.regionBytes &&
  s.unassigned (a / Config.regionBytes) && s.records.all (fun p => !rangesMeet a n p.2.addr p.2.bytes.length)

/-- Where firmware keeps a new record: a free choice where that one fits, else the first place of 4 KiB that does (log entry 13). -/
def State.recordPlace (s : State) (n : Nat) : Nat :=
  if s.recordFits n (Config.recordAddr s.free) then Config.recordAddr s.free
  else
    let r := ((List.range (Config.deviceBytes / Config.regionBytes)).find? s.unassigned).getD 0
    (((List.range (s.records.length + 1)).map (fun k => r * Config.regionBytes + 4096 * k)).find? (s.recordFits n)).getD 0

/-- A new record is kept under its id. -/
def State.keepRecord (s : State) (rid : Nat) (x : SvcRec) : State :=
  { s with records := s.records.set rid { x with addr := s.recordPlace x.bytes.length }, lastRec := rid }

/-- Taking a trap: the one shared operation (R324, R327). The lanes `m` of group `gid` stand at the word. A trap in a
handler, or one no handler and no forward mask takes, fails the grid; a handled one waits for handler entry with
its report kept, which is a wait point while another fragment runs a handler (R329); a forwarded one parks the lanes and its
report goes to the host. -/
def State.takeTrap (s : State) (gid : Nat) (m : Mask) (pc : BitVec 56) (word : DWord) (t : Trap) : State :=
  match (s.withdrawTwin gid).grp gid with
  | none => s
  | some g =>
    let s := s.withdrawTwin gid
    let c := s.ctxOf g
    let rep := mkReport s g t pc word m
    let handler := (c.map (·.handler)).getD 0
    let hmask := (c.map (·.hmask)).getD 0
    let fmask := (c.map (·.fmask)).getD 0
    if g.inHandler m then s.failWith g (rep.double t.cause)
    else if handler != 0 && hmask.getLsbD t.cause && decide (2 ≤ (s.descOf g).regs) then
      let stop := g.flagged && g.handlerOpen
      s.setGrp gid { g.updLanes m (fun x =>
          if x.st == .running then
            if stop then { x with st := .stopped .waitPoint, hold := .none, kept := .handler } else { x with hold := .handler }
          else x) with
        traps := g.traps ++ [⟨rep, handler, (c.map (·.report)).getD 0, t.src⟩] }
    else if fmask.getLsbD t.cause then
      let rid := s.newRecord
      (s.setGrp gid (g.parkService m rid).parkCheck).keepRecord rid ⟨s.ldOf g, gid, m, pc, none, rep.bytes, false, 0⟩
    else s.failWith g rep

/-! ## Outstanding operations (R132, R133, R325) -/

def Issued.get (n : Issued) : Ctr → Nat
  | .ld => n.ld | .st => n.st | .cp => n.cp | .mx => n.mx | .bc => n.bc | .own => n.own

def Issued.inc (n : Issued) : Ctr → Issued
  | .ld => { n with ld := n.ld + 1 } | .st => { n with st := n.st + 1 } | .cp => { n with cp := n.cp + 1 }
  | .mx => { n with mx := n.mx + 1 } | .bc => { n with bc := n.bc + 1 }
  | .own => { n with own := n.own + 1 }

/-- A counter's value: operations issued and not retired (R132). -/
def Group.counter (g : Group) (k : Ctr) : Nat := (g.ops.filter (fun o => o.ctr == k)).length

def noOrder : Order := ⟨false, false, .grp⟩

/-- Issue an operation: it takes the next number of its counter. -/
def Group.pushOp (g : Group) (id : Nat) (k : Ctr) (c : Issue) (kind : OpKind) (o : Order) (lanes : List LaneAcc)
    (done : Bool) : Group :=
  { g with
    issued := g.issued.inc k
    ops := g.ops ++ [⟨id, k, g.issued.get k + 1, c.pc.toNat, c.word, kind, o, lanes, done, none, c.clk, 0⟩] }

/-- Retire operations: per counter strictly in issue order, each once it and every older one of its counter is done;
an error is recorded as it retires (R133, R325). -/
def retireOps : List Ctr → List PendOp → List PendOp × List Deferred
  | _, [] => ([], [])
  | blocked, o :: r =>
    if o.done && !blocked.contains o.ctr then
      let x := retireOps blocked r
      (x.1, (match o.err with
        | some e => [⟨e.1, e.2.1, e.2.2.1, e.2.2.2, o.ctr, o.num, 0⟩]
        | none => []) ++ x.2)
    else
      let x := retireOps (o.ctr :: blocked) r
      (o :: x.1, x.2)

/-- The place of the next deferred error in the order of their recording (R325). -/
def Group.nextSeq (g : Group) : Nat := 1 + maxNat ((g.errs ++ g.traps.filterMap (·.err)).map (·.seq))

def Group.retire (g : Group) : Group :=
  let x := retireOps [] g.ops
  { g with ops := x.1, errs := g.errs ++ x.2.mapIdx (fun i e => { e with seq := g.nextSeq + i }) }

def Group.op (g : Group) (id : Nat) : Option PendOp := g.ops.find? (fun o => o.id == id)

def Group.updOp (g : Group) (id : Nat) (f : PendOp → PendOp) : Group :=
  { g with ops := g.ops.map (fun o => if o.id == id then f o else o) }

/-- Mark an operation complete, with an error or none, and retire what can retire. -/
def Group.completeOp (g : Group) (id : Nat) (err : Option (Nat × Nat × Nat × Nat)) : Group :=
  (g.updOp id (fun o => { o with done := true, err := if o.err.isSome then o.err else err })).retire

/-- The operation that holds a word while pages it reads wait in replay (R313). -/
def Group.probeOf (g : Group) (c : Issue) : Option Nat :=
  match c.hold with
  | .busy id => if ((g.op id).map (·.kind)) == some .probe then some id else none
  | _ => none

/-- Issue an operation, or go on with the probe that has held its word and has counted since its first issue (R132). -/
def Group.enterOp (g : Group) (id : Nat) (k : Ctr) (c : Issue) (kind : OpKind) (o : Order) (lanes : List LaneAcc) (done : Bool) : Group :=
  match g.probeOf c with
  | some old => g.updOp old (fun x => { x with kind := kind, order := o, lanes := lanes, done := done })
  | none => g.pushOp id k c kind o lanes done

/-! ## The sources of a word that waits (R134) -/

/-- The number under which a hold keeps the sources of its word. -/
def Hold.key : Hold → Option Nat
  | .gate n _ _ => some n
  | .busy id => some id
  | _ => Option.none

/-- Keep the sources of a word that has issued. -/
def Group.keepSnap (g : Group) (id : Nat) (view : Group) : Group :=
  { g with snaps := SMap.set g.snaps id ⟨view.v, view.shadow, view.s, view.p⟩ }

/-- The group as a word under a hold read it at its issue. -/
def Group.asIssued (g : Group) (h : Hold) : Group :=
  match h.key.bind (SMap.find g.snaps) with
  | some x => { g with v := x.v, shadow := x.shadow, s := x.s, p := x.p }
  | none => g

/-- The word of a hold is over. -/
def State.dropSnap (s : State) (gid : Nat) (h : Hold) : State :=
  match h.key with
  | some k => s.updGrp gid (fun g => { g with snaps := SMap.del g.snaps k })
  | none => s

/-- A word ends the probe that has held it. -/
def State.endProbe (s : State) (c : Issue) : State :=
  match (s.grp c.grp).bind (·.probeOf c) with
  | some id => s.updGrp c.grp (fun g => g.completeOp id none)
  | none => s

/-- The trap of the issuing fragment: no word executes while its fragment stops (R324), and a word that traps counts no operation
(R227). A fragment of helper lanes alone never traps (R54). -/
def State.trapAt (s : State) (c : Issue) (t : Trap) : State :=
  { ((s.endProbe c).dropSnap c.grp c.hold).takeTrap c.grp c.lanes c.pc c.word t with cur := none }

/-- A whole-fragment exit of a fragment made only of helper lanes (R54). -/
def State.endHelpers (s : State) (c : Issue) : State :=
  { s.updGrp c.grp (fun g => g.updLanes c.lanes (fun x => { x with st := .exited })) with cur := none }

/-- Every counter is zero. -/
def Group.idle (g : Group) : Bool := g.ops.isEmpty

/-- The last `n` operations of a counter may be outstanding: the wait of `WAIT` (R133, R156). -/
def Group.waited (g : Group) (ld st cp mx bc : Nat) : Bool :=
  decide (g.counter .ld ≤ ld) && decide (g.counter .st ≤ st) && decide (g.counter .cp ≤ cp) &&
  decide (g.counter .mx ≤ mx) && decide (g.counter .bc ≤ bc)

/-- The oldest deferred error whose operation this `WAIT` requires to have retired (R325). -/
def Group.requiredError (g : Group) (ld st cp mx bc : Nat) : Option Deferred :=
  let lim := fun k => match k with
    | Ctr.ld => ld | Ctr.st => st | Ctr.cp => cp | Ctr.mx => mx | Ctr.bc => bc | Ctr.own => 0
  g.errs.find? (fun e => decide (e.num + lim e.ctr ≤ g.issued.get e.ctr))

def Deferred.trap (d : Deferred) : Trap :=
  { cause := d.cause, reason := d.reason, addr := d.addr, info := d.info, src := some d }

/-! ## Conditions of acquires and releases (R256, R258) -/

/-- Loads and the reads of atomics, reductions among them (R256 condition 1, R257 rule 7). -/
def OpKind.isLoad : OpKind → Bool
  | .load .. | .ldc .. | .ldfe .. | .atom .. | .atomc .. | .red .. | .mcas .. | .refill .. | .tbld .. | .mfmt .. => true
  | _ => false

/-- Atomics on one location (R244 to R246). -/
def OpKind.isAtomic : OpKind → Bool
  | .atom .. | .red .. | .atomc .. => true
  | _ => false

/-- Writes that a release at `.pkg` waits on. -/
def OpKind.isWrite : OpKind → Bool
  | .store | .stfe | .red .. | .atom .. | .atomc .. | .mcas .. => true
  | _ => false

/-- Some lane of the operation, among lanes `m`, is not yet performed. -/
def PendOp.openFor (o : PendOp) (m : Mask) : Bool :=
  !o.done && (o.lanes.any (fun a => a.who &&& m != 0 && !(a.st == .done) && !(a.st == .failed) && !(a.st == .got)))

/-- An earlier acquiring load of these lanes has not been performed (R256). -/
def Group.acquirePending (g : Group) (m : Mask) : Bool := g.ops.any (fun o => o.order.acq && o.openFor m)

def PendOp.onHost (o : PendOp) : Bool := o.lanes.any (fun a => match a.phys with | .host _ => true | _ => false)

/-- Rank of a scope; tenant scope (R259) is 4 with bell writes also waited on. -/
def scopeRank : Scope → Nat
  | .grp => 0 | .blk => 1 | .cls => 2 | .pkg => 3 | .pod => 4 | .sys => 5

/-- A release at a scope waits for an access of an earlier load or write: not, below `.sys`, for an atomic on host memory, and
not for a write to the bell window (R258); tenant scope is `sc` = `.sys` without `sys` (R259). -/
def OpKind.relWaits (k : OpKind) (sc : Scope) (sys : Bool) (a : LaneAcc) : Bool :=
  match a.phys with
  | .host _ => !k.isAtomic || sys
  | .bell _ => k.isLoad || decide (5 ≤ scopeRank sc)
  | _ => k.isLoad || k.isWrite

/-- The waits of a release at a scope for the lanes `m`, from the operations issued before number `before` (R256, R258, R259):
earlier loads performed, earlier writes acknowledged, the timebase at their visibility, and the scope's further waits. An
engine's writes count once its operation has retired (R260). -/
def State.released (s : State) (gid : Nat) (g : Group) (before : Nat) (m : Mask) (sc : Scope) (tenant : Bool) : Bool :=
  let sys := sc == .sys && !tenant
  let pod := decide (4 ≤ scopeRank sc)
  g.ops.all (fun o => o.done || decide (before ≤ o.id) ||
    match o.kind with
    | .flushH _ | .invalH _ => !sys
    | .ldp _ | .stp => !pod
    | k => !(k.isLoad || k.isWrite) || o.lanes.all (fun a => a.who &&& m == 0 || a.st == .done || a.st == .failed ||
        a.st == .got || !k.relWaits sc sys a)) &&
  s.invis.all (fun w => !(w.grp == gid) || decide (before ≤ w.op) ||
    (if w.lanes == 0 then g.ops.any (fun o => o.id == w.op) else w.lanes &&& m == 0))

/-- The context limits `.sys` orders to tenant scope (R68, R259). -/
def State.tenantScope (s : State) (g : Group) : Bool := ((s.ctxOf g).map (·.tenantScope)).getD false

/-- Each `.sys` word under the policy counts once for the group (R259). -/
def State.countSysfence (s : State) (g : Group) (sc : Scope) : State :=
  if sc == .sys && s.tenantScope g then s.updCtx (s.ctxNum g) (fun c => { c with sysfence := c.sysfence + 1 }) else s

/-- The release of a word that waits in a `gate` is complete. -/
def State.gateOpen (s : State) (gid : Nat) (g : Group) (l before : Nat) (all : Bool) (sc : Scope) : Bool :=
  s.released gid g before (if all then BitVec.allOnes 64 else g.fragment l) sc (s.tenantScope g)

/-- Earlier loads of the lanes are performed: the wait of an acquiring `FENCE` (R264). -/
def Group.acquired (g : Group) (m : Mask) : Bool :=
  g.ops.all (fun o => match o.kind with
    | .ldp _ => o.done
    | k => !k.isLoad || !o.openFor m)

/-! ## Lanes that move -/

/-- The fragment continues at the next word. -/
def Group.advance (g : Group) (m : Mask) : Group :=
  g.updLanes m (fun x => if x.st == .running then { x with pc := x.pc + 8, hold := .none, kept := .none } else x)

def Group.holdLanes (g : Group) (m : Mask) (h : Hold) : Group :=
  g.updLanes m (fun x => if x.st == .running then { x with hold := h } else x)

/-- The wait that a stopped lane keeps (R83, R86): an `LDFE` or a push is begun again for what it lacks. -/
def Hold.kept : Hold → Hold
  | .op _ | .push _ _ => .ready
  | .barrier b p => .barrier b p
  | .sync b p => .sync b p
  | .pfence n => .pfence n
  | .handler => .handler
  | _ => .none

/-- The stop of a fragment of a flagged group (R83): an `LDFE` in progress keeps the lanes it has completed, and a waiting
push is abandoned. -/
def Group.stopAt (g : Group) (m : Mask) (k : StopKind) : Group :=
  let ids := g.ops.filter (fun o => match o.kind with
    | .ldfe .. => !o.done && o.openFor m
    | _ => false)
  let done := Mask.ofLanes (ids.flatMap (fun o => (o.lanes.filter (fun a => a.st == .done)).flatMap (fun a => Mask.lanes a.who)))
  let pushes := (Mask.lanes m).filterMap (fun l => match (g.lane l).hold with
    | .push _ id => some id
    | _ => none)
  let g1 := (ids.map (·.id) ++ pushes).foldl (fun x id => x.completeOp id none) g
  g1.updLanes m (fun x => if x.st == .running then { x with st := .stopped k, hold := .none, kept := x.hold.kept } else x)
    |>.updLanes done (fun x => { x with feDone := true })

/-- The waits at which a flagged fragment stops as it begins them (R83); a push does so while its queue is full, and a trapped
fragment while another runs a handler. -/
def Hold.isStop : Hold → Bool
  | .barrier _ _ | .sync _ _ | .pfence _ | .op _ => true
  | _ => false

/-! ## Return from a handler (R331, R140) -/

/-- End handler state for lanes: the v0:v1 saved at entry is restored unless kept, and the trap PC forgotten. -/
def Group.leaveHandler (g : Group) (m : Mask) (keep : Bool) : Group :=
  let g1 := if keep then g else g.apply (Eff.lanes (Mask.lanes m) (fun l => match (g.lane l).saved with
    | some v => (wReg (.v 0) l v.1).append (wReg (.v 1) l v.2)
    | none => {}))
  g1.updLanes m (fun x => { x with hnd := none, saved := none, hold := .none })

/-- After a return, lanes ARRIVED at a mask whose PC the handler changed are struck and run at their new PC, then
every release check runs (R140). -/
def Group.afterReturn (g : Group) : Group :=
  let moved := fun j => g.mask (fun l => (g.lane l).st == .arrived j && !((g.lane l).pc == (g.j.getD j (0, 0)).2))
  let g1 := [0, 1, 2, 3, 4, 5, 6, 7].foldl (fun x j =>
    (x.strikeMask j (moved j)).updLanes (moved j) (fun n => { n with st := .running, hold := .none })) g
  g1.releaseAll

/-! ## The end of a group, block and grid (R118, R124) -/

/-- Drop a block whose groups have all exited, the stores it holds released (R213), and move its grid on: DRAINED when every block is placed and gone
(R118). -/
def State.blockDone (s : State) (b : Nat) : State :=
  match s.blocks.find b with
  | none => s
  | some blk =>
    let done := blk.groups.all (fun g => match s.grp g with | some x => x.state == .exited | none => true)
    if !done then s
    else
      let s := s.releaseHeld b
      let s1 := { s with
        blocks := s.blocks.del b
        groups := s.groups.filter (fun p => !blk.groups.contains p.1) }
      let left := s1.blocks.any (fun p => p.2.grid == blk.grid)
      let s2 := s1.updGrid blk.grid (fun x => if x.st == .running && !left then { x with st := .drained } else x)
      match s2.grids.find blk.grid with
      | none => s2
      | some gr => s2.idleCtx gr.ctx

/-- A group whose every lane has exited: EXITING, and EXITED at once because its counters are zero (R124, R155). -/
def State.endGroup (s : State) (gid : Nat) : State :=
  match s.grp gid with
  | none => s
  | some g =>
    if g.lanes.all (fun x => x.st == .exited) then
      (s.setGrp gid { g with state := if g.idle then .exited else .exiting }).blockDone g.blk
    else s

end Sys2Proof.Machine
end

