-- ==== Sys2Proof/Machine/Checkpoint.lean ====
section
/-! DEFINITION. Checkpoints of checkpointed blocks (R211 to R213), the lines of the local array that they pin (R216), and the
implicit checkpoint that a recall of held lines forces (R221). -/

namespace Sys2Proof.Machine

/-! ## Checkpoints (R211 to R213) -/

/-- The held stores of a block can be released at `.pkg` (R211 step 4, R256): its threads' earlier writes are visible, and no other
write to a held byte is still to become so. -/
def State.heldSettled (s : State) (x : Block) : Bool :=
  s.invis.all (fun w => !(x.groups.contains w.grp && (w.lanes != 0 || ((s.grp w.grp).bind (·.op w.op)).isNone)) &&
    w.bytes.all (fun b => !SMap.has x.held b.1))

/-- The `ld` and `st` counters of every group of a block are zero (R211 step 2), and its stores can be released (step 4). -/
def State.ckptReady (s : State) (b : Nat) : Bool :=
  match s.blocks.find b with
  | none => true
  | some x => s.heldSettled x && x.groups.all (fun g => match s.grp g with
    | some y => y.counter .ld == 0 && y.counter .st == 0
    | none => true)

/-- A hold under which an operation of R212 has already issued: a push, or a loop record. -/
def Group.sealedHold (g : Group) : Hold → Bool
  | .push _ _ => true
  | .busy id => (match (g.op id).map (fun (o : PendOp) => o.kind) with
    | some (.record ..) => true
    | _ => false)
  | _ => false

/-- A group as its shadow keeps it: a word of R212 that has issued is not repeated (R339). -/
def Group.sealedView (g : Group) : Group :=
  { g with lanes := g.lanes.map (fun (x : Lane) => if x.st == .running && g.sealedHold x.hold then { x with pc := x.pc + 8, hold := .none, kept := .none } else x) }

/-- Take a block's checkpoint (R211): its groups, scratch and block barriers are copied into the shadow, its held
stores are released, issue resumes. -/
def State.checkpoint (s : State) (b : Nat) : State :=
  let s1 := s.releaseHeld b
  s1.updBlk b (fun x => { x with
    shadow := some ⟨x.groups.filterMap (fun g => (s1.grp g).map (fun y => (g, y.sealedView))), x.scratch, x.sfe, x.bars⟩
    slotWritten := false, rollbacks := 0, halt := false })

/-! ## The local array (R216) -/

/-- The pinned scratch lines of a set: a block's lines are numbered in a run, line n in set n mod 2,048. -/
def scratchWays (line0 lines set : Nat) : Nat :=
  lines / 2048 + (if (set + 2048 - line0 % 2048) % 2048 < lines % 2048 then 1 else 0)

/-- A block holds nothing (R213): no store, and no granule that it has emptied or filled. -/
def Block.holdsNone (x : Block) : Bool := x.held.isEmpty && x.heldFe.isEmpty

/-- The lines of device and host memory that a block holds (R213), as `physKey` numbers them. -/
def Block.heldLines (x : Block) : List Nat :=
  let bytes := (SMap.keys x.held).filter (fun a => decide (a < 2 ^ 60) || decide (2 ^ 61 ≤ a))
  (bytes.map (· / 128) ++ (SMap.keys x.heldFe).map (· / 8)).eraseDups

/-- The array that caches a line for a core's block: its own core's, or under fused L1 one of its cluster's (R218). -/
def lineCore (fused : Bool) (core line : Nat) : Nat :=
  if fused then core / 4 * 4 + Config.lineArray line % 4 else core

/-- A block whose grid has the fused-L1 attribute. -/
def State.fusedBlk (s : State) (x : Block) : Bool := ((s.grids.find x.grid).map (·.desc.fused)).getD false

/-- The ways pinned in a set of a core's array: scratch lines of the blocks on the core, and held lines. -/
def State.pinned (s : State) (core set : Nat) : Nat :=
  sumNat (s.blocks.map (fun p =>
    (if p.2.core == core && !p.2.saved then
      scratchWays p.2.line0 (((s.grids.find p.2.grid).map (·.desc.scratch)).getD 0 / 128) set else 0) +
    (p.2.heldLines.filter (fun l => lineCore (s.fusedBlk p.2) p.2.core l == core && Config.lineSet l % 2048 == set)).length))

/-- The blocks whose held lines leave no way for a line that a block's access misses on: none while the line is held, or a way
of its set is not pinned. -/
def State.crowding (s : State) (x : Block) (line : Nat) : List Nat :=
  let core := lineCore (s.fusedBlk x) x.core line
  let set := Config.lineSet line % 2048
  if x.heldLines.contains line || decide (s.pinned core set < 16) then []
  else (s.blocks.filter (fun p => p.2.heldLines.any (fun l =>
    lineCore (s.fusedBlk p.2) p.2.core l == core && Config.lineSet l % 2048 == set))).map (·.1)

/-- Loads and stores whose lines the local array caches; atomics execute elsewhere (R221). -/
def OpKind.cached : OpKind → Bool
  | .load .. | .store | .ldfe .. | .stfe | .refill _ | .tbld .. => true
  | _ => false

/-- The blocks that crowd out the lines of an operation's ready accesses. -/
def State.crowders (s : State) (g : Group) (o : PendOp) : List Nat :=
  if !o.kind.cached || s.blocks.all (fun p => p.2.holdsNone) then []
  else match s.blkOf g with
  | none => []
  | some x => (o.lanes.flatMap (fun a => if a.st == .ready then (match a.phys with
      | .dev pa => s.crowding x (pa / 128)
      | .host pa => s.crowding x ((2 ^ 61 + pa) / 128)
      | _ => []) else [])).eraseDups

/-- A block's own access that misses takes the checkpoint without waiting for itself: only loads and stores are outstanding,
which the shadow holds and a rollback performs again, cache-control words among them (log entry 44). -/
def State.missReady (s : State) (b : Nat) : Bool :=
  match s.blocks.find b with
  | none => true
  | some x => s.heldSettled x && x.groups.all (fun g => match s.grp g with
    | some y => y.ops.all (fun o => !(o.ctr == .ld || o.ctr == .st) || o.done || o.kind.cached || (match o.kind with
      | .ldc .. | .flushH _ | .invalH _ => true
      | _ => false))
    | none => true)

/-- The checkpointed blocks, one aside, that hold a byte or a full-empty bit of some device lines. -/
def State.holdersOf (s : State) (except : Nat) (line : Nat → Bool) : List Nat :=
  (s.blocks.filter (fun p => p.1 != except && (p.2.held.any (fun b => decide (b.1 < 2 ^ 60) && line (b.1 / 128)) ||
    p.2.heldFe.any (fun b => line (b.1 / 8))))).map (·.1)

/-- The checkpointed blocks that hold something of the lines of a list. -/
def State.holders (s : State) (except : Nat) (lines : List Nat) : List Nat := s.holdersOf except lines.contains

/-- A recall that reaches held lines first forces the implicit checkpoint of their blocks (R213, R221): they stop issuing,
and once each is ready for it the checkpoint is taken; a rollback ends first. With no such block the access itself
goes on. -/
def recallStep (s : State) (row : String) (bs : List Nat) (ready : Nat → Bool) (k : Out) : Out :=
  if bs.isEmpty then k
  else if bs.any (fun b => ((s.blocks.find b).map (·.rolling)).getD false) then notNow row
  else if bs.all ready then .next (bs.foldl State.checkpoint s)
  else if bs.all (fun b => ((s.blocks.find b).map (·.halt)).getD true) then notNow row
  else .next (bs.foldl (fun t b => t.updBlk b (fun x => { x with halt := true })) s)

/-! ## Readers that cannot wait for a block (R309, R317) -/

/-- The held stores of a block can be released now. -/
def State.heldReady (s : State) (b : Nat) : Bool :=
  match s.blocks.find b with
  | none => true
  | some x => s.heldSettled x

/-- Blocks of a list but those that roll back, which discard what they hold (R339). -/
def State.notRolling (s : State) (bs : List Nat) : List Nat :=
  bs.filter (fun b => !(((s.blocks.find b).map (·.rolling)).getD false))

/-- A recall that cannot wait for the blocks of a list: their checkpoints, as soon as their stores can be released (log entry 44). -/
def State.recallNow (s : State) (bs : List Nat) : Option State :=
  if (s.notRolling bs).all s.heldReady then some ((s.notRolling bs).foldl State.checkpoint s) else none

/-- A step behind such a recall: the checkpoints first, if there are any to take. -/
def recallFast (s : State) (row : String) (bs : List Nat) (k : Out) : Out :=
  if (s.notRolling bs).isEmpty then k
  else match s.recallNow bs with
    | some t => .next t
    | none => notNow row

end Sys2Proof.Machine
end

