-- ==== Sys2Proof/Machine/Mem.lean ====
section
/-! DEFINITION. Memory: the page-table walk and translation (R305 to R314), full-empty bits (R219), and the pending accesses of
memory words. -/

namespace Sys2Proof.Machine

/-! ## Translation -/

/-- Kinds of access, numbered as in the fault record (R315); `pod` is the write of an `STP`. -/
inductive Access where
  | read | write | fetch | eread | ewrite | pod
deriving DecidableEq, Repr

def Access.code : Access → Nat
  | .read => 0 | .write => 1 | .fetch => 2 | .eread => 3 | .ewrite => 4 | .pod => 1

def Access.writes : Access → Bool
  | .write | .ewrite | .pod => true
  | _ => false

/-- What a walk finds (R307 to R309). -/
inductive WalkRes where
  | leaf (e : DWord) (level : Nat)
  | malformed
deriving DecidableEq, Repr

def pteKind (e : DWord) : Nat := e.toNat % 8
def pteWrite (e : DWord) : Bool := e.getLsbD 3
def pteExec (e : DWord) : Bool := e.getLsbD 4
def pteC64 (e : DWord) : Bool := e.getLsbD 5
def pteSpace (e : DWord) : Nat := e.toNat / 64 % 4
def pteFrame (e : DWord) : Nat := e.toNat / 4096 % 2 ^ 40 * 4096
def ptePkg (e : DWord) : Nat := e.toNat / 2 ^ 52 % 256
/-- The reserved bits [11:8] and [63:60] of R308. -/
def pteReserved (e : DWord) : Nat := e.toNat / 256 % 16 + e.toNat / 2 ^ 60

/-- The size of a page (R307). -/
def pageSize (level : Nat) (c64 : Bool) : Nat :=
  match level with
  | 0 => if c64 then 65536 else 4096
  | 1 => 2 ^ 21
  | _ => 2 ^ 30

/-- A leaf's own fields are as R308 and R309 ask, the neighbours of a 64 KiB page aside. `va` is the address
translated. -/
def leafOk (e : DWord) (level va : Nat) : Bool :=
  let size := pageSize level (pteC64 e)
  let base := if level = 0 && pteC64 e then pteFrame e - va / 4096 % 16 * 4096 else pteFrame e
  match pteKind e with
  | 0 => true
  | 1 => pteReserved e == 0 && ptePkg e == 0 && !(pteC64 e && decide (0 < level)) && base % size == 0 &&
      decide (va / 4096 % 16 * 4096 ≤ pteFrame e || !(pteC64 e)) &&
      (match pteSpace e with
        | 0 => decide (base + size ≤ Config.deviceBytes)
        | 1 => decide (base + size ≤ 2 ^ 52)
        | 2 => level == 0 && !pteC64 e && decide (base + size ≤ Config.bellSlice)
        | _ => false)
  | 2 => pteReserved e == 0 && pteSpace e == 0 && !(pteC64 e && decide (0 < level)) && base % size == 0 &&
      decide (va / 4096 % 16 * 4096 ≤ pteFrame e || !(pteC64 e))
  | 3 => pteReserved e == 0
  | 4 => pteReserved e == 0
  | _ => false

/-- The 16 entries of a 64 KiB page differ only in frame bits [15:12], and their frames are consecutive (R309). -/
def group64Ok (mem : List Host.Cell) (table idx : Nat) : Bool :=
  let first : DWord := BitVec.ofNat 64 (Memory.read mem (table + 8 * (idx / 16 * 16)) 8)
  (List.range 16).all (fun i =>
    Memory.read mem (table + 8 * (idx / 16 * 16 + i)) 8 == first.toNat + i * 4096)

/-- A TABLE entry's fields are in order (R308, R309). -/
def pteTableOk (e : DWord) : Bool :=
  pteReserved e == 0 && pteSpace e == 0 && ptePkg e == 0 && !pteC64 e && decide (pteFrame e + 4096 ≤ Config.deviceBytes)

/-- The walk from a table of a level (R307 to R309). `away` gives the entry as which a place reads that a migration, a retired region
or poison takes away (R318, R319, R338). -/
def walkFrom (mem : List Host.Cell) (away : Nat → Option DWord) : Nat → Nat → Nat → WalkRes
  | level, table, va =>
    let idx := va / 2 ^ (12 + 9 * level) % 512
    match away (table + 8 * idx) with
    | some e => .leaf e level
    | none =>
      let e : DWord := BitVec.ofNat 64 (Memory.read mem (table + 8 * idx) 8)
      match level with
      | 0 =>
        if pteKind e == 5 then .malformed
        else if !leafOk e 0 va then .malformed
        else if (pteKind e == 1 || pteKind e == 2) && pteC64 e then
          match (List.range 16).findSome? (fun i => away (table + 8 * (idx / 16 * 16 + i))) with
          | some x => .leaf x 0
          | none => if group64Ok mem table idx then .leaf e 0 else .malformed
        else .leaf e 0
      | l + 1 =>
        if pteKind e == 5 then
          if pteTableOk e then walkFrom mem away l (pteFrame e) va else .malformed
        else if pteKind e == 0 then .leaf e (l + 1)
        else if 2 ≤ l then .malformed
        else if leafOk e (l + 1) va then .leaf e (l + 1) else .malformed

/-- A place of device memory in a retired region reads as POISONED, in one being moved as MIGRATING (R318, R319). -/
def State.away (s : State) (pa : Nat) : Option DWord :=
  let r := pa / Config.regionBytes
  if s.mgmt.retired.contains r then some 4
  else if s.mgmt.moving == some r then some 3
  else none

/-- The places of the entries that a walk reads (R307). -/
def walkPath (mem : List Host.Cell) (away : Nat → Option DWord) : Nat → Nat → Nat → List Nat
  | level, table, va =>
    let pa := table + 8 * (va / 2 ^ (12 + 9 * level) % 512)
    let e : DWord := BitVec.ofNat 64 (Memory.read mem pa 8)
    match level with
    | 0 => [pa]
    | l + 1 => if (away pa).isNone && pteKind e == 5 && pteTableOk e then pa :: walkPath mem away l (pteFrame e) va else [pa]

/-- A table entry as a walk finds it: poison is no data (R338), so that a thread's walk waits, and an engine finds no page. -/
def State.entryAway (s : State) (eng : Bool) (pa : Nat) : Option DWord :=
  match s.away pa with
  | some e => some e
  | none => if s.poison.all (fun p => decide (p * 16 + 16 ≤ pa) || decide (pa + 8 ≤ p * 16)) then none else some (if eng then 4 else 3)

/-- The home slice of a line (R221): a region that the running re-striping has passed uses the new hash (R319). -/
def State.homeOf (s : State) (line : Nat) : Nat :=
  Config.homeSlice (s.mgmt.sweeps + (match s.mgmt.moving with
    | some g => if line * 128 / Config.regionBytes < g then 1 else 0
    | none => 0)) line

/-- The leaf of a tenant's shared table (R305): an address no leaf covers reads a NOT-PRESENT entry. -/
def sharedLeaf (s : State) (tenant va : Nat) : WalkRes :=
  match s.shared.find? (fun x => x.tenant == tenant && decide (x.va ≤ va) && decide (va < x.va + pageSize x.level false)) with
  | some x => .leaf x.entry x.level
  | none => .leaf 0 4

/-- The walk of an address of a context, for an engine or a thread (R305, R307). The root's index is VA[55:48]. -/
def State.walkFor (s : State) (eng : Bool) (ctx va : Nat) : WalkRes :=
  match s.ctxs.find ctx with
  | none => .malformed
  | some c => if 2 ^ 55 ≤ va then sharedLeaf s c.tenant va else walkFrom s.mem (s.entryAway eng) 4 c.root va

def State.walk (s : State) (ctx va : Nat) : WalkRes := s.walkFor false ctx va

/-- The lines of the tables that a walk reads. -/
def State.walkLines (s : State) (ctx va : Nat) : List Nat :=
  match s.ctxs.find ctx with
  | none => []
  | some c => if 2 ^ 55 ≤ va then [] else (walkPath s.mem s.away 4 c.root va).map (· / 128)

/-- A walk reads the newest entries (R309): the blocks that hold lines of its tables take their implicit checkpoints first (R221), as
soon as their stores can be released (log entry 44). The state, and whether the walk may go on. -/
def State.recallWalk (s : State) (ctx va : Nat) : Nat → State × Bool
  | 0 => (s, true)
  | n + 1 =>
    if s.blocks.all (fun p => p.2.holdsNone) then (s, true)
    else
      let bs := s.holders 0 (s.walkLines ctx va)
      if (s.notRolling bs).isEmpty then (s, true)
      else match s.recallNow bs with
        | some t => t.recallWalk ctx va n
        | none => (s, false)

/-- What an access meets (R311). -/
inductive Xlat where
  | ok (ph : Phys)
  | fault (kind : Nat) (quiet : Bool)
  | poisoned
  | remote (pkg pa : Nat)
  | bad
deriving DecidableEq, Repr

/-- Who owns a cached translation (R310). -/
def tlbOwner (s : State) (ctx va : Nat) : Nat :=
  if 2 ^ 55 ≤ va then 4096 + ((s.ctxs.find ctx).map (·.tenant)).getD 0 else ctx

/-- Device memory, in a retired region or in one being moved (R318, R319). -/
def State.devPhys (s : State) (pa : Nat) : Xlat :=
  match s.away pa with
  | none => .ok (.dev pa)
  | some e => if pteKind e == 4 then .poisoned else .fault 3 true

/-- What a leaf entry gives an access at an address (R306, R311). -/
def State.leafAccess (s : State) (e : DWord) (level va : Nat) (a : Access) : Xlat :=
  match pteKind e with
  | 0 => .fault 0 false
  | 1 =>
    if (a.writes && !pteWrite e) || (a == .fetch && !pteExec e) then .fault 1 false
    else
      let off := va % pageSize level false
      match pteSpace e with
      | 0 => s.devPhys (pteFrame e + off)
      | 1 => .ok (.host (pteFrame e + off))
      | _ => .ok (.bell (pteFrame e + off))
  | 2 => if a == .pod && !pteWrite e then .fault 2 false else .remote (ptePkg e) (pteFrame e + va % pageSize level false)
  | 3 => .fault 3 true
  | 4 => .poisoned
  | _ => .bad

/-- A cached leaf: the entry and its level by page size (R310). -/
def tlbLevel (size : Nat) : Nat := if size = 2 ^ 30 then 2 else if size = 2 ^ 21 then 1 else 0

/-- Keep a PRESENT or REMOTE leaf in the TLBs (R310). -/
def State.cacheLeaf (s : State) (owner va : Nat) (e : DWord) (level : Nat) : State :=
  let size := pageSize level false
  let entry : Tlb := ⟨owner, va / size * size, size, e⟩
  if (pteKind e == 1 || pteKind e == 2) && !s.tlb.contains entry then { s with tlb := entry :: s.tlb } else s

/-- Translate one address by the table. -/
def State.byWalk (s : State) (owner va : Nat) (a : Access) : WalkRes → Xlat × State
  | .malformed => (.bad, s)
  | .leaf e l => (s.leafAccess e l va a, s.cacheLeaf owner va e l)

/-- Accesses of engines (R311). -/
def Access.ofEngine : Access → Bool
  | .eread | .ewrite => true
  | _ => false

/-- Translate one address (R305 to R311). A cached translation that differs from the table may be used instead until
an invalidation; which is used is free (log entry 11). A PRESENT or REMOTE leaf walked is cached. -/
def State.xlatNow (s : State) (ctx va : Nat) (a : Access) : Xlat × State :=
  let owner := tlbOwner s ctx va
  let w := s.walkFor a.ofEngine ctx va
  let stale := s.tlb.filter (fun t => t.owner == owner && decide (t.base ≤ va) && decide (va < t.base + t.size) &&
    !(w == .leaf t.leaf (tlbLevel t.size)))
  match stale with
  | [] => s.byWalk owner va a w
  | t :: r =>
    let s1 := { s with free := s.free + 1 }
    if Config.freeBit s.free then
      let t' := ((t :: r)[Config.freeNat s.free % (r.length + 1)]?).getD t
      (s1.leafAccess t'.leaf (tlbLevel t'.size) va a, s1)
    else s1.byWalk owner va a w

/-- A cached translation covers an address. -/
def State.inTlb (s : State) (ctx va : Nat) : Bool :=
  s.tlb.any (fun t => t.owner == tlbOwner s ctx va && decide (t.base ≤ va) && decide (va < t.base + t.size))

/-- Translate one address; with none cached, what checkpointed blocks hold of the tables is recalled first, and meanwhile the access
waits. -/
def State.xlat (s : State) (ctx va : Nat) (a : Access) : Xlat × State :=
  if s.inTlb ctx va then s.xlatNow ctx va a
  else
    let r := s.recallWalk ctx va 6
    if r.2 then r.1.xlatNow ctx va a else (.fault 3 true, r.1)

/-! ## Page faults (R313, R315) -/

/-- Ask for service of a page fault, sharing a request for the same page that is outstanding. `who` is an engine operation or a
queue, by its key; 0 for a thread. -/
def State.askFault (s : State) (ld ctx va : Nat) (a : Access) (kind : Nat) (quiet : Bool) (who : Nat) : Nat × State :=
  let ask : List Nat := if who = 0 then [] else [who]
  match s.faults.find? (fun p => p.2.ctx == ctx && p.2.va / 4096 == va / 4096 && (p.2.st == .asked || p.2.st == .forwarded)
      && p.2.serviceless == quiet) with
  | some p => (p.1, if who = 0 then s else { s with faults := s.faults.upd p.1 (fun f => { f with askers := insertNat f.askers who }) })
  | none => (s.nextId, { s with
      nextId := s.nextId + 1
      faults := s.faults.set s.nextId ⟨ld, ctx, va, a.code, kind, .asked, quiet, ask⟩ })

/-- No line an access names is locked by an `MCAS` (R251). -/
def State.unlocked (s : State) (pa n : Nat) : Bool :=
  s.locks.all (fun p => !(decide (pa / 128 ≤ p.1) && decide (p.1 ≤ (pa + n - 1) / 128)))

/-- No poisoned granule lies in the bytes (R338). -/
def State.clean (s : State) (pa n : Nat) : Bool :=
  s.poison.all (fun p => decide (p * 16 + 16 ≤ pa) || decide (pa + n ≤ p * 16))

/-- The full-empty bit of a granule of device memory as a block's threads see it (R219, R213). -/
def State.fullBit (s : State) (g : Group) (gran : Nat) : Bool :=
  match (s.blkOf g).bind (fun b => b.heldFe.find gran) with
  | some b => b
  | none => s.full.contains gran

/-! ## Pending accesses of a memory word -/

/-- The effective address (R226): base pair plus sign-extended offset. -/
def effAddr (g : Group) (l : Nat) (m : MAddr) : DWord := m.base.get64 g l + (m.off.get g l .sext).signExtend 64

/-- An offset into scratch or a constant bank (R234): 32-bit wrap. -/
def effOff (g : Group) (l : Nat) (m : MAddr) : Nat := (m.base.get g l + m.off.get g l .sext).toNat

end Sys2Proof.Machine

namespace Sys2Proof
open Machine

/-- The scalar form of a word: its address, offset and data are scalar, so one access serves every lane (R226, log
entry 12). -/
def MAddr.uniform (m : MAddr) : Bool := m.base.isS && !m.off.isV

end Sys2Proof

namespace Sys2Proof.Machine

/-- One lane's translated access: address, space or fault, and the failures of R227 step 4 by their causes. -/
structure Try where
  lane : Nat
  va : Nat
  acc : Option LaneAcc
  cause : Nat
deriving DecidableEq, Repr

/-- Translate one lane's access for a plain thread access (R225, R311). -/
def State.tryAcc (s : State) (ld ctx lane : Nat) (va : DWord) (a : Access) : Try × State :=
  let v := va.toNat
  if 2 ^ 56 ≤ v then (⟨lane, v, none, 4⟩, s)
  else
    let x := s.xlat ctx v a
    match x.1 with
    | .ok ph => (⟨lane, v, some ⟨lane, Mask.one lane, v, 1, ph, [], .ready⟩, 0⟩, x.2)
    | .fault k q =>
      let f := x.2.askFault ld ctx v a k q 0
      (⟨lane, v, some ⟨lane, Mask.one lane, v, 1, .zero, [], .fault f.1⟩, 0⟩, f.2)
    | .poisoned => (⟨lane, v, none, 0x0A⟩, x.2)
    | .remote p pa => (⟨lane, v, some ⟨lane, Mask.one lane, v, 1, .remote p pa, [], .ready⟩, 7⟩, x.2)
    | .bad => (⟨lane, v, some ⟨lane, Mask.one lane, v, 1, .zero, [], .failed⟩, 0⟩, x.2)

/-- Translate the accesses of lanes in ascending order. -/
def State.tryAll (s : State) (ld ctx : Nat) (a : Access) : List (Nat × DWord) → List Try × State
  | [] => ([], s)
  | (l, va) :: r =>
    let x := s.tryAcc ld ctx l va a
    let y := x.2.tryAll ld ctx a r
    (x.1 :: y.1, y.2)

/-- The first failure of R227 step 4 among lanes that are no helpers: address range, then poisoned page, then a space
check (cause and lanes given by the word); the report names the lowest lane. -/
def firstFail (helper : Nat → Bool) (ts : List Try) (space : Try → Bool) (spaceCause : Nat) : Option Trap :=
  let live := ts.filter (fun t => !helper t.lane)
  match live.find? (fun t => t.cause == 4) with
  | some t => some { cause := 4, addr := t.va }
  | none =>
    match live.find? (fun t => t.cause == 0x0A) with
    | some t => some { cause := 0x0A, addr := t.va }
    | none =>
      match live.find? space with
      | some t => some { cause := spaceCause, addr := t.va }
      | none => none

def Try.isRemote (t : Try) : Bool := t.cause == 7

def Try.phys (t : Try) : Phys := (t.acc.map (·.phys)).getD .zero

def Try.isHost (t : Try) : Bool := match t.phys with | .host _ => t.cause == 0 && (t.acc.map (·.st)) == some .ready | _ => false
def Try.isBell (t : Try) : Bool := match t.phys with | .bell _ => true | _ => false

/-- The accesses that go on: lanes without a failure. A failing helper lane performs nothing (R227). -/
def okAccs (ts : List Try) : List LaneAcc := ts.filterMap (fun t => if t.cause == 0 then t.acc else none)

/-- Bytes of a value at an offset list. -/
def withOffsets (bs : List Byte) : List (Nat × Byte) := bs.mapIdx (fun i b => (i, b))

/-- The space of an access and its place in it. -/
def Phys.place : Phys → Nat × Nat
  | .dev pa => (0, pa)
  | .host pa => (1, pa)
  | .bell off => (2, off)
  | .scratch off => (3, off)
  | .remote p pa => (4, p * 2 ^ 56 + pa)
  | .zero => (5, 0)
  | .store off => (6, off)

def LaneAcc.waiting (a : LaneAcc) : Bool := match a.st with | .fault _ => true | _ => false

/-- Two accesses of one store word name the same bytes, as far as their translations tell. Accesses of one word are of one
width and aligned, so two either coincide or are apart. -/
def LaneAcc.same (a b : LaneAcc) : Bool := if a.waiting || b.waiting then a.va == b.va else a.phys.place == b.phys.place

/-- Where lanes of one store word write the same bytes, only the highest lane's are written (R226). -/
def coalesce : List LaneAcc → List LaneAcc
  | [] => []
  | a :: r =>
    let out := coalesce r
    if out.any (fun b => b.same a) then
      out.map (fun b => if b.same a then { b with who := b.who ||| a.who } else b)
    else a :: out

/-- A 16-byte access to host memory is performed as two halves of 8 bytes (R215). -/
def LaneAcc.halves (a : LaneAcc) : List LaneAcc :=
  match a.phys with
  | .host pa =>
    if a.n == 16 then
      [{ a with n := 8, data := a.data.filter (fun d => decide (d.1 < 8)) },
       { a with va := a.va + 8, n := 8, phys := .host (pa + 8), data := (a.data.filter (fun d => decide (8 ≤ d.1))).map (fun d => (d.1 - 8, d.2)) }]
    else [a]
  | _ => [a]

end Sys2Proof.Machine

namespace Sys2Proof
open Machine

/-- The value a load writes (R231), as the 32-bit words of its registers. -/
def Width.loadWords (w : Width) (bs : List Byte) : List Word :=
  let v := leNat bs
  match w with
  | .n8 => [BitVec.ofNat 32 (v % 256)]
  | .s8 => [(BitVec.ofNat 8 v).signExtend 32]
  | .n16 => [BitVec.ofNat 32 (v % 65536)]
  | .s16 => [(BitVec.ofNat 16 v).signExtend 32]
  | .b32 => [BitVec.ofNat 32 v]
  | .b64 => [BitVec.ofNat 32 v, BitVec.ofNat 32 (v / 2 ^ 32)]
  | .b128 => [BitVec.ofNat 32 v, BitVec.ofNat 32 (v / 2 ^ 32), BitVec.ofNat 32 (v / 2 ^ 64), BitVec.ofNat 32 (v / 2 ^ 96)]

end Sys2Proof

namespace Sys2Proof.Machine

/-- Write the words of a load to a register run of a lane. -/
def wWords (d : Reg) (l : Nat) (ws : List Word) : Eff :=
  (ws.mapIdx (fun k x => wReg (d.plus k) l x)).foldl Eff.append {}

/-- The bytes of a store's data operand (R231). -/
def storeBytes (g : Group) (l : Nat) (d : Reg) (w : Width) : List Byte :=
  match w with
  | .n8 | .s8 => leBytes 1 (d.get g l).toNat
  | .n16 | .s16 => leBytes 2 (d.get g l).toNat
  | .b32 => leBytes 4 (d.get g l).toNat
  | .b64 => leBytes 8 (d.get64 g l).toNat
  | .b128 => (List.range 4).flatMap (fun k => leBytes 4 ((d.plus k).get g l).toNat)

end Sys2Proof.Machine
end

