-- ==== Sys2Proof/Machine/Issue.lean ====
section
/-! DEFINITION. The wrapper every instruction word runs in (R53 to R55, R81, R126), with the implicit checkpoint of R212
before the words that need one. -/

namespace Sys2Proof
open Machine

/-- The words before which a checkpointed block takes an implicit checkpoint (R212), with their guards. -/
def Instr.forcesCkpt : Instr → Option Guard
  | .atom _ _ _ g .. | .atomc _ _ g .. | .red _ _ _ g .. | .mcas _ g .. | .cbw _ _ g .. | .cbc _ _ g .. | .cba _ _ g ..
  | .cbpt _ _ g .. | .stp g .. | .tcpy g _ | .gath g _ | .scat g _ | .fill g _ | .coll g _ | .qpush _ g .. | .launch _ g ..
  | .cont g .. | .trap g _ => some g
  | .mdrn .. => some ⟨7, false⟩
  | .arrive _ b | .bsync b | .bdrop b | .binit _ b _ => if b.scope == .blk then none else some ⟨7, false⟩
  | _ => none

/-- The transfer words, which a rollback repeats (R304, R339). -/
def Instr.repeats : Instr → Bool
  | .tcpy .. | .gath .. | .scat .. | .fill .. => true
  | _ => false

end Sys2Proof

namespace Sys2Proof.Machine

/-- Change a group of a block's shadow. -/
def State.updShadow (s : State) (b gid : Nat) (f : Group → Group) : State :=
  s.updBlk b (fun x => { x with shadow := x.shadow.map (fun sh => { sh with
    groups := sh.groups.map (fun p => if p.1 == gid then (p.1, f p.2) else p) }) })

/-- Seal an operation of R212 (R339): the shadow PC of its lanes moves past the word at `pc`. -/
def State.seal (s : State) (b gid : Nat) (m : Mask) (pc : BitVec 56) : State :=
  s.updShadow b gid (fun g => g.advance (maskFilter m (fun l => (g.lane l).pc == pc)))

/-- Seal a word that still holds its lanes (R339): a `BSYNC` that has arrived only waits when it is repeated; a push or a loop
record has issued. -/
def State.sealHeld (s : State) (b gid : Nat) (m : Mask) (pc : BitVec 56) (h : Hold) : State :=
  match h with
  | .sync x p => s.updShadow b gid (fun g => g.holdLanes (maskFilter m (fun l => (g.lane l).pc == pc)) (.sync x p))
  | h => if ((s.grp gid).map (·.sealedHold h)).getD false then s.seal b gid m pc else s

/-- Copy a sealed operation's results into the shadow (R339). -/
def State.sealResult (s : State) (b gid : Nat) (e : Eff) : State :=
  s.updShadow b gid (fun g => g.apply e)

/-! ## The wrapper of instruction words -/

/-- How a word ends. -/
inductive WOut where
  /-- The effect is made; the fragment continues at the next word. -/
  | done (s : State)
  /-- The effect is made and the word has placed its lanes itself. -/
  | moved (s : State)
  /-- The word waits; what it has begun is in `s`. -/
  | hold (s : State) (h : Hold)
  /-- The word is not ready (R126); nothing has happened. -/
  | notReady
  /-- The word traps and has no effect (R324); it has issued and counts (R55). -/
  | trap (t : Trap)

/-- Accesses waiting in a core's replay buffer: one entry per word with faulting lanes (R313). -/
def State.replayUsed (s : State) (core : Nat) : Nat :=
  (s.groups.filter (fun p => p.2.core == core)).foldl (fun n p => n +
    (p.2.ops.filter (fun o => o.lanes.any (fun a => match a.st with | .fault _ => true | _ => false))).length) 0

end Sys2Proof.Machine

namespace Sys2Proof
open Machine

def Instr.isSafept : Instr → Bool
  | .safept _ => true
  | _ => false

/-- Words that are ordered after an earlier acquire before they may issue: engine issues, remote accesses, loop
records, pushes and fences (R256, R257). -/
def Instr.afterAcquire : Instr → Bool
  | .ldp .. | .stp .. | .tcpy .. | .gath .. | .scat .. | .fill .. | .coll .. | .mdrn .. | .mlda .. | .cbw .. | .cbc .. | .cba ..
  | .cbpt .. | .qpush .. | .launch .. | .cont .. | .mma .. | .mmap .. | .mzero .. | .mvec .. | .cld .. | .trap .. => true
  | _ => false

end Sys2Proof

namespace Sys2Proof.Machine

/-- A held word that has already counted its operation: an `LDFE`, a push, a loop record, a word whose pages wait in replay. -/
def Group.counted (g : Group) (h : Hold) (k : Ctr) : Bool :=
  match h with
  | .op _ | .push _ _ => true
  | .busy id => g.ops.any (fun o => o.id == id && o.ctr == k)
  | _ => false

/-- The number by which the lines of a control record are known among a group's register lines (R161). -/
def ctlLine (n : Nat) : Nat := 1024 + n

/-- The lines a word needs in its slot's register cache: its registers', and every line of the control record (R161, log
entry 43). -/
def needLines (i : Instr) (width : Nat) : List Nat := i.lines width ++ (List.range 16).map ctlLine

/-- A lane that executes under a guard keeps so many on-chip entries of its return stack. -/
def Group.keeps (g : Group) (m : Mask) (gd : Guard) (k : Nat) : Bool :=
  (Mask.lanes (g.nonHelpers (g.guarded m gd))).any (fun l => (g.lane l).rs.length == k)

/-- A call that spills an entry, and a return that refills one (R154). -/
def Group.spills (g : Group) (m : Mask) : Instr → Bool
  | .call gd _ sp | .callx gd _ sp => sp.toNat != 63 && g.keeps m gd 4
  | _ => false

def Group.refills (g : Group) (m : Mask) : Instr → Bool
  | .ret gd sp => sp.toNat != 63 && g.keeps m gd 0
  | _ => false

/-- The word is executed again only to go on: its access is made, or its push decided. -/
def Hold.issued : Hold → Bool
  | .op _ | .push _ _ => true
  | _ => false

/-- The word accesses memory as it issues now (R126): a flagged `SAFEPT` reads its table. -/
def Group.accesses (g : Group) (c : Issue) (i : Instr) : Bool :=
  !c.hold.issued && (i.isMem || (i.isSafept && g.flagged) || g.spills c.lanes i || g.refills c.lanes i)

/-- The counter a word adds to as it issues now. -/
def Group.counterOf (g : Group) (c : Issue) (i : Instr) : Option Ctr := if g.spills c.lanes i then some .st else i.ctr

/-- Requests of a group that goes on after pre-emption have not all been posted again: no fragment issues before (R87). -/
def Group.reposting (g : Group) : Bool := !g.flagged && g.withdrawn.any (fun e => e.st == .posted)

/-- The conditions of R126 that depend on the word: its counter has room, its register lines are resident, the
replay buffer has room, and no earlier acquire holds it back; and the group's withdrawn requests are posted again (R87). -/
def State.wordReady (s : State) (c : Issue) (g : Group) (i : Instr) : Bool :=
  (match g.counterOf c i with
    | some k => decide (g.counter k < 63) || g.counted c.hold k
    | none => true) &&
  (g.missing.isEmpty || (needLines i (s.descOf g).width).all (fun n => !g.missing.contains n)) &&
  (!g.accesses c i || decide (s.replayUsed g.core < 64)) &&
  (!i.afterAcquire || !g.acquirePending c.lanes) && !g.reposting

/-- Illegal for this kernel or device (R44, R116, R192, R385): a register or slot the kernel did not declare, a
feature the driver did not accept, a block wider than the group. -/
def State.illegalHere (s : State) (g : Group) (i : Instr) : Bool :=
  let d := s.descOf g
  !i.regsOk d.regs ||
  (match i.slot with | some n => !(d.accmask.testBit n) | none => false) ||
  (match i.feature with | some b => !s.feature (s.ldOf g) b | none => false) ||
  (match i.feature2 with | some b => !s.feature (s.ldOf g) b | none => false) ||
  (match i with
    | .cvtq _ l32 _ _ _ _ _ _ _ _ => decide (g.width < (if l32 then 32 else 16))
    | _ => false)

/-- The trap of a word that is illegal here; of a pair it names the slot (R53, R326). -/
def illegalTrap (regs : Nat) : Instr → Trap
  | .pair a _ => { cause := 1, detail := if a.vregs.all (fun r => decide (r.1 + r.2 ≤ regs)) then 2 else 0 }
  | _ => trapOf 1

/-- The trap of a word that is no instruction: each slot's field and register checks come before the pairing rules (R53). -/
def wordTrap (regs : Nat) (w : DWord) (e : DecodeError) : Trap :=
  let bad := fun (n : Nat) => match decodeSlot n with
    | some p => p.vregs.any (fun r => decide (regs < r.1 + r.2))
    | none => true
  match e with
  | .illegal => trapOf 1
  | .illegalSlot _ | .illegalPair _ =>
    if bad (w.toNat / 2 ^ 31 % 2 ^ 31) then trapOf 1
    else if bad (w.toNat % 2 ^ 31) then { cause := 1, detail := 2 }
    else match e with
      | .illegalPair r => { cause := 2, reason := r }
      | _ => trapOf 1

def State.spLimit (s : State) (g : Group) : Nat := ((s.ctxOf g).map (·.spLimit)).getD 65535

/-- Count a word at its first issue: the group's words, its safe-point distance unless in a handler or at `SAFEPT`,
and the fragment's last issue (R55, R81, R128). -/
def Group.count (g : Group) (c : Issue) (sp : Bool) : Group :=
  { g.updLanes c.lanes (fun x => { x with issued := g.words + 1, stop := none }) with
    words := g.words + 1
    spCount := if sp then g.spCount + 1 else g.spCount }

/-- The word counts towards the safe-point distance: at its first issue, outside a handler, unless it is a `SAFEPT` (R81). -/
def Group.counts (g : Group) (c : Issue) (sp : Bool) : Bool := c.hold == .none && !(g.inHandler c.lanes) && !sp

/-- The trap of a word of the issuing fragment; helper lanes alone end instead (R54). -/
def State.wordTraps (s : State) (c : Issue) (g : Group) (t : Trap) : State :=
  if g.nonHelpers c.lanes == 0 then s.endHelpers c else s.trapAt c t

/-- An issued word that is illegal traps (R53, R54); it counts like any other (R55), up to the limit. -/
def State.illegalTraps (s : State) (c : Issue) (g : Group) (t : Trap) : State :=
  let s1 := s.setGrp c.grp (g.count c (g.counts c false && decide (g.spCount < s.spLimit g)))
  s1.wordTraps c g t

/-- A checkpointed block takes its implicit checkpoint before this word (R212): some lane of it executes (R41). -/
def State.seals (s : State) (c : Issue) (g : Group) (i : Instr) : Bool :=
  s.ckpt g && (match i.forcesCkpt with
    | some gd => g.nonHelpers (g.guarded c.lanes gd) != 0
    | none => false)

/-- A word runs: legality (R53, R54), readiness (R126), the safe-point distance (R81), the count (R55), its own
effect, and what follows from it. A word that no lane executes passes the safe-point limit like any other and traps there, which R41 and
R81 leave open (log entry 53). -/
def runWord (s : State) (i : Instr) (body : State → Issue → Group → WOut) : Out :=
  match s.cur with
  | none => .fault .noIssuer
  | some c =>
    match s.grp c.grp with
    | none => .fault .noIssuer
    | some g =>
      if s.illegalHere g i then .next (s.illegalTraps c g (illegalTrap (s.descOf g).regs i))
      else if !s.wordReady c g i then .next { s with cur := none }
      else
        let first := c.hold == .none
        let counted := g.counts c i.isSafept
        if counted && decide (s.spLimit g ≤ g.spCount) then
          .next (s.trapAt c { cause := 0x10, info := g.spCount })
        else
          let g1 := if first then g.count c counted else g
          let s1 := { s.setGrp c.grp g1 with cur := none }
          let sealed := s.seals c g i
          let early := if sealed && (first || c.hold == .ckpt) then (match body s1 c g1 with
            | .trap t => some t
            | _ => none) else none
          if let some t := early then
            .next (s1.wordTraps c g t)
          else if sealed && (first || c.hold == .ckpt) && !s1.ckptReady g.blk then
            .next ((s1.updBlk g.blk (fun b => { b with halt := true })).updGrp c.grp (fun x => x.holdLanes c.lanes .ckpt))
          else
            let s2 := if sealed && (first || c.hold == .ckpt) then s1.checkpoint g.blk else s1
            match body s2 c (g1.asIssued c.hold) with
            | .done t =>
              let t1 := (t.dropSnap c.grp c.hold).updGrp c.grp (fun x => x.advance c.lanes)
              .next (if sealed && !i.repeats then t1.seal g.blk c.grp c.lanes c.pc else t1)
            | .moved t => .next (t.dropSnap c.grp c.hold)
            | .hold t h =>
              let t1 := t.updGrp c.grp (fun x =>
                let y := x.holdLanes c.lanes h
                if y.flagged && h.isStop then y.stopAt c.lanes .waitPoint else y)
              .next (if sealed then t1.sealHeld g.blk c.grp c.lanes c.pc h else t1)
            | .notReady => .next { s with cur := none }
            | .trap t => .next (s1.wordTraps c g t)

/-- A word that only computes: registers, predicates, flags and generator states of its own group. -/
def regWord (s : State) (i : Instr) (eff : State → Issue → Group → Eff) : Out :=
  runWord s i (fun s1 c g => .done (s1.setGrp c.grp (g.run (eff s1 c))))

/-- A computing word with a guard: the executing lanes and the group give the effect. -/
def laneWord (s : State) (i : Instr) (gd : Guard) (eff : Group → Mask → Eff) : Out :=
  regWord s i (fun _ c g => eff g (g.guarded c.lanes gd))

/-- A word that executes once for the group when some executing lane is no helper (R39). -/
def onceWord (s : State) (i : Instr) (gd : Guard) (body : State → Issue → Group → Mask → WOut) : Out :=
  runWord s i (fun s1 c g =>
    let ex := g.guarded c.lanes gd
    if g.nonHelpers ex == 0 then .done s1 else body s1 c g ex)

end Sys2Proof.Machine
end

