-- ==== Sys2Proof/Machine/Integer.lean ====
section
/-! DEFINITION. The integer, logic, bit-field, compare, select, address and special-register words, majors 0x00 to 0x1E
(R162 to R177), and the X-form moves (R51). -/

namespace Sys2Proof.Machine

/-! ## Values (R163) -/

end Sys2Proof.Machine

namespace Sys2Proof
open Machine

def ITy.bits (t : ITy) : Nat := if t.wide then 64 else 32

end Sys2Proof

namespace Sys2Proof.Machine

/-- A bit pattern of w bits read as signed or unsigned. -/
def readInt (sgn : Bool) (w v : Nat) : Int := if sgn && decide (2 ^ (w - 1) ≤ v) then (v : Int) - (2 ^ w : Nat) else (v : Int)

/-- The w low bits of an integer. -/
def wrapInt (w : Nat) (v : Int) : Nat := (v % (2 ^ w : Nat)).toNat

def clampInt (sgn : Bool) (w : Nat) (v : Int) : Int :=
  if v > intMax sgn w then intMax sgn w else if v < intMin sgn w then intMin sgn w else v

/-- `Fit` of R163. -/
def fitInt (sgn sat : Bool) (w : Nat) (v : Int) : Nat := wrapInt w (if sat then clampInt sgn w v else v)

end Sys2Proof.Machine

namespace Sys2Proof
open Machine

/-- A source read as an unsigned pattern of 32 or 64 bits. -/
def Src.nat (g : Group) (l : Nat) (k : ImmKind) (wide : Bool) (x : Src) : Nat :=
  if wide then (x.get64 g l k).toNat else (x.get g l k).toNat

/-- `Val` of R163. -/
def Src.int (g : Group) (l : Nat) (t : ITy) (x : Src) : Int := readInt t.signed (ITy.bits t) (x.nat g l .sext t.wide)

end Sys2Proof

namespace Sys2Proof.Machine

/-- Write a 32-bit register or a pair. -/
def wNat (wide : Bool) (d : Reg) (l v : Nat) : Eff :=
  if wide then wReg64 d l (BitVec.ofNat 64 v) else wReg d l (BitVec.ofNat 32 v)

/-! ## Moves and arithmetic (R165 to R167) -/

def effMov (b64 : Bool) (o : Op1) (g : Group) (ex : Mask) : Eff :=
  runDst g ex o.d (fun l => wNat b64 o.d l (o.a.nat g l .sext b64))

/-- A two-source integer word whose result is fitted to the type. -/
def effArith (t : ITy) (sat : Bool) (f : Int → Int → Int) (o : Op2) (g : Group) (ex : Mask) : Eff :=
  runDst g ex o.d (fun l => wNat t.wide o.d l (fitInt t.signed sat (ITy.bits t) (f (o.a.int g l t) (o.b.int g l t))))

def effMulh (t : ITy) (wide : Bool) (o : Op2) (g : Group) (ex : Mask) : Eff :=
  runDst g ex o.d (fun l =>
    let p := o.a.int g l t * o.b.int g l t
    if wide then wNat true o.d l (wrapInt 64 p)
    else wNat t.wide o.d l (wrapInt (ITy.bits t) (p / (2 ^ ITy.bits t : Nat))))

def effMad (t : ITy) (sat wide : Bool) (o : Op3) (g : Group) (ex : Mask) : Eff :=
  runDst g ex o.d (fun l =>
    let p := o.a.int g l t * o.b.int g l t
    if wide then wNat true o.d l (fitInt t.signed sat 64 (p + readInt t.signed 64 (o.c.nat g l .sext true)))
    else wNat t.wide o.d l (fitInt t.signed sat (ITy.bits t) (p + o.c.int g l t)))

/-- Quotient and remainder of R167. -/
def divInt (t : ITy) (x y : Int) : Int × Int :=
  if y == 0 then ((2 ^ ITy.bits t - 1 : Nat), x)
  else if t.signed && x == intMin true (ITy.bits t) && y == -1 then (x, 0)
  else (x.tdiv y, x.tmod y)

def effDiv (t : ITy) (rem : Bool) (o : Op2) (g : Group) (ex : Mask) : Eff :=
  runDst g ex o.d (fun l =>
    let q := divInt t (o.a.int g l t) (o.b.int g l t)
    wNat t.wide o.d l (wrapInt (ITy.bits t) (if rem then q.2 else q.1)))

def effAbs (b64 sat : Bool) (o : Op1) (g : Group) (ex : Mask) : Eff :=
  let t : ITy := if b64 then .s64 else .s32
  runDst g ex o.d (fun l => wNat b64 o.d l (fitInt true sat (ITy.bits t) ((o.a.int g l t).natAbs : Int)))

/-! ## Logic, shifts and counts (R168, R169) -/

def effLogic (b64 : Bool) (f : Nat → Nat → Nat) (o : Op2) (g : Group) (ex : Mask) : Eff :=
  runDst g ex o.d (fun l => wNat b64 o.d l (f (o.a.nat g l .zext b64) (o.b.nat g l .zext b64)))

/-- A bit-by-bit function of three values given by an 8-bit table (R168). -/
def bool3 (lut w a b c : Nat) : Nat :=
  (List.range w).foldl (fun acc i =>
    let k := (a.testBit i).toNat + 2 * (b.testBit i).toNat + 4 * (c.testBit i).toNat
    acc + (if lut.testBit k then 2 ^ i else 0)) 0

def effBool3 (b64 : Bool) (lut : BitVec 8) (o : Op3) (g : Group) (ex : Mask) : Eff :=
  runDst g ex o.d (fun l => wNat b64 o.d l (bool3 lut.toNat (if b64 then 64 else 32) (o.a.nat g l .zext b64)
    (o.b.nat g l .zext b64) (o.c.nat g l .zext b64)))

def shlNat (w a n : Nat) : Nat := if w ≤ n then 0 else a * 2 ^ n % 2 ^ w
def shrNat (w a n : Nat) : Nat := if w ≤ n then 0 else a / 2 ^ n
def sarNat (w a n : Nat) : Nat := wrapInt w (readInt true w a / (2 ^ (if w ≤ n then w - 1 else n) : Nat))

/-- A shift (R169): the count is 32 bits, also for pairs. -/
def effShift (f : Nat → Nat → Nat → Nat) (wrap b64 : Bool) (o : Op2) (g : Group) (ex : Mask) : Eff :=
  let w := if b64 then 64 else 32
  runDst g ex o.d (fun l =>
    let n := (o.b.get g l .sext).toNat
    wNat b64 o.d l (f w (o.a.nat g l .sext b64) (if wrap then n % w else n)))

def effXtr (sh : Bool) (o : Op3) (g : Group) (ex : Mask) : Eff :=
  runDst g ex o.d (fun l =>
    let x := (o.b.get g l .sext).toNat * 2 ^ 32 + (o.a.get g l .sext).toNat
    let n := (o.c.get g l .sext).toNat
    let v := if sh then x / 2 ^ (if n < 64 then n else 64) else x / 2 ^ (n % 64) + x * 2 ^ (64 - n % 64)
    wNat false o.d l (v % 2 ^ 32))

def popcNat (v : Nat) : Nat := sumNat ((List.range 64).map (fun i => (v.testBit i).toNat))
def clzNat (w v : Nat) : Nat := if v = 0 then w else w - 1 - Nat.log2 v
def brevNat (w v : Nat) : Nat := (List.range w).foldl (fun acc i => acc + (if v.testBit i then 2 ^ (w - 1 - i) else 0)) 0

def effPopc (b64 : Bool) (o : Op1) (g : Group) (ex : Mask) : Eff :=
  runDst g ex o.d (fun l => wNat false o.d l (popcNat (o.a.nat g l .zext b64)))

def effClz (b64 : Bool) (o : Op1) (g : Group) (ex : Mask) : Eff :=
  runDst g ex o.d (fun l => wNat false o.d l (clzNat (if b64 then 64 else 32) (o.a.nat g l .zext b64)))

def effBrev (b64 : Bool) (o : Op1) (g : Group) (ex : Mask) : Eff :=
  runDst g ex o.d (fun l => wNat b64 o.d l (brevNat (if b64 then 64 else 32) (o.a.nat g l .zext b64)))

/-! ## Bit fields and byte permutes (R170, R171) -/

def bfxNat (signed : Bool) (w a b : Nat) : Nat :=
  let pos := b % 256
  let len := if b / 256 % 256 < w then b / 256 % 256 else w
  let f := wrapInt len (readInt signed w a / (2 ^ pos : Nat))
  if len = 0 then 0 else wrapInt w (readInt signed len f)

def effBfx (signed b64 : Bool) (o : Op2) (g : Group) (ex : Mask) : Eff :=
  runDst g ex o.d (fun l => wNat b64 o.d l (bfxNat signed (if b64 then 64 else 32) (o.a.nat g l .zext b64)
    (o.b.get g l .zext).toNat))

def bfiNat (w d a b : Nat) : Nat :=
  let pos := b % 256
  let len := b / 256 % 256
  let m := (2 ^ len - 1) * 2 ^ pos % 2 ^ w
  (d &&& (2 ^ w - 1 - m)) ||| (a * 2 ^ pos &&& m)

def effBfi (b64 : Bool) (o : Op2) (g : Group) (ex : Mask) : Eff :=
  let w := if b64 then 64 else 32
  runDst g ex o.d (fun l => wNat b64 o.d l (bfiNat w (if b64 then (o.d.get64 g l).toNat else (o.d.get g l).toNat)
    (o.a.nat g l .zext b64) (o.b.get g l .zext).toNat))

/-- `BYTSEL` (R171): source bytes 0 to 3 from a, 4 to 7 from c. -/
def bytsel (a c sel : Nat) : Nat :=
  let x := a + c * 2 ^ 32
  sumNat ((List.range 4).map (fun i =>
    let v := x / 2 ^ (8 * (sel / 2 ^ (3 * i) % 8)) % 256
    (if sel.testBit (12 + i) then (if v.testBit 7 then 255 else 0) else v) * 2 ^ (8 * i)))

def effBytsel (o : Op3) (g : Group) (ex : Mask) : Eff :=
  runDst g ex o.d (fun l => wNat false o.d l (bytsel (o.a.get g l .zext).toNat (o.c.get g l .zext).toNat
    (o.b.get g l .zext).toNat))

/-! ## Compare, select and predicates (R172, R173) -/

def ccHolds (cc : Cc) (a b : Int) : Bool :=
  match cc with
  | .eq => a == b
  | .ne => a != b
  | .lt => decide (a < b)
  | .le => decide (a ≤ b)
  | .gt => decide (a > b)
  | .ge => decide (a ≥ b)

/-- The outcome of a comparison goes to a register or to the lane's predicate bit (R160, R172). -/
def runCmp (g : Group) (ex : Mask) (d : CmpDst) (f : Nat → Bool × Flags) : Eff :=
  match d with
  | .r r => runDst g ex r (fun l => (wNat false r l (f l).1.toNat).append (wFlags (f l).2))
  | .p n => Eff.lanes (Mask.lanes ex) (fun l => (wPred n l (f l).1).append (wFlags (f l).2))

def effIset (cc : Cc) (t : ITy) (d : CmpDst) (a b : Src) (g : Group) (ex : Mask) : Eff :=
  runCmp g ex d (fun l => (ccHolds cc (a.int g l t) (b.int g l t), 0))

/-- `SEL`. Its imm16 is sign-extended as an arithmetic word's is; R40 names no class for it (log entry 54). -/
def effSel (b64 : Bool) (p : BitVec 3) (compl : Bool) (o : Op2) (g : Group) (ex : Mask) : Eff :=
  runDst g ex o.d (fun l =>
    wNat b64 o.d l (if g.rp p.toNat l != compl then o.a.nat g l .sext b64 else o.b.nat g l .sext b64))

def effPmov (k : Pmov) (g : Group) (ex : Mask) : Eff :=
  let ls := Mask.lanes ex
  match k with
  | .tov d p => Eff.lanes ls (fun l => wReg (.v d) l (if g.rp p.toNat l then 1 else 0))
  | .fromv p a => Eff.lanes ls (fun l => wPred p l (g.rv a.toNat l != 0))
  | .tos d p =>
    if g.nonHelpers ex == 0 then {}
    else wReg64 (.s d) 0 (if p.toNat = 7 then g.mask (fun _ => true) else g.p.getD p.toNat 0)
  | .froms p a => Eff.lanes ls (fun l => wPred p l (Mask.has (g.rs64 a.toNat) l))
  | .lop d a b c lut => Eff.lanes ls (fun l =>
      wPred d l (lut.getLsbD ((g.rp a.toNat l).toNat + 2 * (g.rp b.toNat l).toNat + 4 * (g.rp c.toNat l).toNat)))

/-! ## Addresses and dot products (R174, R175) -/

def effLea (n32 : Bool) (sh : BitVec 4) (o : Op2) (g : Group) (ex : Mask) : Eff :=
  runDst g ex o.d (fun l =>
    let off := readInt (!n32) 32 (o.b.get g l .sext).toNat
    wNat true o.d l (wrapInt 64 ((o.a.get64 g l .sext).toNat + off * (2 ^ sh.toNat : Nat))))

def effIdp4 (aS bS sat x2 : Bool) (o : Op3) (g : Group) (ex : Mask) : Eff :=
  let e := if x2 then 16 else 8
  runDst g ex o.d (fun l =>
    let a := (o.a.get g l .sext).toNat
    let b := (o.b.get g l .sext).toNat
    let prods := (List.range (if x2 then 2 else 4)).map (fun i =>
      readInt aS e (a / 2 ^ (e * i) % 2 ^ e) * readInt bS e (b / 2 ^ (e * i) % 2 ^ e))
    wNat false o.d l (fitInt true sat 32 (prods.foldl (· + ·) (readInt true 32 (o.c.get g l .sext).toNat))))

/-! ## Special registers (R176, R177) -/

/-- The 64-bit value of a special register for a lane. -/
def sregValue (s : State) (c : Issue) (g : Group) (l : Nat) (r : SReg) : Nat :=
  let b := ((s.blkOf g).map (·.b)).getD 0
  let gr := s.gridOf g
  let x := (gr.map (·.x)).getD 1
  let y := (gr.map (·.y)).getD 1
  match r with
  | .laneid => l
  | .quadid => l / 4
  | .groupid => g.idx
  | .blockidX => b % x
  | .blockidY => b / x % y
  | .blockidZ => b / (x * y)
  | .clusterid => clusterOf g.core
  | .timebase => s.timebase
  | .timebaseHi => s.timebase / 2 ^ 32
  | .peal => s.peal
  | .pealHi => s.peal / 2 ^ 32
  | .fragmask => c.lanes.toNat
  | .fragmaskHi => c.lanes.toNat / 2 ^ 32

def effRds (b64 : Bool) (d : Reg) (r : SReg) (s : State) (c : Issue) (g : Group) (ex : Mask) : Eff :=
  runDst g ex d (fun l => wNat b64 d l (sregValue s c g l r))

/-! ## The words -/

def execNop (g : Guard) (s : State) : Out := laneWord s (.nop g) g (fun _ _ => {})
def execMov (b64 : Bool) (o : Op1) (s : State) : Out := laneWord s (.mov b64 o) o.g (effMov b64 o)
def execAdd (ty : ITy) (sat : Bool) (o : Op2) (s : State) : Out := laneWord s (.add ty sat o) o.g (effArith ty sat (· + ·) o)
def execSub (ty : ITy) (sat : Bool) (o : Op2) (s : State) : Out := laneWord s (.sub ty sat o) o.g (effArith ty sat (· - ·) o)
def execMul (ty : ITy) (sat : Bool) (o : Op2) (s : State) : Out := laneWord s (.mul ty sat o) o.g (effArith ty sat (· * ·) o)
def execMulh (ty : ITy) (wide : Bool) (o : Op2) (s : State) : Out := laneWord s (.mulh ty wide o) o.g (effMulh ty wide o)
def execMad (ty : ITy) (sat wide : Bool) (o : Op3) (s : State) : Out :=
  laneWord s (.mad ty sat wide o) o.g (effMad ty sat wide o)
def execDiv (ty : ITy) (rem : Bool) (o : Op2) (s : State) : Out := laneWord s (.div ty rem o) o.g (effDiv ty rem o)
def execMin (ty : ITy) (o : Op2) (s : State) : Out :=
  laneWord s (.min ty o) o.g (effArith ty false (fun a b => if b < a then b else a) o)
def execMax (ty : ITy) (o : Op2) (s : State) : Out :=
  laneWord s (.max ty o) o.g (effArith ty false (fun a b => if a < b then b else a) o)
def execAbs (b64 sat : Bool) (o : Op1) (s : State) : Out := laneWord s (.abs b64 sat o) o.g (effAbs b64 sat o)
def execAnd (b64 : Bool) (o : Op2) (s : State) : Out := laneWord s (.and b64 o) o.g (effLogic b64 (· &&& ·) o)
def execOr (b64 : Bool) (o : Op2) (s : State) : Out := laneWord s (.or b64 o) o.g (effLogic b64 (· ||| ·) o)
def execXor (b64 : Bool) (o : Op2) (s : State) : Out := laneWord s (.xor b64 o) o.g (effLogic b64 (· ^^^ ·) o)
def execBool3 (b64 : Bool) (lut : BitVec 8) (o : Op3) (s : State) : Out :=
  laneWord s (.bool3 b64 lut o) o.g (effBool3 b64 lut o)
def execShl (wrap b64 : Bool) (o : Op2) (s : State) : Out := laneWord s (.shl wrap b64 o) o.g (effShift shlNat wrap b64 o)
def execShr (wrap b64 : Bool) (o : Op2) (s : State) : Out := laneWord s (.shr wrap b64 o) o.g (effShift shrNat wrap b64 o)
def execSar (wrap b64 : Bool) (o : Op2) (s : State) : Out := laneWord s (.sar wrap b64 o) o.g (effShift sarNat wrap b64 o)
def execXtr (sh : Bool) (o : Op3) (s : State) : Out := laneWord s (.xtr sh o) o.g (effXtr sh o)
def execPopc (b64 : Bool) (o : Op1) (s : State) : Out := laneWord s (.popc b64 o) o.g (effPopc b64 o)
def execClz (b64 : Bool) (o : Op1) (s : State) : Out := laneWord s (.clz b64 o) o.g (effClz b64 o)
def execBrev (b64 : Bool) (o : Op1) (s : State) : Out := laneWord s (.brev b64 o) o.g (effBrev b64 o)
def execBfx (signed b64 : Bool) (o : Op2) (s : State) : Out := laneWord s (.bfx signed b64 o) o.g (effBfx signed b64 o)
def execBfi (b64 : Bool) (o : Op2) (s : State) : Out := laneWord s (.bfi b64 o) o.g (effBfi b64 o)
def execIset (cc : Cc) (ty : ITy) (g : Guard) (d : CmpDst) (a b : Src) (s : State) : Out :=
  laneWord s (.iset cc ty g d a b) g (effIset cc ty d a b)
def execSel (b64 : Bool) (p : BitVec 3) (compl : Bool) (o : Op2) (s : State) : Out :=
  laneWord s (.sel b64 p compl o) o.g (effSel b64 p compl o)
def execLea (n32 : Bool) (sh : BitVec 4) (o : Op2) (s : State) : Out := laneWord s (.lea n32 sh o) o.g (effLea n32 sh o)
def execBytsel (o : Op3) (s : State) : Out := laneWord s (.bytsel o) o.g (effBytsel o)
def execIdp4 (aS bS sat x2 : Bool) (o : Op3) (s : State) : Out :=
  laneWord s (.idp4 aS bS sat x2 o) o.g (effIdp4 aS bS sat x2 o)
def execPmov (g : Guard) (k : Pmov) (s : State) : Out := laneWord s (.pmov g k) g (effPmov k)
def execRds (b64 : Bool) (g : Guard) (d : Reg) (r : SReg) (s : State) : Out :=
  regWord s (.rds b64 g d r) (fun s1 c gr => effRds b64 d r s1 c gr (gr.guarded c.lanes g))

/-! ## X-form moves (R51) -/

def execMovi (g : Guard) (d : Reg) (x : Word) (s : State) : Out :=
  laneWord s (.movi g d x) g (fun gr ex => runDst gr ex d (fun l => wReg d l x))
/-- `MOVH` writes the odd register of the pair alone. -/
def execMovh (g : Guard) (d : Reg) (x : Word) (s : State) : Out :=
  laneWord s (.movh g d x) g (fun gr ex => runDst gr ex d (fun l => wReg (d.plus 1) l x))
def execAddi (b64 : Bool) (g : Guard) (d : Reg) (x : Word) (s : State) : Out :=
  laneWord s (.addi b64 g d x) g (fun gr ex => runDst gr ex d (fun l =>
    if b64 then wReg64 d l (d.get64 gr l + x.signExtend 64) else wReg d l (d.get gr l + x)))
def execFmovi (g : Guard) (d : Reg) (x : Word) (s : State) : Out :=
  laneWord s (.fmovi g d x) g (fun gr ex => runDst gr ex d (fun l => wReg d l x))

end Sys2Proof.Machine
end

