-- ==== Sys2Proof/Machine/Memory.lean ====
section
/-! DEFINITION. Loads and stores (R226 to R243): the checks and translation of a memory word, the order in which its
accesses are performed (R257), and the events that perform them and serve its page faults (R233, R237, R313). -/

namespace Sys2Proof.Machine

/-! ## Issuing a memory word -/

/-- What a memory word asks for: one access for all lanes or one each, the address and the bytes stored by a lane of a
group, the width, the kind of access, whether helper lanes take part (loads), whether it is a store whose lanes may
share bytes, and whether it is a full-empty access. -/
structure MemReq where
  uni : Bool
  ea : Group → Nat → DWord
  data : Group → Nat → List Byte
  n : Nat
  acc : Access
  helpers : Bool
  store : Bool
  fe : Bool

/-- The lanes that make an access of their own: every taking part, or for a uniform word one in their place, of a write the highest,
whose bytes are written (R226). -/
def MemReq.lanes (r : MemReq) (g : Group) (ex : Mask) : List Nat :=
  let m := if r.helpers then ex else g.nonHelpers ex
  if !r.uni then Mask.lanes m
  else if r.acc.writes then (Mask.lanes m).getLast?.toList
  else (Mask.lanes (g.nonHelpers m) ++ Mask.lanes m).take 1

/-- The lanes an access stands for. -/
def MemReq.who (r : MemReq) (g : Group) (ex : Mask) (l : Nat) : Mask :=
  if r.uni then (if r.helpers then ex else g.nonHelpers ex) else Mask.one l

/-- The primary and shadow lanes of a writing word differ in address or data, in some executing lane (R229). -/
def MemReq.mismatch (r : MemReq) (g : Group) (ex : Mask) : Option Nat :=
  if g.shadow.isEmpty || !r.acc.writes then none
  else (Mask.lanes (g.nonHelpers ex)).find? (fun l => r.ea g l != r.ea g.shadowView l || r.data g l != r.data g.shadowView l)

/-- The checks and the translation of R227 for accesses to the 56-bit space: the first failure, or the accesses. An access of
more than 8 bytes to the bell window fails the alignment check with misaligned ones (R224). -/
def State.memTry (s : State) (g : Group) (ex : Mask) (r : MemReq) : Except Trap (List LaneAcc × State) :=
  let ls := r.lanes g ex
  let aligned := fun l => (r.ea g l).toNat % r.n == 0
  let x := s.tryAll (s.ldOf g) (s.ctxNum g) r.acc ((ls.filter aligned).map (fun l => (l, r.ea g l)))
  let wide := fun (t : Try) => t.isBell && decide (8 < r.n)
  let space := fun (t : Try) => if r.fe then t.isHost || t.isBell else t.isRemote
  match ls.find? (fun l => !g.isHelper l && (!aligned l || x.1.any (fun t => t.lane == l && wide t))) with
  | some l => .error { cause := 3, addr := (r.ea g l).toNat }
  | none =>
    match firstFail g.isHelper x.1 space (if r.fe then 6 else 7) with
    | some t => .error t
    | none =>
      match x.1.find? (fun t => !g.isHelper t.lane && t.isRemote) with
      | some t => .error { cause := 7, addr := t.va }
      | none =>
        match r.mismatch g ex with
        | some l => .error { cause := 9, addr := (r.ea g l).toNat }
        | none =>
          let as := (okAccs (x.1.filter (fun t => !wide t && !(r.fe && space t)))).map (fun a =>
            { a with who := r.who g ex a.lane, n := r.n, data := withOffsets (r.data g a.lane) })
          .ok (if r.store then coalesce as else as, x.2)

/-- The checks of a scratch word (R227, R234). -/
def State.scratchTry (s : State) (g : Group) (ex : Mask) (r : MemReq) : Except Trap (List LaneAcc × State) :=
  let ls := r.lanes g ex
  let off := fun l => (r.ea g l).toNat
  let size := (s.descOf g).scratch
  match ls.find? (fun l => !g.isHelper l && off l % r.n != 0) with
  | some l => .error { cause := 3, addr := off l }
  | none =>
    match ls.find? (fun l => !g.isHelper l && decide (size < off l + r.n)) with
    | some l => .error { cause := 5, addr := off l }
    | none =>
      match r.mismatch g ex with
      | some l => .error { cause := 9, addr := off l }
      | none =>
        let as := (ls.filter (fun l => off l % r.n == 0 && decide (off l + r.n ≤ size))).map (fun l =>
          (⟨l, r.who g ex l, off l, r.n, .scratch (off l), withOffsets (r.data g l), .ready⟩ : LaneAcc))
        .ok (if r.store then coalesce as else as, s)

/-- The checks and accesses of `LDC` (R236): beyond the bank, or with no bank, a lane reads zeros and faults on nothing. -/
def State.constTry (s : State) (g : Group) (ex : Mask) (bank : Nat) (r : MemReq) : Except Trap (List LaneAcc × State) :=
  let base := (((s.gridOf g).map (·.consts)).getD []).getD bank 0
  let out := fun l => decide (65536 < (r.ea g l).toNat + r.n) || base == 0
  let aligned := fun l => (base + (r.ea g l).toNat) % r.n == 0
  let ls := r.lanes g ex
  match ls.find? (fun l => !g.isHelper l && !out l && !aligned l) with
  | some l => .error { cause := 3, addr := base + (r.ea g l).toNat }
  | none =>
    let x := s.tryAll (s.ldOf g) (s.ctxNum g) .read ((ls.filter (fun l => !out l && aligned l)).map (fun l =>
      (l, BitVec.ofNat 64 base + r.ea g l)))
    match firstFail g.isHelper x.1 (·.isRemote) 7 with
    | some t => .error t
    | none =>
      let zeros := (ls.filter out).map (fun l => (⟨l, 0, (r.ea g l).toNat, r.n, .zero, [], .ready⟩ : LaneAcc))
      .ok ((okAccs x.1 ++ zeros).map (fun a => { a with who := r.who g ex a.lane, n := r.n }), x.2)

/-- Plain loads and stores, whose 16-byte accesses to host memory are two halves (R215). -/
def OpKind.splits : OpKind → Bool
  | .load .. | .store => true
  | _ => false

/-- Issue a counted memory operation. Its order field acts on when its accesses are performed (R256), and a `.sys` word counts
under the tenant-scope policy (R259). With nothing to perform, as where no lane executes, it counts, and completes at once: R41 and R132
leave that open (log entry 53). -/
def issueOp (c : Issue) (g : Group) (k : Ctr) (o : Order) (kind : OpKind)
    (x : Except Trap (List LaneAcc × State)) : WOut :=
  match x with
  | .error t => .trap t
  | .ok (as, s1) =>
    let s2 := if (o.acq || o.rel) && !as.isEmpty then s1.countSysfence g o.scope else s1
    let f := s2.fresh
    .done (f.2.updGrp c.grp (fun y =>
      (y.enterOp f.1 k c kind o (if kind.splits then as.flatMap LaneAcc.halves else as) as.isEmpty).retire))

/-- The executing lanes of a word with a destination: none when a scalar destination has no executing lane but helpers
(R39). -/
def exFor (g : Group) (frag : Mask) (gd : Guard) (d : Reg) : Mask :=
  let ex := g.guarded frag gd
  if d.isS && g.nonHelpers ex == 0 then 0 else ex

def loadReq (a : MAddr) (n : Nat) (ea : Group → Nat → DWord) : MemReq :=
  { uni := a.uniform, ea := ea, data := fun _ _ => [], n := n, acc := .read, helpers := true, store := false, fe := false }

def storeReq (uni : Bool) (d : Reg) (w : Width) (ea : Group → Nat → DWord) : MemReq :=
  { uni := uni, ea := ea, data := fun g l => storeBytes g l d w, n := w.bytes, acc := .write, helpers := false,
    store := true, fe := false }

def globalEa (a : MAddr) (g : Group) (l : Nat) : DWord := effAddr g l a
def offsetEa (a : MAddr) (g : Group) (l : Nat) : DWord := BitVec.ofNat 64 (effOff g l a)

/-- A held `LDFE` continues once its operation is complete; else it is issued for the lanes still to be performed and
holds its fragment (R237). One that a stop interrupted has counted (R259). -/
def ldfeBody (s : State) (c : Issue) (g : Group) (ex : Mask) (o : Order) (kind : OpKind)
    (f : Mask → Except Trap (List LaneAcc × State)) : WOut :=
  match c.hold with
  | .op _ => .done (s.updGrp c.grp (fun x => x.updLanes c.lanes (fun y => { y with feDone := false })))
  | _ =>
    match f (maskFilter ex (fun l => !(g.lane l).feDone)) with
    | .error t => .trap t
    | .ok (as, s1) =>
      let s2 := if o.acq && !as.isEmpty && !((Mask.lanes c.lanes).any (fun l => (g.lane l).kept == .ready) || c.hold == .ready)
        then s1.countSysfence g o.scope else s1
      let n := s2.fresh
      let s3 := n.2.updGrp c.grp (fun y => (y.pushOp n.1 .ld c kind o as as.isEmpty).retire)
      if as.isEmpty then .done (s3.updGrp c.grp (fun x => x.updLanes c.lanes (fun y => { y with feDone := false })))
      else .hold s3 (.op n.1)

/-- Hold the word while pages it reads wait in replay (R313); it has issued and counts, and is executed again afterwards. -/
def probeBody (s : State) (c : Issue) (g : Group) (k : Ctr) (as : List LaneAcc) : WOut :=
  let f := s.fresh
  let id := (g.probeOf c).getD f.1
  .hold (f.2.updGrp c.grp (fun y => (y.enterOp f.1 k c .probe noOrder as false).keepSnap id g)) (.busy id)

/-- A word goes on once its release is complete (R299, R333): of its fragment, or of every lane of its group. Until then it waits, with
its sources as they are. -/
def gateBody (s : State) (c : Issue) (g : Group) (all : Bool) (m : Mask) (sc : Scope) (k : State → WOut) : WOut :=
  match c.hold with
  | .gate _ _ _ => k s
  | _ =>
    let f := s.fresh
    if s.released c.grp g f.1 (if all then BitVec.allOnes 64 else m) sc (s.tenantScope g) then k s
    else .hold (f.2.updGrp c.grp (fun y => y.keepSnap f.1 g)) (.gate f.1 all sc)

/-- Accesses a word reads at its issue: all there, some waiting for service, or a failed one. -/
def waitsFault (as : List LaneAcc) : Bool := as.any (fun a => match a.st with | .fault _ => true | _ => false)

/-! ## When an access may be performed (R257) -/

def LaneAcc.isOpen (a : LaneAcc) : Bool := !(a.st == .done) && !(a.st == .failed)

/-- The access is performed, or never will be; a value read may still have lanes to reach. -/
def LaneAcc.over (a : LaneAcc) : Bool := a.st == .got || !a.isOpen

/-- No store of the group is still to be performed, so a read sees every earlier one. -/
def Group.storesDone (g : Group) : Bool := g.ops.all (fun o => !o.kind.isWrite || o.done || o.lanes.all (fun a => !a.isOpen))

/-- What an access reads with every earlier store of the group. -/
def State.groupBytes (s : State) (gid : Nat) (g : Group) (a : LaneAcc) : List Byte :=
  match a.phys with
  | .dev pa => s.overHeld g a.phys ((List.range a.n).map (fun i => s.groupByte gid (pa + i)))
  | ph => (s.readPhys gid g a.lane ph a.n).1

/-- The spaces whose loads are performed in order: device memory and the local Carillon store (R257 rule 2, R262). -/
def Phys.isDev : Phys → Bool
  | .dev _ | .store _ => true
  | _ => false

def Phys.isScratch : Phys → Bool
  | .scratch _ => true
  | _ => false

/-- Two accesses name a common byte. -/
def LaneAcc.meets (a b : LaneAcc) : Bool :=
  let p := a.phys.place
  let q := b.phys.place
  if a.waiting || b.waiting then rangesMeet a.va a.n b.va b.n else p.1 == q.1 && rangesMeet p.2 a.n q.2 b.n

def OpKind.isLdc : OpKind → Bool
  | .ldc .. => true
  | _ => false

/-- Two writes have one home slice (R221); where one is not yet translated, they may. -/
def LaneAcc.sameHome (home : Nat → Nat) (a b : LaneAcc) : Bool :=
  match a.phys, b.phys with
  | .dev x, .dev y => b.waiting || home (x / 128) == home (y / 128)
  | .dev _, _ => b.waiting
  | _, _ => false

/-- The spaces that rule 2 of R257 orders loads in. -/
def LaneAcc.ordered (a : LaneAcc) : Bool := a.phys.isDev || a.phys.isScratch || a.waiting

/-- The earlier accesses of the same threads let this one be performed (R255 to R257): after an earlier acquire; in scratch, and at
one location, in program order; after every earlier load where both name device memory, the local Carillon store or scratch, and
a write after every earlier load; writes of one home in order. Constant reads are outside the order (R236). -/
def Group.orderOk (g : Group) (home : Nat → Nat) (o : PendOp) (a : LaneAcc) (wr : Bool) : Bool :=
  g.ops.all (fun e => decide (o.id ≤ e.id) || e.lanes.all (fun b => b.over || b.who &&& a.who == 0 ||
    !(e.order.acq || (!o.kind.isLdc && !e.kind.isLdc &&
      ((b.phys.isScratch && a.phys.isScratch) || a.meets b ||
       (e.kind.isLoad && ((b.ordered && a.ordered) || wr)) ||
       (wr && e.kind.isWrite && a.sameHome home b))))))

/-- The scope of an operation's release: by its order field, or implicit (R108, R110, R260, R271). -/
def PendOp.releases (o : PendOp) : Option Scope :=
  if o.order.rel then some o.order.scope
  else match o.kind with
    | .push .. | .posted .. => some .pkg
    | .mfmt .. => some .grp
    | .record _ _ _ rel => if rel then some .pod else none
    | _ => none

/-- The lanes whose writes the release orders: an operation without accesses of its own releases for the group. -/
def PendOp.relLanes (o : PendOp) : Mask :=
  if o.lanes.isEmpty then BitVec.allOnes 64 else o.lanes.foldl (fun m a => m ||| a.who) 0

/-- The release of an operation is complete for some of its lanes. -/
def State.relDone (s : State) (gid : Nat) (g : Group) (o : PendOp) (who : Mask) : Bool :=
  match o.releases with
  | none => true
  | some sc => s.released gid g o.id (o.relLanes &&& who) sc (s.tenantScope g)

/-- The releases of earlier words, engine words that wait for theirs among them, and the word's own, let a write of these threads be
performed (R256, R260). -/
def State.relOk (s : State) (gid : Nat) (g : Group) (o : PendOp) (who : Mask) : Bool :=
  g.ops.all (fun e => decide (o.id < e.id) || e.done || s.relDone gid g e who) &&
  g.lanes.all (fun x => match x.hold with
    | .gate n true sc => decide (o.id < n) || s.released gid g n who sc false
    | _ => true)

/-- The order lets an access be performed now. -/
def State.mayPerform (s : State) (gid : Nat) (g : Group) (o : PendOp) (a : LaneAcc) (wr : Bool) : Bool :=
  g.orderOk s.homeOf o a wr && (!wr || s.relOk gid g o a.who)

/-- The key of a scratch line among owned lines. -/
def scratchLine (blk off : Nat) : Nat := 2 ^ 57 + blk * 65536 + off / 128

def State.isOwned (s : State) (line : Nat) : Bool := s.owned.any (fun p => p.1 == line)

/-- No engine owns the line and no `MCAS` has it locked (R222, R251); a read meets no poison (R338). -/
def State.accessFree (s : State) (g : Group) (a : LaneAcc) (rd : Bool) : Bool :=
  match a.phys with
  | .dev pa => s.unlocked pa a.n && !s.isOwned (pa / 128) && (!rd || s.clean pa a.n)
  | .scratch off => !s.isOwned (scratchLine g.blk off)
  | _ => true

/-- A read of an access meets no poison (R338). -/
def State.cleanAt (s : State) (a : LaneAcc) : Bool :=
  match a.phys with
  | .dev pa => s.clean pa a.n
  | _ => true

/-- One access for several lanes reads one value: no lane of it alone has an own write there that others do not yet see
(R255). -/
def State.shareOk (s : State) (gid : Nat) (a : LaneAcc) : Bool :=
  match a.phys with
  | .dev pa => s.invis.all (fun w => !(w.grp == gid) || w.lanes &&& a.who == 0 || w.lanes &&& a.who == a.who ||
      w.bytes.all (fun b => decide (b.1 < pa) || decide (pa + a.n ≤ b.1)))
  | _ => true

/-! ## Performing accesses -/

/-- A counted result reaches a lane and its shadow lane alike (R113). -/
def Group.applyBoth (g : Group) (e : Eff) : Group :=
  { g.apply e with shadow := e.v.foldl (fun m w => SMap.del m (w.1 * 64 + w.2.1)) g.shadow }

/-- Move on the access of an operation that a lane makes at an address. -/
def Group.setAcc (g : Group) (id lane va : Nat) (st : AccSt) : Group :=
  g.updOp id (fun o => { o with lanes := o.lanes.map (fun a => if a.lane == lane && a.va == va then { a with st := st } else a) })

/-- Constant bytes through a core's constant cache (R236): a line read once may be read again as it was. -/
def State.constBytes (s : State) (g : Group) (pa n : Nat) : List Byte × State :=
  let key := fun i => g.core * 2 ^ 40 + i
  let cache := ((s.gridOf g).map (·.ccache)).getD []
  let old := SMap.has cache (key pa)
  if old && Config.freeBit s.free then
    ((List.range n).map (fun i => SMap.getD cache (key (pa + i)) 0), { s with free := s.free + 1 })
  else
    let s1 := if old then { s with free := s.free + 1 } else s
    let line := pa / 128 * 128
    ((List.range n).map (fun i => Memory.get s.mem (pa + i)),
     s1.updGrid g.grid (fun x => { x with ccache := (List.range 128).foldl (fun m i =>
       if s.clean (line + i) 1 then SMap.set m (key (line + i)) (Memory.get s.mem (line + i)) else m) x.ccache }))

/-- Write a value to the destination run in every lane an access stands for. -/
def wLanes (d : Reg) (who : Mask) (ws : List Word) : Eff := Eff.lanes (Mask.lanes who) (fun l => wWords d l ws)

/-- The words that an access of a load writes, and the first register they go to: half of a 16-byte load of host memory writes
two (R215). -/
def loadedWords (d : Reg) (w : Width) (a : LaneAcc) (bs : List Byte) : Reg × List Word :=
  if w.bytes = 16 && a.n = 8 then (d.plus (a.va % 16 / 8 * 2), Width.b64.loadWords bs) else (d, w.loadWords bs)

/-- Replace an access of an operation. -/
def Group.putAcc (g : Group) (id : Nat) (a : LaneAcc) (accs : List LaneAcc) : Group :=
  g.updOp id (fun y => { y with lanes := y.lanes.flatMap (fun (b : LaneAcc) =>
    if b.lane == a.lane && b.va == a.va then accs else [b]) })

/-- What an access of a load reads; what it has read before, where some of its lanes have it. -/
def State.loadRead (s : State) (gid : Nat) (g : Group) (o : PendOp) (a : LaneAcc) : List Byte × State :=
  if a.st == .got then (a.data.map (·.2), s)
  else match o.kind, a.phys with
    | .ldc .., .dev pa => s.constBytes g pa a.n
    | _, ph => s.readPhys gid g a.lane ph a.n

/-- A load's bytes reach some of the lanes of one access; the value that others get later is kept (R134). -/
def State.landLoad (s : State) (gid : Nat) (o : PendOp) (a : LaneAcc) (m : Mask) (d : Reg) (w : Width) (bs : List Byte) : State :=
  let x := loadedWords d w a bs
  let part := if d.isS then a.who else a.who &&& m
  let rest := a.who &&& ~~~part
  s.updGrp gid (fun y =>
    let z := y.applyBoth (wLanes x.1 part x.2)
    if rest == 0 then z.setAcc o.id a.lane a.va .done
    else z.putAcc o.id a [{ a with who := rest, data := withOffsets bs, st := .got }])

/-- Perform one access of a load for some of its lanes. -/
def State.loadAcc (s : State) (gid : Nat) (g : Group) (o : PendOp) (m : Mask) (a : LaneAcc) : State :=
  let r := s.loadRead gid g o a
  match o.kind with
  | .load d w | .ldc d w => r.2.landLoad gid o a m d w r.1
  | _ => s

/-- Kinds that hold their fragment until their pages are there (R313). -/
def OpKind.holds : OpKind → Bool
  | .ldfe .. | .refill _ | .probe | .tbld .. => true
  | _ => false

/-- The failing lanes of an operation that are no helpers, with the address of the lowest (R313, R142). -/
def PendOp.failure (o : PendOp) (g : Group) : Option (Nat × Nat) :=
  let bad := o.lanes.filter (fun a => a.st == .failed && g.nonHelpers a.who != 0)
  match bad with
  | [] => none
  | a :: _ => some (a.va, (bad.foldl (fun m b => m ||| g.nonHelpers b.who) (0 : Mask)).toNat)

/-- The fragment that an operation holds, with its helper lanes (R324). -/
def Group.heldBy (g : Group) (id : Nat) : Mask :=
  match g.leaders.find? (fun l => (g.lane l).hold == .op id || (g.lane l).hold == .busy id) with
  | some l => g.fragment l
  | none => 0

/-- Once every access of an operation is done or failed, it completes, or its word goes on (a probe): with a deferred unresolved-fault (a matrix
error of `MFMT`, R272), once its release is complete (R265), or with the trap at the word it holds (R313). -/
def State.settle (s : State) (gid id : Nat) : State :=
  match s.grp gid with
  | none => s
  | some g =>
    match g.op id with
    | none => s
    | some o =>
      if o.lanes.any (·.isOpen) then s
      else
        let f := o.failure g
        if o.kind.holds then
          match f with
          | none => if o.kind == .probe then s else s.updGrp gid (fun x => x.completeOp id none)
          | some e =>
            let s1 := s.updGrp gid (fun x => x.completeOp id none)
            s1.takeTrap gid (g.heldBy id) (BitVec.ofNat 56 o.pc) o.word { cause := 0x0B, addr := e.1, info := e.2 }
        else if !s.relDone gid g o (BitVec.allOnes 64) then s
        else s.updGrp gid (fun x => x.completeOp id (f.map (fun e => match o.kind with
          | .mfmt .. => (0x16, 1, o.pc, 0)
          | _ => (0x0B, 0, e.1, e.2))))

/-- Every ready access of an operation counts as performed. -/
def Group.readyDone (g : Group) (id : Nat) : Group :=
  g.updOp id (fun y => { y with lanes := y.lanes.map (fun (a : LaneAcc) =>
    if a.st == .ready then { a with st := .done } else a) })

/-- The open accesses of an operation that stand for lanes of a mask; of a lane with both halves of a host access open, the one
that `first` picks. -/
def PendOp.named (o : PendOp) (m : Mask) (first : Bool) : List LaneAcc :=
  o.lanes.filter (fun a => a.isOpen && a.who &&& m != 0 &&
    (!o.lanes.any (fun b => b.lane == a.lane && b.va != a.va && b.isOpen) || (a.va % 16 == 0) == first))

/-- The device lines of package `pkg` that the accesses of an operation ask for: of an `MCAS`, its block's and entries' too. -/
def PendOp.devLines (o : PendOp) (pkg : Nat) : List Nat :=
  o.lanes.filterMap (fun a => match a.phys with
    | .dev pa => if a.st == .ready then some (pa / 128) else none
    | .remote p pa => if a.st == .ready && p == pkg then some (pa / 128) else none
    | _ => none) ++
  (match o.kind with
    | .mcas _ blk ent _ => ent.flatMap (fun p => p.2.map (fun e => e.2 / 128)) ++ blk.flatMap (fun p => p.2.2.filterMap (fun ph => match ph with
      | .dev pa => some (pa / 128)
      | _ => none))
    | _ => [])

/-! ## Pod lines (R240, R241) -/

/-- The frame of a remote access lies in device memory that is not retired. -/
def State.podLine (s : State) (pa : Nat) : Bool :=
  decide (pa + 128 ≤ Config.deviceBytes) && !s.mgmt.retired.contains (pa / Config.regionBytes)

/-- The region of an address is being moved (R319). -/
def State.isMoving (s : State) (pa : Nat) : Bool := s.mgmt.moving == some (pa / Config.regionBytes)

/-- A translated pod line that lies on package `pkg`. -/
def PendOp.localLine (o : PendOp) (pkg : Nat) : Option Nat :=
  match o.kind, o.lanes with
  | .ldp _, [a] | .stp, [a] => match a.phys with
    | .remote p pa => if p == pkg && a.st == .ready then some pa else none
    | _ => none
  | _, _ => none

def OpKind.isRemote : OpKind → Bool
  | .ldp _ | .stp => true
  | _ => false

/-- Every earlier remote access of the group to a package is over. -/
def Group.remoteTurn (g : Group) (o : PendOp) (pkg : Nat) : Bool :=
  g.ops.all (fun e => !e.kind.isRemote || e.done || decide (o.id ≤ e.id) || e.lanes.all (fun a => match a.phys with
    | .remote p _ => p != pkg
    | _ => !a.waiting))

/-- A remote access ends, with an error or none. -/
def State.endRemote (s : State) (gid op : Nat) (err : Option (Nat × Nat × Nat × Nat)) : State :=
  s.updGrp gid (fun x => (x.updOp op (fun o => { o with lanes := o.lanes.map (fun (a : LaneAcc) => { a with st := AccSt.done }) })).completeOp op err)

/-- A remote access ends with the remote-error report (R241, R323). -/
def State.remoteError (s : State) (gid : Nat) (o : PendOp) : State :=
  s.endRemote gid o.id (some (0x1A, 0, ((o.lanes.map (·.va)).headD 0), o.pc))

/-- The data of an `LDP` is written into its scratch line with its eight bits. -/
def State.ldpReturn (s : State) (gid : Nat) (g : Group) (op line : Nat) (bs : List Byte) : State :=
  ((s.note gid op ((List.range 128).map (fun i => (srcKey g.blk (.scratch (128 * line + i)),
    ((s.blkOf g).map (fun b => SMap.getD b.scratch (128 * line + i) 0)).getD 0)))).updBlk g.blk (fun b => { b with
    scratch := (withOffsets bs).foldl (fun m x => SMap.put m (128 * line + x.1) x.2 0) b.scratch
    sfe := (List.range 8).foldl (fun l i => insertNat l (8 * line + i)) b.sfe })).endRemote gid op none

/-- Find an operation of a group that is not complete. -/
def withOpen (s : State) (row : String) (grp op : Nat) (f : Group → PendOp → Out) : Out :=
  match s.grp grp with
  | none => notNow row
  | some g =>
    match g.op op with
    | none => notNow row
    | some o => if o.done then notNow row else f g o

/-- Take the implicit checkpoints of blocks whose held lines an access of block `own` reaches or crowds out (R213, R216, R221). -/
def recallFor (s : State) (row : String) (own : Nat) (bs : List Nat) (k : Out) : Out :=
  recallStep s row (bs.filter (· != own)) s.ckptReady (recallStep s row (bs.filter (· == own)) s.missReady k)

/-- Find an operation of a group; lines that other blocks hold are recalled first, and held lines that leave its lines no way. While
an `MCAS` holds locks, for which the host may wait, no fault service holds up its recalls (R317). -/
def withOp (s : State) (row : String) (grp op : Nat) (f : Group → PendOp → Out) : Out :=
  withOpen s row grp op (fun g o =>
    let bs := s.holders g.blk (o.devLines s.pkg)
    if s.locks.any (fun x => x.2 == (grp, op)) then recallFast s row bs (f g o)
    else recallFor s row g.blk (bs ++ s.crowders g o) (f g o))

/-- Halves of host lines that a cache-control word acts on (R243). -/
def State.hostHalves (s : State) (g : Group) (o : PendOp) (all : Bool) : List Nat :=
  if all then coreHalves (s.core (s.l1Core g))
  else o.lanes.flatMap (fun a => match a.phys with
    | .host pa => [pa / 128 * 2, pa / 128 * 2 + 1]
    | _ => [])

/-- The values a failed `MCAS` stores into the expected fields of its block (R250). -/
def State.mcasStore (s : State) (gid op : Nat) (g : Group) (who : Mask) (ph : List Phys) (obs : List Nat) (delay : Nat) : State :=
  (obs.zip (List.range obs.length)).foldl (fun t x =>
    t.storePhys gid op g who ((ph[3 * x.2 + 1]?).getD .zero) (withOffsets (leBytes 8 x.1)) false delay) s

/-- The lane in turn of an `MCAS` ends with a result; the next lane starts afresh (R248, R250). -/
def State.mcasEnd (s : State) (gid : Nat) (g : Group) (o : PendOp) (d : Reg) (blk : SMap (Nat × List Phys))
    (ent : SMap (List (Nat × Nat))) (p : McasProg) (res : Nat) : State :=
  let l := p.todo.headD 0
  let who := ((o.lanes.find? (fun a => a.lane == l)).map (·.who)).getD 0
  let e := wLanes d who [BitVec.ofNat 32 res]
  let s1 := s.updGrp gid (fun x => (x.applyBoth e).updOp o.id (fun y => { y with
    kind := .mcas d blk ent ⟨p.todo.drop 1, [], 0, false, p.stale, [], none⟩
    lanes := y.lanes.map (fun a => if a.lane == l then { a with st := .done } else a) }))
  ((if s.ckpt g then s1.sealResult g.blk gid e else s1)).settle gid o.id

/-! ## The words -/

def execLd (w : Width) (o : Order) (ev : Bool) (g : Guard) (d : Reg) (a : MAddr) (s : State) : Out :=
  runWord s (.ld w o ev g d a) (fun s1 c gr =>
    let ex := exFor gr c.lanes g d
    issueOp c gr .ld o (.load d w) (s1.memTry gr ex (loadReq a w.bytes (globalEa a))))

def execSt (w : Width) (o : Order) (ev : Bool) (g : Guard) (d : BitVec 8) (a : MAddr) (s : State) : Out :=
  runWord s (.st w o ev g d a) (fun s1 c gr =>
    let ex := gr.guarded c.lanes g
    issueOp c gr .st o .store (s1.memTry gr ex (storeReq a.uniform (.v d) w (globalEa a))))

def execLds (w : Width) (g : Guard) (d : Reg) (a : MAddr) (s : State) : Out :=
  runWord s (.lds w g d a) (fun s1 c gr =>
    let ex := exFor gr c.lanes g d
    issueOp c gr .ld noOrder (.load d w) (s1.scratchTry gr ex (loadReq a w.bytes (offsetEa a))))

def execSts (w : Width) (g : Guard) (d : BitVec 8) (a : MAddr) (s : State) : Out :=
  runWord s (.sts w g d a) (fun s1 c gr =>
    let ex := gr.guarded c.lanes g
    issueOp c gr .st noOrder .store (s1.scratchTry gr ex (storeReq a.uniform (.v d) w (offsetEa a))))

def execLdc (w : Width) (bank : BitVec 3) (g : Guard) (d : Reg) (a : MAddr) (s : State) : Out :=
  runWord s (.ldc w bank g d a) (fun s1 c gr =>
    let ex := exFor gr c.lanes g d
    issueOp c gr .ld noOrder (.ldc d w) (s1.constTry gr ex bank.toNat (loadReq a w.bytes (offsetEa a))))

def execLdfe (clr scr : Bool) (w : Width) (o : Order) (g : Guard) (d : Reg) (a : MAddr) (s : State) : Out :=
  runWord s (.ldfe clr scr w o g d a) (fun s1 c gr =>
    let ex := exFor gr c.lanes g d
    let r := loadReq a w.bytes (if scr then offsetEa a else globalEa a)
    ldfeBody s1 c gr ex o (.ldfe d w clr) (fun m =>
      if scr then s1.scratchTry gr m r else s1.memTry gr m { r with fe := true }))

def execStfe (scr : Bool) (w : Width) (o : Order) (g : Guard) (d : BitVec 8) (a : MAddr) (s : State) : Out :=
  runWord s (.stfe scr w o g d a) (fun s1 c gr =>
    let ex := gr.guarded c.lanes g
    let r := { storeReq a.uniform (.v d) w (if scr then offsetEa a else globalEa a) with store := false }
    issueOp c gr .st o .stfe (if scr then s1.scratchTry gr ex r else s1.memTry gr ex { r with fe := true }))

/-- `PREF` changes no value, never faults and counts in no counter (R242). -/
def execPref (llc wr : Bool) (g : Guard) (a : MAddr) (s : State) : Out :=
  runWord s (.pref llc wr g a) (fun s1 _ _ => .done s1)

/-- The accesses of `FLUSH.h` and `INVAL.h` (R243): only host memory is acted on; any byte of the line may be named. -/
def State.cacheTry (s : State) (g : Group) (ex : Mask) (a : MAddr) : Except Trap (List LaneAcc × State) :=
  match s.memTry g ex { loadReq a 1 (globalEa a) with helpers := false } with
  | .error t => .error t
  | .ok (as, s1) => .ok (as.filter (fun x => match x.phys with | .host _ => true | _ => !(x.st == .ready)), s1)

/-- The body of both cache-control words; `.all` executes once for the group and names no access. -/
def cacheBody (s : State) (c : Issue) (g : Group) (ex : Mask) (kind : OpKind) (a : Option MAddr) : WOut :=
  match a with
  | some m => issueOp c g .st noOrder kind (s.cacheTry g ex m)
  | none =>
    let f := s.fresh
    .done (f.2.updGrp c.grp (fun y => (y.pushOp f.1 .st c kind noOrder [] (g.nonHelpers ex == 0)).retire))

def execFlushH (g : Guard) (a : Option MAddr) (s : State) : Out :=
  runWord s (.flushH g a) (fun s1 c gr => cacheBody s1 c gr (gr.guarded c.lanes g) (.flushH a.isNone) a)

def execInvalH (g : Guard) (a : Option MAddr) (s : State) : Out :=
  runWord s (.invalH g a) (fun s1 c gr => cacheBody s1 c gr (gr.guarded c.lanes g) (.invalH a.isNone) a)

/-- The address of `LD.L` and `ST.L` (R51): a scalar pair plus a 32-bit offset; sz is base 0. -/
def longEa (base : BitVec 6) (off : Word) (g : Group) (_l : Nat) : DWord := g.rs64 base.toNat + off.signExtend 64

def execLdL (w : Width) (g : Guard) (d : Reg) (base : BitVec 6) (off : Word) (s : State) : Out :=
  runWord s (.ldL w g d base off) (fun s1 c gr =>
    let ex := exFor gr c.lanes g d
    issueOp c gr .ld noOrder (.load d w)
      (s1.memTry gr ex { loadReq ⟨.s base, .imm 0⟩ w.bytes (longEa base off) with uni := true }))

def execStL (w : Width) (g : Guard) (d : Reg) (base : BitVec 6) (off : Word) (s : State) : Out :=
  runWord s (.stL w g d base off) (fun s1 c gr =>
    let ex := exFor gr c.lanes g d
    issueOp c gr .st noOrder .store
      (s1.memTry gr ex (storeReq true d w (longEa base off))))

/-- `FENCE` (R264): its fragment is held until the conditions hold, which `VISIBILITY_TIME_REACHED` finds. -/
def execFence (o : Order) (g : Guard) (s : State) : Out :=
  runWord s (.fence o g) (fun s1 c gr =>
    let ex := gr.guarded c.lanes g
    if ex == 0 || c.hold == .ready then .done s1
    else
      let s2 := s1.countSysfence gr o.scope
      if (!o.acq || gr.acquired ex) && (!o.rel || s1.released c.grp gr s1.nextId ex o.scope (s1.tenantScope gr)) then .done s2
      else .hold s2 (.release o.acq o.rel o.scope))

/-! ## Events -/

/-- Lanes of a load return (R233, R234, R236), or a pod line that lies on this package (R240). -/
def execLoadComplete (grp op : Nat) (lanes : Mask) (s : State) : Out :=
  withOp s "LOAD_COMPLETE" grp op (fun g o =>
    let as := o.named lanes (Config.freeBit s.free)
    let s1 := if as.all (fun a => a.n == 8) then { s with free := s.free + 1 } else s
    let isLoad := match o.kind with | .load .. | .ldc .. => true | _ => false
    match o.localLine s.pkg with
    | some pa =>
      let ok := s.podLine pa
      let free := s.accessFree g ⟨0, 0, 0, 128, .dev pa, [], .ready⟩ true && !(s.isMoving pa)
      match o.kind with
      | .ldp line => event "LOAD_COMPLETE" (!as.isEmpty && g.remoteTurn o s.pkg && (!ok || free) &&
            !s.isOwned (scratchLine g.blk (128 * line)))
          (if ok then s.ldpReturn grp g op line (s.readPhys grp g ((as.map (·.lane)).headD 0) (.dev pa) 128).1
            else s.remoteError grp o)
      | _ => notNow "LOAD_COMPLETE"
    | none =>
    event "LOAD_COMPLETE" (isLoad && !as.isEmpty && as.all (fun a => a.st == .got || (a.st == .ready && s.mayPerform grp g o a false &&
        (if o.kind.isLdc then s.cleanAt a else s.accessFree g a true) && s.shareOk grp a)))
      ((as.foldl (fun t a => t.loadAcc grp g o lanes a) s1).settle grp op))

/-- No store to host memory that the group issued before an operation is still to be performed: cache control follows it
in program order. -/
def Group.hostStoresDone (g : Group) (op : Nat) : Bool :=
  g.ops.all (fun e => decide (op ≤ e.id) || !e.kind.isWrite || e.lanes.all (fun b => !b.isOpen ||
    !(b.waiting || (match b.phys with | .host _ => true | _ => false))))

/-- The granule of an `LDFE` access is full as its lane sees it (R219). -/
def State.granuleFull (s : State) (g : Group) (a : LaneAcc) : Bool :=
  match a.phys with
  | .dev pa => s.fullBit g (pa / 16)
  | .scratch off => ((s.blkOf g).map (·.sfe.contains (off / 16))).getD false
  | _ => false

/-- Every fill of the granule of an access is visible (R255), so that emptying it does not bring one of them back. -/
def State.fillsVisible (s : State) (a : LaneAcc) : Bool :=
  match a.phys with
  | .dev pa => s.invis.all (fun w => !w.fe.contains (pa / 16))
  | _ => true

/-- Empty the granule of an access; a checkpointed block holds the change (R213). -/
def State.emptyGranule (s : State) (g : Group) (a : LaneAcc) : State :=
  match a.phys with
  | .dev pa =>
    if s.ckpt g then s.updBlk g.blk (fun b => { b with heldFe := SMap.set b.heldFe (pa / 16) false })
    else { s with full := removeNat s.full (pa / 16) }
  | .scratch off => s.updBlk g.blk (fun b => { b with sfe := removeNat b.sfe (off / 16) })
  | _ => s

/-- One lane of an `LDFE` finds its granule full (R237); helpers never clear. -/
def execLdfeLaneComplete (grp op lane : Nat) (s : State) : Out :=
  withOp s "LDFE_LANE_COMPLETE" grp op (fun g o =>
    match o.kind, o.lanes.find? (fun a => a.lane == lane) with
    | .ldfe d w clr, some a =>
      let clears := clr && g.nonHelpers a.who != 0
      event "LDFE_LANE_COMPLETE" (a.st == .ready && o.lanes.all (fun b => decide (lane ≤ b.lane) || !b.isOpen) &&
          s.mayPerform grp g o a false && s.accessFree g a true && s.shareOk grp a && s.granuleFull g a && (!clears || s.fillsVisible a))
        (let r := s.readPhys grp g a.lane a.phys a.n
         let t := r.2.updGrp grp (fun x => (x.applyBoth (wLanes d a.who (w.loadWords r.1))).setAcc op lane a.va .done)
         (if clears then t.emptyGranule g a else t).settle grp op)
    | _, _ => notNow "LDFE_LANE_COMPLETE")

/-- A page fault is over: served, failed, or for a migrating page or region its move has ended (R311, R313). -/
def State.faultOver (s : State) (fid : Nat) : Bool :=
  match s.faults.find fid with
  | none => true
  | some f =>
    match f.st with
    | .resolved | .failed => true
    | _ => f.serviceless && (match (s.xlat f.ctx f.va (if f.access == 1 || f.access == 4 then .write else .read)).1 with
        | .fault _ true => false
        | _ => true)

/-- The service of a page fault has failed (R314). -/
def State.faultFailed (s : State) (fid : Nat) : Bool := ((s.faults.find fid).map (·.st)) == some .failed

/-- Whether a kind's accesses need write permission. -/
def OpKind.access : OpKind → Access
  | .store | .stfe | .atom .. | .atomc .. | .red .. | .mcas .. => .write
  | .stp => .pod
  | _ => .read

/-- Whether an access of this kind may be performed in the space it was found to have after service. -/
def OpKind.admits (k : OpKind) (ph : Phys) (n : Nat) : Bool :=
  match k, ph with
  | .ldp .., .remote .. | .stp, .remote .. => true
  | _, .remote .. => false
  | .ldp .., _ | .stp, _ => false
  | .ldfe .., .host _ | .ldfe .., .bell _ | .stfe, .host _ | .stfe, .bell _ => false
  | _, .bell _ => decide (n ≤ 8)
  | _, _ => true

/-- An `MCAS` translates its entries itself, once their pages are there (R250). -/
def OpKind.isMcas : OpKind → Bool
  | .mcas .. => true
  | _ => false

/-- The lane in turn of an `MCAS` fails: an entry's page is lost while it is translated anew. -/
def Group.mcasLost (g : Group) (id l : Nat) : Group :=
  g.updOp id (fun y => match y.kind with
    | .mcas d blk ent p => { y with
      kind := .mcas d blk ent ⟨p.todo.drop 1, [], 0, false, p.stale, [], none⟩
      lanes := y.lanes.map (fun a => if a.lane == l then { a with st := AccSt.failed } else a) }
    | _ => y)

/-- In a store word, an access whose bytes a higher lane turns out to write too writes none (R226). -/
def PendOp.yieldBytes (o : PendOp) : PendOp :=
  if o.kind == .store then
    { o with lanes := o.lanes.map (fun a => if a.st == .ready && o.lanes.any (fun b => decide (a.lane < b.lane) && !b.waiting &&
      !(b.st == .failed) && b.same a) then { a with data := [] } else a) }
  else o

/-- Translate one waiting access again after service (R313). -/
def State.retryAcc (s : State) (gid : Nat) (g : Group) (o : PendOp) (a : LaneAcc) (fid : Nat) : State :=
  let lost := match s.faults.find fid with
    | some f => f.st == FaultSt.failed
    | none => false
  let bad : LaneAcc := { a with st := .failed }
  if lost && o.kind.isMcas then s.updGrp gid (fun x => x.mcasLost o.id a.lane)
  else if lost then s.updGrp gid (fun x => x.putAcc o.id a [bad])
  else if o.kind.isMcas then s.updGrp gid (fun x => x.putAcc o.id a [{ a with st := .ready }])
  else
    let t := s.tryAcc (s.ldOf g) (s.ctxNum g) a.lane (BitVec.ofNat 64 a.va) o.kind.access
    let acc : LaneAcc := match t.1.acc with
      | some b => if b.st == .ready && !o.kind.admits b.phys a.n then bad else { a with phys := b.phys, st := b.st }
      | none => bad
    t.2.updGrp gid (fun x => (x.putAcc o.id a (if o.kind.splits then acc.halves else [acc])).updOp o.id PendOp.yieldBytes)

/-- After service the waiting lanes of a word re-translate and are performed or fail (R313). A held word whose pages are
all there is executed again. An operation of which every access failed at issue (R309) completes here too. -/
def execReplayResolve (grp op : Nat) (s : State) : Out :=
  withOp s "REPLAY_RESOLVE" grp op (fun g o =>
    let ws := o.lanes.filterMap (fun (a : LaneAcc) => match a.st with
      | .fault f => if s.faultOver f then some (a, f) else none
      | _ => none)
    let t := ws.foldl (fun t w => t.retryAcc grp g o w.1 w.2) s
    let t1 := match o.kind with
      | .probe => t.updGrp grp (fun x => x.readyDone op)
      | .refill _ => t.updGrp grp (fun x => if ((x.op op).map (fun (y : PendOp) => y.lanes.any (fun a => a.st == AccSt.failed))).getD false
          then x.readyDone op else x)
      | _ => t
    let lost := !o.done && o.lanes.any (fun a => a.st == .failed) && o.lanes.all (fun a => !a.isOpen) &&
      s.relDone grp g o (BitVec.allOnes 64)
    event "REPLAY_RESOLVE" ((!ws.isEmpty || lost) && !(o.kind == .report)) (t1.settle grp op))

/-- A held release completes: every condition of R256 holds and the timebase has reached the largest visibility time it
waits on. The word then completes at its next issue. -/
def execVisibilityTimeReached (grp lane : Nat) (s : State) : Out :=
  match s.grp grp with
  | none => notNow "VISIBILITY_TIME_REACHED"
  | some g =>
    match (g.lane lane).hold with
    | .release acq rel sc =>
      let m := g.fragment lane
      event "VISIBILITY_TIME_REACHED" (g.isRunning lane && (!acq || rel || g.acquired m) &&
          (!rel || s.released grp g s.nextId m sc (s.tenantScope g)) && (!(acq && rel) || g.acquired m))
        (s.setGrp grp (g.holdLanes m .ready))
    | _ => notNow "VISIBILITY_TIME_REACHED"

/-- Some access of a core to a line has gone unserved (R220): since at least `age` clocks. -/
def State.unserved (s : State) (core line age : Nat) : Bool :=
  s.groups.any (fun p => p.2.core == core && p.2.ops.any (fun o => decide (o.since + age ≤ s.clk) && o.lanes.any (fun a =>
    !a.over && (match a.phys with | .dev pa => pa / 128 == line | _ => false))))

/-- A persistent request is issued, and kept in order of arrival while its access is unserved (R220). It affects time
only. -/
def execPersistentRequest (core line : Nat) (s : State) : Out :=
  event "PERSISTENT_REQUEST" (s.unserved core line 1024 && !s.persistent.contains (core, line))
    { s with persistent := s.persistent.filter (fun p => s.unserved p.1 p.2 0) ++ [(core, line)] }

end Sys2Proof.Machine
end

