-- ==== Sys2Proof/Machine/Atomics.lean ====
section
/-! DEFINITION. Atomics and `MCAS` (R244 to R252): the words and the events that execute them at the home slice, the
bridge or the SRAM. -/

namespace Sys2Proof.Machine

/-! ## Values (R245) -/

/-- The new value of an atomic, as an unsigned pattern. -/
def atomNew (op : AOp) (ty : ATy) (old x : Nat) : Nat :=
  let r : Rnd := ⟨.rn, false, false⟩
  match op, ty with
  | .exch, _ => x
  | .add, .f32 => (Machine.fp32.fadd r old x).1
  | .add, .bf16x2 =>
    (Machine.bf16.fadd r (old % 65536) (x % 65536)).1 + (Machine.bf16.fadd r (old / 65536) (x / 65536)).1 * 65536
  | _, _ =>
    let w := if ty.wide then 64 else 32
    let sgn := ty == .s32 || ty == .s64
    match op with
    | .add => (old + x) % 2 ^ w
    | .min => if readInt sgn w x < readInt sgn w old then x else old
    | .max => if readInt sgn w old < readInt sgn w x then x else old
    | .and => old &&& x
    | .or => old ||| x
    | _ => old ^^^ x

/-! ## Issue -/

/-- The request of an atomic: a write by non-helper lanes, each lane on its own unless the address is scalar (R226). -/
def atomReq (uni : Bool) (n : Nat) (ea : Group → Nat → DWord) (data : Group → Nat → List Byte) : MemReq :=
  { uni := uni, ea := ea, data := data, n := n, acc := .write, helpers := false, store := false, fe := false }

/-- The operands of the operations that a word makes, by lane: one for a word of which everything is scalar, else one of each
executing lane (R226, R245). -/
def operands {α : Type} (g : Group) (ex : Mask) (one : Bool) (f : Nat → α) : SMap α :=
  let ls := Mask.lanes (g.nonHelpers ex)
  (if one then ls.take 1 else ls).map (fun l => (l, f l))

def atyBytes (t : ATy) : Nat := if t.wide then 8 else 4

/-- An atomic's operand: a register, or a pair for 64-bit types. -/
def atomVal (t : ATy) (r : Reg) (g : Group) (l : Nat) : DWord := if t.wide then r.get64 g l else (r.get g l).setWidth 64

def valBytes (n : Nat) (r : Reg) (g : Group) (l : Nat) : List Byte :=
  if n = 16 then (List.range 4).flatMap (fun k => leBytes 4 ((r.plus k).get g l).toNat)
  else leBytes n (if n = 8 then (r.get64 g l).toNat else (r.get g l).toNat)

def execAtom (op : AOp) (ty : ATy) (o : Order) (g : Guard) (d : Reg) (a : MAddr) (c : Reg) (s : State) : Out :=
  runWord s (.atom op ty o g d a c) (fun s1 i gr =>
    let ex := exFor gr i.lanes g d
    issueOp i gr .ld o (.atom op ty d (operands gr ex (a.uniform && c.isS) (atomVal ty c gr)))
      (s1.memTry gr ex (atomReq a.uniform (atyBytes ty) (globalEa a)
        (fun h l => leBytes 8 (atomVal ty c h l).toNat))))

def execRed (op : AOp) (ty : ATy) (o : Order) (g : Guard) (d : BitVec 8) (a : MAddr) (s : State) : Out :=
  runWord s (.red op ty o g d a) (fun s1 i gr =>
    let ex := gr.guarded i.lanes g
    issueOp i gr .st o (.red op ty (operands gr ex false (atomVal ty (.v d) gr)))
      (s1.memTry gr ex (atomReq a.uniform (atyBytes ty) (globalEa a) (fun h l => leBytes 8 (atomVal ty (.v d) h l).toNat))))

def execAtomc (w : Width) (o : Order) (g : Guard) (d a b c : Reg) (s : State) : Out :=
  runWord s (.atomc w o g d a b c) (fun s1 i gr =>
    let ex := exFor gr i.lanes g d
    let one := a.isS && b.isS && c.isS
    issueOp i gr .ld o
      (.atomc w d (operands gr ex one (fun l => leNat (valBytes w.bytes b gr l))) (operands gr ex one (fun l =>
        leNat (valBytes w.bytes c gr l))))
      (s1.memTry gr ex (atomReq a.isS w.bytes (fun h l => a.get64 h l)
        (fun h l => valBytes w.bytes b h l ++ valBytes w.bytes c h l))))

/-! ## Performing an atomic (R247) -/

/-- What an atomic reads, where it executes. In device memory it reads the newest value, so that it reflects the lanes of its
own word before it (R226): writes of others are visible by then. At the bridge it first writes back and drops the core's copy, and takes the half Exclusive (R223). -/
def State.atomRead (s : State) (gid : Nat) (g : Group) (a : LaneAcc) : Nat × State :=
  match a.phys with
  | .host pa =>
    let k := s.l1Core g
    let t := ([pa / 128 * 2, pa / 128 * 2 + 1].foldl (fun t h => (t.flushHalf k h).dropHalf k h) s).bridgeTake (pa / 64)
    (Memory.read t.hostMem pa a.n, t)
  | .dev pa => (leNat ((List.range a.n).map (fun i => s.newestByte (pa + i))), s)
  | ph =>
    let r := s.readRaw gid g a.lane ph a.n
    (leNat r.1, r.2)

/-- What an atomic writes; it is never held by a checkpointed block, whose checkpoint it has forced (R212). -/
def State.atomWrite (s : State) (gid op : Nat) (g : Group) (a : LaneAcc) (v delay : Nat) : State :=
  let bs := withOffsets (leBytes a.n v)
  match a.phys with
  | .dev pa => s.threadDev gid op a.who (bs.map (fun x => (pa + x.1, x.2))) [] delay
  | .host pa => s.bridgeWrite (bs.map (fun x => (pa + x.1, x.2)))
  | .bell off => s.updLd (s.ldOf g) (fun d => bs.foldl (fun d x => bellWriteByte d (off + x.1) x.2) d)
  | _ => s

/-- Write an atomic's result; a checkpointed block's shadow receives it too (R339). -/
def State.atomResult (s : State) (gid : Nat) (g : Group) (e : Eff) : State :=
  let t := s.updGrp gid (fun x => x.applyBoth e)
  if s.ckpt g then t.sealResult g.blk gid e else t

/-- The words of a value of n bytes. -/
def valWords (n v : Nat) : List Word := (List.range ((n + 3) / 4)).map (fun k => BitVec.ofNat 32 (v / 2 ^ (32 * k)))

/-- What one access of an atomic writes and gives its lanes (R245, R246): the operations of its lanes in ascending order on the value
read, each lane with the value before its own; a word with one operation gives every lane the value read. `f` is the new value, none
where nothing is written. -/
def atomSteps {α : Type} (d : Reg) (a : LaneAcc) (old : Nat) (xs : SMap α) (f : Nat → Nat → α → Option Nat) : Option Nat × Eff :=
  let mine := xs.filter (fun p => Mask.has a.who p.1)
  let r := mine.foldl (fun (acc : Nat × Bool × Eff) p =>
    let e := wLanes d (if mine.length = 1 then a.who else Mask.one p.1) (valWords a.n acc.1)
    match f acc.1 p.1 p.2 with
    | some v => (v, true, acc.2.2.append e)
    | none => (acc.1, acc.2.1, acc.2.2.append e)) (old, false, ({} : Eff))
  (if r.2.1 then some r.1 else none, r.2.2)

/-- One access of an atomic: one indivisible read and write (R245, R246). -/
def State.atomAcc (s : State) (gid : Nat) (g : Group) (o : PendOp) (delay : Nat) (a : LaneAcc) : State :=
  let r := s.atomRead gid g a
  let put := fun (v : Option Nat) => match v with
    | some v => r.2.atomWrite gid o.id g a v delay
    | none => r.2
  let t := match o.kind with
    | .atom op ty d x =>
      let y := atomSteps d a r.1 x (fun v _ z => some (atomNew op ty v z.toNat))
      (put y.1).atomResult gid g y.2
    | .red op ty x => put (atomSteps (.v 0) a r.1 x (fun v _ z => some (atomNew op ty v z.toNat))).1
    | .atomc _ d x y =>
      let z := atomSteps d a r.1 x (fun v l z => if v == z then some (SMap.getD y l 0) else none)
      (put z.1).atomResult gid g z.2
    | _ => r.2
  t.updGrp gid (fun x => x.setAcc o.id a.lane a.va .done)

def State.settledAt (s : State) (gid : Nat) (a : LaneAcc) : Bool :=
  match a.phys with
  | .dev pa => s.settled gid a.who pa a.n
  | _ => true

/-- Lanes of an atomic are performed, in ascending lane order where they name one location (R226, R247). -/
def execAtomicPerform (grp op : Nat) (lanes : Mask) (delay : Nat) (s : State) : Out :=
  withOp s "ATOMIC_PERFORM" grp op (fun g o =>
    let as := o.named lanes true
    event "ATOMIC_PERFORM" (o.kind.isAtomic && !as.isEmpty && as.all (fun a => a.st == .ready && s.mayPerform grp g o a true &&
        s.accessFree g a true && s.settledAt grp a) &&
        o.lanes.all (fun b => as.contains b || !b.isOpen || as.all (fun a => !a.meets b)))
      ((as.foldl (fun t a => t.atomAcc grp g o delay a) s).settle grp op))

/-! ## MCAS -/

/-- The entry count of a lane. -/
def mcasCount (n : Src) (g : Group) (l : Nat) : Nat := (n.get g l .zext).toNat

/-- What an entry may translate to, with its device address. -/
def Try.devAddr (t : Try) : Option Nat :=
  match t.phys with
  | .dev pa => some pa
  | _ => none

/-- Two entries of a block at one place: the address of the first that repeats another. -/
def repeated : List (Nat × Nat) → Option Nat
  | [] => none
  | e :: r => match r.find? (fun x => x.2 == e.2) with
    | some x => some x.1
    | none => repeated r

/-- Read the 8-byte words of a block at the places it was found at, as by a load of its lane (R249); the stores of the word's
earlier lanes are among what it reads (R252). -/
def State.readBlock (s : State) (gid op : Nat) (g : Group) (l : Nat) (ph : List Phys) : List Nat :=
  ph.map (fun p => match p with
    | .dev pa => leNat (s.overHeld g p ((List.range 8).map (fun i =>
        s.byteOf (fun w => w.grp == gid && (Mask.has w.lanes l || w.op == op)) (pa + i))))
    | _ => leNat (s.readPhys gid g l p 8).1)

/-- One lane of an `MCAS` at its issue: its block's address and count, the translated words of its block, and once these can be
read its entries' addresses and their translations. -/
structure McasLane where
  lane : Nat
  ea : Nat
  n : Nat
  blk : List Try
  addrs : List Nat
  ent : List Try
deriving DecidableEq, Repr

/-- Every word of the lane's block is there to be read, with a count in range. -/
def McasLane.there (m : McasLane) : Bool := decide (1 ≤ m.n) && decide (m.n ≤ 8) && m.blk.all (fun t => t.cause == 0 && (t.acc.map (·.st)) == some .ready)

/-- The lane's alignment fault (R249). -/
def McasLane.misaligned (m : McasLane) : Option Trap :=
  if m.ea % 8 != 0 then some { cause := 3, addr := m.ea }
  else (m.addrs.find? (fun v => v % 8 != 0)).map (fun v => { cause := 3, addr := v })

/-- The lane's space check (R249): a block on another package, a count out of range, an entry outside device memory, two entries
at one word. -/
def McasLane.malformed (m : McasLane) : Option Trap :=
  match m.blk.find? (·.isRemote) with
  | some t => some { cause := 7, addr := t.va }
  | none =>
    if m.n < 1 || 8 < m.n then some { cause := 8, reason := 1, addr := m.ea }
    else match m.ent.find? (fun t => t.isHost || t.isBell || t.isRemote) with
    | some t => some { cause := 8, reason := 2, addr := t.va }
    | none => (repeated (m.ent.filterMap (fun t => t.devAddr.map (fun pa => (t.va, pa))))).map (fun v =>
        { cause := 8, reason := 3, addr := v })

/-- The first failure of an `MCAS` in the order of R227, each of the lowest lane. -/
def mcasFail (ms : List McasLane) : Option Trap :=
  match ms.findSome? McasLane.misaligned with
  | some t => some t
  | none =>
    match firstFail (fun _ => false) (ms.flatMap (fun m => m.blk ++ m.ent)) (fun _ => false) 0 with
    | some t => some t
    | none => ms.findSome? McasLane.malformed

/-- Every lane's earlier accesses have been performed, so the block is read as the lane wrote it. -/
def Group.lanesClear (g : Group) (m : Mask) : Bool := g.ops.all (fun o => !o.openFor m || o.kind == .probe)

/-- Translate the block of a lane, for write (R249): its words up to eight entries, and at least its first word, so that the address
checks come before that of the count (R227). -/
def State.mcasBlock (s : State) (g : Group) (a : Reg) (n : Src) (l : Nat) : McasLane × State :=
  let ea := a.get64 g l
  let k := mcasCount n g l
  let t := s.tryAll (s.ldOf g) (s.ctxNum g) .write ((List.range (if ea.toNat % 8 != 0 then 0 else Nat.max 1 (3 * Nat.min k 8))).map
    (fun i => (l, ea + BitVec.ofNat 64 (8 * i))))
  (⟨l, ea.toNat, k, t.1, [], []⟩, t.2)

/-- Read the entries of a lane whose block is there, and translate those that are aligned. -/
def State.mcasEntries (s : State) (gid op : Nat) (g : Group) (m : McasLane) : McasLane × State :=
  if !m.there then (m, s)
  else
    let vals := s.readBlock gid op g m.lane (m.blk.map (·.phys))
    let addrs := (List.range (m.blk.length / 3)).map (fun i => vals.getD (3 * i) 0)
    let t := s.tryAll (s.ldOf g) (s.ctxNum g) .write ((addrs.filter (fun v => v % 8 == 0)).map (fun v => (m.lane, BitVec.ofNat 64 v)))
    ({ m with addrs := addrs, ent := t.1 }, t.2)

/-- Fold a step over the lanes of a word. -/
def overLanes {α β : Type} (s : State) (xs : List α) (f : State → α → β × State) : List β × State :=
  xs.foldl (fun acc x => let y := f acc.2 x; (acc.1 ++ [y.1], y.2)) ([], s)

/-- The issue of `MCAS` (R248, R249): checks and translations of every lane, then the operation. Pages waiting for
service hold the word, with no lock held, and so do block words that other blocks hold, until they are recalled (R221). -/
def mcasBody (s : State) (c : Issue) (g : Group) (ex : Mask) (o : Order) (d a : Reg) (n : Src) : WOut :=
  let uni := a.isS && !n.isV
  let ls := if uni then (Mask.lanes (g.nonHelpers ex)).take 1 else Mask.lanes (g.nonHelpers ex)
  let who := fun l => if uni then g.nonHelpers ex else Mask.one l
  let x := overLanes s ls (fun t l => t.mcasBlock g a n l)
  let hs := (x.2.holders g.blk (x.1.flatMap (fun m => m.blk.filterMap (fun t => t.devAddr.map (· / 128)))))
  if !hs.isEmpty then match recallStep x.2 "MCAS" hs x.2.ckptReady (notNow "MCAS") with
    | .next t => probeBody t c g .ld []
    | _ => .notReady
  else if !g.lanesClear (g.nonHelpers ex) ||
      !x.1.all (fun m => m.blk.all (fun t => x.2.accessFree g ⟨m.lane, 0, 0, 8, t.phys, [], .ready⟩ true)) then .notReady
  else
    let y := overLanes x.2 x.1 (fun t m => t.mcasEntries c.grp 0 g m)
    match mcasFail y.1 with
    | some t => .trap t
    | none =>
      match (if g.shadow.isEmpty then none else ls.find? (fun l => a.get64 g l != a.get64 g.shadowView l ||
          mcasCount n g l != mcasCount n g.shadowView l)) with
      | some l => .trap { cause := 9, addr := (a.get64 g l).toNat }
      | none =>
        let accs := (y.1.flatMap (fun m => m.blk ++ m.ent)).filterMap (·.acc)
        match accs.find? (fun b => b.st == .failed) with
        | some b =>
          let m := accs.foldl (fun (m : Mask) z => if z.st == .failed then m ||| who z.lane else m) 0
          .trap { cause := 0x0B, addr := b.va, info := m.toNat }
        | none =>
          if waitsFault accs then probeBody y.2 c g .ld (accs.filter (·.waiting))
          else
            let blk : SMap (Nat × List Phys) := y.1.map (fun m => (m.lane, m.ea, m.blk.map (·.phys)))
            let ent : SMap (List (Nat × Nat)) := y.1.map (fun m => (m.lane, m.ent.filterMap (fun t => t.devAddr.map (fun pa => (t.va, pa)))))
            let as := ent.flatMap (fun p => p.2.map (fun e => (⟨p.1, who p.1, e.1, 8, .dev e.2, [], .ready⟩ : LaneAcc)))
            issueOp c g .ld o (.mcas d blk ent ⟨ls, [], 0, false, [], [], none⟩) (.ok (as, y.2))

def execMcas (o : Order) (g : Guard) (d : Reg) (a : Reg) (n : Src) (s : State) : Out :=
  runWord s (.mcas o g d a n) (fun s1 c gr => mcasBody s1 c gr (exFor gr c.lanes g d) o d a n)

/-- Put another kind into an operation. -/
def Group.setKind (g : Group) (id : Nat) (k : OpKind) : Group := g.updOp id (fun y => { y with kind := k })

/-- The distinct lines of an entry list, ascending. -/
def mcasLines (ent : List (Nat × Nat)) : List Nat := (ent.map (·.2 / 128)).foldl insertNat []

def State.unlockOp (s : State) (gid op : Nat) : State := { s with locks := s.locks.filter (fun p => !(p.2 == (gid, op))) }

/-- The accesses of a lane of an operation. -/
def PendOp.ofLane (o : PendOp) (l : Nat) : List LaneAcc := o.lanes.filter (fun a => a.lane == l)

/-- The next lock of the `MCAS` in turn is granted at its home slice (R251); with the first, its block is read. -/
def execMcasLockGrant (grp op : Nat) (s : State) : Out :=
  withOp s "MCAS_LOCK_GRANT" grp op (fun g o =>
    match o.kind with
    | .mcas d blk ent p =>
      let l := p.todo.headD 0
      let ph := (SMap.getD blk l (0, [])).2
      let as := o.ofLane l
      let vals := if p.locked.isEmpty then (s.readBlock grp op g l ph) else []
      let pairs := if p.locked.isEmpty then (List.range (ph.length / 3)).map (fun i =>
        (vals.getD (3 * i + 1) 0, vals.getD (3 * i + 2) 0)) else p.vals
      match (mcasLines (SMap.getD ent l [])).find? (fun ln => !p.locked.contains ln) with
      | some ln =>
        event "MCAS_LOCK_GRANT" (!p.broken && (!p.stale.contains l || !p.locked.isEmpty) && p.store.isNone && !p.todo.isEmpty && !s.isOwned ln &&
            as.all (fun a => a.st == .ready && s.mayPerform grp g o a true && s.settled grp a.who (ln * 128) 128) &&
            !SMap.has s.locks ln &&
            (!p.locked.isEmpty || ph.all (fun x => s.accessFree g ⟨l, 0, 0, 8, x, [], .ready⟩ true)))
          { s.updGrp grp (fun x => x.setKind op (.mcas d blk ent { p with locked := p.locked ++ [ln], vals := pairs })) with
            locks := SMap.set s.locks ln (grp, op) }
      | none => notNow "MCAS_LOCK_GRANT"
    | _ => notNow "MCAS_LOCK_GRANT")

/-- With every lock held, the `MCAS` in turn compares and commits as one event, or fails; it then releases its locks
(R250). A failed one still stores the observed values into its block, which `STORE_ACK` performs. -/
def execMcasCommit (grp op : Nat) (delay : Nat) (s : State) : Out :=
  withOp s "MCAS_COMMIT" grp op (fun g o =>
    match o.kind with
    | .mcas d blk ent p =>
      let l := p.todo.headD 0
      let es := SMap.getD ent l []
      let who := (((o.ofLane l).head?).map (·.who)).getD 0
      let obs := es.map (fun e => leNat (s.readRaw grp g l (.dev e.2) 8).1)
      let ok := !p.broken && p.store.isNone && !p.todo.isEmpty && (mcasLines es).all (fun ln => p.locked.contains ln) &&
        es.all (fun e => s.clean e.2 8)
      let s1 := s.unlockOp grp op
      match (List.range es.length).find? (fun i => obs.getD i 0 != (p.vals.getD i (0, 0)).1) with
      | none =>
        let bs := (es.zip p.vals).flatMap (fun e => (withOffsets (leBytes 8 e.2.2)).map (fun x => (e.1.2 + x.1, x.2)))
        event "MCAS_COMMIT" ok ((s1.threadDev grp op who bs [] delay).mcasEnd grp g o d blk ent p 0)
      | some i => event "MCAS_COMMIT" ok (s1.updGrp grp (fun x => x.setKind op
          (.mcas d blk ent { p with locked := [], store := some (i + 1, obs) })))
    | _ => notNow "MCAS_COMMIT")

/-- Translate the entries of the lane in turn anew (R250): to other places, to pages that wait in replay while it has room, or not at
all. -/
def State.mcasAnew (s : State) (gid : Nat) (g : Group) (o : PendOp) (d : Reg) (blk : SMap (Nat × List Phys))
    (ent : SMap (List (Nat × Nat))) (p : McasProg) : State :=
  let l := p.todo.headD 0
  let es := SMap.getD ent l []
  let who := (((o.ofLane l).head?).map (·.who)).getD 0
  let x := s.tryAll (s.ldOf g) (s.ctxNum g) .write (es.map (fun e => (l, BitVec.ofNat 64 e.1)))
  let new := x.1.filterMap (fun t => t.devAddr.map (fun pa => (t.va, pa)))
  let accs := okAccs x.1
  if accs.length != es.length || accs.any (fun a => a.st == .failed) ||
      (!waitsFault accs && (new.length != es.length || (repeated new).isSome)) then (s.updGrp gid (fun y => y.mcasLost o.id l)).settle gid o.id
  else
    let waits := waitsFault accs
    x.2.updGrp gid (fun y => y.updOp o.id (fun z => { z with
      kind := .mcas d blk (if waits then ent else SMap.set ent l new) { p with stale := if waits then p.stale else removeNat p.stale l }
      lanes := z.lanes.filter (fun a => a.lane != l) ++ accs.map (fun a => { a with who := who, n := 8 }) }))

/-- A broken lock makes the `MCAS` release the others and restart; the sixteenth time it ends with result 9 (R250,
R251). One whose entries an invalidation has hit translates them anew first, with no lock held. -/
def execMcasLockBreak (grp op : Nat) (s : State) : Out :=
  withOp s "MCAS_LOCK_BREAK" grp op (fun g o =>
    match o.kind with
    | .mcas d blk ent p =>
      if p.broken then
        let s1 := s.unlockOp grp op
        .next (if p.attempt + 1 = 16 then s1.mcasEnd grp g o d blk ent p 9
          else s1.updGrp grp (fun x => x.setKind op
            (.mcas d blk ent { p with locked := [], vals := [], broken := false, attempt := p.attempt + 1 })))
      else event "MCAS_LOCK_BREAK" (p.stale.contains (p.todo.headD 0) && p.locked.isEmpty && p.store.isNone && (o.ofLane (p.todo.headD 0)).all (·.st == .ready) &&
          decide (s.replayUsed g.core < 64)) (s.mcasAnew grp g o d blk ent p)
    | _ => notNow "MCAS_LOCK_BREAK")

/-- An engine's claim or a migration breaks the lock of a line (R251). -/
def State.breakLock (s : State) (line : Nat) : State :=
  match SMap.find s.locks line with
  | none => s
  | some p => { s.updGrp p.1 (fun x => x.updOp p.2 (fun y => match y.kind with
      | .mcas d blk ent q => { y with kind := .mcas d blk ent { q with broken := true } }
      | _ => y)) with locks := SMap.del s.locks line }

/-- An invalidation hits the entries of an `MCAS` that lie in a range: the lanes they belong to translate anew (R250), and locks
that are held break under `CBPT` (R251). -/
def PendOp.hitMcas (o : PendOp) (va size : Nat) (breaks : Bool) : PendOp :=
  match o.kind with
  | .mcas d blk ent p =>
    let hit := (ent.filter (fun x => p.todo.contains x.1 && x.2.any (fun e => decide (va ≤ e.1) && decide (e.1 < va + size)))).map (·.1)
    if hit.isEmpty || p.store.isSome then o
    else { o with kind := .mcas d blk ent { p with
      broken := p.broken || (breaks && hit.contains (p.todo.headD 0) && !p.locked.isEmpty), stale := hit.foldl insertNat p.stale } }
  | _ => o

end Sys2Proof.Machine
end

