-- ==== Sys2Proof/Machine/BarrierWords.lean ====
section
/-! DEFINITION. Barriers (R200 to R211): the objects, phases, tokens, the six barrier words, and what a group's exit
does to its barriers. -/

namespace Sys2Proof.Machine

end Sys2Proof.Machine

namespace Sys2Proof
open Machine

/-- The order scope of a barrier (R200). -/
def BScope.order : BScope → Scope
  | .blk => .blk | .cls => .cls | .grd => .pkg

/-- The byte that names a barrier (R201). -/
def Bar.byte (b : Bar) : Nat := BScope.code b.scope * 64 + b.idx

end Sys2Proof

namespace Sys2Proof.Machine

/-- The number of a block's cluster set (R115). -/
def State.setOf (s : State) (g : Group) : Nat := ((s.blkOf g).map (·.b)).getD 0 / Nat.max 1 (s.descOf g).cpb

/-- Whether a block lies in the cluster set of a group. -/
def State.inSet (s : State) (g : Group) (b : Block) : Bool :=
  b.grid == g.grid && b.b / Nat.max 1 (s.descOf g).cpb == s.setOf g

/-- The groups of a barrier's scope that have not EXITED: what is left of its members at creation (R200, R205). -/
def State.scopeMembers (s : State) (g : Group) (sc : BScope) : List Nat :=
  let all : List Nat := match sc with
    | .blk => ((s.blkOf g).map (·.groups)).getD []
    | .cls => (s.blocks.filter (fun p => s.inSet g p.2)).flatMap (·.2.groups)
    | .grd => (s.blocks.filter (fun p => p.2.grid == g.grid)).flatMap (·.2.groups)
  all.filter (fun k => match s.grp k with
    | some x => !(x.state == .exited)
    | none => false)

/-- The groups of a barrier's scope that are neither EXITING nor EXITED (R208, R211). -/
def State.scopeGroups (s : State) (g : Group) (sc : BScope) : List Nat :=
  (s.scopeMembers g sc).filter (fun k => match s.grp k with
    | some x => !(x.state == .exiting)
    | none => false)

/-- A barrier of a group; one that no word has changed is as created (R200). None where the grid lacks the attribute. -/
def State.bar (s : State) (g : Group) (b : Bar) : Option Barrier :=
  let fresh : Barrier := ⟨s.scopeMembers g b.scope, [], 0, 0, 0⟩
  match b.scope with
  | .blk => if b.idx < 16 then some (SMap.getD (((s.blkOf g).map (·.bars)).getD []) b.idx fresh) else none
  | .cls => if b.idx < 4 && (s.descOf g).cluster then
      some (SMap.getD (((s.gridOf g).map (·.clsBars)).getD []) (s.setOf g * 4 + b.idx) fresh) else none
  | .grd => if b.idx < 1 && (s.descOf g).gridbar then some (((s.gridOf g).bind (·.grdBar)).getD fresh) else none

def State.setBar (s : State) (g : Group) (b : Bar) (x : Barrier) : State :=
  match b.scope with
  | .blk => s.updBlk g.blk (fun y => { y with bars := SMap.set y.bars b.idx x })
  | .cls => s.updGrid g.grid (fun y => { y with clsBars := SMap.set y.clsBars (s.setOf g * 4 + b.idx) x })
  | .grd => s.updGrid g.grid (fun y => { y with grdBar := some x })

/-- A phase completes when E > 0 and A ≥ E (R202). -/
def Barrier.full (b : Barrier) : Bool := decide (0 < b.members.length) && decide (b.members.length ≤ b.count)

/-- The completion check (R202). -/
def Barrier.check (b : Barrier) : Barrier :=
  if b.full then { b with phase := b.phase + 1, count := 0, arrived := [] } else b

def Barrier.arrive (b : Barrier) (gid : Nat) : Barrier := { b with arrived := gid :: b.arrived, count := b.count + 1 }

/-- A group stops being a member; an arrival it made still counts (R205). -/
def Barrier.drop (b : Barrier) (gid : Nat) : Barrier := { b with members := b.members.filter (· != gid) }

/-- The token of R203. -/
def Barrier.token (b : Barrier) (bar : Bar) : Word := BitVec.ofNat 32 (Bar.byte bar * 2 ^ 24 + b.epoch.toNat * 2 ^ 16 + b.phase.toNat)

/-- The barrier a token names, with its state, unless the token is stale (R203). -/
def State.tokenBar (s : State) (g : Group) (t : Word) : Option (Bar × Barrier) :=
  let n := t.toNat
  let idx := n / 2 ^ 24 % 64
  let sc : Option BScope := match n / 2 ^ 30 with
    | 0 => some .blk | 1 => some .cls | 2 => some .grd | _ => none
  match sc with
  | none => none
  | some sc =>
    match s.bar g ⟨sc, idx⟩ with
    | none => none
    | some b => if b.epoch.toNat == n / 2 ^ 16 % 256 then some (⟨sc, idx⟩, b) else none

/-- The barrier-use trap (R201, R204, R208). -/
def barTrap (reason byte : Nat) : Trap := { cause := 0x12, reason := reason, info := byte }

/-- A completing phase of a block barrier takes a checkpoint: checkpointed mode, and the members include every group of
the block that has not ended (R211); `gone` is a group that ends here. -/
def State.phaseCkpt (s : State) (g : Group) (bar : Bar) (b : Barrier) (gone : Option Nat) : Bool :=
  s.ckpt g && bar.scope == .blk && (s.scopeGroups g .blk).all (fun k => gone == some k || b.members.contains k)

/-- Stop the block's issue for a checkpoint (R211 step 1). -/
def State.haltBlock (s : State) (b : Nat) : State := s.updBlk b (fun x => { x with halt := true })

/-- Change a barrier with a completion check, taking the checkpoint of R211 before it where it applies; the word waits
for that checkpoint. -/
def barChange (s : State) (g : Group) (bar : Bar) (after : Barrier) (k : State → WOut) : WOut :=
  if after.full && s.phaseCkpt g bar after none then
    if s.ckptReady g.blk then k ((s.checkpoint g.blk).setBar g bar after.check)
    else .hold (s.haltBlock g.blk) .ckpt
  else k (s.setBar g bar after.check)

/-- A barrier word's group is converged (R207). -/
def Group.converged (g : Group) (m : Mask) : Bool :=
  g.laneIds.all (fun l => (g.lane l).st == .exited || (g.lane l).st == .helper || Mask.has m l)

/-- A barrier word: the convergence check comes first. -/
def barWord (s : State) (i : Instr) (body : State → Issue → Group → WOut) : Out :=
  runWord s i (fun s1 c g => if g.converged c.lanes then body s1 c g else .trap (trapOf 0x0C))

/-- The release of a barrier word for the whole group (R209); a held word comes back with its release done. -/
def barRelease (s : State) (c : Issue) (g : Group) (bar : Bar) (k : WOut) : WOut :=
  let sc := BScope.order bar.scope
  if c.hold == .ready || s.released c.grp g s.nextId (g.mask (fun _ => true)) sc false then k else .hold s (.release false true sc)

/-- The arrival shared by `ARRIVE` and `BSYNC` (R208). -/
def barArrive (s : State) (c : Issue) (g : Group) (bar : Bar) (k : Barrier → State → WOut) : WOut :=
  match s.bar g bar with
  | none => .trap (barTrap 4 (Bar.byte bar))
  | some b =>
    if !b.members.contains c.grp then .trap (barTrap 1 (Bar.byte bar))
    else if b.arrived.contains c.grp then .trap (barTrap 2 (Bar.byte bar))
    else barRelease s c g bar (barChange s g bar (b.arrive c.grp) (k b))

/-- Write a scalar result. -/
def State.writeS (s : State) (gid : Nat) (d : BitVec 6) (x : Word) : State :=
  s.updGrp gid (fun g => g.apply (wReg (.s d) 0 x))

/-- Write a barrier word's result; beyond block scope a checkpointed block's shadow receives it too (R212, R339). -/
def State.writeBar (s : State) (gid : Nat) (g : Group) (bar : Bar) (d : BitVec 6) (x : Word) : State :=
  let t := s.writeS gid d x
  if s.ckpt g && !(bar.scope == .blk) then t.sealResult g.blk gid (wReg (.s d) 0 x) else t

/-! ## The words -/

def execBinit (d : BitVec 6) (bar : Bar) (a : BitVec 6) (s : State) : Out :=
  barWord s (.binit d bar a) (fun s1 c g =>
    match s1.bar g bar with
    | none => .trap (barTrap 4 (Bar.byte bar))
    | some b =>
      let m := (g.rs a.toNat).toNat
      let ds := s1.descOf g
      let limit := if bar.scope == .blk then ds.groups else ds.cpb
      let listed := (s1.scopeGroups g bar.scope).filter (fun k => match s1.grp k with
        | some x => if bar.scope == .blk then m.testBit x.idx
                    else m.testBit (((s1.blkOf x).map (·.b)).getD 0 % Nat.max 1 ds.cpb)
        | none => false)
      if m == 0 || decide (2 ^ limit ≤ m) then .done (s1.writeBar c.grp g bar d 2)
      else if 0 < b.count then .done (s1.writeBar c.grp g bar d 1)
      else .done ((s1.setBar g bar { b with members := listed, epoch := b.epoch + 1 }).writeBar c.grp g bar d 0))

def execArrive (d : BitVec 6) (bar : Bar) (s : State) : Out :=
  barWord s (.arrive d bar) (fun s1 c g =>
    barArrive s1 c g bar (fun b t => .done (t.writeBar c.grp g bar d (b.token bar))))

/-- A `BWAIT` that has been held ends with the completion of its phase. -/
def execBwait (a : BitVec 6) (s : State) : Out :=
  barWord s (.bwait a) (fun s1 c g =>
    match c.hold with
    | .barrier _ _ => .done s1
    | _ =>
      match s1.tokenBar g (g.rs a.toNat) with
      | none => .trap (barTrap 3 ((g.rs a.toNat).toNat / 2 ^ 24))
      | some (bar, b) =>
        if (g.rs a.toNat).toNat % 2 ^ 16 == b.phase.toNat then .hold s1 (.barrier bar b.phase.toNat) else .done s1)

def execBdrop (bar : Bar) (s : State) : Out :=
  barWord s (.bdrop bar) (fun s1 c g =>
    match s1.bar g bar with
    | none => .trap (barTrap 4 (Bar.byte bar))
    | some b =>
      if !b.members.contains c.grp then .trap (barTrap 1 (Bar.byte bar))
      else barRelease s1 c g bar (barChange s1 g bar (b.drop c.grp) .done))

def execBsync (bar : Bar) (s : State) : Out :=
  barWord s (.bsync bar) (fun s1 c g =>
    match c.hold with
    | .sync _ _ => .done s1
    | _ => barArrive s1 c g bar (fun b t =>
        match t.bar g bar with
        | some y => if y.phase == b.phase then .hold t (.sync bar b.phase.toNat) else .done t
        | none => .done t))

def execBtest (d a : BitVec 6) (s : State) : Out :=
  barWord s (.btest d a) (fun s1 c g =>
    let t := g.rs a.toNat
    .done (s1.writeS c.grp d (match s1.tokenBar g t with
      | none => 2
      | some (_, b) => if t.toNat % 2 ^ 16 == b.phase.toNat then 0 else 1)))

/-! ## The exit of a group (R205) -/

/-- The barriers a group may belong to. -/
def allBars : List Bar :=
  (List.range 16).map (fun i => ⟨.blk, i⟩) ++ (List.range 4).map (fun i => ⟨.cls, i⟩) ++ [⟨.grd, 0⟩]

/-- The group's exit would complete a phase that takes a checkpoint (R202, R211). -/
def State.exitCkpt (s : State) (gid : Nat) (g : Group) : Bool :=
  allBars.any (fun k => match s.bar g k with
    | some b => b.members.contains gid && (b.drop gid).full && s.phaseCkpt g k (b.drop gid) (some gid)
    | none => false)

/-- Drop a group from its barriers, with the completion checks (R205). -/
def State.exitBarriers (s : State) (gid : Nat) (g : Group) : State :=
  allBars.foldl (fun t k => match t.bar g k with
    | some b => if b.members.contains gid then t.setBar g k (b.drop gid).check else t
    | none => t) s

end Sys2Proof.Machine
end

