-- ==== Sys2Proof/Machine/Engine.lean ====
section
/-! DEFINITION. What the engines share: translation of their pages (R305, R311), reads and owned writes of lines (R222,
R260, R295), shape records (R63, R66), and the deferred end of an operation (R272, R301). -/

namespace Sys2Proof.Machine

/-! ## Pages -/

/-- What an engine finds for a set of pages: where each lies, a fault to wait for, or a page it can never use. -/
inductive Pages where
  | ok (m : SMap Phys)
  | wait (fid : Nat)
  | bad (va : Nat)
deriving DecidableEq, Repr

def Phys.shift (p : Phys) (k : Nat) : Phys :=
  match p with
  | .dev x => .dev (x + k)
  | .host x => .host (x + k)
  | .bell x => .bell (x + k)
  | .scratch x => .scratch (x + k)
  | .remote q x => .remote q (x + k)
  | .zero => .zero
  | .store x => .store (x + k)

/-- Where an address lies, once its page is known. -/
def pageAt (m : SMap Phys) (va : Nat) : Phys := (SMap.getD m (va / 4096) .zero).shift (va % 4096)

/-- The fault service that an engine operation or queue asked for a page has failed (R314). -/
def State.lostFor (s : State) (who ctx page : Nat) : Bool :=
  who != 0 && s.faults.any (fun p => p.2.st == .failed && p.2.ctx == ctx && p.2.va / 4096 == page && p.2.askers.contains who)

/-- Translate one 4 KiB page for an engine operation or queue, by its key. -/
def State.engPage (s : State) (ld ctx who : Nat) (wr : Bool) (page : Nat) : Pages × State :=
  let a : Access := if wr then .ewrite else .eread
  if 2 ^ 44 ≤ page || s.lostFor who ctx page then (.bad (page * 4096), s)
  else
    let x := s.xlat ctx (page * 4096) a
    match x.1 with
    | .ok ph => (.ok [(page, ph)], x.2)
    | .remote p pa => (.ok [(page, .remote p pa)], x.2)
    | .fault k q =>
      let f := x.2.askFault ld ctx (page * 4096) a k q who
      (.wait f.1, f.2)
    | .poisoned | .bad => (.bad (page * 4096), x.2)

/-- A page that can never be used comes before one to wait for. -/
def Pages.join (a b : Pages) : Pages :=
  match a, b with
  | .bad v, _ => .bad v
  | _, .bad v => .bad v
  | .wait f, _ => .wait f
  | _, .wait f => .wait f
  | .ok m, .ok n => .ok (n.foldl (fun acc p => SMap.set acc p.1 p.2) m)

/-- Translate a list of pages. -/
def State.engPages (s : State) (ld ctx who : Nat) (wr : Bool) : List Nat → Pages × State
  | [] => (.ok [], s)
  | p :: r =>
    let x := s.engPage ld ctx who wr p
    let y := x.2.engPages ld ctx who wr r
    (x.1.join y.1, y.2)

/-- The distinct pages of addresses, ascending. -/
def pagesOf (as : List Nat) : List Nat := (as.map (· / 4096)).foldl insertNat []

/-- The pages of n bytes from an address. -/
def pagesFrom (va n : Nat) : List Nat :=
  if n = 0 then [] else (List.range ((va + n - 1) / 4096 - va / 4096 + 1)).map (· + va / 4096)

/-! ## Bytes -/

/-- A byte as an engine of a block reads it (R295): the newest visible value of device memory, host memory through the
bridge, or scratch. -/
def State.engByte (s : State) (blk : Nat) (p : Phys) : Byte :=
  match p with
  | .dev a => Memory.get s.mem a
  | .host a => Memory.get s.hostMem a
  | .scratch o => ((s.blocks.find blk).map (fun b => SMap.getD b.scratch o 0)).getD 0
  | _ => 0

/-- A byte as it was at a clock for an engine operation, before any write that its own group issued after it (R260). -/
def State.engByteAt (s : State) (op blk time : Nat) (p : Phys) : Byte :=
  match (s.olds.find? (fun o => o.op == op)).bind (fun o => o.log.find? (fun e => e.key == srcKey blk p && (e.own || decide (time < e.clk)))) with
  | some e => e.byte
  | none => s.engByte blk p

/-- A free time between an operation's first read and now, for its element `i` (R275, R304). -/
def State.elemTime (s : State) (op i : Nat) : Nat :=
  match s.olds.find? (fun o => o.op == op) with
  | some o => o.since + Config.freeNat (s.free + i) % (s.clk - o.since + 1)
  | none => s.clk

/-- Remember from now on what an engine operation may still have to read; the clock is that of its first read. -/
def State.remember (s : State) (op gid : Nat) : State :=
  { s with olds := s.olds.filter (fun o => o.op != op) ++ [⟨op, gid, s.clk, []⟩] }

/-- The operation reads from now on. -/
def State.readsNow (s : State) (op : Nat) : State :=
  { s with olds := s.olds.map (fun o => if o.op == op then { o with since := s.clk } else o) }

def State.forget (s : State) (op : Nat) : State := { s with olds := s.olds.filter (fun o => o.op != op) }

/-- n bytes from an address whose pages are known, as they are now for an operation. -/
def State.engBytes (s : State) (op blk : Nat) (m : SMap Phys) (va n : Nat) : List Byte :=
  (List.range n).map (fun i => s.engByteAt op blk s.clk (pageAt m (va + i)))

/-- The line an engine owns for a place; host memory has no home slice. -/
def engLine (blk : Nat) (p : Phys) : Option Nat :=
  match p with
  | .dev a => some (a / 128)
  | .scratch o => some (scratchLine blk o)
  | _ => none

/-- The lines under which an engine's writes stand: claimed ones, and lines of host memory by their own numbers. -/
def pieceKey (blk : Nat) (p : Phys) : Nat :=
  match p with
  | .host a => 2 ^ 80 + a / 128
  | _ => (engLine blk p).getD 0

/-- Sort writes by line. -/
def piecesOf (blk : Nat) (cells : List (Phys × Byte)) : SMap (List (Phys × Byte)) :=
  let keys := (cells.map (fun c => pieceKey blk c.1)).foldl insertNat []
  keys.map (fun k => (k, cells.filter (fun c => pieceKey blk c.1 == k)))

/-- The lines of some pieces that have a home or lie in scratch. -/
def claimKeys (ps : SMap (List (Phys × Byte))) : List Nat := (ps.map (·.1)).filter (fun k => decide (k < 2 ^ 80))

/-- Claim lines for an operation: their `MCAS` locks break (R222, R251). -/
def State.claim (s : State) (id : Nat) (lines : List Nat) : State :=
  let t := lines.foldl State.breakLock s
  { t with owned := t.owned ++ lines.map (fun l => (l, id)) }

/-- The operation's claim on a line is the first of those waiting. -/
def State.holdsLine (s : State) (id line : Nat) : Bool :=
  (s.owned.find? (fun p => p.1 == line)).map (·.2) == some id

/-- The piece's line is granted; a line of host memory needs no claim. -/
def State.granted (s : State) (id key : Nat) : Bool := decide (2 ^ 80 ≤ key) || s.holdsLine id key

def State.unclaim (s : State) (id : Nat) : State := { s with owned := s.owned.filter (fun p => p.2 != id) }

/-- An operation has written some of its lines, which are free for others. -/
def State.unclaimLines (s : State) (id : Nat) (lines : List Nat) : State :=
  { s with owned := s.owned.filter (fun p => !(p.2 == id && lines.contains p.1)) }

/-- No other operation that claimed before this one owns the line of a place, so it may be read (R222, R304). -/
def State.lineFree (s : State) (id blk : Nat) (p : Phys) : Bool :=
  match engLine blk p with
  | some l => (s.owned.takeWhile (fun o => o.2 != id)).all (fun o => o.1 != l)
  | none => true

/-- No poison lies in a byte an engine reads (R338). -/
def State.engClean (s : State) (p : Phys) : Bool :=
  match p with
  | .dev a => s.clean a 1
  | _ => true

/-- What a record in memory reads as for an engine operation, as by a load (R300): its bytes; a line that is owned, locked or held
by the stores of checkpointed blocks; poison; a space that holds no records. -/
inductive EngRead where
  | ok (bs : List Byte)
  | later
  | held (blks : List Nat)
  | poison
  | space
deriving DecidableEq, Repr

def State.engRead (s : State) (op blk : Nat) (m : SMap Phys) (va n : Nat) : EngRead :=
  let ps := (List.range n).map (fun i => pageAt m (va + i))
  let lines := (ps.filterMap (engLine blk)).foldl insertNat []
  let hs := s.holders 0 lines
  if !ps.all (fun p => match p with
    | .dev _ | .host _ => true
    | _ => false) then .space
  else if !hs.isEmpty then .held hs
  else if lines.any (fun l => s.isOwned l || SMap.has s.locks l) then .later
  else if !ps.all s.engClean then .poison
  else .ok (s.engBytes op blk m va n)

/-- The engine's writes to device memory: each granule is one write with its data and its bit, and a visibility of its
own (R219, R255, R260). -/
def State.engDev (s : State) (gid op : Nat) (bs : List (Nat × Byte)) : State :=
  ((bs.map (fun b => b.1 / 16)).foldl insertNat []).foldl (fun t gr =>
    let mine := bs.filter (fun b => b.1 / 16 == gr)
    let v := t.visFor mine (t.timebase + Config.freeNat t.free)
    let t1 := { t with free := t.free + 1 }
    if v ≤ t.timebase then t1.devWrite mine [gr] else { t1 with invis := t1.invis ++ [⟨gid, op, 0, mine, [gr], v⟩] }) s

/-- The engine's write of all its bytes of one line of device memory as one write (R261). -/
def State.engLineDev (s : State) (gid op : Nat) (bs : List (Nat × Byte)) : State :=
  let v := s.visFor bs (s.timebase + Config.freeNat s.free)
  let t := { s with free := s.free + 1 }
  let grs := (bs.map (fun b => b.1 / 16)).foldl insertNat []
  if v ≤ s.timebase then t.devWrite bs grs else { t with invis := t.invis ++ [⟨gid, op, 0, bs, grs, v⟩] }

/-- Write bytes at places of any space an engine may write (R295); `whole` writes those of a device line as one write. -/
def State.engWrite (s : State) (gid op blk : Nat) (whole : Bool) (bs : List (Phys × Byte)) : State :=
  let dev := bs.filterMap (fun b => match b.1 with | .dev a => some (a, b.2) | _ => none)
  let host := bs.filterMap (fun b => match b.1 with | .host a => some (a, b.2) | _ => none)
  let scr := bs.filterMap (fun b => match b.1 with | .scratch o => some (o, b.2) | _ => none)
  let s1 := if dev.isEmpty then s else if whole then s.engLineDev gid op dev else s.engDev gid op dev
  let s2 := if host.isEmpty then s1 else s1.bridgeWrite host
  if scr.isEmpty then s2 else (s2.note 0 0 (scr.map (fun x => (srcKey blk (.scratch x.1), s2.engByte blk (.scratch x.1))))).updBlk blk
    (fun b => { b with
      scratch := scr.foldl (fun m x => SMap.put m x.1 x.2 0) b.scratch
      sfe := scr.foldl (fun l x => insertNat l (x.1 / 16)) b.sfe })

/-- Every write of an operation has reached its visibility time. -/
def State.engVisible (s : State) (gid op : Nat) : Bool := s.invis.all (fun w => !(w.grp == gid && w.op == op))

/-- A free choice of some of a list, at least one. -/
def someOf {α : Type} (free : Nat) (l : List α) : List α :=
  let k := Config.freeNat free % Nat.max 1 l.length
  (l.drop k ++ l.take k).take (1 + Config.freeNat (free + 1) % Nat.max 1 l.length)

/-- An operation writes some of the pieces whose lines it has been granted, and releases these lines but for some: the lines
written, what is left, and the state after it. -/
def State.writeSome (s : State) (gid op blk : Nat) (whole : Bool) (keep : List Nat) (cl : Claim) : List Nat × Claim × State :=
  let now : SMap (List (Phys × Byte)) := someOf s.free (cl.pieces.filter (fun p => s.granted op p.1))
  let keys := now.map (·.1)
  (keys, { cl with pieces := cl.pieces.filter (fun p => !keys.contains p.1) },
    (now.foldl (fun (t : State) (p : Nat × List (Phys × Byte)) => t.engWrite gid op blk whole p.2) { s with free := s.free + 2 }).unclaimLines op
      (keys.filter (fun k => !keep.contains k)))

/-- The end of an operation: its counter retires it, with a deferred error or none (R272, R301, R325). -/
def State.endOp (s : State) (gid op : Nat) (err : Option (Nat × Nat × Nat × Nat)) : State :=
  s.updGrp gid (fun g => g.completeOp op err)

/-! ## Fields and shape records -/

/-- A little-endian field of a record. -/
def field (bs : List Byte) (o n : Nat) : Nat := leNat ((bs.drop o).take n)

/-- A range of a record is zero. -/
def zeros (bs : List Byte) (o n : Nat) : Bool := ((bs.drop o).take n).all (· == 0)

/-- A signed field of 64 or 32 bits. -/
def fieldS64 (bs : List Byte) (o : Nat) : Int := (BitVec.ofNat 64 (field bs o 8)).toInt
def fieldS32 (bs : List Byte) (o : Nat) : Int := (BitVec.ofNat 32 (field bs o 4)).toInt

/-- Bits of an element of a format code (R63); 0 for an unassigned code. -/
def fmtBits (c : Nat) : Nat :=
  match c with
  | 0x00 => 32 | 0x01 => 16 | 0x02 => 16 | 0x03 => 8 | 0x04 => 8 | 0x05 => 4 | 0x06 => 4
  | 0x08 => 8 | 0x09 => 8 | 0x0A => 16 | 0x0B => 16 | 0x0C => 32 | 0x0D => 32 | 0x0E => 64 | 0x0F => 64
  | 0x10 => 4 | 0x11 => 4
  | _ => 0

/-- The block length of the 4-bit block formats (R17, R63). -/
def fmtBlock (c : Nat) : Nat := if c = 5 then 16 else if c = 6 then 32 else 0

/-- A shape record's 128 bytes (R63, R66). -/
def readShape (bs : List Byte) : Option Shape :=
  let rank := field bs 0 1
  let fmt := field bs 1 1
  let dims : List (Nat × Int) := (List.range rank).map (fun i => (field bs (32 + 12 * i) 4, fieldS64 bs (36 + 12 * i)))
  let ok := decide (1 ≤ rank) && decide (rank ≤ 8) && zeros bs 2 30 && zeros bs (32 + 12 * rank) (96 - 12 * rank) &&
    fmtBits fmt != 0 && dims.all (fun d => decide (1 ≤ d.1)) &&
    (fmtBlock fmt == 0 || (dims.headD (0, 0)).1 % fmtBlock fmt == 0)
  if ok then some ⟨fmt, dims⟩ else none

/-- The number of elements. -/
def Shape.count (sh : Shape) : Nat := sh.dims.foldl (fun n d => n * d.1) 1

/-- The coordinates of element n, dimension 0 fastest (R294). -/
def coords : List (Nat × Int) → Nat → List Nat
  | [], _ => []
  | d :: r, n => n % Nat.max 1 d.1 :: coords r (n / Nat.max 1 d.1)

/-- The address base + Σ coordinate × stride, modulo 2^64. -/
def strided (base : Nat) (dims : List (Nat × Int)) (cs : List Nat) : Nat :=
  (((dims.zip cs).foldl (fun (a : Int) (p : (Nat × Int) × Nat) => a + (p.2 : Int) * p.1.2) (base : Int)) % 2 ^ 64).toNat

def Shape.addr (sh : Shape) (base n : Nat) : Nat := strided base sh.dims (coords sh.dims n)

/-- The elements of a slice: all dimensions but the outermost (R296). -/
def Shape.slice (sh : Shape) : Nat := sh.dims.dropLast.foldl (fun n d => n * d.1) 1

def Shape.outer (sh : Shape) : Nat := (sh.dims.getLastD (1, 0)).1

/-- Every base and stride is a multiple of the element size (R294). -/
def Shape.aligned (sh : Shape) (base w : Nat) : Bool :=
  base % w == 0 && sh.dims.all (fun d => d.1 == 1 || d.2 % (w : Int) == 0)

/-- The lowest and highest byte offsets of a part in scratch lie within the block's scratch (R294). -/
def Shape.within (sh : Shape) (base w size : Nat) : Bool :=
  let lo := sh.dims.foldl (fun (a : Int) d => if d.2 < 0 then a + ((d.1 : Int) - 1) * d.2 else a) (base : Int)
  let hi := sh.dims.foldl (fun (a : Int) d => if d.2 < 0 then a else a + ((d.1 : Int) - 1) * d.2) (base : Int)
  decide (0 ≤ lo) && decide (hi + (w : Int) ≤ (size : Int))

/-- One byte of CRC-32C, reflected (R285). -/
def crcByte (c : Word) (b : Byte) : Word :=
  (List.range 8).foldl (fun x _ => if x.getLsbD 0 then (x >>> 1) ^^^ 0x82F63B78 else x >>> 1) (c ^^^ b.setWidth 32)

/-- CRC-32C of bytes (R285). -/
def crc32c (bs : List Byte) : Nat := ((bs.foldl crcByte 0xFFFFFFFF) ^^^ 0xFFFFFFFF).toNat

end Sys2Proof.Machine
end

