-- ==== Sys2Proof/Machine/Rings.lean ====
section
/-! DEFINITION. The host's rings (R383): descriptors, host writes to them, the frame in which every ring command runs
(R67, R69, R387), and the device's posts (R335, R384). Function 16 is the management function, with its command ring 0
and its event ring 1. -/

namespace Sys2Proof.Machine

/-! ## Descriptors -/

def State.hostRing (s : State) (fn r : Nat) : Ring :=
  if fn = 16 then (if r = 0 then s.mgmt.cmd else s.mgmt.ev) else SMap.getD (s.ld fn).rings r emptyRing

def State.setRing (s : State) (fn r : Nat) (x : Ring) : State :=
  if fn = 16 then { s with mgmt := if r = 0 then { s.mgmt with cmd := x } else { s.mgmt with ev := x } }
  else s.updLd fn (fun d => { d with rings := SMap.set d.rings r x })

/-- Entry sizes of R383. -/
def entrySize (fn r : Nat) : Nat :=
  if fn = 16 then (if r = 0 then 64 else 128)
  else match r with
    | 4 => 32
    | 5 => 16
    | 6 => 128
    | _ => 64

/-- Host-produced rings (R383). -/
def hostProduced (fn r : Nat) : Bool := if fn = 16 then r == 0 else decide (r < 4)

/-- The rings a function has. -/
def ringExists (fn r : Nat) : Bool := if fn = 16 then decide (r < 2) else decide (fn < 16) && decide (r < 7)

/-- Entries a ring holds; a disabled one holds none. -/
def Ring.size (x : Ring) : Nat := if x.order = 0 then 0 else 2 ^ x.order

def Ring.addr (x : Ring) (fn r n : Nat) : Nat := x.base + entrySize fn r * (n % Nat.max 1 x.size)

/-- Raise a ring's vector, if it is enabled. -/
def State.raiseRing (s : State) (fn : Nat) (x : Ring) : State :=
  if x.vector / 128 % 2 = 1 then s.interrupt fn (x.vector % 64) else s

/-- A function the host can reach: the management function, or a bound logical device of a package whose firmware image
is accepted (R382, R390). -/
def State.present (s : State) (fn : Nat) : Bool := if fn = 16 then true else s.mgmt.accepted && (s.ld fn).bound

/-! ## Host writes -/

/-- A ring error: event 0x08 (R383, R384). -/
def State.ringError (s : State) (fn r : Nat) : State := if fn = 16 then s.postMgmt 8 [r] else s.postEvent fn 8 0 [r] []

/-- A host write of a tail, which a device-produced ring ignores (R3, R383). -/
def execRingTailWrite (fn r : Nat) (t : DWord) (s : State) : Out :=
  let x := s.hostRing fn r
  event "RING_TAIL_WRITE" (s.present fn && ringExists fn r)
    (if !hostProduced fn r then s else if x.head ≤ t.toNat && decide (t.toNat ≤ x.head + x.size) then s.setRing fn r { x with tail := t.toNat } else s.ringError fn r)

/-- A host write of a head, which a host-produced ring ignores (R3, R383). -/
def execRingHeadWrite (fn r : Nat) (t : DWord) (s : State) : Out :=
  let x := s.hostRing fn r
  event "RING_HEAD_WRITE" (s.present fn && ringExists fn r)
    (if hostProduced fn r then s else if x.head ≤ t.toNat && decide (t.toNat ≤ x.tail) then s.setRing fn r { x with head := t.toNat } else s.ringError fn r)

def execRingDescriptorWrite (fn r : Nat) (base : DWord) (order : Byte) (s : State) : Out :=
  let x := s.hostRing fn r
  event "RING_DESCRIPTOR_WRITE" (s.present fn && ringExists fn r)
    (if x.head == x.tail && base.toNat % 4096 == 0 && (order == 0 || (decide (4 ≤ order.toNat) && decide (order.toNat ≤ 12))) then
      s.setRing fn r { x with base := base.toNat, order := order.toNat } else s)

/-! ## Commands -/

/-- A command record (R67). -/
structure Cmd where
  code : Nat
  ctx : Nat
  op0 : Nat
  op1 : Nat
  op2 : Nat
  clean : Bool
deriving DecidableEq, Repr

def readCmd (bs : List Byte) : Cmd :=
  ⟨field bs 0 1, field bs 2 2, field bs 8 8, field bs 16 8, field bs 24 8, zeros bs 1 1 && zeros bs 32 32⟩

/-- The head record of a command ring. -/
def State.headCmd (s : State) (fn r : Nat) : Cmd :=
  let x := s.hostRing fn r
  readCmd (Memory.bytes s.hostMem (x.addr fn r x.head) 64)

/-- What a command does: it completes with a status, or its completion waits. -/
inductive CmdOut where
  | done (status : Nat) (s : State)
  | later (s : State)

/-- Complete the head command of a ring: status, then head, then the vector (R383). -/
def State.finishCmd (s : State) (fn r status : Nat) : State :=
  let x := s.hostRing fn r
  let s1 := s.bridgeWrite ((withOffsets (leBytes 4 status)).map (fun b => (x.addr fn r x.head + 4 + b.1, b.2)))
  ((s1.setRing fn r { s1.hostRing fn r with head := x.head + 1, busy := false })).raiseRing fn x

/-- The statuses a command gets before its own meaning: 5 for another device's context, whatever else the record holds
(R69); 2 with no accepted image (R390), for an unassigned code, a reserved byte or a context number out of range. -/
def State.refuseCmd (s : State) (fn : Nat) (last : Nat) (c : Cmd) : Option Nat :=
  let foreign := match s.ctxs.find c.ctx with
    | some x => decide (fn < 16) && x.ld != fn
    | none => false
  if foreign then some 5
  else if !s.mgmt.accepted || c.code == 0 || decide (last < c.code) || !c.clean then some 2
  else if fn = 16 then (if c.ctx = 0 then none else some 2)
  else if 4096 ≤ c.ctx then some 2 else none

/-- The frame of a ring command. The row of a command serves the head record of its ring when the record holds its code,
or a code that is no command's. The management function alone has eight command codes in a ring. While a command's completion waits, `again` says what it does next, or how it ends. -/
def command (row : String) (fn r code last : Nat) (s : State) (body : Cmd → CmdOut)
    (again : Cmd → Option CmdOut) : Out :=
  let x := s.hostRing fn r
  let c := s.headCmd fn r
  let live := (if last = 8 then fn == 16 else decide (fn < 16)) && s.present fn && (fn == 16 || (s.ld fn).enable) &&
    decide (0 < x.size) && decide (x.head < x.tail)
  let other := c.code != code && c.code != 0 && decide (c.code ≤ last)
  if !live || other then notNow row
  else if x.busy then
    match again c with
    | some (.done st t) => .next (t.finishCmd fn r st)
    | some (.later t) => .next t
    | none => notNow row
  else match s.refuseCmd fn last c with
    | some st => .next (s.finishCmd fn r st)
    | none =>
      match body c with
      | .done st t => .next (t.finishCmd fn r st)
      | .later t => .next (t.setRing fn r { t.hostRing fn r with busy := true })

/-- A command whose completion never waits. -/
def command1 (row : String) (fn r code last : Nat) (s : State) (body : Cmd → Nat × State) : Out :=
  command row fn r code last s (fun c => .done (body c).1 (body c).2) (fun _ => none)

/-! ## Device-produced rings -/

/-- Write an entry at a ring's tail, with the vector (R383). -/
def State.putEntry (s : State) (fn r : Nat) (bs : List Byte) : State :=
  let x := s.hostRing fn r
  let s1 := s.bridgeWrite ((withOffsets bs).map (fun b => (x.addr fn r x.tail + b.1, b.2)))
  (s1.setRing fn r { x with tail := x.tail + 1 }).raiseRing fn x

/-- A record that goes to the host trap ring (R334, R335). -/
def SvcRec.toHost (x : SvcRec) : Bool :=
  match x.code with
  | none => true
  | some c => decide (c < 0xF000)

/-- The lowest record of a device not yet announced. -/
def State.toAnnounce (s : State) (ld : Nat) : Option (Nat × SvcRec) :=
  s.records.find? (fun p => p.2.ld == ld && !p.2.announced && p.2.toHost)

/-- The device writes the next entry of a device-produced ring: rings 4 and 5 wait for room, the event rings drop what
does not fit and count it (R383). A record is put into its place in device memory as it is announced (R335). -/
def execRingEntryPost (fn r : Nat) (s : State) : Out :=
  let row := "RING_ENTRY_POST"
  let x := s.hostRing fn r
  let room := decide (x.tail - x.head < x.size)
  let dropped := s.setRing fn r { x with lost := Nat.min (x.lost + 1) (2 ^ 32 - 1) }
  if fn = 16 then
    match s.mgmt.evWaiting with
    | [] => notNow row
    | e :: rest =>
      let t := if room then s.putEntry fn r e.bytes else dropped
      event row (r == 1) { t with mgmt := { t.mgmt with evWaiting := rest } }
  else if r = 5 then
    match s.toAnnounce fn with
    | none => notNow row
    | some p =>
      let pa := p.2.addr
      let t := s.putEntry fn 5 (leBytes 4 p.1 ++ leBytes 4 p.2.bytes.length ++ leBytes 8 pa)
      event row (room && s.present fn && (s.ld fn).enable) { t.devWrite ((withOffsets p.2.bytes).map (fun b => (pa + b.1, b.2))) [] with
        records := t.records.set p.1 { p.2 with announced := true } }
  else
    match (s.ld fn).waiting.find? (fun e => e.ring == r) with
    | none => notNow row
    | some e =>
      let t := if room then s.putEntry fn r e.bytes else dropped
      event row ((s.ld fn).enable && (room || r == 6)) (t.updLd fn (fun d => { d with waiting := d.waiting.erase e }))

end Sys2Proof.Machine
end

