-- ==== Sys2Proof/Machine/Links.lean ====
section
/-! DEFINITION. Fabric ports: colours, stripe sets, sending, receiving, lasers and training (R358 to R371, R404, R407), with
the register writes that act on them. -/

namespace Sys2Proof.Machine

/-! ## Ports and colours -/

/-- A colour after device reset (R366). -/
def emptyColour : Colour :=
  { st := .dark, feed := false, tenant := 0xFFFF, shareable := false, enable := true, ccorr := 0, cunc := 0, cuncWin := 0,
    cwarn := 0x1000, cretr := 0x10000, done := 0, fails := 0, marg := 0, attempt := 0, calm := 0, calmP := 0, winAt := 0 }

def emptyLink : Link :=
  { preq := 0xFF, colours := List.replicate 8 emptyColour, narrow := false, txSeq := [], rxSeq := [], rxHeld := [], unacked := [],
    slots := [], last := [], out := [], serving := (0, 0) }

/-- The link indexes of R358. -/
def validLink (k : Nat) : Bool := decide (k < 18) || (decide (32 ≤ k) && decide (k < 48))

def State.link (s : State) (k : Nat) : Link := SMap.getD s.links k emptyLink

def Link.colour (l : Link) (c : Nat) : Colour := (l.colours[c]?).getD emptyColour

/-- UP or WATCH. -/
def ColSt.open_ : ColSt → Bool
  | .up | .watch => true
  | _ => false

def Colour.isUp (c : Colour) : Bool := c.st.open_

/-- Colours of a port by a condition, ascending. -/
def Link.pick (l : Link) (f : Colour → Bool) : List Nat := (List.range 8).filter (fun c => f (l.colour c))

/-- Requested, enabled and FAILED colours make a port narrow (R369). -/
def Link.isNarrow (l : Link) : Bool :=
  (List.range 8).any (fun c => l.preq.testBit c && (l.colour c).enable && (l.colour c).st == .failed)

/-- The tenants that own requested colours. -/
def Link.owners (l : Link) : List Nat :=
  (((List.range 8).filter (fun c => l.preq.testBit c && (l.colour c).tenant != 0xFFFF)).map (fun c => (l.colour c).tenant)).eraseDups

/-- A tenant's stripe set (R367, R369). -/
def Link.stripe (l : Link) (t : Nat) : List Nat :=
  if l.narrow && l.owners.contains t then l.pick Colour.isUp
  else
    let own := l.pick (fun c => c.tenant == t && c.isUp)
    if own.isEmpty then l.pick (fun c => c.shareable && c.isUp) else own

/-- Some colour of the port can still carry traffic, now or after training (R368). -/
def Link.alive (l : Link) : Bool := (List.range 8).any (fun c => !((l.colour c).st == .dark) && !((l.colour c).st == .failed))

/-- Post a guarantee event to every device with a context of each owning tenant (R369, R384). -/
def State.guarantee (s : State) (code k : Nat) (ts : List Nat) : State :=
  ts.foldl (fun t tn =>
    ((t.ctxs.filter (fun p => p.2.tenant == tn && !(p.2.st == .destroyed))).map (fun p => p.2.ld)).eraseDups.foldl (fun u ld =>
      u.postEvent ld code 0 [k + 65536 * tn] []) t) s

/-- The next colour of a tenant's round: after the last one it used, ascending, from 7 to 0 (R407). -/
def Link.nextColour (l : Link) (t : Nat) : Option Nat :=
  let st := l.stripe t
  match SMap.find l.last t with
  | none => st.head?
  | some c => ((st.filter (fun x => decide (c < x))).head?).or st.head?

/-- The receiver can correct a flit sent on a colour (R366): margin injection corrupts at most 6 symbols of it. -/
def Colour.clean (c : Colour) : Bool := !(c.marg.getLsbD 31 && decide (7 ≤ c.marg.toNat % 16))

/-- A kept flit is sent once more, on the next colour of its tenant's round (R360); with no colour to send it on it waits. -/
def Link.resend (l : Link) (u : Unacked) : Link :=
  match l.nextColour u.tenant with
  | none => l
  | some c => { l with
      last := SMap.set l.last u.tenant c
      unacked := l.unacked.map (fun (x : Unacked) => if x == u then { x with colour := c, good := x.good || (l.colour c).clean } else x) }

/-- The flits kept of some colours are sent again on others (R363, R365). -/
def Link.resendOff (l : Link) (left : List Nat) : Link := (l.unacked.filter (fun u => left.contains u.colour)).foldl Link.resend l

/-- Put a port back, with the changes that follow from its colours: narrow or not (R369); what was sent on a colour that has left its
stripe set is sent again on the others (R363, R365); and a fresh numbering when a dead port begins to train again, before its first flit
(R368). -/
def State.setLink (s : State) (k : Nat) (x : Link) : State :=
  let old := s.link k
  let y := ({ x with narrow := x.isNarrow } : Link).resendOff ((List.range 8).filter (fun c => (old.colour c).isUp && !(x.colour c).isUp))
  let z := if old.alive || !y.alive then y else { y with txSeq := [], rxSeq := [], rxHeld := [] }
  let s1 := { s with links := SMap.set s.links k z }
  if old.narrow == z.narrow then s1 else s1.guarantee (if z.narrow then 5 else 6) k z.owners

def State.updColour (s : State) (k c : Nat) (f : Colour → Colour) : State :=
  let l := s.link k
  s.setLink k { l with colours := listUpd l.colours c f }

/-! ## Sending (R360, R367, R372) -/

/-- A tenant owns a colour of the port. -/
def Link.owns (l : Link) (t : Nat) : Bool := l.colours.any (fun c => c.tenant == t)

/-- A tenant's own free-slot count on a channel: 64 at first. -/
def Link.count (l : Link) (t : Nat) (resp : Bool) : Nat := SMap.getD l.slots (2 * t + (if resp then 1 else 0)) 64

/-- The free slots of the further 64 of a channel, on which the tenants that own no colour of the port draw together. -/
def Link.joint (l : Link) (resp : Bool) : Nat :=
  64 - sumNat (l.slots.map (fun p => if p.1 % 2 == (if resp then 1 else 0) && !l.owns (p.1 / 2) then 64 - p.2 else 0))

/-- The free slots of a tenant on a channel (R367; log entry 26). -/
def Link.free (l : Link) (t : Nat) (resp : Bool) : Nat :=
  if l.owns t then l.count t resp else Nat.min (l.count t resp) (l.joint resp)

/-- Send one flit: it takes the next number of its tenant, a colour and a slot, and is kept until acknowledged. -/
def Link.sendFlit (l : Link) (f : Flit) : Link :=
  match l.nextColour f.tenant with
  | none => l
  | some c =>
    let q := SMap.getD l.txSeq f.tenant 0
    { l with
      txSeq := SMap.set l.txSeq f.tenant ((q + 1) % 2 ^ 32)
      slots := SMap.set l.slots (2 * f.tenant + (if f.resp then 1 else 0)) (l.count f.tenant f.resp - 1)
      last := SMap.set l.last f.tenant c
      unacked := l.unacked ++ [⟨f.tenant, q, c, { f with seq := q }, (l.colour c).clean⟩] }

/-- A pod line's access of the package issued under an earlier topology version, and not yet sent (R372). -/
def State.oldUnsent (s : State) (o : PendOp) : Bool :=
  o.kind.isRemote && !o.done && o.ver != s.tver && (o.localLine s.pkg).isNone && !s.remotes.any (fun r => r.op == o.id)

/-- The package's own operations of the old generation are not all over (R372 step 4). -/
def State.barrierUp (s : State) : Bool :=
  s.remotes.any (fun r => r.version != s.tver) || s.groups.any (fun p => p.2.ops.any s.oldUnsent)

/-- A packet of an operation of the new generation waits at its source behind those of the old one. -/
def State.genHeld (s : State) (f : Flit) : Bool := !f.resp && f.src == s.pkg && f.version == s.tver && s.barrierUp

/-- The second flit of a write whose first has been sent: its number follows the first's, so nothing else of its tenant goes before. -/
def isHalf (b : List Flit) : Bool := decide (b.length = 1) && (b.headD ⟨0, false, 0, 0, 0, 0, 0, 0, 0, []⟩).ty == 3

/-- The packet of some tenants whose next flit can go, in order for each tenant and channel. `stuck` lists those that cannot go on. -/
def Link.sendable (l : Link) (held : Flit → Bool) (want : Nat → Bool) : List (Nat × Bool) → List (List Flit) → Option (List Flit)
  | _, [] => none
  | stuck, b :: rest =>
    let f := b.headD ⟨0, false, 0, 0, 0, 0, 0, 0, 0, []⟩
    let key := (f.tenant, f.resp)
    let behind := !isHalf b && l.out.any (fun x => isHalf x && x.any (fun y => y.tenant == f.tenant))
    if !want f.tenant || held f then l.sendable held want stuck rest
    else if stuck.contains key || behind || l.free f.tenant f.resp < b.length || (l.nextColour f.tenant).isNone then
      l.sendable held want (key :: stuck) rest
    else some b

/-- The next flit of a packet goes; what is left of the packet keeps its place. -/
def Link.sendNext (l : Link) (b : List Flit) : Link :=
  match b with
  | [] => { l with out := l.out.erase b }
  | [f] => { l with out := l.out.erase b }.sendFlit f
  | f :: r => { l with out := l.out.replace b r }.sendFlit f

/-- The weight of a tenant on a narrow port: the colours it owns (R369). -/
def Link.weight (l : Link) (t : Nat) : Nat := (l.pick (fun c => c.tenant == t)).length

/-- The owners in the order of the weighted round: the one being served while it may still send, then those after it, then from the
first on; one whose turn is over comes last. -/
def Link.round (l : Link) : List Nat :=
  let ts := sortBy id l.owners
  let t := l.serving.1
  (if l.serving.2 = 0 then [] else ts.filter (· == t)) ++ ts.filter (fun x => decide (t < x)) ++ ts.filter (fun x => decide (x < t)) ++
  (if l.serving.2 = 0 then ts.filter (· == t) else [])

/-- One flit goes, if any can: on a narrow port the next tenant of the weighted round sends it (R369, R407). -/
def Link.sendOne (l : Link) (held : Flit → Bool) : Option Link :=
  match if l.narrow then l.round.findSome? (fun t => (l.sendable held (· == t) [] l.out).map (fun b => (t, b))) else none with
  | some x =>
    let left := if x.1 == l.serving.1 && l.serving.2 != 0 then l.serving.2 else l.weight x.1
    some ({ l with serving := (x.1, left - 1) }.sendNext x.2)
  | none => (l.sendable held (fun _ => true) [] l.out).map l.sendNext

/-- Send flits until none can go. -/
def Link.sendAll (held : Flit → Bool) : Nat → Link → Link
  | 0, l => l
  | n + 1, l => match l.sendOne held with
    | some x => x.sendAll held n
    | none => l

/-- Each port sends what it can. -/
def State.pump (s : State) : State :=
  { s with links := s.links.mapV (fun _ l => if l.out.isEmpty then l else l.sendAll s.genHeld (sumNat (l.out.map List.length))) }

/-! ## Routing and failure (R371, R373) -/

/-- The bank that holds a version's tables. -/
def State.bankOf (s : State) (version : Nat) : Nat := if version == s.tver then s.tbank else if s.topen && version == s.tprev then 1 - s.tbank else s.tbank

/-- The port towards another package, if one can be reached (R368, R371). -/
def State.route (s : State) (bank d : Nat) : Option Nat :=
  let k := SMap.getD s.routes (bank * 256 + d) 0xFF
  if d != s.pkg && validLink k && (s.link k).alive then some k else none

/-- A tenant's reset generation (R370). -/
def State.resetGen (s : State) (t : Nat) : Nat := (SMap.getD s.store (0x80000 + t) (0 : Byte)).toNat

/-- Put a packet on a port's queue. -/
def State.enqueue (s : State) (k : Nat) (b : List Flit) : State :=
  let l := s.link k
  { s with links := SMap.set s.links k { l with out := l.out ++ [b] } }

/-- The payload of an error response is the model's own: the type of the flit it answers and why it failed. -/
def errorFlit (s : State) (f : Flit) (why : Nat) : Flit :=
  { ty := 7, resp := true, version := f.version, tenant := f.tenant, rgen := s.resetGen f.tenant, dst := f.src, src := s.pkg,
    tag := f.tag, seq := 0, payload := leBytes 1 f.ty ++ leBytes 1 why ++ f.payload.take 4 ++ leBytes 122 0 }

/-- Why a packet failed: unreachable, stale, or its tenant reset. -/
def whyUnreachable : Nat := 0
def whyStale : Nat := 1
def whyReset : Nat := 2

/-- The group operation of a request of this package fails with the remote error (R241). -/
def State.failRemote (s : State) (tag dst : Nat) : State :=
  match s.remotes.find? (fun r => r.tag == tag && r.dst == dst) with
  | none => s
  | some r =>
    let s1 := { s with remotes := s.remotes.erase r }
    match (s1.grp r.grp).bind (fun g => g.op r.op) with
    | some o => s1.remoteError r.grp o
    | none => s1

/-- The 32-bit matching key in a collective flit's payload. -/
def collKey (f : Flit) : Nat := field f.payload 0 4

/-- A collective of this package fails with a reason (R379), told to the others by its engine. -/
def State.failColl (s : State) (tenant key reason : Nat) : State :=
  { s with colls := s.colls.mapV (fun _ c =>
      if c.st == .running && c.tenant == tenant && c.d.tag == key && c.fail.isNone then { c with fail := some reason } else c) }

/-- A request fails where it is (R370, R373): this package's own operation ends in error, another's gets an error response
when one can be sent. Responses are dropped. -/
def State.failFlit (s : State) (f : Flit) (why : Nat) : State :=
  if f.resp then s
  else if f.src == s.pkg then
    if f.ty == 5 || f.ty == 6 then s.failColl f.tenant (collKey f) (if why == whyStale then 1 else 5) else s.failRemote f.tag f.dst
  else match s.route (if why == whyStale then s.tbank else s.bankOf f.version) f.src with
  | some k => s.enqueue k [errorFlit s f why]
  | none => s

/-- Send a packet towards its destination, by the bank of its version. -/
def State.inject (s : State) (b : List Flit) : State :=
  match b with
  | [] => s
  | f :: _ =>
    match s.route (s.bankOf f.version) f.dst with
    | some k => s.enqueue k b
    | none => s.failFlit f whyUnreachable

/-- Two flits are those of one write (R359). -/
def oneWrite (f g : Flit) : Bool := f.ty == 3 && g.ty == 3 && g.src == f.src && g.tenant == f.tenant && g.tag == f.tag

/-- One flit for each packet of a list. -/
def oncePerPacket : List Flit → List Flit
  | [] => []
  | f :: r => f :: (oncePerPacket r).filter (fun g => !oneWrite f g)

/-- A port that has lost its last colour fails every packet queued for it, each once (R368). -/
def State.clearDead (s : State) (k : Nat) : State :=
  let l := s.link k
  if l.alive then s
  else
    let fs := l.unacked.map (·.flit) ++ l.out.flatten
    (oncePerPacket fs).foldl (fun t f => t.failFlit f whyUnreachable) { s with links := SMap.set s.links k { l with out := [], unacked := [] } }

/-! ## Colour states (R363 to R366, R407) -/

/-- A colour enters RETRAINING: it leaves the stripe set, and margin injection stops. -/
def Colour.retrain (c : Colour) : Colour := { c with st := .retraining, marg := c.marg &&& 0x7FFFFFFF, attempt := 0 }

/-- The thresholds, judged after a flit (R363, R364). -/
def Colour.judge (c : Colour) : Colour :=
  if !c.isUp then c
  else if c.cretr < c.ccorr || decide (16 ≤ c.cuncWin) then c.retrain
  else if c.st == .up && decide (c.cwarn < c.ccorr) then { c with st := .watch, calm := 0, calmP := 0 }
  else c

/-- Symbols corrected in a flit, or a flit beyond correction. -/
def Colour.count (c : Colour) (symErr : Nat) (bad : Bool) : Colour :=
  (if bad then { c with cunc := Nat.min (c.cunc + 1) (2 ^ 32 - 1), cuncWin := c.cuncWin + 1 }
    else { c with ccorr := c.ccorr + symErr }).judge

def execCctlRetrain (link colour : Nat) (s : State) : Out :=
  let c := (s.link link).colour colour
  event "CCTL_RETRAIN" (validLink link && decide (colour < 8))
    (if c.isUp then s.updColour link colour Colour.retrain else s)

/-- A colour goes DARK or FAILED. -/
def State.stopColour (s : State) (k c : Nat) (f : Colour → Colour) : State := (s.updColour k c f).clearDead k

/-- `CCTL.enable`: written 0 it darkens a colour in any state; written 1 the colour may train again (R363). -/
def State.enableColour (s : State) (k c : Nat) (en : Bool) : State :=
  s.stopColour k c (fun x => if en then { x with enable := true } else { x with enable := false, st := .dark })

def execCctlEnableWrite (link colour : Nat) (en : Bool) (s : State) : Out :=
  event "CCTL_ENABLE_WRITE" (validLink link && decide (colour < 8)) (s.enableColour link colour en)

/-- The two laser modules of an engine (R362). -/
def primaryOf (e : Nat) : Nat := e % 6
def secondaryOf (e : Nat) : Nat := (e + 3) % 6

/-- The branch of a module that feeds an engine: the numbering is the model's own. Branches 6 and 7 end on monitors. -/
def branchOf (e : Nat) (secondary : Bool) : Nat × Nat :=
  if secondary then (secondaryOf e, 3 + e / 6) else (primaryOf e, e / 6)

/-- The feed of an engine is in alarm. -/
def State.feedAlarm (s : State) (e : Nat) (secondary : Bool) : Bool := s.mgmt.alarms.contains (branchOf e secondary)

/-- Feed light is present at a port: electrical ports need none. -/
def State.feedLight (s : State) (link : Nat) : Bool :=
  decide (link < 32) || !(s.feedAlarm (link - 32) false && s.feedAlarm (link - 32) true)

/-- A colour starts training: here its own end's conditions; the partner's are in the event's occurrence (R363, R407). -/
def execTrainingStart (link colour : Nat) (s : State) : Out :=
  let l := s.link link
  let c := l.colour colour
  event "TRAINING_START" (validLink link && decide (colour < 8) && c.st == .dark && c.enable && l.preq.testBit colour && s.feedLight link)
    (s.updColour link colour (fun x => { x with st := .training, attempt := 0 }))

/-- The end of a training attempt (R363): success, another attempt, or FAILED after three. -/
def execTrainingAttemptEnd (link colour : Nat) (ok : Bool) (s : State) : Out :=
  let c := (s.link link).colour colour
  let re := c.st == .retraining
  event "TRAINING_ATTEMPT_END" (validLink link && decide (colour < 8) && (c.st == .training || re))
    ((s.updColour link colour (fun x =>
      if ok then { x with st := .up, ccorr := 0, cuncWin := 0, calm := 0, calmP := 0, attempt := 0, winAt := s.timebase,
                          done := if re then Nat.min (x.done + 1) 65535 else x.done }
      else { x with fails := Nat.min (x.fails + 1) 65535, attempt := x.attempt + 1,
                    st := if x.attempt + 1 < 3 then x.st else .failed })).clearDead link)

/-- The ticks of a window: 65,536 flits of 6.4 ns, idle ones included (R359, R364). -/
def windowTicks : Nat := 419430

/-- The colour returns from WATCH to UP once the last four windows of both ends were calm, and a new window begins (R404, R407). -/
def Colour.calmed (c : Colour) (now : Nat) : Colour :=
  if c.st == .watch && decide (4 ≤ c.calm) && decide (4 ≤ c.calmP) then { c with st := .up, ccorr := 0, cuncWin := 0, winAt := now } else c

/-- A window ends at this end and the next begins (R364). -/
def Colour.endWindow (c : Colour) (now : Nat) : Colour :=
  ({ c with ccorr := 0, cuncWin := 0, calm := if c.ccorr ≤ c.cwarn then c.calm + 1 else 0, winAt := now } : Colour).calmed now

/-- What the partner's end tells moves the colour here too (R404, R407). -/
def Colour.hear (c : Colour) (now : Nat) : Partner → Colour
  | .window true => ({ c with calmP := c.calmP + 1 } : Colour).calmed now
  | .window false | .watch => { c with calmP := 0, st := .watch }
  | .retrain => c.retrain
  | .dark => { c with st := .dark }
  | .failed => { c with st := .failed }

/-- The partner's end tells of a state of its own, which a colour in use or, for a state that ends its use, in any state follows. -/
def Colour.hears (c : Colour) : Partner → Bool
  | .dark => !(c.st == .dark)
  | .failed => !(c.st == .failed)
  | _ => c.isUp

/-- The window of a colour has had its 65,536 flits (R364). -/
def Colour.windowOver (c : Colour) (now : Nat) : Bool := c.isUp && decide (c.winAt + windowTicks ≤ now)

/-- A window ends at this end (`none`), or the partner's end tells of itself (R364, R404, R407). -/
def execColourWindowEnd (link colour : Nat) (atPartner : Option Partner) (s : State) : Out :=
  let c := (s.link link).colour colour
  let here := validLink link && decide (colour < 8)
  match atPartner with
  | none => event "COLOUR_WINDOW_END" (here && c.windowOver s.timebase) (s.updColour link colour (fun x => x.endWindow s.timebase))
  | some p => event "COLOUR_WINDOW_END" (here && c.hears p) (s.stopColour link colour (fun x => x.hear s.timebase p))

/-- Every window that is over ends (R364). -/
def State.endWindows (s : State) : State :=
  s.links.foldl (fun t p => (List.range 8).foldl (fun u c =>
    if ((u.link p.1).colour c).windowOver u.timebase then u.updColour p.1 c (fun x => x.endWindow u.timebase) else u) t) s

/-! ## Lasers (R362) -/

/-- The engines a branch feeds, with which feed it is. -/
def enginesOf (m b : Nat) : List (Nat × Bool) :=
  ((List.range 18).filter (fun e => branchOf e false == (m, b))).map (fun e => (e, false)) ++
  ((List.range 18).filter (fun e => branchOf e true == (m, b))).map (fun e => (e, true))

/-- The feed that the colours of an engine use. -/
def State.feedOf (s : State) (e : Nat) : Bool := ((s.link (32 + e)).colour 0).feed

/-- Every colour of an engine. Engines 16 and 17 carry the loop: links 48 and 49, which are no ports, hold their feed. -/
def State.updEngine (s : State) (e : Nat) (f : Colour → Colour) : State :=
  s.setLink (32 + e) { s.link (32 + e) with colours := (s.link (32 + e)).colours.map f }

/-- Bring an engine to what its feeds allow: the feed in use, the other one, or none (R362). -/
def State.judgeFeed (s : State) (e : Nat) : State :=
  let f := s.feedOf e
  if !s.feedAlarm e f then s
  else if !s.feedAlarm e (!f) then (s.updEngine e (fun c => { c with feed := !f })).postMgmt 0x20 [e]
  else
    let s1 := ((s.updEngine e (fun c => { c with st := .failed })).postMgmt 0x21 [e]).clearDead (32 + e)
    if e < 16 then s1 else { s1 with formed := false }

def execBranchAlarm (module branch : Nat) (s : State) : Out :=
  event "BRANCH_ALARM" (decide (module < 6) && decide (branch < 8) && !s.mgmt.alarms.contains (module, branch))
    ((enginesOf module branch).foldl (fun t e => t.judgeFeed e.1)
      { s with mgmt := { s.mgmt with alarms := (module, branch) :: s.mgmt.alarms } })

/-- A branch has power again: an engine whose feed in use is in alarm takes the other one. -/
def execBranchPowerRestored (module branch : Nat) (s : State) : Out :=
  event "BRANCH_POWER_RESTORED" (s.mgmt.alarms.contains (module, branch))
    (let s1 := { s with mgmt := { s.mgmt with alarms := s.mgmt.alarms.erase (module, branch) } }
     (enginesOf module branch).foldl (fun t e =>
       if t.feedAlarm e.1 (t.feedOf e.1) && !t.feedAlarm e.1 (!(t.feedOf e.1)) then t.judgeFeed e.1 else t) s1)

/-! ## Routing tables (R371) -/

/-- A write of a routing entry: the current bank ignores it. -/
def execRouteWrite (bank dst : Nat) (v : Word) (s : State) : Out :=
  event "ROUTE_WRITE" (decide (bank < 2) && decide (dst < 256))
    (if bank == s.tbank then s else { s with routes := s.routes.put (bank * 256 + dst) (v.toNat % 256) 0xFF })

/-! ## Acknowledgements and slots (R360, R367) -/

/-- A kept flit is sent again, with its number, on the next colour of the tenant's round. -/
def execFlitRetry (link tenant seq : Nat) (s : State) : Out :=
  let l := s.link link
  match l.unacked.find? (fun u => u.tenant == tenant && u.seq == seq), l.nextColour tenant with
  | some u, some _ => event "FLIT_RETRY" (validLink link) { s with links := SMap.set s.links link (l.resend u) }
  | _, _ => notNow "FLIT_RETRY"

/-- The receiver acknowledges a flit that it could correct (R360, R366). -/
def execFlitAcknowledgement (link tenant seq : Nat) (s : State) : Out :=
  let l := s.link link
  match l.unacked.find? (fun u => u.tenant == tenant && u.seq == seq && u.good) with
  | some u => .next { s with links := SMap.set s.links link { l with unacked := l.unacked.erase u } }
  | none => notNow "FLIT_ACKNOWLEDGEMENT"

def execFreeSlotReturn (link tenant : Nat) (resp : Bool) (n : Nat) (s : State) : Out :=
  let l := s.link link
  event "FREE_SLOT_RETURN" (validLink link && decide (1 ≤ n) && decide (l.count tenant resp + n ≤ 64))
    ({ s with links := SMap.set s.links link { l with
        slots := SMap.put l.slots (2 * tenant + (if resp then 1 else 0)) (l.count tenant resp + n) 64 } }).pump

end Sys2Proof.Machine
end

