-- ==== Sys2Proof/Machine/Coll.lean ====
section
/-! DEFINITION. Collectives (R375 to R380): `COLL`, the start and completion of a collective, its reductions, and the
flits by which members exchange contributions. What those flits carry beyond R379 is the model's own layout. -/

namespace Sys2Proof.Machine

/-! ## The word (R378) -/

def emptyCDesc : CDesc := ⟨0, 0, 0, 0, 1, 0, 0, 0, 0, 0, 0, 0⟩

def execColl (g : Guard) (a : BitVec 6) (s : State) : Out :=
  onceWord s (.coll g a) g (fun s1 c gr _ =>
    let sa := (gr.rs64 a.toNat).toNat
    if sa % 64 != 0 then .trap { cause := 3, addr := sa }
    else
      gateBody s1 c gr true 0 .pkg (fun s1 =>
        let op := s1.nextId
        let tenant := ((s1.ctxOf gr).map (·.tenant)).getD 0
        let x : Coll := ⟨dieOf gr.core, s1.ctxNum gr, c.grp, op, c.pc.toNat, tenant, sa, .queued, emptyCDesc, [], [], none, none,
          .zero, none⟩
        .done ({ s1.updGrp c.grp (fun y => y.pushOp op .cp c (.coll op) noOrder [] false) with
          nextId := op + 1
          colls := s1.colls.set op x }.remember op c.grp)))

/-! ## Descriptors (R375) -/

def readCDesc (bs : List Byte) : CDesc :=
  { op := field bs 0 1, red := field bs 1 1, fmt := field bs 2 1, root := field bs 3 1, nranks := field bs 4 2,
    version := field bs 6 2, count := field bs 8 8, src := field bs 16 8, dst := field bs 24 8, tag := field bs 40 4,
    sig := field bs 48 8, sigv := BitVec.ofNat 64 (field bs 56 8) }

/-- Bytes of an element. -/
def CDesc.w (d : CDesc) : Nat := Nat.max 1 (fmtBits d.fmt / 8)

/-- Bytes of one rank's elements, and of source and destination by operation (R376). -/
def CDesc.part (d : CDesc) : Nat := d.count * d.w
def CDesc.srcBytes (d : CDesc) : Nat := if d.op = 2 then d.nranks * d.part else d.part
def CDesc.dstBytes (d : CDesc) : Nat := if d.op = 1 then d.nranks * d.part else d.part

/-- Reduction formats, and those of gather and broadcast. -/
def reduces (fmt : Nat) : Bool := [0, 1, 2, 0x0C, 0x0D, 0x0E, 0x0F].contains fmt
def gathers (fmt : Nat) : Bool := reduces fmt || [3, 4, 8, 9, 0x0A, 0x0B].contains fmt

def CDesc.ok (d : CDesc) : Bool :=
  let moves := d.op == 1 || d.op == 3
  decide (d.op ≤ 3) && decide (d.red ≤ 2) && (!moves || d.red == 0) && (if moves then gathers d.fmt else reduces d.fmt) &&
  (if d.op = 3 then decide (d.root < d.nranks) else d.root == 0) && decide (1 ≤ d.nranks) && decide (d.nranks ≤ 256) &&
  decide (1 ≤ d.count) && decide (d.count < 2 ^ 32) && decide (d.nranks * d.part ≤ 2 ^ 40) && d.src % d.w == 0 && d.dst % d.w == 0 &&
  d.sig % 16 == 0

/-- The rank of a package. -/
def rankIn (members : List Nat) (p : Nat) : Nat := members.findIdx (· == p)

/-! ## Reductions (R377) -/

/-- The format of a floating-point code. -/
def collFmt (code : Nat) : Option Fmt :=
  match code with
  | 0 => some fp32
  | 1 => some fp16
  | 2 => some bf16
  | _ => none

/-- Combine two contributions: exact integers, or FP32 values. -/
def combine (d : CDesc) (a b : Nat) : Nat :=
  match collFmt d.fmt with
  | some _ =>
    if d.red = 0 then (fp32.fadd ⟨.rn, false, false⟩ a b).1 else (fp32.minmax (d.red == 2) a b).1
  | none =>
    let w := 8 * d.w
    if d.red = 0 then (a + b) % 2 ^ w
    else
      let less := if d.fmt % 2 = 0 then decide ((BitVec.ofNat w a).toInt < (BitVec.ofNat w b).toInt) else decide (a < b)
      if less == (d.red == 1) then a else b

/-- Combine a list pairwise in an order drawn from the free values: two elements at a time. -/
def combineAny (d : CDesc) : Nat → Nat → List Nat → Nat
  | _, _, [] => 0
  | _, _, [x] => x
  | 0, _, x :: _ => x
  | n + 1, k, xs =>
    let i := Config.freeNat k % xs.length
    let a := xs.getD i 0
    let r := xs.eraseIdx i
    let j := Config.freeNat (k + 1) % r.length
    combineAny d n (k + 2) (combine d a (r.getD j 0) :: r.eraseIdx j)

/-- The reduction of one element over all ranks. -/
def reduceElem (d : CDesc) (k : Nat) (xs : List Nat) : Nat :=
  match collFmt d.fmt with
  | some f =>
    let z := combineAny d xs.length k (xs.map (fun x => if f == fp32 then x else (f.convert fp32 ⟨.rn, false, false⟩ x).1))
    if (fp32.value z).isNan then f.qnan else if f == fp32 then z else (fp32.convert f ⟨.rn, false, false⟩ z).1
  | none => combineAny d xs.length k xs

/-- The bytes of the destination (R376). -/
def Coll.result (c : Coll) (k : Nat) : List Byte :=
  let d := c.d
  let part := fun p => SMap.getD c.got p ([] : List Byte)
  if d.op = 1 then (List.range d.nranks).flatMap part
  else if d.op = 3 then part d.root
  else (List.range d.count).flatMap (fun i =>
    leBytes d.w (reduceElem d (k + 2 * d.nranks * i) ((List.range d.nranks).map (fun p => field (part p) (i * d.w) d.w))))

/-! ## Flits of a collective -/

/-- The first packet to a peer: what R379 lets the peer compare. -/
def Coll.announce (c : Coll) : List Byte :=
  let d := c.d
  leBytes 4 d.tag ++ leBytes 1 0 ++ leBytes 1 d.op ++ leBytes 1 d.red ++ leBytes 1 d.fmt ++ leBytes 1 d.root ++ leBytes 1 0 ++
  leBytes 2 d.nranks ++ leBytes 8 d.count ++ leBytes 4 (crc32c (c.members.map (BitVec.ofNat 8))) ++ leBytes 104 0

/-- An abort says whether its sender had announced the collective that has failed (log entry 30). -/
def abortPayload (key : Nat) (announced : Bool) : List Byte :=
  leBytes 4 key ++ leBytes 1 1 ++ leBytes 1 (if announced then 1 else 0) ++ leBytes 122 0

def isAbort (f : Flit) : Bool := f.ty == 6 && field f.payload 4 1 == 1

/-- The first packet of a collective. -/
def isAnnounce (f : Flit) : Bool := f.ty == 6 && !isAbort f

/-- Packets of one sender that belong to collectives of one key (R379). -/
def sameColl (f g : Flit) : Bool :=
  (g.ty == 5 || g.ty == 6) && g.src == f.src && g.tenant == f.tenant && g.version == f.version && collKey g == collKey f

/-- Data flits of 120 bytes each. -/
def dataPayloads (key : Nat) (bs : List Byte) : List (List Byte) :=
  (List.range (ceilDiv bs.length 120)).map (fun i =>
    let part := (bs.drop (120 * i)).take 120
    leBytes 4 key ++ leBytes 4 part.length ++ (part ++ leBytes 120 0).take 120)

def State.collFlit (s : State) (c : Coll) (ty dst : Nat) (payload : List Byte) : Flit :=
  { ty := ty, resp := false, version := c.d.version, tenant := c.tenant, rgen := s.resetGen c.tenant, dst := dst, src := s.pkg,
    tag := c.d.tag % 65536, seq := 0, payload := payload }

/-- Send every peer its announcement and its data. -/
def State.sendColl (s : State) (c : Coll) (src : List Byte) : State :=
  let r := rankIn c.members s.pkg
  (c.members.zip (List.range c.members.length)).foldl (fun t m =>
    if m.2 = r then t
    else
      let bs := if c.d.op = 2 then (src.drop (m.2 * c.d.part)).take c.d.part else if c.d.op = 3 && c.d.root != r then [] else src
      (dataPayloads c.d.tag bs).foldl (fun u p => u.inject [u.collFlit c 5 m.1 p]) (t.inject [t.collFlit c 6 m.1 c.announce])) s

/-! ## The end of a collective -/

/-- Flits of a collective that this package has sent and that are not acknowledged. -/
def State.collUnsent (s : State) (c : Coll) : Bool :=
  let mine := fun (f : Flit) => (f.ty == 5 || f.ty == 6) && f.src == s.pkg && f.tenant == c.tenant && f.version == c.d.version &&
    collKey f == c.d.tag
  s.links.any (fun p => p.2.out.any (fun b => b.any mine) || p.2.unacked.any (fun u => mine u.flit))

def State.endColl (s : State) (k : Nat) (c : Coll) (reason : Option Nat) : State :=
  ({ (s.unclaim k).forget k with colls := s.colls.del k }).endOp c.grp c.op (reason.map (fun r => (0x1C, r, c.pc, 0)))

/-- The waiting flits that go with a failed collective: each peer's up to its next announcement after the one that belongs to it. `seen`
are the peers whose announcement has been taken, `next` those that have announced another one since. -/
def Coll.leave (c : Coll) : List Nat → List Nat → List Ingress → List Ingress
  | _, _, [] => []
  | seen, next, i :: r =>
    let mine := (i.f.ty == 5 || i.f.ty == 6) && i.f.tenant == c.tenant && i.f.version == c.d.version && collKey i.f == c.d.tag
    if !mine || next.contains i.f.src then i :: c.leave seen next r
    else if !isAnnounce i.f then c.leave seen next r
    else if seen.contains i.f.src then i :: c.leave seen (i.f.src :: next) r
    else c.leave (i.f.src :: seen) next r

/-- A failed collective: every other member is told (R379), and its waiting flits are dropped. -/
def State.dropColl (s : State) (k : Nat) (c : Coll) (r : Nat) : State :=
  let s1 := s.endColl k c (some r)
  let taken := c.members.filter (fun m => SMap.has c.got (rankIn c.members m))
  (c.members.filter (· != s1.pkg)).foldl (fun t m => t.inject [t.collFlit c 6 m (abortPayload c.d.tag (!(c.st == .queued)))])
    { s1 with ingress := c.leave taken [] s1.ingress }

/-- End every collective that has failed. -/
def State.collFails (s : State) : State :=
  s.colls.foldl (fun t p => match p.2.fail with
    | some r => t.dropColl p.1 p.2 r
    | none => t) s

/-! ## Start (R379) -/

/-- The tag of a collective is in use by an unfinished one of its tenant. -/
def State.tagBusy (s : State) (c : Coll) (key : Nat) : Bool :=
  s.colls.any (fun p => !(p.2.st == .queued) && p.2.tenant == c.tenant && p.2.d.tag == key)

/-- How the checks of a start end; `later` and `held` are lines it has to wait for. -/
inductive CStart where
  | wait (fid : Nat)
  | fail (c : Coll) (reason : Nat)
  | later
  | held (blks : List Nat)
  | go (c : Coll) (src : List Byte)

/-- Every byte of a range lies in device memory. -/
def allDev (m : SMap Phys) (va n : Nat) : Bool :=
  (pagesFrom va n).all (fun p => match SMap.getD m p .zero with
    | .dev _ => true
    | _ => false)

/-- The lines of a range whose pages are known. -/
def rangeLines (m : SMap Phys) (va n : Nat) : List Nat :=
  if n = 0 then [] else ((List.range ((va + n - 1) / 128 - va / 128 + 1)).filterMap (fun i =>
    engLine 0 (pageAt m ((va / 128 + i) * 128)))).foldl insertNat []

/-- Go on with a record of a collective that has been read as by `LD`; one that cannot be read makes it fail with reason 2. -/
def EngRead.orFail (r : EngRead) (c : Coll) (s : State) (k : List Byte → CStart × State) : CStart × State :=
  match r with
  | .ok bs => k bs
  | .later => (.later, s)
  | .held b => (.held b, s)
  | .poison | .space => (.fail c 2, s)

/-- Go on with pages that are there; one that can never be used makes the collective fail. -/
def Pages.orFail (p : Pages × State) (c : Coll) (reason : Nat) (k : SMap Phys → State → CStart × State) : CStart × State :=
  match p.1 with
  | .wait f => (.wait f, p.2)
  | .bad _ => (.fail c reason, p.2)
  | .ok m => k m p.2

/-- Check the parts of a collective whose descriptor and members are in order, and read its source. -/
def State.collParts (s : State) (ld k : Nat) (c : Coll) : CStart × State :=
  let d := c.d
  let rank := rankIn c.members s.pkg
  let srcN := if !(d.op == 3) || d.root == rank then d.srcBytes else 0
  let sp := s.engPages ld c.ctx (opKey c.op) false (pagesFrom d.src srcN)
  let dp := sp.2.engPages ld c.ctx (opKey c.op) true (pagesFrom d.dst d.dstBytes)
  let gp := dp.2.engPages ld c.ctx (opKey c.op) true (if d.sig = 0 then [] else pagesFrom d.sig 16)
  match sp.1.join dp.1, gp.1 with
  | .bad _, _ => (.fail c 3, gp.2)
  | _, .bad _ => (.fail c 2, gp.2)
  | .wait f, _ => (.wait f, gp.2)
  | _, .wait f => (.wait f, gp.2)
  | .ok ms, .ok mg =>
    let t := gp.2
    let src := (List.range srcN).map (fun i => pageAt ms (d.src + i))
    let hs := t.holders 0 (rangeLines ms d.src srcN ++ rangeLines ms d.dst d.dstBytes)
    if !(allDev ms d.dst d.dstBytes && allDev ms d.src srcN) then (.fail c 3, t)
    else if d.sig != 0 && !(allDev mg d.sig 16) then (.fail c 2, t)
    else if !hs.isEmpty then (.held hs, t)
    else if !src.all t.engClean then (.fail c 3, t)
    else if !src.all (t.lineFree k 0) then (.later, t)
    else
      let bytes := src.map (fun p => t.engByteAt c.op 0 t.clk p)
      let own := if d.op = 2 then (bytes.drop (rank * d.part)).take d.part else bytes
      (.go { c with
        st := .running, wait := none, got := [(rank, own)], sigPhys := pageAt mg d.sig, claimed := some ⟨[], ms, ms⟩ } bytes, t)

/-- Check a collective (R375, R379): descriptor and members, read as by `LD`, version, pages; then read its source. -/
def State.checkColl (s : State) (k : Nat) (c : Coll) : CStart × State :=
  let ld := ((s.ctxs.find c.ctx).map (·.ld)).getD 0
  Pages.orFail (s.engPages ld c.ctx (opKey c.op) false (pagesFrom c.desc 64)) c 2 (fun m x =>
    (x.engRead c.op 0 m c.desc 64).orFail c x (fun bs =>
      let d := readCDesc bs
      let mp := field bs 32 8
      let c0 := { c with d := d }
      if x.tagBusy c d.tag then (.later, x)
      else if !d.ok || !zeros bs 44 4 then (.fail c0 2, x)
      else Pages.orFail (x.engPages ld c.ctx (opKey c.op) false (pagesFrom mp d.nranks)) c0 2 (fun mm y =>
        (y.engRead c.op 0 mm mp d.nranks).orFail c0 y (fun ms =>
          let members := ms.map (·.toNat)
          if members.eraseDups.length != members.length || !members.contains y.pkg then (.fail c0 2, y)
          else if d.version != y.tver then (.fail { c0 with members := members } 1, y)
          else y.collParts ld k { c0 with members := members }))))

/-- A collective starts: the oldest of its die that waits, with fewer than 64 running. -/
def execCollStart (k : Nat) (s : State) : Out :=
  let row := "COLL_START"
  match s.colls.find k with
  | none => notNow row
  | some c =>
    let live := c.st == .queued &&
      s.colls.all (fun p => !(p.2.die == c.die) || !(p.2.st == .queued) || decide (k ≤ p.1)) &&
      decide ((s.colls.filter (fun p => p.2.die == c.die && !(p.2.st == .queued))).length < 64) &&
      (match c.wait with
        | some f => s.faultOver f
        | none => true)
    let x := s.checkColl k c
    match x.1 with
    | .wait f => event row live { x.2 with colls := x.2.colls.set k { c with wait := some f } }
    | .later => notNow row
    | .held bs => if live then recallStep s row bs s.ckptReady (notNow row) else notNow row
    | .fail c1 r => event row live (x.2.dropColl k c1 r)
    | .go c1 src =>
      let m := (c1.claimed.map (·.dst)).getD []
      event row live (({ (x.2.claim k (rangeLines m c1.d.dst c1.d.dstBytes)) with colls := x.2.colls.set k c1 }).sendColl c1 src)

/-! ## Completion -/

/-- Every contribution that this member needs has come, and every peer's announcement. -/
def Coll.complete (c : Coll) : Bool :=
  let need := fun p => if c.d.op = 3 && p != c.d.root then 0 else c.d.part
  (List.range c.d.nranks).all (fun p => match SMap.find c.got p with
    | some bs => decide (need p ≤ bs.length)
    | none => false)

/-- An element of the destination overlaps the source where the operation does not admit it: its value is not defined (R376). -/
def Coll.overlaps (c : Coll) (cl : Claim) (pkg elem : Nat) : Bool :=
  let reads := !(c.d.op == 3) || c.d.root == rankIn c.members pkg
  let same := c.d.src == c.d.dst && (c.d.op == 0 || c.d.op == 3)
  let src := (List.range c.d.srcBytes).map (fun i => pageAt cl.src (c.d.src + i))
  reads && !same && (List.range c.d.w).any (fun i => src.contains (pageAt cl.dst (c.d.dst + elem * c.d.w + i)))

/-- The bytes a collective writes: its result, and any bytes at all in elements that are not defined. -/
def Coll.output (c : Coll) (cl : Claim) (pkg k : Nat) : List Byte :=
  (c.result k).mapIdx (fun i b => if c.overlaps cl pkg (i / c.d.w) then BitVec.ofNat 8 (Config.freeNat (k + 2 * c.d.nranks * c.d.count + i)) else b)

/-- A collective that has all its data puts its result together. -/
def State.collResult (s : State) (k : Nat) (c : Coll) (cl : Claim) : State :=
  let bs := c.output cl s.pkg s.free
  let ps := piecesOf 0 ((withOffsets bs).map (fun b => (pageAt cl.dst (c.d.dst + b.1), b.2)))
  { s with
    free := s.free + 2 * c.d.nranks * c.d.count + bs.length
    colls := s.colls.set k { c with claimed := some { cl with pieces := ps }, st := .finished } }

/-- With all its data a collective puts its result together, then writes and releases its destination line by line; then, with
every write visible and every packet acknowledged, the signal is written, and once it is visible `cp` retires the collective. -/
def execCollComplete (k : Nat) (s : State) : Out :=
  let row := "COLL_COMPLETE"
  match s.colls.find k with
  | none => notNow row
  | some c =>
    match c.claimed with
    | none => notNow row
    | some cl =>
      if c.st == .running then event row (c.complete && c.fail.isNone) (s.collResult k c cl)
      else if c.st == .signalled then event row (s.engVisible c.grp c.op) (s.endColl k c none)
      else if !(c.st == .finished && c.fail.isNone) then notNow row
      else if !cl.pieces.isEmpty then
        let x := s.writeSome c.grp k 0 false [] cl
        recallStep s row (s.holders 0 x.1) s.ckptReady
          (event row (!x.1.isEmpty) { x.2.2 with colls := x.2.2.colls.set k { c with claimed := some x.2.1 } })
      else
        let bs := withOffsets (leBytes 8 c.d.sigv.toNat ++ leBytes 8 0)
        let lines := if c.d.sig = 0 then [] else (engLine 0 c.sigPhys).toList
        let s1 := if c.d.sig = 0 then s else (lines.foldl State.breakLock s).engWrite c.grp c.op 0 true
          (bs.map (fun b => (c.sigPhys.shift b.1, b.2)))
        if s.engVisible c.grp c.op && !s.collUnsent c && (c.d.sig == 0 || s.lineFree k 0 c.sigPhys) then
          recallStep s row (s.holders 0 lines) s.ckptReady (.next { s1 with colls := s1.colls.set k { c with st := .signalled } })
        else notNow row

/-! ## Arrivals -/

/-- The unfinished collective that a flit belongs to. -/
def State.collFor (s : State) (f : Flit) : Option (Nat × Coll) :=
  s.colls.find? (fun p => !(p.2.st == .queued) && p.2.tenant == f.tenant && p.2.d.tag == collKey f && p.2.d.version == f.version)

/-- A packet that follows an announcement no collective here has taken: it waits behind it; with none waiting it belongs to a collective
that has ended here, and is discarded (log entry 30). -/
def State.unclaimed (s : State) (f : Flit) : State × Bool := (s, !(s.ingress.any (fun i => isAnnounce i.f && sameColl f i.f)))

/-- A collective flit arrives (R379): its state after it, and whether the flit is consumed. A packet of a sender's next collective of
the tag waits for the one that runs to end. -/
def State.collArrive (s : State) (f : Flit) : State × Bool :=
  match s.collFor f with
  | none => if isAnnounce f || (isAbort f && field f.payload 5 1 != 1) then (s, false) else s.unclaimed f
  | some (k, c) =>
    let p := rankIn c.members f.src
    let put := fun (x : Coll) => ({ s with colls := s.colls.set k x }, true)
    let fail := fun r => if c.fail.isNone && !(c.st == .signalled) then put { c with fail := some r } else (s, true)
    let taken := c.members.contains f.src && SMap.has c.got p
    if isAbort f then
      if field f.payload 5 1 == 1 then if taken then fail 4 else s.unclaimed f
      else if taken then (s, false) else fail 4
    else if f.ty == 6 then
      if taken then (s, false)
      else if !c.members.contains f.src || f.payload != c.announce then fail 2
      else put { c with got := SMap.set c.got p [] }
    else
      match (if taken then SMap.find c.got p else none) with
      | none => s.unclaimed f
      | some bs =>
        if c.d.part ≤ bs.length then (s, false)
        else put { c with got := SMap.set c.got p (bs ++ (f.payload.drop 8).take (field f.payload 4 4)) }

end Sys2Proof.Machine
end

