-- ==== Sys2Proof/Machine/Control.lean ====
section
/-! DEFINITION. Control flow (R137 to R140, R153 to R157), safe points (R90), breakpoints, service calls and the return
from a handler (R331 to R334). -/

namespace Sys2Proof.Machine

/-! ## Branches, calls and returns -/

/-- Executing lanes move to their targets, the others of the fragment to the next word (R153). -/
def Group.jump (g : Group) (frag ex : Mask) (t : Nat → BitVec 56) : Group :=
  { g with lanes := g.lanes.mapIdx (fun l x =>
      if Mask.has frag l && x.st == .running then
        { x with pc := if Mask.has ex l then t l else x.pc + 8, hold := .none }
      else x) }

/-- A PC-relative target, modulo 2^56 (R34, R42). -/
def relTarget (pc : BitVec 56) (off : BitVec 56) : BitVec 56 := pc + off * 8

/-- The first failing check of indirect targets (R36, R153): address range of any lane, then alignment. -/
def targetTrap (ls : List Nat) (t : Nat → Nat) : Option Trap :=
  match ls.find? (fun l => decide (2 ^ 56 ≤ t l)) with
  | some l => some { cause := 4, addr := t l }
  | none =>
    match ls.find? (fun l => t l % 8 != 0) with
    | some l => some { cause := 3, addr := t l }
    | none => none

/-- The address of a spilled entry (R154). -/
def spillAt (g : Group) (base : DWord) (m l : Nat) : DWord := base + BitVec.ofNat 64 (8 * (m * g.width + l))

/-- A lane's on-chip entries: k. -/
def Group.kOf (g : Group) (l : Nat) : Nat := (g.lane l).rs.length

/-- `CALL` and `CALLX` once the targets are checked (R154). -/
def callBody (s : State) (c : Issue) (g : Group) (ex : Mask) (spill : Nat) (t : Nat → BitVec 56) : WOut :=
  let ls := Mask.lanes ex
  let base := g.rs64 spill
  let tooDeep := ls.filter (fun l => (g.lane l).depth == 65535 || (g.kOf l == 4 && spill == 63))
  let sp := ls.filter (fun l => g.kOf l == 4)
  let at_ := fun l => spillAt g base ((g.lane l).depth - 4) l
  let push := fun (x : Group) => (x.updLanes ex (fun y =>
    { y with rs := (c.pc + 8).setWidth 64 :: y.rs.take 3, depth := y.depth + 1 })).jump c.lanes ex t
  if !tooDeep.isEmpty then .trap { cause := 0x0E, info := (Mask.ofLanes tooDeep).toNat }
  else match sp with
  | [] => .moved (s.updGrp c.grp push)
  | l0 :: _ =>
    if base.toNat % 8 != 0 then .trap { cause := 3, addr := (at_ l0).toNat }
    else
      let x := s.tryAll (s.ldOf g) (s.ctxNum g) .write (sp.map (fun l => (l, at_ l)))
      match firstFail (fun _ => false) x.1 (·.isRemote) 7 with
      | some tr => .trap tr
      | none =>
        let as := (okAccs x.1).map (fun a => { a with n := 8, data := withOffsets (leBytes 8
          ((g.lane a.lane).rs.getLastD 0).toNat) })
        let f := x.2.fresh
        .moved (f.2.updGrp c.grp (fun y => push (y.pushOp f.1 .st c .store noOrder as false)))

def execBra (g : Guard) (off : BitVec 24) (s : State) : Out :=
  runWord s (.bra g off) (fun s1 c gr =>
    .moved (s1.setGrp c.grp (gr.jump c.lanes (gr.nonHelpers (gr.guarded c.lanes g)) (fun _ =>
      relTarget c.pc (off.signExtend 56)))))

def execBraL (g : Guard) (off : Word) (s : State) : Out :=
  runWord s (.braL g off) (fun s1 c gr =>
    .moved (s1.setGrp c.grp (gr.jump c.lanes (gr.nonHelpers (gr.guarded c.lanes g)) (fun _ =>
      relTarget c.pc (off.signExtend 56)))))

def execBrx (g : Guard) (t : Reg) (s : State) : Out :=
  runWord s (.brx g t) (fun s1 c gr =>
    let ex := gr.nonHelpers (gr.guarded c.lanes g)
    match targetTrap (Mask.lanes ex) (fun l => (t.get64 gr l).toNat) with
    | some tr => .trap tr
    | none => .moved (s1.setGrp c.grp (gr.jump c.lanes ex (fun l => (t.get64 gr l).setWidth 56))))

def execCall (g : Guard) (off : BitVec 24) (spill : BitVec 6) (s : State) : Out :=
  runWord s (.call g off spill) (fun s1 c gr =>
    callBody s1 c gr (gr.nonHelpers (gr.guarded c.lanes g)) spill.toNat (fun _ => relTarget c.pc (off.signExtend 56)))

def execCallL (g : Guard) (off : Word) (s : State) : Out :=
  runWord s (.callL g off) (fun s1 c gr =>
    callBody s1 c gr (gr.nonHelpers (gr.guarded c.lanes g)) 63 (fun _ => relTarget c.pc (off.signExtend 56)))

def execCallx (g : Guard) (t : Reg) (spill : BitVec 6) (s : State) : Out :=
  runWord s (.callx g t spill) (fun s1 c gr =>
    let ex := gr.nonHelpers (gr.guarded c.lanes g)
    match targetTrap (Mask.lanes ex) (fun l => (t.get64 gr l).toNat) with
    | some tr => .trap tr
    | none => callBody s1 c gr ex spill.toNat (fun l => (t.get64 gr l).setWidth 56))

/-- The end of a `RET` once every target is known: lanes with on-chip entries pop, the others only go up a level. -/
def Group.popRet (g : Group) (frag ex : Mask) (t : Nat → Nat) : Group :=
  (g.updLanes ex (fun y => { y with rs := y.rs.drop 1, depth := y.depth - 1 })).jump frag ex (fun l => BitVec.ofNat 56 (t l))

def execRet (g : Guard) (spill : BitVec 6) (s : State) : Out :=
  runWord s (.ret g spill) (fun s1 c gr =>
    let ex := gr.nonHelpers (gr.guarded c.lanes g)
    let ls := Mask.lanes ex
    let base := gr.rs64 spill.toNat
    let under := ls.filter (fun l => (gr.lane l).depth == 0 || (gr.kOf l == 0 && spill.toNat == 63))
    let re := ls.filter (fun l => gr.kOf l == 0)
    let at_ := fun l => spillAt gr base ((gr.lane l).depth - 1) l
    let top := fun l => ((gr.lane l).rs.headD 0).toNat
    if !under.isEmpty then .trap { cause := 0x0F, info := (Mask.ofLanes under).toNat }
    else match re with
    | [] =>
      match targetTrap ls top with
      | some tr => .trap tr
      | none => .moved (s1.setGrp c.grp (gr.popRet c.lanes ex top))
    | l0 :: _ =>
      if base.toNat % 8 != 0 then .trap { cause := 3, addr := (at_ l0).toNat }
      else
        let x := s1.tryAll (s1.ldOf gr) (s1.ctxNum gr) .read (re.map (fun l => (l, at_ l)))
        match firstFail (fun _ => false) x.1 (·.isRemote) 7 with
        | some tr => .trap tr
        | none =>
          let as := (okAccs x.1).map (fun a => { a with n := 8 })
          let f := x.2.fresh
          .hold (f.2.updGrp c.grp (fun y => y.pushOp f.1 .own c (.refill ex) noOrder as false)) (.busy f.1))

/-- A refill returns: the `RET` checks every popped target and moves, or traps (R154). -/
def execRetRefillReturn (grp op : Nat) (s : State) : Out :=
  withOp s "RET_REFILL_RETURN" grp op (fun g o =>
    match o.kind with
    | .refill ex =>
      let vals : SMap Nat := o.lanes.map (fun a => (a.lane, leNat (s.readPhys grp g a.lane a.phys 8).1))
      let t := fun l => match SMap.find vals l with
        | some v => v
        | none => ((g.lane l).rs.headD 0).toNat
      let frag := g.fragment ((Mask.lanes ex).headD 0)
      let s1 := s.updGrp grp (fun x => x.completeOp op none)
      event "RET_REFILL_RETURN" (o.lanes.all (fun a => a.st == .ready && s.mayPerform grp g o a false && s.accessFree g a true))
        (match targetTrap (Mask.lanes ex) t with
          | some tr => s1.takeTrap grp frag (BitVec.ofNat 56 o.pc) o.word tr
          | none => s1.updGrp grp (fun x => x.popRet frag ex t))
    | _ => notNow "RET_REFILL_RETURN")

/-! ## Rejoin masks (R138) -/

def execEnrol (g : Guard) (j : BitVec 3) (off : BitVec 16) (s : State) : Out :=
  runWord s (.enrol g j off) (fun s1 c gr =>
    let ex := gr.nonHelpers (gr.guarded c.lanes g)
    let target := relTarget c.pc (off.signExtend 56)
    let x := SMap.getD gr.j j.toNat (0, 0)
    if ex == 0 then .done s1
    else if x.1 != 0 && x.2 != target then .trap { cause := 0x0D, info := j.toNat }
    else .done (s1.setGrp c.grp ({ gr with j := SMap.set gr.j j.toNat (x.1 ||| ex, target) }.releaseCheck j.toNat)))

def execRejoin (j : BitVec 3) (s : State) : Out :=
  runWord s (.rejoin j) (fun s1 c gr =>
    let x := SMap.getD gr.j j.toNat (0, 0)
    let e := gr.nonHelpers c.lanes &&& x.1
    if e != 0 && x.2 != c.pc then .trap { cause := 0x0D, info := j.toNat }
    else
      let g1 := (gr.advance (c.lanes &&& ~~~e)).updLanes e (fun y => { y with st := .arrived j.toNat, hold := .none })
      .moved (s1.setGrp c.grp (g1.releaseCheck j.toNat)))

def execStrike (g : Guard) (j : BitVec 3) (s : State) : Out :=
  runWord s (.strike g j) (fun s1 c gr =>
    .done (s1.setGrp c.grp ((gr.strikeMask j.toNat (gr.nonHelpers (gr.guarded c.lanes g))).releaseCheck j.toNat)))

/-! ## Exit and waits -/

/-- Every counter of a group is zero, and its writes are released (R155, R205). -/
def State.exitReady (s : State) (gid : Nat) (g : Group) : Bool :=
  g.idle && s.released gid g s.nextId (g.mask (fun _ => true)) .pkg false

/-- Raise the oldest deferred error at a fragment, clearing its record (R325). -/
def State.raiseError (s : State) (c : Issue) (e : Deferred) : State :=
  (s.updGrp c.grp (fun g => { g with errs := g.errs.erase e })).takeTrap c.grp c.lanes c.pc c.word e.trap

/-- The last exit of a group (R155, R205): it waits for every counter and for the release of its writes, raises a pending error,
takes the checkpoint of a phase it completes, and ends the group. `gx` is the group with its lanes ended. -/
def lastExit (s : State) (c : Issue) (g gx : Group) : WOut :=
  if !s.exitReady c.grp g then .hold s .exit
  else match g.errs with
  | e :: _ => .moved (s.raiseError c e)
  | [] =>
    let ck := s.exitCkpt c.grp g
    if ck && !s.ckptReady g.blk then .hold (s.haltBlock g.blk) .ckpt
    else
      let s1 := if ck then s.checkpoint g.blk else s
      .moved (((s1.exitBarriers c.grp g).setGrp c.grp gx).endGroup c.grp)

def execExit (g : Guard) (s : State) : Out :=
  runWord s (.exit g) (fun s1 c gr =>
    let ex := gr.nonHelpers (gr.guarded c.lanes g)
    if ex == 0 then .done s1
    else
      let gx := (gr.advance (c.lanes &&& ~~~ex)).exitLanes ex
      if gx.lanes.all (fun x => x.st == .exited) then lastExit s1 c gr gx
      else .moved (s1.setGrp c.grp gx.parkCheck))

def execWait (ld st cp mx bc : BitVec 6) (s : State) : Out :=
  runWord s (.wait ld st cp mx bc) (fun s1 c gr =>
    if !gr.waited ld.toNat st.toNat cp.toNat mx.toNat bc.toNat then
      .hold s1 (.wait ld.toNat st.toNat cp.toNat mx.toNat bc.toNat)
    else match gr.requiredError ld.toNat st.toNat cp.toNat mx.toNat bc.toNat with
    | some e => .moved (s1.raiseError c e)
    | none => .done s1)

def execYield (imm : Bool) (n : BitVec 8) (s : State) : Out :=
  runWord s (.yield imm n) (fun s1 c gr =>
    .moved (s1.setGrp c.grp ((gr.advance c.lanes).holdLanes c.lanes (.yield (if n = 0 then 0 else c.clk + n.toNat)))))

/-- The n clocks of a `YIELD` end (R157); the fragment stays last for the next choice (R128). -/
def execYieldExpiry (grp lane : Nat) (s : State) : Out :=
  match s.grp grp with
  | none => notNow "YIELD_EXPIRY"
  | some g =>
    match (g.lane lane).hold with
    | .yield (u + 1) => event "YIELD_EXPIRY" (g.isRunning lane && decide (u + 1 ≤ s.clk))
        (s.setGrp grp (g.holdLanes (g.fragment lane) (.yield 0)))
    | _ => notNow "YIELD_EXPIRY"

def execNap (t : Src) (s : State) : Out :=
  runWord s (.nap t) (fun s1 c gr =>
    let n := (t.get gr 0 .zext).toNat
    if n = 0 then .done s1
    else .moved (s1.setGrp c.grp ((gr.advance c.lanes).holdLanes c.lanes (.nap (timebaseOf c.clk + n)))))

/-- The timebase reaches the end of a `NAP` (R157). -/
def execNapExpiry (grp lane : Nat) (s : State) : Out :=
  match s.grp grp with
  | none => notNow "NAP_EXPIRY"
  | some g =>
    match (g.lane lane).hold with
    | .nap u => event "NAP_EXPIRY" (g.isRunning lane && decide (u ≤ s.timebase))
        (s.setGrp grp (g.holdLanes (g.fragment lane) .none))
    | _ => notNow "NAP_EXPIRY"

/-! ## Safe points (R90) -/

/-- A safe-point entry (R65): id, pc, live set, stub. -/
def spEntry (bs : List Byte) : Nat × Nat × LiveSet × Option Nat :=
  let f := fun o n => leNat ((bs.drop o).take n)
  (f 44 2, f 48 8, ⟨f 0 32, f 32 8, f 40 1, f 41 1, f 42 1⟩, if f 56 8 == 2 ^ 64 - 1 then none else some (f 56 8))

/-- Split bytes into entries of 64. -/
def chunks64 : Nat → List Byte → List (List Byte)
  | 0, _ => []
  | n + 1, bs => bs.take 64 :: chunks64 n (bs.drop 64)

/-- `SAFEPT`: the count and the id are set before anything else; an unflagged group does no more, a flagged fragment looks its
entry up and stops. Of two entries with one id the first counts (log entry 45). -/
def execSafept (id : BitVec 16) (s : State) : Out :=
  runWord s (.safept id) (fun s0 c gr0 =>
    let begin := fun (y : Group) => { y with spCount := 0, spLast := some id.toNat }
    let gr := begin gr0
    let s1 := s0.updGrp c.grp begin
    if !gr.flagged then .done s1
    else
      let ds := s1.descOf gr
      let l := (Mask.lanes (gr.nonHelpers c.lanes)).headD 0
      let x := s1.tryAll (s1.ldOf gr) (s1.ctxNum gr) .read ((List.range ds.spcount).map (fun i =>
        (l, BitVec.ofNat 64 (ds.sptab + 64 * i))))
      let as := (okAccs x.1).map (fun a => { a with n := 64 })
      let fail := fun (t : Trap) => WOut.moved (s1.wordTraps c gr t)
      match firstFail (fun _ => false) x.1 (·.isRemote) 7, as.find? (fun b => b.st == .failed) with
      | some t, _ => fail t
      | none, some b => fail { cause := 0x0B, addr := b.va, info := (gr.nonHelpers c.lanes).toNat }
      | none, none =>
        if waitsFault as then probeBody x.2 c gr .own as
        else if !gr.storesDone || !as.all (fun a => x.2.accessFree gr a true) then .notReady
        else
          match ((chunks64 ds.spcount (as.flatMap (x.2.groupBytes c.grp gr))).map spEntry).find? (fun e => e.1 == id.toNat) with
          | some e =>
            if e.2.1 == (c.pc - BitVec.ofNat 56 ds.text).toNat then
              .moved ((x.2.endProbe c).updGrp c.grp (fun y =>
                (y.advance c.lanes).stopAt c.lanes (.safePoint e.2.2.1 e.2.2.2)))
            else fail { cause := 0x11, info := id.toNat }
          | none => fail { cause := 0x11, info := id.toNat })

/-! ## Breakpoints, service calls and the return from a handler -/

/-- The trapping fragment of `BRK` and `TRAP` (R324): the executing lanes and the helper lanes anchored in them. -/
def Group.trapping (g : Group) (frag ex : Mask) : Mask :=
  ex ||| maskFilter frag (fun l => g.isHelper l && (match g.anchor l with | some a => Mask.has ex a | none => false))

def execBrk (g : Guard) (code : BitVec 16) (s : State) : Out :=
  runWord s (.brk g code) (fun s1 c gr =>
    let ex := gr.nonHelpers (gr.guarded c.lanes g)
    if ex == 0 then .done s1
    else
      let m := gr.trapping c.lanes ex
      .moved ((s1.setGrp c.grp (gr.advance (c.lanes &&& ~~~m))).takeTrap c.grp m c.pc c.word { cause := 0x20, info := code.toNat }))

/-- A service record's bytes (R334): the report, then v0:v1 to v6:v7 of each trapping lane. -/
def recordBytes (g : Group) (regs : Nat) (rep : Report) (m : Mask) : List Byte :=
  rep.bytes ++ g.laneIds.flatMap (fun l => (List.range 8).flatMap (fun k =>
    leBytes 4 (if Mask.has m l && decide (k < regs) then (g.rv k l).toNat else 0)))

/-- Park the trapping lanes with a service record (R333 steps 3 and 4). -/
def State.serviceCall (s : State) (c : Issue) (g : Group) (m : Mask) (code : Nat) : State :=
  let rid := s.newRecord
  let rep := mkReport s g { cause := 0x21, info := code } c.pc c.word m
  let park := fun (x : Group) => ((x.advance (c.lanes &&& ~~~m)).parkService m rid).parkCheck
  let s1 := (s.updGrp c.grp park).keepRecord rid
    ⟨s.ldOf g, c.grp, m, c.pc, some code, recordBytes g (s.descOf g).regs rep m, false, 0⟩
  if s.ckpt g then s1.updBlk g.blk (fun b => { b with shadow := b.shadow.map (fun sh => { sh with
    groups := sh.groups.map (fun p => if p.1 == c.grp then (p.1, park p.2) else p) }) })
  else s1

/-- `TRAP` (R333): the other lanes go on at once; the trapping ones wait for the release, then park. -/
def execTrap (g : Guard) (code : BitVec 16) (s : State) : Out :=
  runWord s (.trap g code) (fun s1 c gr =>
    let ex := gr.nonHelpers (gr.guarded c.lanes g)
    if ex == 0 then .done s1
    else
      let m := gr.trapping c.lanes ex
      match gateBody s1 c gr false m .sys (fun s2 => .moved (s2.serviceCall c gr m code.toNat)) with
      | .hold s2 h => .moved (s2.updGrp c.grp (fun y => (y.advance (c.lanes &&& ~~~m)).holdLanes m h))
      | x => x)

/-- The first failing check of `ERET.x` (R331): alignment of a chosen target or of the added lanes' target, then its
address range (R305). -/
def eretTrap (ls : List Nat) (t : Nat → Nat) (added : Mask) (st : Nat) : Option Trap :=
  match ls.find? (fun l => t l % 8 != 0) with
  | some l => some { cause := 3, addr := t l }
  | none =>
    if added != 0 && st % 8 != 0 then some { cause := 3, addr := st }
    else match ls.find? (fun l => decide (2 ^ 56 ≤ t l)) with
    | some l => some { cause := 4, addr := t l }
    | none => if added != 0 && decide (2 ^ 56 ≤ st) then some { cause := 4, addr := st } else none

/-- The returned group of `ERET.x`: lanes outside the mask exit, ARRIVED lanes inside it join (R331, R140). -/
def Group.eretX (g : Group) (frag h sm added : Mask) (keep : Bool) (t : Nat → BitVec 56) (st : BitVec 56) : Group :=
  let g1 := (g.leaveHandler frag keep).jump frag h t
  let g2 : Group := { g1 with lanes := g1.lanes.mapIdx (fun (l : Nat) (x : Lane) =>
    if Mask.has added l then
      { x with pc := st, st := (match x.st with
        | .arrived j => if st == (SMap.getD g.j j (0, 0)).2 then .running else x.st
        | y => y) }
    else x) }
  (if h &&& ~~~sm == 0 then g2 else g2.exitLanes (h &&& ~~~sm)).afterReturn

def execEret (keep : Bool) (m : EretMode) (s : State) : Out :=
  runWord s (.eret keep m) (fun s1 c gr =>
    let h := gr.nonHelpers c.lanes
    let back := fun l => ((gr.lane l).hnd).getD 0
    if !gr.inHandler h then .trap (trapOf 0x1E)
    else match m with
    | .retry => .moved (s1.setGrp c.grp (((gr.leaveHandler c.lanes keep).jump c.lanes h back).afterReturn))
    | .next => .moved (s1.setGrp c.grp (((gr.leaveHandler c.lanes keep).jump c.lanes h (fun l => back l + 8)).afterReturn))
    | .x va sm st =>
      let sv := gr.rs64 sm.toNat
      let tv := gr.rs64 st.toNat
      let v := fun l => (gr.rv64 va.toNat l).toNat
      let added := gr.mask (fun l => Mask.has sv l && (match (gr.lane l).st with | .arrived _ => true | _ => false))
      match eretTrap (Mask.lanes (h &&& sv)) v added tv.toNat with
      | some t => .trap t
      | none =>
        let gx := gr.eretX c.lanes h sv added keep (fun l => BitVec.ofNat 56 (v l)) (tv.setWidth 56)
        if gx.lanes.all (fun x => x.st == .exited) then lastExit s1 c gr gx
        else .moved (s1.setGrp c.grp gx.parkCheck))

end Sys2Proof.Machine
end

