-- ==== Sys2Proof/Machine/Fabric.lean ====
section
/-! DEFINITION. Pod lines and the fabric's packets: `LDP` and `STP` (R240, R241), the arrival of flits (R359, R360), what
becomes of each (R359, R370, R373), and the generations of R371 to R374. -/

namespace Sys2Proof.Machine

/-! ## LDP and STP (R240) -/

/-- The checks and translation of a pod line: REMOTE pages only. `STP` reads its scratch line now, whether or not the group's earlier
stores to it have been performed (R240, R403). -/
def podBody (s : State) (c : Issue) (g : Group) (ex : Mask) (a : BitVec 6) (line : Src) (store : Bool) : WOut :=
  let sa := g.rs64 a.toNat
  let off := 128 * (line.get g 0 .zext).toNat
  let l := (Mask.lanes (g.nonHelpers ex)).headD 0
  if sa.toNat % 128 != 0 then .trap { cause := 3, addr := sa.toNat }
  else if (s.descOf g).scratch < off + 128 then .trap { cause := 5, addr := off }
  else if store && s.isOwned (scratchLine g.blk off) then .notReady
  else
    let x := s.tryAcc (s.ldOf g) (s.ctxNum g) l sa (if store then .pod else .read)
    match x.1.acc with
    | none => .trap { cause := x.1.cause, addr := sa.toNat }
    | some b =>
      if b.st == .ready && x.1.cause != 7 then .trap { cause := 7, addr := sa.toNat }
      else
        let bs := (List.range 128).map (fun i => SMap.getD (((s.blkOf g).map (·.scratch)).getD []) (off + i) (0 : Byte))
        let acc : LaneAcc := { b with n := 128, data := if store then withOffsets bs else [] }
        let f := x.2.fresh
        let kind := if store then OpKind.stp else .ldp (off / 128)
        let t := f.2.updGrp c.grp (fun y => y.pushOp f.1 (if store then .st else .ld) c kind noOrder [acc] false |>.updOp f.1 (fun o => { o with ver := s.tver }))
        .done (t.settle c.grp f.1)

def execLdp (g : Guard) (a : BitVec 6) (line : Src) (s : State) : Out :=
  onceWord s (.ldp g a line) g (fun s1 c gr ex => podBody s1 c gr ex a line false)

def execStp (g : Guard) (a : BitVec 6) (line : Src) (s : State) : Out :=
  onceWord s (.stp g a line) g (fun s1 c gr ex => podBody s1 c gr ex a line true)

/-- The lowest tag that no request of this package uses. -/
def State.freeTag (s : State) : Nat :=
  ((List.range (s.remotes.length + 1)).find? (fun t => !s.remotes.any (fun r => r.tag == t))).getD 0

/-- A request's payload: address and length (R359). -/
def requestPayload (pa : Nat) : List Byte := leBytes 8 pa ++ leBytes 4 128 ++ leBytes 116 0

/-- The next remote access of a group to be sent: translated, with every earlier one sent or over (R241); an `STP` waits for the
releases of its threads before it (R256). -/
def State.nextRemote (s : State) (gid : Nat) (g : Group) : Option (PendOp × Nat × Nat) :=
  let sent := fun (o : PendOp) => s.remotes.any (fun r => r.op == o.id)
  match g.ops.find? (fun o => o.kind.isRemote && !o.done && !sent o && (o.localLine s.pkg).isNone) with
  | none => none
  | some o => match o.lanes with
    | [a] => (match a.phys, a.st with
      | .remote p pa, .ready => if !(o.kind == .stp) || s.relOk gid g o a.who then some (o, p, pa) else none
      | _, _ => none)
    | _ => none

/-- Send one remote access of a group, stamped with the version under which it was issued (R372). -/
def State.sendRemote (s : State) (gid : Nat) (g : Group) : State :=
  match s.nextRemote gid g with
  | none => s
  | some x =>
    let o : PendOp := x.1
    let p := x.2.1
    let pa := x.2.2
    let tag := s.freeTag
    let tenant := ((s.ctxOf g).map (·.tenant)).getD 0
    let f : Flit := ⟨1, false, o.ver, tenant, s.resetGen tenant, p, s.pkg, tag, 0, requestPayload pa⟩
    let s1 := { s with remotes := s.remotes ++ [(⟨tag, gid, o.id, p, o.ver, tenant⟩ : Remote)] }
    s1.inject (if o.kind == .stp then
      [{ f with ty := 3 }, { f with ty := 3, payload := (o.lanes.flatMap (fun a => a.data.map (·.2))) }] else [f])

/-- Send every remote access that can be sent. -/
def State.sendRemotes (s : State) : State :=
  s.groups.foldl (fun t p => (List.range p.2.ops.length).foldl (fun u _ => match u.grp p.1 with
    | some g => u.sendRemote p.1 g
    | none => u) t) s

/-! ## What becomes of a delivered flit -/

/-- A response to a request, on the response channel. -/
def State.reply (s : State) (f : Flit) (ty : Nat) (payload : List Byte) : State :=
  s.inject [⟨ty, true, f.version, f.tenant, s.resetGen f.tenant, f.src, s.pkg, f.tag, 0, payload⟩]

/-- The error response of a request this package cannot perform. -/
def State.refuseFlit (s : State) (f : Flit) : State := s.inject [errorFlit s f whyUnreachable]

/-- A line that other blocks hold is recalled first (R213): the state, and whether the access may go on. -/
def State.recallFor (s : State) (pa : Nat) : State × Bool :=
  let bs := s.holders 0 [pa / 128]
  if bs.isEmpty then (s, true)
  else if bs.all s.ckptReady then (bs.foldl State.checkpoint s, true)
  else (bs.foldl (fun t b => t.updBlk b (fun x => { x with halt := true })) s, false)

/-- A pod line may be read or written now. -/
def State.podFree (s : State) (pa : Nat) : Bool := s.unlocked pa 128 && !s.isOwned (pa / 128) && !s.isMoving pa

/-- Perform a read or a write of a pod line for another package (R359, R240). -/
def State.serve (s : State) (f : Flit) (data : List Byte) : State × Bool :=
  let pa := field f.payload 0 8
  if field f.payload 8 4 != 128 || pa % 128 != 0 || !s.podLine pa then (s.refuseFlit f, true)
  else
    let r := s.recallFor pa
    if !r.2 || !r.1.podFree pa then (r.1, false)
    else if f.ty == 1 then
      if r.1.clean pa 128 then (r.1.reply f 2 (Memory.bytes r.1.mem pa 128), true) else (r.1.refuseFlit f, true)
    else if r.1.settled 0 0 pa 128 then
      ((r.1.devWrite ((withOffsets data).map (fun b => (pa + b.1, b.2))) []).reply f 4 (leBytes 128 0), true)
    else (r.1, false)

/-- A response reaches its operation (R240, R241). -/
def State.answer (s : State) (f : Flit) : State × Bool :=
  match s.remotes.find? (fun r => r.tag == f.tag && r.dst == f.src) with
  | none => (s, true)
  | some r =>
    let s1 := { s with remotes := s.remotes.erase r }
    match s.grp r.grp with
    | none => (s1, true)
    | some g =>
      match g.op r.op with
      | none => (s1, true)
      | some o =>
        if f.ty == 7 then (s1.remoteError r.grp o, true)
        else if !g.remoteTurn o f.src then (s, false)
        else match o.kind with
          | .ldp line => if s.isOwned (scratchLine g.blk (128 * line)) then (s, false)
              else (s1.ldpReturn r.grp g r.op line f.payload, true)
          | _ => (s1.endRemote r.grp r.op none, true)

/-- The version of a packet lets it proceed (R373). -/
def State.versionOk (s : State) (f : Flit) : Bool :=
  f.version == s.tver || (s.topen && f.version == s.tprev && !(f.ty == 5 || f.ty == 6)) || isAbort f

/-- A delivered flit, with the second flit of a write: the state after it, and whether it is consumed. -/
def State.deliver (s : State) (f : Flit) (second : Option Flit) : State × Bool :=
  if f.rgen != s.resetGen f.tenant then (s.failFlit f whyReset, true)
  else if !s.versionOk f then (s, false)
  else if f.ty == 3 && second.isNone then (s, false)
  else if f.dst != s.pkg then (s.inject (f :: second.toList), true)
  else match f.ty with
    | 1 => s.serve f []
    | 3 => s.serve f ((second.map (·.payload)).getD [])
    | 5 | 6 => s.collArrive f
    | 7 =>
      let ty := field f.payload 0 1
      if ty == 5 || ty == 6 then
        (s.failColl f.tenant (field f.payload 2 4) (if field f.payload 1 1 == whyStale then 1 else 5), true)
      else s.answer f
    | _ => s.answer f

/-- Delivered flits in order, a write when both of its flits are there. Those that cannot go on stay, and hold back later ones of
their source, tenant and channel. -/
def ingressPass : Nat → List (Nat × Nat) → List Ingress → State → State
  | _, _, [], s => s
  | 0, _, l, s => { s with ingress := s.ingress ++ l }
  | n + 1, stuck, i :: rest, s =>
    let f := i.f
    let key := (f.src, 2 * f.tenant + (if f.resp then 1 else 0))
    let pair := rest.find? (fun j => oneWrite f j.f)
    let r := if (stuck.contains key && !isAbort f) || (f.ty == 3 && pair.isNone) then (s, false) else s.deliver f (pair.map (·.f))
    if r.2 then
      ingressPass n stuck (match pair with
        | some j => rest.erase j
        | none => rest) r.1
    else ingressPass n (if s.versionOk f && !(f.ty == 5 || f.ty == 6) then key :: stuck else stuck) rest { r.1 with ingress := r.1.ingress ++ [i] }

def State.ingressWork (s : State) : State := ingressPass s.ingress.length [] s.ingress { s with ingress := [] }

/-- What the fabric side does by itself: remote accesses are sent, delivered flits that waited go on, failed collectives end,
and ports send. -/
def State.fabricWork (s : State) : State := s.sendRemotes.ingressWork.collFails.pump

/-! ## Arrivals (R360) -/

/-- Held flits that follow the one expected, in order, and the number expected next. -/
def takeHeld (tenant : Nat) : Nat → Nat → List Arrival → List Flit × Nat × List Arrival
  | 0, q, held => ([], q, held)
  | n + 1, q, held =>
    match held.find? (fun a => a.flit.tenant == tenant && a.flit.seq == q) with
    | none => ([], q, held)
    | some a =>
      let r := takeHeld tenant n ((q + 1) % 2 ^ 32) (held.erase a)
      (a.flit :: r.1, r.2)

/-- A good flit is delivered in ascending number; a duplicate is discarded (R360). -/
def State.receive (s : State) (a : Arrival) : State :=
  let f := a.flit
  let l := s.link a.link
  let exp := SMap.getD l.rxSeq f.tenant 0
  let ahead := (f.seq + 2 ^ 32 - exp) % 2 ^ 32
  if 2 ^ 31 ≤ ahead then s
  else if ahead != 0 then
    if l.rxHeld.any (fun h => h.flit.tenant == f.tenant && h.flit.seq == f.seq) then s
    else { s with links := SMap.set s.links a.link { l with rxHeld := l.rxHeld ++ [a] } }
  else
    let r := takeHeld f.tenant l.rxHeld.length ((exp + 1) % 2 ^ 32) l.rxHeld
    { s with
      links := SMap.set s.links a.link { l with rxSeq := SMap.set l.rxSeq f.tenant r.2.1, rxHeld := r.2.2 }
      ingress := s.ingress ++ (f :: r.1).map (fun x => ⟨s.timebase + 10000, x⟩) }

/-- A flit arrives on a colour: its symbol errors are counted and judged, and a good flit is received and acted on. An idle flit is only
counted; one of a type that there is not is discarded and counted as beyond correction (R359), under any row, as it has none of its own
(log entry 26). -/
def arrive (row : String) (ty : Nat) (a : Arrival) (s : State) : Out :=
  let bad := decide (6 < a.symErr) || a.crcBad || decide (8 ≤ a.flit.ty)
  let s1 := (s.updColour a.link a.colour (fun c => c.count a.symErr bad))
  event row (validLink a.link && decide (a.colour < 8) && ((s.link a.link).colour a.colour).isUp && (a.flit.ty == ty || a.flit.ty == 0 || decide (8 ≤ a.flit.ty)) &&
      decide (a.flit.payload.length = 128) && decide (a.flit.seq < 2 ^ 32))
    (if bad || a.flit.ty == 0 then s1 else (s1.receive a).fabricWork)

def execReadRequest (a : Arrival) (s : State) : Out := arrive "READ_REQUEST" 1 a s
def execReadResponse (a : Arrival) (s : State) : Out := arrive "READ_RESPONSE" 2 a s
def execWrite (a : Arrival) (s : State) : Out := arrive "WRITE" 3 a s
def execWriteAcknowledgement (a : Arrival) (s : State) : Out := arrive "WRITE_ACKNOWLEDGEMENT" 4 a s
def execCollectiveData (a : Arrival) (s : State) : Out := arrive "COLLECTIVE_DATA" 5 a s
def execCollectiveControl (a : Arrival) (s : State) : Out := arrive "COLLECTIVE_CONTROL" 6 a s
def execErrorResponse (a : Arrival) (s : State) : Out := arrive "ERROR_RESPONSE" 7 a s

/-! ## Generations (R370 to R373) -/

/-- The swap of a topology-change record (R372): collectives abort, and a packet that it turns into one of another version is held
from now on; those held already keep their time (R373). -/
def State.topologySwap (s : State) (version bank : Nat) : State :=
  ({ s with
    tprev := s.tver
    topen := true
    tver := version
    tbank := bank
    tclose := s.timebase + 1000000
    colls := s.colls.mapV (fun _ (c : Coll) => if c.st == CSt.queued || c.fail.isSome then c else { c with fail := some 1 })
    ingress := s.ingress.map (fun (i : Ingress) => if s.versionOk i.f then { i with deadline := s.timebase + 10000 } else i) }).collFails

/-- A tenant's reset generation has moved (R370): its queued flits of the old one are discarded, requests with an error. -/
def State.tenantReset (s : State) (t : Nat) : State :=
  let now := s.resetGen t
  let old := fun (b : List Flit) => b.any (fun f => f.tenant == t && f.rgen != now)
  let dropped := s.links.flatMap (fun p => p.2.out.filter old)
  let s1 := { s with links := s.links.mapV (fun _ l => { l with
    out := l.out.filter (fun b => !old b)
    rxHeld := l.rxHeld }) }
  (dropped.filterMap List.head?).foldl (fun u f => u.failFlit f whyReset) s1

/-- The previous generation closes: its operations fail as stale. -/
def execGenerationClose (s : State) : Out :=
  let old := s.remotes.filter (fun r => r.version != s.tver)
  let unsent := s.groups.flatMap (fun p => (p.2.ops.filter s.oldUnsent).map (fun o => (p.1, o)))
  let s1 := { s with topen := false, links := s.links.mapV (fun _ l => { l with
    out := l.out.filter (fun b => !b.any (fun f => f.src == s.pkg && !f.resp && f.version != s.tver)) }) }
  event "GENERATION_CLOSE" (s.topen && decide (s.tclose ≤ s.timebase))
    (unsent.foldl (fun t x => t.remoteError x.1 x.2) (old.foldl (fun t r => t.failRemote r.tag r.dst) s1)).fabricWork

/-- A held packet becomes stale (R373): discarded, a write with both its flits, and answered with an error response by the current
bank. -/
def execIngressHoldExpiry (i : Nat) (s : State) : Out :=
  match s.ingress[i]? with
  | none => notNow "INGRESS_HOLD_EXPIRY"
  | some x =>
    let rest := s.ingress.eraseIdx i
    event "INGRESS_HOLD_EXPIRY" (!s.versionOk x.f && decide (x.deadline ≤ s.timebase) && (x.f.ty != 3 || rest.any (fun j => oneWrite x.f j.f)))
      (({ s with ingress := rest.filter (fun j => !oneWrite x.f j.f) }).failFlit x.f whyStale).fabricWork

end Sys2Proof.Machine
end

