-- ==== Sys2Proof/Machine/Grids.lean ====
section
/-! DEFINITION. Launch descriptors, acceptance, placement and grid states (R71, R112 to R120, R124, R125, R159), and the
way a group comes back after pre-emption (R86, R87). -/

namespace Sys2Proof.Machine

/-! ## Descriptors (R112, R113) -/

/-- A launch descriptor's 64 bytes, valid under R112 and R113. -/
def readDesc (bs : List Byte) : Option Desc :=
  let f := field bs
  let attr := f 36 1
  let d : Desc :=
    { entry := f 0 8, text := f 8 8, sptab := f 16 8, spcount := f 24 4, width := 16 * 2 ^ f 28 1, regs := f 29 1,
      groups := f 30 1, accmask := f 31 1, scratch := f 32 4, cluster := attr.testBit 0, pair := attr.testBit 1,
      fused := attr.testBit 2, prot := attr.testBit 3, ckpt := attr.testBit 4, gridbar := attr.testBit 5,
      cpb := f 37 1, cls := f 38 1, consts := f 40 8 }
  let fields := d.entry % 8 == 0 && d.sptab % 64 == 0 && decide (d.spcount ≤ 65536) && ((d.spcount == 0) == (d.sptab == 0)) &&
    decide (f 28 1 ≤ 2) && decide (1 ≤ d.regs) && decide (1 ≤ d.groups) && decide (d.groups ≤ 32) &&
    decide (d.accmask < 64) && d.scratch % 128 == 0 && decide (d.scratch ≤ Config.scratchMax) && decide (attr < 64) &&
    (if d.cluster then decide (1 ≤ d.cpb) && decide (d.cpb ≤ 4) else d.cpb == 0) && decide (d.cls ≤ 3) &&
    zeros bs 39 1 && zeros bs 48 16
  let attrs := (!d.pair || d.cluster) && (!d.fused || (d.cluster && d.cpb == 4)) && (!d.prot || decide (32 ≤ d.width))
  if fields && attrs then some d else none

/-- The lanes a group shows (R113). -/
def Desc.visible (d : Desc) : Nat := if d.prot then d.width / 2 else d.width

/-- The bytes of a block's image (R71, R113). -/
def Desc.image (d : Desc) : Nat :=
  let twice := if d.ckpt then 2 else 1
  d.groups * (2048 + twice * (128 * ceilDiv (d.regs * d.width * 4) 128)) + twice * (128 * ceilDiv d.scratch 128) +
  262144 * ((List.range 6).filter (fun i => d.accmask.testBit i)).length + 4096

def Desc.slots (d : Desc) : List Nat := (List.range 6).filter (fun i => d.accmask.testBit i)

/-- Blocks placed together: a cluster set, both sets of a pair, or one block (R115). -/
def Desc.unit (d : Desc) : Nat := if d.pair then 2 * d.cpb else if d.cluster then d.cpb else 1

/-- The cores of a unit placed at a core, cluster or cluster pair (R115). -/
def Desc.cores (d : Desc) (at_ : Nat) : List Nat :=
  if d.pair then (List.range d.cpb).map (· + 8 * at_) ++ (List.range d.cpb).map (· + 8 * at_ + 4)
  else if d.cluster then (List.range d.cpb).map (· + 4 * at_) else [at_]

/-! ## Capacity (R116, R117) -/

/-- A core that takes blocks: its die works and its self-test holds (R338, R391). -/
def State.coreUp (s : State) (core : Nat) : Bool :=
  decide (core < Config.numCores) && !s.mgmt.deadDies.contains (dieOf core) && !s.mgmt.badCores.contains core

/-- Group positions a block takes in an issue slot. -/
def slotGroups (groups slot : Nat) : Nat := ((List.range groups).filter (fun g => g % 4 == slot)).length

/-- The descriptors of the blocks resident on a core. -/
def State.residents (s : State) (core : Nat) : List Desc :=
  (s.blocks.filter (fun p => !p.2.saved && p.2.core == core)).filterMap (fun p => (s.grids.find p.2.grid).map (·.desc))

/-- Where a run of scratch line numbers of a core is free: at 0, or behind another block's run (R216). -/
def State.scratchRuns (s : State) (core lines : Nat) : List Nat :=
  let runs := (s.blocks.filter (fun p => !p.2.saved && p.2.core == core)).filterMap (fun p =>
    (s.grids.find p.2.grid).bind (fun g => if g.desc.scratch = 0 then none else some (p.2.line0, g.desc.scratch / 128)))
  (0 :: runs.map (fun r => r.1 + r.2)).filter (fun a => decide (a + lines ≤ Config.scratchMax / 128) &&
    runs.all (fun r => decide (a + lines ≤ r.1) || decide (r.1 + r.2 ≤ a)))

/-- The run that a new block takes: any that is free. -/
def State.line0For (s : State) (core : Nat) (d : Desc) : Nat :=
  let rs := s.scratchRuns core (d.scratch / 128)
  rs.getD (Config.order (8 * s.free + 5) % Nat.max 1 rs.length) 0

/-- A core has room for one more block (R116). -/
def State.roomOn (s : State) (core : Nat) (d : Desc) : Bool :=
  let rs := s.residents core
  s.coreUp core && decide (rs.length < 32) &&
  (List.range 4).all (fun k => decide (sumNat (rs.map (fun r => slotGroups r.groups k)) + slotGroups d.groups k ≤ 32)) &&
  decide (sumNat (rs.map (·.scratch)) + d.scratch ≤ Config.scratchMax) &&
  (d.scratch == 0 || !(s.scratchRuns core (d.scratch / 128)).isEmpty) &&
  decide (sumNat (rs.map (fun r => r.slots.length)) + d.slots.length ≤ 6)

/-- Pool bytes taken by the images of a context's blocks. -/
def State.poolUsed (s : State) (ctx : Nat) : Nat :=
  sumNat (s.blocks.filterMap (fun p => match s.grids.find p.2.grid with
    | some g => if g.ctx == ctx then some g.desc.image else none
    | none => none))

/-- Operand-buffer units a group's records hold (R269, R271); none once it has exited or is parked. -/
def Group.units (g : Group) : Nat :=
  if g.state == .exited || g.state == .saved then 0 else sumNat (g.mf.map (fun p => p.2.units))

/-- Free operand-buffer units of a cluster (R266). -/
def State.freeUnits (s : State) (cl : Nat) : Nat :=
  256 - sumNat ((s.groups.filter (fun p => clusterOf p.2.core == cl)).map (fun p => p.2.units))

/-- The cores of a unit's place all have room; a fused set needs its cluster to itself, and no block joins one (R113). -/
def State.unitRoom (s : State) (d : Desc) (at_ : Nat) : Bool :=
  let cs := d.cores at_
  cs.all (fun c => s.roomOn c d) &&
  (if d.fused then cs.all (fun c => (s.residents c).isEmpty)
    else cs.all (fun c => (List.range 4).all (fun i => (s.residents (c / 4 * 4 + i)).all (fun r => !r.fused))))

/-- Blocks that one otherwise empty core can hold of a kernel (R117). -/
def Desc.perCore (d : Desc) : Nat :=
  let g := 32 / Nat.max 1 (slotGroups d.groups 0)
  let sc := if d.scratch = 0 then 32 else Config.scratchMax / d.scratch
  let ac := if d.slots.isEmpty then 32 else 6 / d.slots.length
  if d.fused then Nat.min 1 (Nat.min sc ac) else Nat.min (Nat.min 32 g) (Nat.min sc ac)

/-- Blocks of a kernel that an otherwise empty Rohild can hold (R117). -/
def State.capacity (s : State) (d : Desc) : Nat :=
  let places := if d.pair then 80 else if d.cluster then 160 else Config.numCores
  ((List.range places).filter (fun a => (d.cores a).all s.coreUp)).length * d.unit * d.perCore

/-! ## Acceptance (R114) -/

/-- The feature bits a descriptor needs (R385). -/
def State.attrsAccepted (s : State) (ld : Nat) (d : Desc) : Bool :=
  (!d.fused || s.feature ld 4) && (!d.prot || s.feature ld 5) && (!d.ckpt || s.feature ld 6) && (!d.pair || s.feature ld 7)

/-- A launch of a valid descriptor is accepted (R114, R117, R385). -/
def State.accepts (s : State) (ld ctx : Nat) (d : Desc) (x y z : Nat) : Bool :=
  let pool := ((s.ctxs.find ctx).map (·.poolSize)).getD 0
  s.attrsAccepted ld d &&
  (!d.cluster || x % Nat.max 1 d.unit == 0) &&
  decide (d.image ≤ pool) &&
  (!d.gridbar || (decide (x * y * z ≤ s.capacity d) && decide (x * y * z ≤ pool / d.image)))

/-- A new grid, SUBMITTED (R118). -/
def newGrid (ld ctx : Nat) (q : Option (Nat × Nat)) (d : Desc) (x y z : Nat) (arg : DWord) (parent : Option Nat)
    (depth : Nat) (consts : List Nat) : Grid :=
  { ctx := ctx, ld := ld, queue := q, desc := d, x := x, y := y, z := z, arg := arg, st := .submitted, parent := parent,
    depth := depth, children := 0, consts := consts, next := 0, clsBars := [], grdBar := none, initV := [], contLines := [],
    ccache := [] }

/-! ## Groups (R124, R125, R159) -/

/-- Groups of a slot in a state. -/
def State.inSlot (s : State) (core slot : Nat) (st : GState) : Nat :=
  (s.groups.filter (fun p => p.2.core == core && p.2.idx % 4 == slot && p.2.state == st)).length

/-- The state in which a group enters its slot's sets: a pending position when one is free (R125). -/
def State.entryState (s : State) (core slot : Nat) : GState := if s.inSlot core slot .pending < 24 then .pending else .active

/-- The lowest free resident position of a slot (R125): every group of a block on the core holds one, a parked group of a block
that is not yet saved too. -/
def State.freePos (s : State) (core slot : Nat) : Nat :=
  let used := (s.groups.filter (fun p => p.2.core == core && p.2.idx % 4 == slot &&
    ((s.blkOf p.2).map (·.saved)) == some false)).map (·.2.pos)
  ((List.range 32).find? (fun q => !used.contains q)).getD 31

/-- A group's age: earlier entries are older, and at one clock the lower `sr.groupid` (R127). -/
def ageAt (clk idx : Nat) : Nat := clk * 32 + idx

/-- A group as placement creates it (R159): lanes of a continuation group beyond its records have exited (R111); its other
groups run every lane, with zero registers (log entry 49). It starts at the low 56 bits of its entry (log entry 50). -/
def freshGroup (gr : Grid) (gid blk idx core pos clk : Nat) (st : GState) : Group :=
  let d := gr.desc
  let lanes := if gr.contLines.isEmpty || idx != 0 then d.visible else gr.contLines.length
  { grid := gid, blk := blk, idx := idx, core := core, pos := pos, age := ageAt clk idx, width := d.visible, state := st,
    lanes := (List.range d.visible).map (fun l => ⟨BitVec.ofNat 56 d.entry, if l < lanes then .running else .exited, .none, .none,
      none, none, none, [], 0, seedLane 0 l, 0, false⟩),
    v := if idx = 0 then gr.initV else [], shadow := [],
    s := SMap.put (SMap.put [] 1 (gr.arg >>> 32 |>.setWidth 32) 0) 0 (gr.arg.setWidth 32) 0,
    p := [], j := [], mf := [], fpMode := 0, fpFlags := 0, fpSeed := 0, spCount := 0, spLast := none, flagged := false,
    words := 0, issued := ⟨0, 0, 0, 0, 0, 0⟩, ops := [], errs := [], fetched := [], missing := [], withdrawn := [], lineUse := [], peal := 0,
    traps := [], readyClk := clk, idleClk := clk }

/-- Place the groups of a block, in order. -/
def State.addGroups (s : State) (gid blk core : Nat) (gr : Grid) : List Nat → State
  | [] => s
  | i :: r =>
    let g := freshGroup gr gid blk i core (s.freePos core (i % 4)) s.clk (s.entryState core (i % 4))
    State.addGroups { s.updBlk blk (fun b => { b with groups := b.groups ++ [s.nextId] }) with
      nextId := s.nextId + 1
      groups := s.groups.set s.nextId g } gid blk core gr r

/-! ## The register cache (R161) -/

/-- The vector lines of a group. -/
def Desc.vlines (d : Desc) : Nat := if d.width = 16 then (d.regs + 1) / 2 else if d.width = 32 then d.regs else 2 * d.regs

/-- Every line of a group: its vector lines and its control record. -/
def Desc.lineIds (d : Desc) : List Nat := List.range d.vlines ++ (List.range 16).map ctlLine

/-- The groups whose lines a slot's register cache may hold. -/
def State.cached (s : State) (core slot : Nat) : List (Nat × Group) :=
  s.groups.filter (fun p => p.2.core == core && p.2.idx % 4 == slot && !(p.2.state == .saved) && !(p.2.state == .exited))

/-- The lines that words waiting to issue need, none of which is evicted. -/
def Group.pinnedLines (g : Group) (width : Nat) : List Nat :=
  g.leaders.flatMap (fun l => match SMap.find g.fetched (g.lane l).pc.toNat with
    | some w => match decodeWord w.toNat with
      | .ok i => needLines i width
      | .error _ => []
    | none => [])

/-- The lines of a group that may be evicted, clean or dirty, with their last use. -/
def State.evictable (s : State) (dirty : Bool) (p : Nat × Group) : List (Nat × Nat × Nat) :=
  let d := s.descOf p.2
  let pins := p.2.pinnedLines d.width
  (d.lineIds.filter (fun n => !p.2.missing.contains n && !pins.contains n)).filterMap (fun n =>
    let u := SMap.getD p.2.lineUse n (0, false)
    if u.2 == dirty then some (p.1, n, u.1) else none)

/-- The victim of a slot's register cache: clean lines of PARKED, then pending, then active groups, then dirty ones in that order,
and in each class the least recently used. -/
def State.victim (s : State) (core slot : Nat) : Option (Nat × Nat) :=
  let gs := s.cached core slot
  [(false, GState.parked), (false, .pending), (false, .active), (true, .parked), (true, .pending), (true, .active)].findSome? (fun c =>
    (leastBy (fun x => x.2.2) ((gs.filter (fun p => p.2.state == c.2)).flatMap (s.evictable c.1))).map (fun x => (x.1, x.2.1)))

/-- Evict victims until a number of them is gone; with none left to evict, as every line is one that a waiting word has used, the cache
holds more lines than its 2,048 (log entry 43). -/
def State.evictLines (core slot : Nat) : Nat → State → State
  | 0, s => s
  | n + 1, s => match s.victim core slot with
    | none => s
    | some v => State.evictLines core slot n (s.updGrp v.1 (fun g => { g with
        missing := insertNat g.missing v.2, lineUse := SMap.del g.lineUse v.2 }))

/-- A slot's register cache holds at most 2,048 lines. -/
def State.trimSlot (s : State) (core slot : Nat) : State :=
  s.evictLines core slot (sumNat ((s.cached core slot).map (fun p => (s.descOf p.2).vlines + 16 - p.2.missing.length)) - 2048)

def State.trimCore (s : State) (core : Nat) : State := (List.range 4).foldl (fun t k => t.trimSlot core k) s

/-- The first shadow of a checkpointed block is its state at placement. -/
def State.firstShadow (s : State) (blk : Nat) : State :=
  s.updBlk blk (fun x => { x with
    shadow := some ⟨x.groups.filterMap (fun g => (s.grp g).map (fun y => (g, y))), x.scratch, x.sfe, x.bars⟩ })

/-- Place block b of a grid on a core for the first time (R115, R116, R217, R267). -/
def State.placeBlock (s : State) (gid : Nat) (gr : Grid) (b core : Nat) : State :=
  let id := s.nextId
  let blk : Block :=
    { grid := gid, b := b, core := core, saved := false, groups := [], line0 := s.line0For core gr.desc, scratch := [], sfe := [], bars := [],
      slots := gr.desc.slots.map (fun n => (n, ⟨.idle, [], 0, none, []⟩)), shadow := none, held := [], heldFe := [],
      slotWritten := false, rollbacks := 0, halt := false, rolling := false, liveSlots := [] }
  let s1 := (({ s with nextId := id + 1, blocks := s.blocks.set id blk }).addGroups gid id core gr (List.range gr.desc.groups)).trimCore core
  if gr.desc.ckpt then s1.firstShadow id else s1

/-- A grid's total of blocks. -/
def Grid.total (g : Grid) : Nat := g.x * g.y * g.z

/-- Place one unit of a grid, at its next block numbers, when it has room. -/
def State.placeUnit (s : State) (gid at_ : Nat) : Option State :=
  match s.grids.find gid with
  | none => none
  | some gr =>
    let d := gr.desc
    let pool := ((s.ctxs.find gr.ctx).map (·.poolSize)).getD 0
    if decide (gr.next + d.unit ≤ gr.total) && s.unitRoom d at_ && decide (s.poolUsed gr.ctx + d.unit * d.image ≤ pool) then
      let t := ((d.cores at_).zip (List.range d.unit)).foldl (fun t c => t.placeBlock gid gr (gr.next + c.2) c.1) s
      some (t.updGrid gid (fun g => { g with next := g.next + d.unit, st := if g.next + d.unit = g.total then .running else .dispatching }))
    else none

/-- Place units in order; all have room or none is placed. -/
def State.placeUnits (s : State) (gid : Nat) : List Nat → Option State
  | [] => some s
  | a :: r => (s.placeUnit gid a).bind (fun t => t.placeUnits gid r)

/-- The grid's packet has been taken from its queue; a child waits there until then (R119, R120). -/
def State.gridTaken (s : State) (g : Grid) : Bool :=
  match g.queue with
  | none => true
  | some (q, n) => match (s.ld g.ld).queues.find q with
    | some x => decide (n < x.head)
    | none => false

/-- A context in which blocks may be placed (R82): no block is dispatched while a safe-tier copy runs (R389). -/
def State.mayDispatch (s : State) (ctx : Nat) : Bool :=
  s.mgmt.copy.isNone && (match s.ctxs.find ctx with
    | some c => c.st == .ready || c.st == .running
    | none => false)

/-- Place the next unit of a grid, or every unit of a grid-barrier grid together (R115 to R118). -/
def execBlockPlace (gid : Nat) (at_ : List Nat) (s : State) : Out :=
  match s.grids.find gid with
  | none => notNow "BLOCK_PLACE"
  | some gr =>
    let want := if gr.desc.gridbar then gr.total / Nat.max 1 gr.desc.unit else 1
    match s.placeUnits gid at_ with
    | none => notNow "BLOCK_PLACE"
    | some t => event "BLOCK_PLACE" ((gr.st == .submitted || gr.st == .dispatching) && s.gridTaken gr && s.mayDispatch gr.ctx &&
        decide (at_.length = want)) (t.updCtx gr.ctx (fun c => { c with st := .running }))

/-- A DRAINED grid completes, or waits for its children; a complete child no longer counts for its parent (R118, R120). A
continuation grid ends there. -/
def execGridComplete (gid : Nat) (s : State) : Out :=
  match s.grids.find gid with
  | none => notNow "GRID_COMPLETE"
  | some gr =>
    let fin := s.updGrid gid (fun g => { g with st := .complete })
    let up := match gr.parent with
      | some p => fin.updGrid p (fun g => { g with children := g.children - 1 })
      | none => if gr.queue.isNone then { fin with grids := fin.grids.del gid } else fin
    if gr.children = 0 then event "GRID_COMPLETE" (gr.st == .drained || gr.st == .awaiting) up
    else event "GRID_COMPLETE" (gr.st == .drained) (s.updGrid gid (fun g => { g with st := .awaiting }))

/-! ## Coming back after pre-emption (R73, R86, R87) -/

/-- The PC at which a lane stopped; at a safe point it already stands at the word after. -/
def Lane.stoppedAt (x : Lane) : BitVec 56 :=
  match x.st with
  | .stopped (.safePoint ..) => x.pc - 8
  | _ => x.pc

/-- How a stopped lane goes on in a group that has parked (R87): at the stub, or where it stands, executing its waiting word
again; only the wait of a `BSYNC` that has arrived is kept. -/
def Lane.wakeParked (x : Lane) (text : Nat) : Lane :=
  match x.st with
  | .stopped k => { x with
      st := .running
      pc := match k with
        | .safePoint _ (some o) => BitVec.ofNat 56 (text + o)
        | _ => x.pc
      stop := some x.stoppedAt
      hold := match x.kept with
        | .sync b p => .sync b p
        | _ => .none
      kept := match x.kept with
        | .ready => .ready
        | _ => .none }
  | _ => x

/-- How a stopped lane goes on in a group that has not parked (R86): it goes on waiting, or continues after its `SAFEPT`. -/
def Lane.wakeInPlace (x : Lane) : Lane :=
  match x.st with
  | .stopped _ => { x with st := .running, hold := x.kept, kept := .none }
  | _ => x

/-- A group that had parked goes on (R87): flag cleared, stopped lanes running, a new safe-point distance (R81), its lines to be
fetched again. Words that had trapped and waited for their handler are executed again, with the errors they raised (R325). -/
def Group.wakeParked (g : Group) (d : Desc) : Group :=
  { g with
    flagged := false
    lanes := g.lanes.map (fun x => x.wakeParked d.text)
    spCount := 0
    errs := sortBy (·.seq) (g.traps.filterMap (·.err) ++ g.errs)
    traps := []
    missing := d.lineIds
    lineUse := [] }

/-- A flagged group that has not parked goes on (R86). -/
def Group.wakeInPlace (g : Group) : Group := { g with flagged := false, lanes := g.lanes.map Lane.wakeInPlace }

/-- A cluster's engine before it is first used: an empty table, a full account (R277). The refill rate is firmware's, 16
(log entry 2). -/
def emptyCluster : Cluster := ⟨[], 4096, 16, 0⟩

def State.cluster (s : State) (cl : Nat) : Cluster := SMap.getD s.clusters cl { emptyCluster with refills := s.clk / 256 }
def State.setCluster (s : State) (cl : Nat) (c : Cluster) : State := { s with clusters := SMap.set s.clusters cl c }

/-- Entries that take room in a cluster's table: a stalled pass has left it (R276). -/
def Cluster.taken (c : Cluster) : Nat := (c.table.filter (fun e => match e.st with | .stalled _ => false | _ => true)).length

/-- The table has room for an entry (R266). -/
def Cluster.room (c : Cluster) : Bool := decide (c.taken < 32)

/-- The account after n refills, up to its cap of 4,096 (R277). -/
def Cluster.credit (c : Cluster) (n : Nat) : Int :=
  if c.account + ((n * c.refill : Nat) : Int) < 4096 then c.account + ((n * c.refill : Nat) : Int) else 4096

/-- A cluster with every refill that is due by a clock (R277). -/
def Cluster.refilled (c : Cluster) (clk : Nat) : Cluster :=
  if c.refills < clk / 256 then { c with account := c.credit (clk / 256 - c.refills), refills := clk / 256 } else c

/-- A grant takes the units of a pass (R277). -/
def Cluster.charge (c : Cluster) (clk units : Nat) : Cluster :=
  { c.refilled clk with account := (c.refilled clk).account - (units : Int) }

/-- Post withdrawn matrix requests again in their order, with new ages (R87), as many as the table has room for (R266); one withdrawn
for a twin's trap waits for the twin (R88). -/
def State.repost (s : State) (gid : Nat) : State :=
  match s.grp gid with
  | none => s
  | some g =>
    let cl := clusterOf g.core
    let c := s.cluster cl
    let es := ((g.withdrawn.filter (fun e => !(e.st == .withdrawn))).take (32 - c.taken)).map (fun e =>
      { e with core := g.core, age := s.clk, missed := 0 })
    (s.setCluster cl { c with table := c.table ++ es }).setGrp gid
      { g with withdrawn := g.withdrawn.filter (fun e => !es.any (fun x => x.eid == e.eid)) }

/-- A parked group enters its slot's sets again (R87, R125): PARKED still when only lanes in service remain. -/
def State.wakeParked (s : State) (gid : Nat) : State :=
  match s.grp gid with
  | none => s
  | some g =>
    let slot := g.idx % 4
    let d := s.descOf g
    let g1 := { g.wakeParked d with
      state := s.entryState g.core slot, age := ageAt s.clk g.idx, readyClk := s.clk, idleClk := s.clk }
    (s.setGrp gid g1.parkCheck).repost gid

/-- The saved blocks that return with a block: its cluster set, or the sets of its pair (R85, R87). -/
def State.unitOf (s : State) (b : Nat) : List Nat :=
  match s.blocks.find b with
  | none => []
  | some x =>
    let u := ((s.grids.find x.grid).map (·.desc.unit)).getD 1
    (s.blocks.filter (fun p => p.2.grid == x.grid && p.2.b / Nat.max 1 u == x.b / Nat.max 1 u)).map (·.1)

/-- Operand-buffer units that a block's groups take again (R271). -/
def State.blockUnits (s : State) (b : Nat) : Nat :=
  match s.blocks.find b with
  | none => 0
  | some x => sumNat (x.groups.map (fun k => match s.grp k with
    | some g => if g.state == .saved then sumNat (g.mf.map (fun p => p.2.units)) else 0
    | none => 0))

/-- Put a saved block back on a core. -/
def State.returnBlock (s : State) (b core : Nat) : State :=
  match s.blocks.find b with
  | none => s
  | some x =>
    let line0 := match s.grids.find x.grid with
      | some g => s.line0For core g.desc
      | none => 0
    let s1 := s.updBlk b (fun y => { y with saved := false, core := core, liveSlots := [], line0 := line0 })
    let s2 := x.groups.foldl (fun t k => t.updGrp k (fun g => { g with core := core, pos := 32 })) s1
    (x.groups.foldl (fun t k => match t.grp k with
      | some g =>
        let u := t.setGrp k { g with pos := t.freePos core (g.idx % 4) }
        if g.state == .exited then u else u.wakeParked k
      | none => t) s2).trimCore core

/-- Return one unit to a place, when there is room (R87, R116, R271). -/
def State.returnUnit (s : State) (bs : List Nat) (at_ : Nat) : Option State :=
  match bs with
  | [] => some s
  | b0 :: _ =>
    match (s.blocks.find b0).bind (fun x => s.grids.find x.grid) with
    | none => none
    | some gr =>
      let d := gr.desc
      let cs := d.cores at_
      let num := fun b => ((s.blocks.find b).map (·.b)).getD 0 % Nat.max 1 d.unit
      let coreFor := fun b => cs.getD (num b) 0
      let cls := (cs.map clusterOf).eraseDups
      let fits := cls.all (fun cl => decide (sumNat ((bs.filter (fun b => clusterOf (coreFor b) == cl)).map s.blockUnits) ≤ s.freeUnits cl))
      if s.unitRoom d at_ && fits then some (bs.foldl (fun t b => t.returnBlock b (coreFor b)) s) else none

/-- Return units in order. -/
def State.returnUnits (s : State) : List (List Nat × Nat) → Option State
  | [] => some s
  | p :: r => (s.returnUnit p.1 p.2).bind (fun t => t.returnUnits r)

/-- The next units to return: those of the first saved block, or of every saved block of a grid-barrier grid. -/
def State.nextReturn (s : State) (c : Ctx) : List (List Nat) :=
  match c.order.filter (fun k => ((s.blocks.find k).map (·.saved)).getD false) with
  | [] => []
  | b :: _ =>
    match (s.blocks.find b).bind (fun x => (s.grids.find x.grid).map (fun g => (x.grid, g))) with
    | none => []
    | some (gid, g) =>
      if g.desc.gridbar then
        ((c.order.filter (fun k => ((s.blocks.find k).map (·.grid)) == some gid)).map s.unitOf).eraseDups
      else [s.unitOf b]

/-- A saved block is placed again (R87); a context that was READY meanwhile is RUNNING again (R70). -/
def execResumeBlockPlace (ctx : Nat) (at_ : List Nat) (s : State) : Out :=
  match s.ctxs.find ctx with
  | none => notNow "RESUME_BLOCK_PLACE"
  | some c =>
    let us := (s.nextReturn c).map (fun u => u.filter (fun b => ((s.blocks.find b).map (·.saved)).getD false))
    match s.returnUnits (us.zip at_) with
    | none => notNow "RESUME_BLOCK_PLACE"
    | some t => event "RESUME_BLOCK_PLACE" ((c.st == .running || c.st == .ready) && s.mgmt.copy.isNone && !us.isEmpty && decide (us.length = at_.length))
        (t.updCtx ctx (fun x => { x with st := .running, order := x.order.filter (fun b => !us.any (·.contains b)) }))

end Sys2Proof.Machine
end

