-- ==== Sys2Proof/Machine/Transfer.lean ====
section
/-! DEFINITION. The copy engine (R293 to R304): `TCPY`, `GATH`, `SCAT`, `FILL`, and the events of a transfer's life. -/

namespace Sys2Proof.Machine

/-! ## The words -/

/-- The issue of a transfer word (R299): alignment, the release of R260 for every lane of the group, then the hand-over to the die's
engine. -/
def transferBody (s : State) (c : Issue) (g : Group) (kind : TKind) (a : BitVec 6) : WOut :=
  let sa := (g.rs64 a.toNat).toNat
  if sa % 64 != 0 then .trap { cause := 3, addr := sa }
  else
    gateBody s c g true 0 .pkg (fun s =>
      let op := s.nextId
      let t : Transfer := ⟨dieOf g.core, kind, s.ctxNum g, c.grp, op, g.blk, c.pc.toNat, sa, .queued, ⟨0, []⟩, ⟨0, []⟩, 0, 0, 0,
        [], 0, 0, .zero, 0, 0, none⟩
      .done ({ s.updGrp c.grp (fun x => x.pushOp op .cp c (.transfer op) noOrder [] false) with
        nextId := s.nextId + 1
        transfers := s.transfers.set op t }.remember op c.grp))

def execTcpy (g : Guard) (a : BitVec 6) (s : State) : Out :=
  onceWord s (.tcpy g a) g (fun s1 c gr _ => transferBody s1 c gr .tcpy a)
def execGath (g : Guard) (a : BitVec 6) (s : State) : Out :=
  onceWord s (.gath g a) g (fun s1 c gr _ => transferBody s1 c gr .gath a)
def execScat (g : Guard) (a : BitVec 6) (s : State) : Out :=
  onceWord s (.scat g a) g (fun s1 c gr _ => transferBody s1 c gr .scat a)
def execFill (g : Guard) (a : BitVec 6) (s : State) : Out :=
  onceWord s (.fill g a) g (fun s1 c gr _ => transferBody s1 c gr .fill a)

/-! ## The end of a transfer -/

/-- A queue's started packet has done its work (R103). -/
def State.packetDone (s : State) (ld q n : Nat) : State :=
  s.updLd ld (fun d => { d with queues := d.queues.upd q (fun x => { x with
    started := x.started.map (fun p => if p.n == n then { p with done := true } else p) }) })

/-- A transfer writes no more (R300): it leaves its lines, and ends once its writes are visible. -/
def State.finishTransfer (s : State) (k : Nat) (t : Transfer) (fail : Option (Nat × Nat)) : State :=
  { (s.unclaim k).forget k with transfers := s.transfers.set k { t with st := .finished fail, claimed := none } }

/-- A transfer ends (R300, R301): its group's counter retires it, or its packet has done its work. The first element of
the chunk that failed is reported. A copy that stops because its context FAULTED leaves its queue in the error that it already has (R97,
log entry 46). -/
def State.endTransfer (s : State) (k : Nat) (t : Transfer) (fail : Option (Nat × Nat)) : State :=
  let s1 := { (s.unclaim k).forget k with transfers := s.transfers.del k }
  match t.kind with
  | .packet ld q n =>
    let s2 := s1.packetDone ld q n
    if fail.isSome && !((s.ctxs.find t.ctx).map (·.dead)).getD true then s2.queueError ld q 6 else s2
  | _ => s1.endOp t.grp t.op (fail.map (fun f => (0x19, f.1, t.pc, f.2)))

/-! ## Checking (R293, R294, R300) -/

/-- How checking ends; `later` and `held` are lines it has to wait for. -/
inductive Checked where
  | ready (t : Transfer)
  | wait (fid : Nat)
  | bad (reason : Nat)
  | later
  | held (blks : List Nat)
deriving DecidableEq, Repr

/-- Go on with a record that has been read; one with poison ends the transfer with the reason given. -/
def EngRead.andThen (r : EngRead) (poison : Nat) (s : State) (k : List Byte → Checked × State) : Checked × State :=
  match r with
  | .ok bs => k bs
  | .later => (.later, s)
  | .held b => (.held b, s)
  | .poison => (.bad poison, s)
  | .space => (.bad 3, s)

/-- Go on with pages that are there; one that can never be used ends the transfer with the reason given. -/
def Pages.andThen (p : Pages × State) (bad : Nat) (k : SMap Phys → State → Checked × State) : Checked × State :=
  match p.1 with
  | .wait f => (.wait f, p.2)
  | .bad _ => (.bad bad, p.2)
  | .ok m => k m p.2

/-- The element formats the engine moves (R294): element bytes, or 0. -/
def moveBytes (fmt : Nat) : Nat :=
  if fmt = 5 || fmt = 6 || fmt = 0x10 || fmt = 0x11 then 0 else fmtBits fmt / 8

/-- The fields of a descriptor that stand alone are in order (R293). -/
def descOk (kind : TKind) (d : List Byte) : Bool :=
  let idx := match kind with
    | .gath | .scat => true
    | _ => false
  let itype := field d 44 1
  field d 45 1 / 4 == 0 && zeros d 46 2 && field d 0 8 % 128 == 0 && field d 16 8 % 128 == 0 && field d 48 8 % 16 == 0 &&
  (if idx then decide (1 ≤ field d 40 4) && decide (itype ≤ 1) && field d 32 8 % (4 * (itype + 1)) == 0
    else field d 40 4 == 0 && itype == 0) &&
  (match kind with
    | .tcpy => field d 32 8 == 0
    | .fill => field d 0 8 == 0 && field d 8 8 == 0
    | _ => true)

/-- The shapes agree (R294, R296). -/
def shapesOk (kind : TKind) (d : List Byte) (src dst : Shape) : Bool :=
  let w := moveBytes dst.fmt
  let fill := kind == .fill
  decide (0 < w) && dst.aligned (field d 24 8) w && decide (dst.count * w ≤ 2 ^ 40) &&
  (fill || (src.fmt == dst.fmt && src.aligned (field d 8 8) w)) &&
  (match kind with
    | .gath => dst.count == field d 40 4 * src.slice
    | .scat => src.count == field d 40 4 * dst.slice
    | .fill => true
    | _ => src.count == dst.count)

/-- Check the signal granule of a transfer whose other fields are in order. -/
def State.checkSignal (s : State) (ld size : Nat) (t : Transfer) : Checked × State :=
  if t.sig = 0 then (.ready t, s)
  else if t.flags / 2 = 1 then (if t.sig + 16 ≤ size then .ready { t with sigPhys := .scratch t.sig } else .bad 5, s)
  else Pages.andThen (s.engPages ld t.ctx (opKey t.op) true (pagesFrom t.sig 16)) 2 (fun m u =>
    (match pageAt m t.sig with
      | .dev pa => .ready { t with sigPhys := .dev pa }
      | _ => .bad 3, u))

/-- Check the index list of a transfer whose shapes and parts are in order. -/
def State.checkIndices (s : State) (ld size : Nat) (t : Transfer) (n iw : Nat) : Checked × State :=
  let list := t.aux
  Pages.andThen (s.engPages ld t.ctx (opKey t.op) false (if n = 0 then [] else pagesFrom list (n * iw))) 2 (fun m z =>
    (if n = 0 then EngRead.ok [] else z.engRead t.op t.blk m list (n * iw)).andThen 2 z (fun bs =>
      let idx := (List.range n).map (fun k => field bs (k * iw) iw)
      let bound := match t.kind with
        | .gath => t.src.outer
        | _ => t.dst.outer
      if idx.any (fun i => decide (bound ≤ i)) then (.bad 4, z)
      else z.checkSignal ld size { t with idx := idx }))

/-- Check a transfer, reading as by `LD` (R300): its descriptor, shapes, scratch parts, indices and signal granule. -/
def State.checkTransfer (s : State) (t : Transfer) : Checked × State :=
  let ld := ((s.ctxs.find t.ctx).map (·.ld)).getD 0
  let size := ((s.grids.find (((s.blocks.find t.blk).map (·.grid)).getD 0)).map (·.desc.scratch)).getD 0
  let fill := t.kind == .fill
  Pages.andThen (s.engPages ld t.ctx (opKey t.op) false (pagesFrom t.desc 64)) 1 (fun m x =>
    (x.engRead t.op t.blk m t.desc 64).andThen 1 x (fun d =>
      if !descOk t.kind d then (.bad 1, x)
      else
        let ps := (if fill then [] else pagesFrom (field d 0 8) 128) ++ pagesFrom (field d 16 8) 128
        Pages.andThen (x.engPages ld t.ctx (opKey t.op) false ps) 1 (fun m2 y =>
          (if fill then EngRead.ok [] else y.engRead t.op t.blk m2 (field d 0 8) 128).andThen 1 y (fun sb =>
            (y.engRead t.op t.blk m2 (field d 16 8) 128).andThen 1 y (fun db =>
              match (if fill then some ⟨0, []⟩ else readShape sb), readShape db with
              | some src, some dst =>
                let w := moveBytes dst.fmt
                let flags := field d 45 1
                let scrOk := (flags % 2 == 0 || fill || src.within (field d 8 8) w size) &&
                  (flags / 2 == 0 || dst.within (field d 24 8) w size)
                if !shapesOk t.kind d src dst then (.bad 1, y)
                else if !scrOk then (.bad 5, y)
                else y.checkIndices ld size { t with
                  st := .moving, src := src, dst := dst, srcBase := field d 8 8, dstBase := field d 24 8, aux := field d 32 8,
                  flags := flags, sig := field d 48 8, sigv := BitVec.ofNat 64 (field d 56 8) } (field d 40 4) (4 * (field d 44 1 + 1))
              | _, _ => (.bad 1, y))))))

/-- Transfers of a die that are moving or waiting (R302). -/
def State.inEngine (s : State) (die : Nat) : Nat :=
  (s.transfers.filter (fun p => p.2.die == die && (match p.2.st with | .moving | .reading | .waiting _ => true | _ => false))).length

/-- A copy packet has no descriptor to check (R303). -/
def TKind.isPacket : TKind → Bool
  | .packet .. => true
  | _ => false

/-- The context of a transfer has FAULTED: its transfers stop at a chunk boundary (R302). -/
def State.ctxDead (s : State) (ctx : Nat) : Bool :=
  match s.ctxs.find ctx with
  | some c => c.dead
  | none => true

/-- A transfer is checked: it moves while the engine has room, waits for a page, or ends (R300, R302). -/
def State.check (s : State) (row : String) (k : Nat) (t : Transfer) (c : Bool) : Out :=
  if s.ctxDead t.ctx then event row c (s.finishTransfer k t (some (2, 0)))
  else if t.kind.isPacket then event row (c && decide (s.inEngine t.die < 256)) { s with transfers := s.transfers.set k { t with st := .moving } }
  else
    let r := s.checkTransfer t
    match r.1 with
    | .ready t1 => event row (c && decide (s.inEngine t.die < 256)) { r.2 with transfers := r.2.transfers.set k t1 }
    | .wait f => event row c { r.2 with transfers := r.2.transfers.set k { t with st := .checking f } }
    | .bad n => event row c (r.2.finishTransfer k t (some (n, 0)))
    | .later => notNow row
    | .held bs => if c then recallStep s row bs s.ckptReady (notNow row) else notNow row

/-- The engine of a die takes its oldest queued transfer and checks it (R300, R302). -/
def execTransferTake (k : Nat) (s : State) : Out :=
  match s.transfers.find k with
  | none => notNow "TRANSFER_TAKE"
  | some t => (s.readsNow k).check "TRANSFER_TAKE" k t (t.st == .queued &&
      s.transfers.all (fun p => !(p.2.die == t.die) || !(p.2.st == .queued) || decide (k ≤ p.1)))

/-! ## Moving (R296, R300) -/

/-- Element size of a transfer. -/
def Transfer.w (t : Transfer) : Nat := Nat.max 1 (moveBytes t.dst.fmt)

/-- Elements of a chunk: 65,536 bytes of consecutive destination elements. -/
def Transfer.span (t : Transfer) : Nat := 65536 / t.w

/-- The source element of destination element n; none where nothing is written (`SCAT`), the fill value for `FILL`. -/
def Transfer.source (t : Transfer) (n : Nat) : Option Nat :=
  match t.kind with
  | .gath => some (t.idx.getD (n / Nat.max 1 t.src.slice) 0 * t.src.slice + n % Nat.max 1 t.src.slice)
  | .scat =>
    let z := Nat.max 1 t.dst.slice
    (((List.range t.idx.length).filter (fun k => t.idx.getD k 0 == n / z)).getLast?).map (fun k => k * z + n % z)
  | _ => some n

/-- The elements of the current chunk with their source elements. -/
def Transfer.elems (t : Transfer) : List (Nat × Nat) :=
  ((List.range t.span).map (· + t.chunk * t.span)).filterMap (fun n =>
    if n < t.dst.count then (t.source n).map (fun m => (n, m)) else none)

def Transfer.srcScr (t : Transfer) : Bool := t.flags % 2 == 1
def Transfer.dstScr (t : Transfer) : Bool := t.flags / 2 % 2 == 1

/-- The place of a byte: scratch offset or translated address. -/
def placeOf (scr : Bool) (m : SMap Phys) (va : Nat) : Phys := if scr then .scratch va else pageAt m va

/-- A space the engine may use (R295). -/
def Phys.movable : Phys → Bool
  | .dev _ | .host _ | .scratch _ => true
  | _ => false

/-- Translate the pages of the current chunk: sources and destinations. -/
def State.chunkPages (s : State) (k : Nat) (t : Transfer) : Pages × Pages × State :=
  let ld := ((s.ctxs.find t.ctx).map (·.ld)).getD 0
  let es := t.elems
  let sp := if t.srcScr || t.kind == .fill then [] else pagesOf (es.map (fun e => t.src.addr t.srcBase e.2))
  let dp := if t.dstScr then [] else pagesOf (es.map (fun e => t.dst.addr t.dstBase e.1))
  let x := s.engPages ld t.ctx (opKey k) false sp
  let y := x.2.engPages ld t.ctx (opKey k) true dp
  (x.1, y.1, y.2)

/-- The first destination element of the current chunk. -/
def Transfer.first (t : Transfer) : Nat := t.chunk * t.span

/-- The places of the source bytes of a chunk's element, and of its destination bytes. -/
def Transfer.srcAt (t : Transfer) (m : SMap Phys) (e : Nat × Nat) : List Phys :=
  if t.kind == .fill then [] else (List.range t.w).map (fun i => placeOf t.srcScr m (t.src.addr t.srcBase e.2 + i))

def Transfer.dstAt (t : Transfer) (m : SMap Phys) (e : Nat × Nat) : List Phys :=
  (List.range t.w).map (fun i => placeOf t.dstScr m (t.dst.addr t.dstBase e.1 + i))

/-- What the current chunk writes. Each element is read at a time of its own since the chunk's pages were translated (R304); where the
chunk's destination meets its source, from before or from after the chunk's own writes of earlier elements (R297). -/
def State.chunkCells (s : State) (k : Nat) (t : Transfer) (ms md : SMap Phys) : List (Phys × Byte) :=
  let es := t.elems
  let lines := fun (ps : List Phys) => (ps.map (pieceKey t.blk)).eraseDups
  let mixed := (lines (es.flatMap (t.srcAt ms))).any ((lines (es.flatMap (t.dstAt md))).contains ·)
  let r := (es.zip (List.range es.length)).foldl (fun (acc : List (Phys × Byte) × SMap Byte) x =>
    let time := s.elemTime k (2 * x.2)
    let after := mixed && Config.freeBit (s.free + 2 * x.2 + 1)
    let bytes := if t.kind == .fill then leBytes t.w t.aux
      else (t.srcAt ms x.1).map (fun p =>
        let b := s.engByteAt k t.blk time p
        if after then SMap.getD acc.2 (srcKey t.blk p) b else b)
    let cells := (t.dstAt md x.1).zip bytes
    (cells.reverse ++ acc.1, if mixed then cells.foldl (fun m c => SMap.set m (srcKey t.blk c.1) c.2) acc.2 else acc.2)) ([], [])
  r.1.reverse

/-- The places of the source bytes that a chunk has still to read. -/
def Transfer.srcPlaces (t : Transfer) : List Phys :=
  match t.claimed with
  | some cl => t.elems.flatMap (t.srcAt cl.src)
  | none => []

/-- The lines of places that have a home slice or lie in scratch. -/
def linesOf (blk : Nat) (ps : List Phys) : List Nat := (ps.filterMap (engLine blk)).foldl insertNat []

/-- Translate and check the chunk (R300); its source elements are read from now on, once no other engine owns their lines (R304). A
chunk with a page it can never use asks for no fault service. -/
def State.beginChunk (s : State) (row : String) (k : Nat) (t : Transfer) : Out :=
  if s.ctxDead t.ctx then .next (s.finishTransfer k t (some (2, t.first)))
  else
    let x := s.chunkPages k t
    let fail := State.finishTransfer { x.2.2 with faults := s.faults } k t (some (2, t.first))
    match x.1, x.2.1 with
    | .bad _, _ => .next fail
    | _, .bad _ => .next fail
    | .wait f, _ => .next { x.2.2 with transfers := x.2.2.transfers.set k { t with st := .waiting f } }
    | _, .wait f => .next { x.2.2 with transfers := x.2.2.transfers.set k { t with st := .waiting f } }
    | .ok ms, .ok md =>
      let dst := t.elems.flatMap (t.dstAt md)
      let src := t.elems.flatMap (t.srcAt ms)
      if !((dst ++ src).all Phys.movable) then .next (x.2.2.finishTransfer k t (some (3, t.first)))
      else recallStep s row (s.holders 0 (linesOf t.blk (dst ++ src))) s.ckptReady
        (event row (src.all (s.lineFree k t.blk)) { x.2.2.readsNow k with
          transfers := x.2.2.transfers.set k { t with st := .reading, claimed := some ⟨[], ms, md⟩ } })

/-- Read the sources of a chunk, once their lines are free and clean, then claim its destination lines (R222). -/
def State.readChunk (s : State) (row : String) (k : Nat) (t : Transfer) (cl : Claim) : Out :=
  if s.ctxDead t.ctx then .next (s.finishTransfer k t (some (2, t.first)))
  else
    let dst := t.elems.flatMap (t.dstAt cl.dst)
    let src := t.elems.flatMap (t.srcAt cl.src)
    recallStep s row (s.holders 0 (linesOf t.blk (dst ++ src))) s.ckptReady
      (let ps := piecesOf t.blk (s.chunkCells k t cl.src cl.dst)
       let s1 := s.claim k (claimKeys ps)
       event row (src.all (fun p => s.lineFree k t.blk p && s.engClean p)) { s1 with
         free := s.free + 2 * t.elems.length
         transfers := s1.transfers.set k { t with st := .moving, claimed := some { cl with pieces := ps } } })

/-- One step of a chunk: its pages are translated; its sources are read and its lines claimed; then some of the lines granted are
written and released. With none left the next chunk follows, or the signal; a transfer that is done or has failed ends once every
write of it is visible (R303). -/
def execTransferChunk (k : Nat) (s : State) : Out :=
  let row := "TRANSFER_CHUNK"
  match s.transfers.find k with
  | none => notNow row
  | some t =>
    let last := decide (t.dst.count ≤ (t.chunk + 1) * t.span)
    match t.st, t.claimed with
    | .finished fail, _ => event row (s.engVisible t.grp k) (s.endTransfer k t fail)
    | .moving, none => s.beginChunk row k t
    | .reading, some cl => s.readChunk row k t cl
    | .moving, some cl =>
      if cl.pieces.isEmpty then
        if !last then .next { s with transfers := s.transfers.set k { t with chunk := t.chunk + 1, claimed := none } }
        else if t.sig = 0 then .next (s.finishTransfer k t (if s.ctxDead t.ctx then some (2, t.first) else none))
        else .next { s with transfers := s.transfers.set k { t with st := .signalling } }
      else
        let x := s.writeSome t.grp k t.blk false [] cl
        event row (!x.1.isEmpty) { x.2.2 with transfers := x.2.2.transfers.set k { t with claimed := some x.2.1 } }
    | _, _ => notNow row

/-- A waiting transfer's page has been served or has failed, or its context has FAULTED (R300, R302). -/
def execTransferPageMapped (k : Nat) (s : State) : Out :=
  let row := "TRANSFER_PAGE_MAPPED"
  match s.transfers.find k with
  | none => notNow row
  | some t =>
    match t.st with
    | .checking f => s.check row k t (s.faultOver f || s.ctxDead t.ctx)
    | .waiting f => if s.faultOver f || s.ctxDead t.ctx then s.beginChunk row k t else notNow row
    | _ => notNow row

/-- The signal granule: the value in its low half, zeros above, and its bit full, as one write, once every element write is
visible (R300); the transfer ends when that write is visible too (R303). A transfer of a FAULTED context writes none (R302). -/
def execTransferSignal (k : Nat) (s : State) : Out :=
  let row := "TRANSFER_SIGNAL"
  match s.transfers.find k with
  | none => notNow row
  | some t =>
    if s.ctxDead t.ctx then event row (t.st == .signalling) (s.finishTransfer k t (some (2, t.first)))
    else
      let bs := withOffsets (leBytes 8 t.sigv.toNat ++ leBytes 8 0)
      let lines := linesOf t.blk [t.sigPhys]
      let ok := t.st == .signalling && s.engVisible t.grp k && s.lineFree k t.blk t.sigPhys
      if !ok then notNow row
      else recallStep s row (s.holders 0 lines) s.ckptReady (.next
        (((lines.foldl State.breakLock s).engWrite t.grp k t.blk true (bs.map (fun b => (t.sigPhys.shift b.1, b.2)))).finishTransfer k t none))

end Sys2Proof.Machine
end

