-- ==== Sys2Proof/Machine/Queue.lean ====
section
/-! DEFINITION. Queues (R93 to R111): packets and their checks, queue states, the words that push packets and records
(R108, R110, R121, R122), and the dispatch and completion of packets. -/

namespace Sys2Proof.Machine

/-! ## Queue states (R97) -/

def Queue.size (x : Queue) : Nat := 2 ^ x.log2

def Queue.slot (x : Queue) (n : Nat) : Nat := x.base + 64 * (n % x.size)

def State.queue (s : State) (ld q : Nat) : Option Queue := SMap.find (s.ld ld).queues q

def State.setQueue (s : State) (ld q : Nat) (x : Queue) : State :=
  s.updLd ld (fun d => { d with queues := SMap.set d.queues q x })

/-- A queue is runnable while its context is READY or RUNNING and no `QSUSPEND` is in force. -/
def State.runnable (s : State) (x : Queue) : Bool :=
  !x.held && (match s.ctxs.find x.ctx with
    | some c => c.st == .ready || c.st == .running
    | none => false)

/-- The state that head and tail require. -/
def Queue.norm (x : Queue) (run : Bool) (now : Nat) : Queue :=
  if x.st == .error then x
  else if !run then { x with st := .suspended, since := none }
  else if x.tail ≤ x.head then { x with st := .idle, since := none }
  else if x.st == .blocked || x.st == .active then x
  else { x with st := .active, since := some now }

def State.putQueue (s : State) (ld q : Nat) (x : Queue) : State := s.setQueue ld q (x.norm (s.runnable x) s.timebase)

/-- Bring every queue of a context to the state its context asks for. -/
def State.refreshQueues (s : State) (ctx : Nat) : State :=
  { s with ldevs := s.ldevs.mapV (fun _ d => { d with queues := d.queues.mapV (fun _ x =>
      if x.ctx == ctx then x.norm (s.runnable x) s.timebase else x) }) }

/-! ## Packets (R98 to R100) -/

def ptype (bs : List Byte) : Option PType :=
  match field bs 0 1 with
  | 1 => some .launch | 2 => some .barrierAnd | 3 => some .copy | 4 => some .signal | 5 => some .podLaunch
  | _ => none

/-- The launch fields are in range: descriptor aligned, every extent at least 1. -/
def launchFields (bs : List Byte) : Bool :=
  field bs 16 8 % 64 == 0 && field bs 24 4 != 0 && field bs 28 2 != 0 && field bs 30 2 != 0

/-- The conditions of a barrier-and packet: word index and threshold. -/
def conditions (bs : List Byte) : List (Nat × Nat) :=
  (List.range (field bs 16 1)).map (fun i => (field bs (24 + 8 * i) 2, field bs (26 + 8 * i) 6))

/-- Errors 1 and 2 of R100. -/
def malformed (bs : List Byte) : Option Nat :=
  match ptype bs with
  | none => some 1
  | some t =>
    let cw := field bs 2 2
    let head := decide (field bs 1 1 < 4) && (decide (cw < 1024) || cw == 0xFFFF) && zeros bs 4 4
    let body := match t with
      | .launch => launchFields bs && zeros bs 40 24
      | .barrierAnd =>
        let n := field bs 16 1
        decide (1 ≤ n) && decide (n ≤ 5) && zeros bs 17 7 && (conditions bs).all (fun c => decide (c.1 < 1024)) &&
          zeros bs (24 + 8 * n) (40 - 8 * n)
      | .copy => decide (1 ≤ field bs 32 8) && decide (field bs 32 8 ≤ 2 ^ 40) && zeros bs 40 24
      | .signal => field bs 16 8 % 8 == 0 && decide (field bs 32 1 ≤ 1) && zeros bs 33 31
      | .podLaunch => launchFields bs && decide (field bs 40 1 < 64) && zeros bs 41 23
    if head && body then none else some 2

/-! ## The bell tail (R95) -/

def execBellTailWrite (ld q : Nat) (t : DWord) (s : State) : Out :=
  let n := t.toNat
  event "BELL_TAIL_WRITE" (s.present ld && decide (ld < 16) && decide (q < 64))
    (match s.queue ld q with
      | none => s
      | some x =>
        if !(x.kind == .host) || n == x.tail then s
        else if x.tail < n && decide (n ≤ x.head + x.size) then s.putQueue ld q { x with tail := n }
        else s.queueError ld q 3)

/-! ## Reading memory at a word's issue -/

/-- What a word reads at its issue: bytes, a trap, pages in replay (R313), or a line that is not free. -/
inductive ReadNow where
  | ok (bs : List Byte) (s : State)
  | trap (t : Trap)
  | wait (as : List LaneAcc) (s : State)
  | busy

/-- n bytes from an address, cut at page boundaries. -/
def pieces (va n : Nat) : List (Nat × Nat) :=
  (pagesFrom va n).map (fun p =>
    let lo := Nat.max va (p * 4096)
    (lo, Nat.min (va + n) ((p + 1) * 4096) - lo))

/-- Read n bytes for a word that the lanes of `who` execute once for the group. -/
def State.readNow (s : State) (gid : Nat) (g : Group) (who : Mask) (va n : Nat) : ReadNow :=
  let l := (Mask.lanes who).headD 0
  let ps := pieces va n
  let x := s.tryAll (s.ldOf g) (s.ctxNum g) .read (ps.map (fun p => (l, BitVec.ofNat 64 p.1)))
  match firstFail (fun _ => false) x.1 (·.isRemote) 7 with
  | some t => .trap t
  | none =>
    let as := ((okAccs x.1).zip ps).map (fun p => { p.1 with n := p.2.2, who := who })
    if waitsFault as then .wait as x.2
    else match as.find? (fun b => b.st == .failed) with
    | some b => .trap { cause := 0x0B, addr := b.va, info := who.toNat }
    | none =>
      if as.all (fun a => x.2.accessFree g a true) then .ok (as.flatMap (x.2.groupBytes gid g)) x.2 else .busy

/-! ## QPUSH and LAUNCH (R107, R108, R121, R122) -/

/-- Issue the `st` operation that writes a push's status. -/
def pushStatus (s : State) (c : Issue) (d : BitVec 6) (v : Nat) : WOut :=
  let f := s.fresh
  .done (f.2.updGrp c.grp (fun y => y.enterOp f.1 .st c (.status d.toNat (BitVec.ofNat 32 v)) noOrder [] false))

/-- Where packet slots of a ring in device memory lie. -/
inductive SlotAt where
  | ok (ps : List Phys) (s : State)
  | wait (s : State)
  | bad (s : State)

/-- The places of the next n slots of a ring; all of their pages are asked for together. Only a host queue's ring may lie in host
memory (R107). -/
def State.slotsAt (s : State) (ld q : Nat) (x : Queue) (n : Nat) : SlotAt :=
  let vas := (List.range n).map (fun i => x.slot (x.tail + i))
  let y := s.engPages ld x.ctx (queueKey ld q) true (pagesOf vas)
  match y.1 with
  | .ok m =>
    let ps := vas.map (pageAt m)
    if ps.all (fun p => match p with
        | .dev _ => true
        | .host _ => x.kind == .host
        | _ => false) then .ok ps y.2 else .bad y.2
  | .wait f => .wait (y.2.setQueue ld q { x with wait := some f })
  | .bad _ => .bad y.2

/-- A queue that waits for a page may be looked at again. -/
def State.waitOver (s : State) (x : Queue) : Bool :=
  match x.wait with
  | some f => s.faultOver f
  | none => true

/-- Device bytes that no engine owns and no `MCAS` has locked, with every write to them visible. -/
def State.lineOpen (s : State) (pa n : Nat) : Bool := s.unlocked pa n && !s.isOwned (pa / 128) && s.settled 0 0 pa n

/-- The slots' lines are open to a write. -/
def State.slotsOpen (s : State) (ps : List Phys) : Bool :=
  ps.all (fun p => match p with
    | .dev pa => s.lineOpen pa 64
    | _ => true)

/-- The checkpointed blocks that hold bytes of the slots' lines. -/
def State.slotHolders (s : State) (ps : List Phys) : List Nat := s.holders 0 (ps.filterMap (engLine 0))

/-- The write of packets and the advance of the tail: one step (R107). -/
def State.append (s : State) (ld q : Nat) (x : Queue) (pkts : List (Phys × List Byte)) : State :=
  (pkts.foldl (fun t p => match p.1 with
    | .dev pa => t.devWrite ((withOffsets p.2).map (fun b => (pa + b.1, b.2))) []
    | .host pa => t.bridgeWrite ((withOffsets p.2).map (fun b => (pa + b.1, b.2)))
    | _ => t) s).putQueue ld q { x with tail := x.tail + pkts.length, wait := none }

/-- A child grid, linked to its parent and to its packet (R120). -/
def State.linkChild (s : State) (parent ld q n : Nat) (pkt : List Byte) (ch : Desc × List Nat) : State :=
  let ctx := ((s.grids.find parent).map (·.ctx)).getD 0
  let depth := ((s.grids.find parent).map (·.depth)).getD 0
  let gid := s.nextId
  let gr := newGrid ld ctx (some (q, n)) ch.1 (field pkt 24 4) (field pkt 28 2) (field pkt 30 2)
    (BitVec.ofNat 64 (field pkt 32 8)) (some parent) (depth + 1) ch.2
  let dead := ((s.grids.find parent).map (·.st)) == some .failed
  let s1 := if dead then s.postEvent ld 3 ctx [0] [] else s.updGrid parent (fun p => { p with children := p.children + 1 })
  ({ s1 with
    nextId := gid + 1
    grids := SMap.set s1.grids gid (if dead then { gr with st := .failed } else gr) }).updLd ld (fun d => { d with
      queues := d.queues.upd q (fun x => { x with children := SMap.set x.children n gid }) })

/-- The parent of a push's child has room for one more. -/
def State.childRoom (s : State) (g : Group) (child : Bool) : Bool :=
  !child || decide (((s.gridOf g).map (·.children)).getD 0 < 65535)

/-- A push has to wait for room. -/
def State.pushFull (s : State) (g : Group) (x : Queue) (child : Bool) : Bool :=
  decide (x.size ≤ x.tail - x.head) || !s.childRoom g child

/-- A push that has passed its checks: without `.wait` it needs room now; then it goes its way, which with `.wait` holds its
word. -/
def pushGo (s : State) (c : Issue) (g : Group) (wait : Bool) (d : BitVec 6) (q : Nat) (x : Queue) (pkt : List Byte)
    (child : Option (Desc × List Nat)) : WOut :=
  if !wait && s.pushFull g x child.isSome then pushStatus s c d 1
  else
    let f := s.fresh
    let t := f.2.updGrp c.grp (fun y => y.enterOp f.1 .st c (.push d.toNat q wait pkt child) noOrder [] false)
    if wait then .hold t (.push q ((g.probeOf c).getD f.1)) else .done t

/-- The descriptor and bank addresses a `LAUNCH` reads (R114), then its push. -/
def launchGo (s : State) (c : Issue) (g : Group) (wait : Bool) (d : BitVec 6) (who : Mask) (q : Nat)
    (qu : Queue) (pkt : List Byte) : WOut :=
  let x := field pkt 24 4
  let y := field pkt 28 2
  let z := field pkt 30 2
  if ((s.gridOf g).map (·.depth)).getD 0 == 15 then pushStatus s c d 5
  else match s.readNow c.grp g who (field pkt 16 8) 64 with
  | .trap t => .trap t
  | .wait as t => probeBody t c g .st as
  | .busy => .notReady
  | .ok bs s1 =>
    match readDesc bs with
    | none => pushStatus s1 c d 6
    | some ds =>
      if !s1.accepts (s1.ldOf g) (s1.ctxNum g) ds x y z then pushStatus s1 c d 6
      else if ds.consts = 0 then pushGo s1 c g wait d q qu pkt (some (ds, []))
      else match s1.readNow c.grp g who ds.consts 64 with
      | .trap t => .trap t
      | .wait as t => probeBody t c g .st as
      | .busy => .notReady
      | .ok cs s2 => pushGo s2 c g wait d q qu pkt (some (ds, (List.range 8).map (fun i => field cs (8 * i) 8)))

/-- The body of both push words. -/
def pushBody (s : State) (c : Issue) (g : Group) (ex : Mask) (launch wait : Bool) (d a b : BitVec 6) : WOut :=
  let sa := (g.rs64 a.toNat).toNat
  let sb := (g.rs b.toNat).toNat
  let who := g.nonHelpers ex
  match c.hold with
  | .push _ _ => .done s
  | _ =>
    if sa % 64 != 0 then .trap { cause := 3, addr := sa }
    else if !g.storesDone then .notReady
    else match s.readNow c.grp g who sa 64 with
    | .trap t => .trap t
    | .wait as t => probeBody t c g .st as
    | .busy => .notReady
    | .ok pkt s1 =>
      match s1.queue (s1.ldOf g) (sb % 64) with
      | none =>
        let gone := match SMap.find (s1.ld (s1.ldOf g)).retired (sb % 64) with
          | some r => r.device && r.ctx == s1.ctxNum g
          | none => false
        pushStatus s1 c d (if 64 ≤ sb || !gone then 2 else 3)
      | some x =>
        if 64 ≤ sb || x.ctx != s1.ctxNum g || !(x.kind == .device) then pushStatus s1 c d 2
        else if x.st == .error then pushStatus s1 c d 3
        else if (field pkt 0 1 == 1) != launch || (malformed pkt).isSome then pushStatus s1 c d 4
        else if launch then launchGo s1 c g wait d who sb x pkt
        else pushGo s1 c g wait d sb x pkt none

def execQpush (wait : Bool) (g : Guard) (d a b : BitVec 6) (s : State) : Out :=
  onceWord s (.qpush wait g d a b) g (fun s1 c gr ex => pushBody s1 c gr ex false wait d a b)

def execLaunch (wait : Bool) (g : Guard) (d a b : BitVec 6) (s : State) : Out :=
  onceWord s (.launch wait g d a b) g (fun s1 c gr ex => pushBody s1 c gr ex true wait d a b)

/-! ## CONT (R109, R110) -/

/-- The continuation queue of a context. -/
def State.contQueue (s : State) (ld ctx : Nat) : Option (Nat × Queue) :=
  (s.ld ld).queues.find? (fun p => p.2.ctx == ctx && p.2.kind == .cont)

/-- The 64 bytes of a continuation record (R109). -/
def contRecord (entry : Nat) (data arg : DWord) : List Byte :=
  leBytes 8 entry ++ leBytes 8 data.toNat ++ leBytes 8 arg.toNat ++ leBytes 40 0

/-- Records on their way to a continuation queue. -/
def State.contsComing (s : State) (ld q : Nat) : Nat :=
  sumNat (s.groups.map (fun p => if s.ldOf p.2 == ld then sumNat (p.2.ops.map (fun o => match o.kind with
    | .posted k rs => if k == q && !o.done then rs.length else 0
    | _ => 0)) else 0))

/-- `CONT` posts its records once the earlier stores of their lanes are released; it takes the trap while no queue, or one in
ERROR (log entry 46), or one without room, stands ready for them. -/
def execCont (g : Guard) (a entry : BitVec 8) (s : State) : Out :=
  runWord s (.cont g a entry) (fun s1 c gr =>
    let ex := gr.nonHelpers (gr.guarded c.lanes g)
    let ld := s1.ldOf gr
    let recs := (Mask.lanes ex).map (fun l => contRecord entry.toNat (gr.rv64 a.toNat l) (gr.rv64 (a.toNat + 2) l))
    if ex == 0 then .done s1
    else match s1.contQueue ld (s1.ctxNum gr) with
    | none => .trap (trapOf 0x14)
    | some (q, x) =>
      if x.st == .error || decide (x.size < x.tail - x.head + s1.contsComing ld q + recs.length) then .trap (trapOf 0x14)
      else
        let f := s1.fresh
        .done (f.2.updGrp c.grp (fun y => y.pushOp f.1 .st c (.posted q recs) noOrder [⟨0, ex, 0, 0, .zero, [], .done⟩] false)))

/-! ## The head of a queue (R100, R101) -/

/-- What the packet at the head of a queue asks for. -/
inductive Head where
  | error (n : Nat)
  | wait (fid : Nat)
  | later
  | held (blks : List Nat)
  | unmet (acc : Option (Desc × List Nat))
  | go (pkt : List Byte) (acc : Option (Desc × List Nat))

/-- Go on with n bytes that the dispatcher reads for a queue in its context; unmapped or poisoned memory is error 6 (R100), and so is
memory on another package or in the bell window, which R100 does not name (log entry 46). -/
def State.fetchAt (s : State) (ld q : Nat) (x : Queue) (va n : Nat) (k : List Byte → State → Head × State) : Head × State :=
  let y := s.engPages ld x.ctx (queueKey ld q) false (pagesFrom va n)
  match y.1 with
  | .wait f => (.wait f, y.2)
  | .bad _ => (.error 6, y.2)
  | .ok m => match y.2.engRead 0 0 m va n with
    | .ok bs => k bs y.2
    | .later => (.later, y.2)
    | .held b => (.held b, y.2)
    | .poison | .space => (.error 6, y.2)

/-- Acceptance of a descriptor for a grid of some extents, with the bank addresses it names (R114). -/
def State.acceptDesc (s : State) (ld q : Nat) (x : Queue) (bs : List Byte) (nx ny nz : Nat)
    (k : Desc × List Nat → State → Head × State) : Head × State :=
  match readDesc bs with
  | none => (.error 4, s)
  | some d =>
    if !s.accepts ld x.ctx d nx ny nz then (.error 4, s)
    else if d.consts = 0 then k (d, []) s
    else s.fetchAt ld q x d.consts 64 (fun cs z => k (d, (List.range 8).map (fun i => field cs (8 * i) 8)) z)

/-- Acceptance at the head of a queue (R100, R114): rejection is error 4, unreadable memory error 6. -/
def State.acceptHead (s : State) (ld q : Nat) (x : Queue) (pkt : List Byte) (k : Desc × List Nat → State → Head × State) :
    Head × State :=
  s.fetchAt ld q x (field pkt 16 8) 64 (fun bs y => y.acceptDesc ld q x bs (field pkt 24 4) (field pkt 28 2) (field pkt 30 2) k)

/-- The conditions under which a packet may start (R101); a pod launch also needs room in the send queue (R342). -/
def State.mayStart (s : State) (ld : Nat) (x : Queue) (pkt : List Byte) : Bool :=
  (field pkt 1 1 % 2 == 0 || x.started.isEmpty) &&
  (match ptype pkt with
    | some .barrierAnd => (conditions pkt).all (fun c => decide (c.2 ≤ (SMap.getD (s.ld ld).words c.1 0).toNat))
    | some .podLaunch => decide (s.sendq.length < Config.sendSlots)
    | _ => true)

/-- The pages of a copy's range are there (R100). -/
def State.copyRange (s : State) (ld q : Nat) (x : Queue) (pkt : List Byte) : Pages × State :=
  let y := s.engPages ld x.ctx (queueKey ld q) false (pagesFrom (field pkt 16 8) (field pkt 32 8))
  let z := y.2.engPages ld x.ctx (queueKey ld q) true (pagesFrom (field pkt 24 8) (field pkt 32 8))
  (y.1.join z.1, z.2)

/-- The head packet of a queue with head below tail, checked. -/
def State.headOf (s : State) (ld q : Nat) (x : Queue) : Head × State :=
  s.fetchAt ld q x (x.slot x.head) 64 (fun pkt y =>
    if x.kind == .cont then
      (if field pkt 0 8 < 256 && zeros pkt 24 40 then .go pkt none else .error 2, y)
    else match malformed pkt with
    | some n => (.error n, y)
    | none =>
      let start := fun (acc : Option (Desc × List Nat)) (t : State) =>
        (if t.mayStart ld x pkt then Head.go pkt acc else .unmet acc, t)
      let accept := match x.accepted with
        | some acc => start (some acc) y
        | none => y.acceptHead ld q x pkt (fun acc t => start (some acc) t)
      match ptype pkt with
      | some .launch => if SMap.has x.children x.head then start none y else accept
      | some .podLaunch => accept
      | some .copy =>
        let z := y.copyRange ld q x pkt
        (match z.1 with
          | .wait f => (.wait f, z.2)
          | .bad _ => (.error 6, z.2)
          | .ok _ => start none z.2)
      | _ => start none y)

/-- The head packet could be taken now: queues operate while LDCTL.enable is 1 (R386). -/
def State.startable (s : State) (ld q : Nat) (x : Queue) : Bool :=
  (s.ld ld).enable && x.st == .active && decide (x.head < x.tail) && (match (s.headOf ld q x).1 with
    | .go _ _ => true
    | _ => false)

/-- The class a queue is served in (R102). -/
def Queue.cls (x : Queue) : Nat := if x.promoted then 3 else x.prio

/-- Every queue with a startable head: key ld × 64 + q, and class. -/
def State.startables (s : State) : List (Nat × Nat) :=
  s.ldevs.flatMap (fun p => (p.2.queues.filter (fun y => s.startable p.1 y.1 y.2)).map (fun y => (p.1 * 64 + y.1, y.2.cls)))

/-- The queue's turn (R102): no startable queue of a higher class, and first after the last one taken of its class. -/
def State.itsTurn (s : State) (key cls : Nat) : Bool :=
  let last := SMap.getD s.rr cls 1023
  let dist := fun k => (k + 1023 - last) % 1024
  s.startables.all (fun p => decide (p.2 < cls) || (p.2 == cls && decide (dist key ≤ dist p.1)))

/-! ## Taking a packet (R101 to R105) -/

/-- The loop record of a pod launch (R105, R344). -/
def podRecord (tenant : Nat) (pkt : List Byte) : Record :=
  ⟨4, field pkt 40 1, tenant, 0, (pkt.drop 16).take 24⟩

/-- A die whose copy engine works. -/
def State.liveDie (s : State) : Nat := ((List.range Config.dies).find? (fun d => !s.mgmt.deadDies.contains d)).getD 0

/-- Start a packet: its grid, its transfer, its record, or nothing. The number is the grid's; `true` says the work is done. -/
def State.startPacket (s : State) (ld q : Nat) (x : Queue) (pkt : List Byte) (acc : Option (Desc × List Nat)) : State × Nat × Bool :=
  let n := x.head
  match ptype pkt with
  | some .launch =>
    match SMap.find x.children n with
    | some gid => (s, gid, false)
    | none =>
      match acc with
      | some a =>
        let gr := newGrid ld x.ctx (some (q, n)) a.1 (field pkt 24 4) (field pkt 28 2) (field pkt 30 2)
          (BitVec.ofNat 64 (field pkt 32 8)) none 0 a.2
        ({ s with nextId := s.nextId + 1, grids := s.grids.set s.nextId gr }, s.nextId, false)
      | none => (s, 0, true)
  | some .copy =>
    let sh : Shape := ⟨9, [(field pkt 32 8, 1)]⟩
    let t : Transfer := ⟨s.liveDie, .packet ld q n, x.ctx, 0, 0, 0, 0, 0, .queued, sh, sh, field pkt 16 8, field pkt 24 8, 0, [],
      0, 0, .zero, 0, 0, none⟩
    ({ s with nextId := s.nextId + 1, transfers := s.transfers.set s.nextId t }.remember s.nextId 0, 0, false)
  | some .signal => (s, 0, false)
  | some .podLaunch =>
    let tenant := ((s.ctxs.find x.ctx).map (·.tenant)).getD 0
    ({ s with sendq := s.sendq ++ [⟨0, 0, some x.ctx, some (ld, q, n), none, podRecord tenant pkt, false, false, 0⟩] }, 0, false)
  | _ => (s, 0, true)

/-- Take the head packet of a queue. A continuation record that is taken is not counted as started (log entry 48). -/
def State.takeHead (s : State) (ld q : Nat) (x : Queue) (pkt : List Byte) (acc : Option (Desc × List Nat)) : State :=
  let next : Queue := { x with head := x.head + 1, wait := none, accepted := none, promoted := false, since := none }
  let s1 := { s with rr := s.rr.set x.cls (ld * 64 + q) }
  if x.kind == .cont then
    s1.putQueue ld q { next with
      conts := x.conts ++ [⟨field pkt 0 2, BitVec.ofNat 64 (field pkt 8 8), BitVec.ofNat 64 (field pkt 16 8)⟩] }
  else
    let r := s1.startPacket ld q x pkt acc
    let p : Started := ⟨x.head, (ptype pkt).getD .barrierAnd, field pkt 2 2, BitVec.ofNat 64 (field pkt 8 8),
      field pkt 1 1 / 2 % 2 == 1, r.2.1, r.2.2, pkt.drop 16⟩
    r.1.putQueue ld q { next with started := x.started ++ [p] }

/-- The dispatcher looks at the head of a queue: an ACTIVE one is taken in its turn, or goes to ERROR, waits for a page, or
is BLOCKED; a BLOCKED one whose condition is met is ACTIVE again. -/
def execPacketTake (ld q : Nat) (s : State) : Out :=
  let row := "PACKET_TAKE"
  match s.queue ld q with
  | none => notNow row
  | some x =>
    let h := s.headOf ld q x
    let live := (s.ld ld).enable && decide (x.head < x.tail) && (x.st == .active || x.st == .blocked)
    match h.1 with
    | .later => notNow row
    | .held bs => if live then recallStep s row bs s.ckptReady (notNow row) else notNow row
    | .wait f => event row (live && s.waitOver x) (h.2.setQueue ld q { x with wait := some f })
    | .error n => event row live (h.2.queueError ld q n)
    | .unmet acc => event row (live && x.st == .active) (h.2.setQueue ld q { x with st := .blocked, wait := none, accepted := acc })
    | .go pkt acc =>
      if x.st == .blocked then event row live (h.2.setQueue ld q { x with st := .active, accepted := acc })
      else event row (live && s.itsTurn (ld * 64 + q) x.cls) (h.2.takeHead ld q x pkt acc)

/-- Since when each head has been startable without a break (R102). -/
def State.noteHeads (s : State) : State :=
  if s.ldevs.all (fun p => p.2.queues.isEmpty) then s
  else { s with ldevs := s.ldevs.mapV (fun ld d => { d with queues := d.queues.mapV (fun q x =>
    { x with since := if s.startable ld q x then some (x.since.getD s.timebase) else none }) }) }

/-- A head startable for 1,000,000 ticks is served as class 3 (R102). -/
def execQueueStarvationPromote (ld q : Nat) (s : State) : Out :=
  match s.queue ld q with
  | none => notNow "QUEUE_STARVATION_PROMOTE"
  | some x => event "QUEUE_STARVATION_PROMOTE" (!x.promoted && s.startable ld q x && (match x.since with
      | some t => decide (t + 1000000 ≤ s.timebase)
      | none => false)) (s.setQueue ld q { x with promoted := true })

/-! ## Completion (R103, R104) -/

/-- The completion interrupt of a logical device; its vector is not stated, and 64 stands for it. -/
def completionVector : Nat := 64

/-- A packet completes: the completion write, the interrupt, and `started` falls; its grid is forgotten. -/
def State.complete (s : State) (ld q : Nat) (x : Queue) (p : Started) : State :=
  let s1 := s.setQueue ld q { x with started := x.started.filter (fun y => y.n != p.n), children := SMap.del x.children p.n }
  let s2 := if p.cword = 0xFFFF then s1 else s1.updLd ld (fun d => { d with words := d.words.put p.cword p.cvalue 0 })
  let s3 := if p.irq then s2.interrupt ld completionVector else s2
  if p.ty == .launch then { s3 with grids := s3.grids.del p.work } else s3

/-- The work of a FAILED grid has ended: no group of it has a write, a remote access or an engine's work under way (R104, R119). -/
def State.groupsGone (s : State) (gid : Nat) : Bool := s.groups.all (fun p => p.2.grid != gid)

/-- The writes of ended work are visible: the release of a completion. -/
def State.workVisible (s : State) : Bool := s.invis.all (fun w => s.groups.has w.grp)

/-- How a signal's write ends. -/
inductive Sig where
  | done (s : State)
  | wait (fid : Nat) (s : State)
  | fail (s : State)
  | busy

/-- The 64-bit value a signal leaves (R99). -/
def signalValue (body : List Byte) (old : Nat) : Nat := if field body 16 1 = 1 then old + field body 8 8 else field body 8 8

/-- Perform a signal's write at its target (R103). -/
def State.signal (s : State) (ld q ctx : Nat) (body : List Byte) : Sig :=
  let va := field body 0 8
  if va = 0 then .done s
  else
    let y := s.engPages ld ctx (queueKey ld q) true (pagesFrom va 8)
    match y.1 with
    | .wait f => .wait f y.2
    | .bad _ => .fail y.2
    | .ok m =>
      match pageAt m va with
      | .dev pa =>
        if field body 16 1 = 1 && !y.2.clean pa 8 then .fail y.2
        else if y.2.lineOpen pa 8 then
          .done (y.2.devWrite ((withOffsets (leBytes 8 (signalValue body (Memory.read y.2.mem pa 8)))).map (fun b => (pa + b.1, b.2))) [])
        else .busy
      | .host pa => .done (y.2.bridgeWrite ((withOffsets (leBytes 8 (signalValue body (Memory.read y.2.hostMem pa 8)))).map
          (fun b => (pa + b.1, b.2))))
      | .bell off =>
        let old := leNat ((List.range 8).map (fun i => bellByte (y.2.ld ld) (off + i)))
        .done (y.2.updLd ld (fun d => (withOffsets (leBytes 8 (signalValue body old))).foldl (fun d b =>
          bellWriteByte d (off + b.1) b.2) d))
      | _ => .fail y.2

/-- The device lines a signal writes. -/
def State.signalLines (s : State) (ld ctx : Nat) (body : List Byte) : List Nat :=
  let va := field body 0 8
  if va = 0 then []
  else match (s.engPages ld ctx 0 true (pagesFrom va 8)).1 with
  | .ok m => (engLine 0 (pageAt m va)).toList
  | _ => []

def execPacketComplete (ld q n : Nat) (s : State) : Out :=
  let row := "PACKET_COMPLETE"
  match s.queue ld q with
  | none => notNow row
  | some x =>
    match x.started.find? (fun p => p.n == n) with
    | none => notNow row
    | some p =>
      match p.ty with
      | .launch =>
        let ended := p.done || (match s.grids.find p.work with
          | some g => g.st == .complete || (g.st == .failed && s.groupsGone p.work)
          | none => true)
        event row (ended && s.workVisible) (s.complete ld q x p)
      | .signal =>
        let mark := fun (t : State) (f : Nat) => t.setQueue ld q { x with started := x.started.map (fun y =>
          if y.n == n then { y with work := f } else y) }
        let fin := fun (t : State) => match t.queue ld q with
          | some y => t.complete ld q y p
          | none => t
        recallStep s row (if p.body.isEmpty then [] else s.holders 0 (s.signalLines ld x.ctx p.body)) s.ckptReady
          (match s.signal ld q x.ctx p.body with
            | .busy => notNow row
            | .wait f t => event row (p.work == 0 || s.faultOver p.work) (mark t f)
            | .fail t => .next (fin (t.queueError ld q 6))
            | .done t => .next (fin t))
      | _ => event row (p.done && s.workVisible) (s.complete ld q x p)

/-! ## Continuation groups (R111) -/

/-- The line of a record's data address, as the exclusion of R111 compares it: a virtual line, so that two addresses that reach one
physical line through different pages do not exclude each other (log entry 49). -/
def ContRec.line (r : ContRec) : Nat := r.data.toNat / 128

/-- The bin of a record: the home slice of the line its data address is translated to (R111, R221); of an address that no page
in device memory holds, that of its own line number (log entry 49). -/
def State.binOf (s : State) (ctx : Nat) (r : ContRec) : Nat :=
  match s.walk ctx r.data.toNat with
  | .leaf e l => (match s.leafAccess e l r.data.toNat .read with
    | .ok (.dev pa) => s.homeOf (pa / 128)
    | _ => s.homeOf r.line)
  | .malformed => s.homeOf r.line

/-- The data lines of the running records of a context. -/
def State.contRunning (s : State) (ctx : Nat) : List Nat :=
  s.grids.flatMap (fun p => if p.2.ctx == ctx && !(p.2.st == .complete) && !(p.2.st == .failed) then p.2.contLines else [])

/-- The longest run of records, from the first on, of one entry and with lines distinct from each other and from those
running. -/
def contRun (entry : Nat) : List Nat → List ContRec → List ContRec
  | _, [] => []
  | busy, r :: rest => if r.entry == entry && !busy.contains r.line then r :: contRun entry (r.line :: busy) rest else []

/-- v0 to v3 of a continuation group's lanes. -/
def contRegs (regs : Nat) (rs : List ContRec) : SMap Word :=
  (rs.zip (List.range rs.length)).foldl (fun m (p : ContRec × Nat) =>
    let ws : List Word := [p.1.data.setWidth 32, (p.1.data >>> 32).setWidth 32, p.1.arg.setWidth 32, (p.1.arg >>> 32).setWidth 32]
    (ws.zip (List.range 4)).foldl (fun m w => if w.2 < regs then SMap.put m (w.2 * 64 + p.2) w.1 (0 : Word) else m) m) []

/-- Remove records that start. -/
def takeConts (rs : List ContRec) (taken : List ContRec) : List ContRec := taken.foldl List.erase rs

/-- The first record of a continuation group is bad: its queue goes to ERROR without it. -/
def State.contBad (s : State) (ld q : Nat) (x : Queue) (r : ContRec) (err : Nat) : State :=
  (s.setQueue ld q { x with conts := x.conts.erase r }).queueError ld q err

/-- The descriptor of a continuation kernel and its bank addresses, read through the entry table: an entry that is zero or no
multiple of 64, and a kernel that is not 16 lanes wide, are error 2; a descriptor that is not accepted is error 4, memory that
cannot be read error 6 (log entry 49). -/
def State.contHead (s : State) (ld q : Nat) (x : Queue) (entry : Nat) : Head × State :=
  s.fetchAt ld q x (x.entries + 8 * entry) 8 (fun eb y =>
    let va := leNat eb
    if va = 0 || va % 64 != 0 then (.error 2, y)
    else y.fetchAt ld q x va 64 (fun ds z =>
      if field ds 28 1 != 0 then (.error 2, z)
      else z.acceptDesc ld q x ds 1 1 1 (fun acc u => (.go [] (some acc), u))))

/-- A group of continuation records starts: up to 16 of one entry from one bin, in posting order. Its grid has nesting depth 0 and no
parent, which the spec does not state (log entry 49). -/
def execContDispatch (ctx bin entry : Nat) (s : State) : Out :=
  let row := "CONT_DISPATCH"
  match s.ctxs.find ctx with
  | none => notNow row
  | some c =>
    match s.contQueue c.ld ctx with
    | none => notNow row
    | some (q, x) =>
      match (contRun entry (s.contRunning ctx) (x.conts.filter (fun r => s.binOf ctx r == bin))).take 16 with
      | [] => notNow row
      | r0 :: rest =>
        let taken := (r0 :: rest).take (1 + Config.freeNat s.free % (rest.length + 1))
        let live := (s.ld c.ld).enable && (x.st == .idle || x.st == .active || x.st == .blocked)
        let h := s.contHead c.ld q x entry
        match h.1 with
        | .wait f => event row (live && s.waitOver x) (h.2.setQueue c.ld q { x with wait := some f })
        | .error n => event row live (h.2.contBad c.ld q x r0 n)
        | .held bs => if live then recallStep s row bs s.ckptReady (notNow row) else notNow row
        | .go _ (some acc) =>
          let gr := { newGrid c.ld ctx none acc.1 1 1 1 0 none 0 acc.2 with
            initV := contRegs acc.1.regs taken, contLines := taken.map (·.line) }
          event row live { h.2.setQueue c.ld q { x with conts := takeConts x.conts taken, wait := none } with
            nextId := h.2.nextId + 1
            free := h.2.free + 1
            grids := h.2.grids.set h.2.nextId gr }
        | _ => notNow row

/-! ## Stores, cache control and pushes are acknowledged -/

/-- The status of a push is decided; it is written with the operation's completion. -/
def State.pushEnds (s : State) (gid op d v : Nat) : State :=
  s.updGrp gid (fun x => x.setKind op (.status d (BitVec.ofNat 32 v)))

/-- A push goes on (R108, R122): it ends with 3 when its queue is in ERROR or RETIRED; waits for room, or without `.wait` ends with
1 when another push has taken it (log entry 47); waits for its release; then writes its packet and links its child, or with a ring
slot it can never use puts the queue in ERROR (log entry 46). -/
def pushAck (s : State) (grp : Nat) (g : Group) (o : PendOp) (d q : Nat) (wait : Bool) (pkt : List Byte)
    (child : Option (Desc × List Nat)) : Out :=
  let row := "STORE_ACK"
  let ld := s.ldOf g
  match (s.queue ld q).filter (fun x => x.ctx == s.ctxNum g && x.kind == .device && !(x.st == .error)) with
  | none => .next (s.pushEnds grp o.id d 3)
  | some x =>
    if s.pushFull g x child.isSome then event row (!wait) (s.pushEnds grp o.id d 1)
    else if !s.released grp g o.id (g.mask (fun _ => true)) .pkg false then notNow row
    else match s.slotsAt ld q x 1 with
    | .wait t => event row (s.waitOver x) t
    | .bad t => .next ((t.queueError ld q 6).pushEnds grp o.id d 3)
    | .ok ps t =>
      let t1 := match child with
        | some ch => t.linkChild g.grid ld q x.tail pkt ch
        | none => t
      recallStep s row (s.slotHolders ps) s.ckptReady (match t1.queue ld q with
        | some y => event row (s.slotsOpen ps) ((t1.append ld q y (ps.map (fun p => (p, pkt)))).pushEnds grp o.id d 0)
        | none => notNow row)

/-- Records are posted together, in ascending lane order, once the earlier stores of their lanes are released (R110). A queue that
is gone or in ERROR by then takes none; a ring slot it can never use puts it in ERROR (log entry 46). -/
def contAck (s : State) (grp : Nat) (g : Group) (o : PendOp) (q : Nat) (recs : List (List Byte)) : Out :=
  let row := "STORE_ACK"
  let ld := s.ldOf g
  let fin := fun (t : State) => t.updGrp grp (fun x => x.completeOp o.id none)
  match (s.queue ld q).filter (fun x => x.ctx == s.ctxNum g && x.kind == .cont && !(x.st == .error)) with
  | none => .next (fin s)
  | some x =>
    let who := o.lanes.foldl (fun m a => m ||| a.who) (0 : Mask)
    if !s.released grp g o.id who .pkg false || decide (x.size < x.tail - x.head + recs.length) then notNow row
    else match s.slotsAt ld q x recs.length with
    | .wait t => event row (s.waitOver x) t
    | .bad t => .next (fin (t.queueError ld q 6))
    | .ok ps t => recallStep s row (s.slotHolders ps) s.ckptReady
        (event row (s.slotsOpen ps) (fin (t.append ld q x (ps.zip recs))))

/-- The checkpointed blocks, seen from one core's array, that hold bytes of some host halves (R213, R243). -/
def State.hostHolders (s : State) (core : Nat) (all : Bool) (halves : List Nat) : List Nat :=
  (s.blocks.filter (fun p => arrayCore (s.fusedBlk p.2) p.2.core == core && p.2.held.any (fun b => decide (2 ^ 61 ≤ b.1) &&
    (all || halves.contains ((b.1 - 2 ^ 61) / 64))))).map (·.1)

/-- Lanes of a store are performed and acknowledged with a visibility `delay` ticks ahead (R233, R238); cache control, pushes,
records, statuses and a failed `MCAS`'s stores into its block complete (R108, R110, R243, R250). -/
def execStoreAck (grp op : Nat) (lanes : Mask) (delay : Nat) (s : State) : Out :=
  withOp s "STORE_ACK" grp op (fun g o =>
    let as := o.named lanes (Config.freeBit s.free)
    let s1 := if as.any (fun a => a.n == 8) then { s with free := s.free + 1 } else s
    let row := "STORE_ACK"
    let ready := as.all (fun a => a.st == .ready && s.mayPerform grp g o a true && s.accessFree g a false)
    let perform := fun (fill : Bool) =>
      (as.foldl (fun t a => (t.storePhys grp op g a.who a.phys a.data fill delay).updGrp grp (fun x =>
        x.setAcc op a.lane a.va .done)) s1).settle grp op
    let fin := fun (t : State) => (t.updGrp grp (fun x => x.readyDone op)).settle grp op
    let cache := fun (all drop : Bool) =>
      let core := s.l1Core g
      let halves := s.hostHalves g o all
      if !(o.lanes.all (fun a => !a.waiting) && g.hostStoresDone op) then notNow row
      else recallFor s row g.blk (s.hostHolders core all halves) (.next (fin (halves.foldl (fun t h =>
        let u := t.flushHalf core h
        if drop then u.dropHalf core h else u) s)))
    match o.kind with
    | .store => event row (ready && !as.isEmpty) (perform false)
    | .stfe => event row (ready && !as.isEmpty && o.lanes.all (fun b => !b.isOpen || as.contains b ||
        as.all (fun a => decide (a.lane < b.lane)))) (perform true)
    | .flushH all => cache all false
    | .invalH all => cache all true
    | .push d q wait pkt child => pushAck s grp g o d q wait pkt child
    | .posted q recs => contAck s grp g o q recs
    | .stp =>
      match o.localLine s.pkg, as with
      | some pa, a :: _ =>
        let ok := s.podLine pa
        let free := s.accessFree g ⟨0, 0, 0, 128, .dev pa, [], .ready⟩ false && !(s.isMoving pa) && s.settled 0 0 pa 128
        event row (g.remoteTurn o s.pkg && s.relOk grp g o a.who && (!ok || free))
          (if ok then (s.devWrite (a.data.map (fun b => (pa + b.1, b.2))) []).endRemote grp op none else s.remoteError grp o)
      | _, _ => notNow row
    | .status d v =>
      let e := wReg (.s (BitVec.ofNat 6 d)) 0 v
      let t := s.updGrp grp (fun x => x.applyBoth e)
      .next (fin (if s.ckpt g then t.sealResult g.blk grp e else t))
    | .mcas d blk ent p =>
      match p.store with
      | none => notNow row
      | some r =>
        let l := p.todo.headD 0
        let ph := (SMap.getD blk l (0, [])).2
        let who := (((o.ofLane l).head?).map (·.who)).getD 0
        event row (ph.all (fun x => s.accessFree g ⟨l, who, 0, 8, x, [], .ready⟩ false))
          ((s.mcasStore grp op g who ph r.2 delay).mcasEnd grp g o d blk ent p r.1)
    | _ => notNow row)

end Sys2Proof.Machine
end

