-- ==== Sys2Proof/Machine/Loop.lean ====
section
/-! DEFINITION. The Carillon loop and store (R341 to R357): the record words, the send queue, the token, the application of
records, page-table edits (R320, R321), and pod launches (R105). -/

namespace Sys2Proof.Machine

/-! ## The store (R346) -/

def State.storeWrite (s : State) (off : Nat) (bs : List Byte) : State :=
  { s with store := (withOffsets bs).foldl (fun m b => SMap.put m (off + b.1) b.2 0) s.store }

/-! ## Applying a record (R347) -/

/-- The outcome of a record: whether its range was out of bounds, whether a compare failed, and the value before. -/
structure Outcome where
  outOfRange : Bool
  failed : Bool
  before : Nat
deriving DecidableEq, Repr

/-- A record applied, or one that has to wait; what it has to begin first, if anything, is in the state. -/
inductive Applied where
  | ok (s : State) (o : Outcome)
  | later (s : Option State)

/-- A field of a record's body, by its offset in the record. -/
def bodyField (r : Record) (o n : Nat) : Nat := field r.body (o - 8) n

/-- The reset generations that a write covers have moved (R370). -/
def State.resetsIn (s : State) (off n : Nat) : State :=
  (List.range n).foldl (fun t i => if 0x80000 ≤ off + i && off + i < 0x90000 then t.tenantReset (off + i - 0x80000) else t) s

/-- A write, compare-write or add (R345, R347). -/
def State.applyStore (s : State) (r : Record) : State × Outcome :=
  let p := s.partition r.tenant
  let off := p.1 + r.addr
  let w := r.arg
  if p.2 = 0 || p.2 < r.addr + w then (s, ⟨true, false, 0⟩)
  else
    let x := leNat (s.storeBytes off w)
    let put := fun (bs : List Byte) => if r.tenant = 0xFFFF then (s.storeWrite off bs).resetsIn off w else s.storeWrite off bs
    match r.kind with
    | 1 => (put (r.body.take w), ⟨false, false, x⟩)
    | 2 =>
      if x = bodyField r 8 8 then (put (leBytes w (bodyField r 16 8)), ⟨false, false, x⟩) else (s, ⟨false, true, x⟩)
    | _ => (put (leBytes w (x + bodyField r 8 8)), ⟨false, false, x⟩)

/-- The tenant of a context. -/
def State.tenantOf (s : State) (ctx : Nat) : Option Nat := (s.ctxs.find ctx).map (·.tenant)

/-- An engine's claim uses a page of a range. -/
def claimUses (c : Option Claim) (va size : Nat) : Bool :=
  match c with
  | some c => (c.src ++ c.dst).any (fun q => decide (va ≤ q.1 * 4096) && decide (q.1 * 4096 < va + size))
  | none => false

/-- A signal granule of an engine operation lies in a range. -/
def sigUses (sig va size : Nat) : Bool := sig != 0 && decide (va ≤ sig) && decide (sig < va + size)

/-- An `MCAS` has block words or entries in a range still to be performed. -/
def OpKind.mcasUses (k : OpKind) (va size : Nat) : Bool :=
  match k with
  | .mcas _ blk ent p => ent.any (fun x => p.todo.contains x.1 && x.2.any (fun e => decide (va ≤ e.1) && decide (e.1 < va + size))) ||
    blk.any (fun x => p.todo.contains x.1 && rangesMeet x.2.1 (8 * x.2.2.length) va size)
  | _ => false

/-- Some access of these contexts that translated through a leaf of a range has not been performed; `skip` leaves out each `MCAS`. -/
def State.inFlight (s : State) (mine : Nat → Bool) (skip : Bool) (va size : Nat) : Bool :=
  s.groups.any (fun p => mine (s.ctxNum p.2) && p.2.ops.any (fun o => !o.done && !(o.kind.isMcas && skip) && (o.lanes.any (fun a =>
    a.st == .ready && !a.phys.isScratch && decide (va ≤ a.va) && decide (a.va < va + size)) || o.kind.mcasUses va size))) ||
  s.transfers.any (fun p => mine p.2.ctx && (claimUses p.2.claimed va size || (p.2.sigPhys != .zero && sigUses p.2.sig va size))) ||
  s.colls.any (fun p => mine p.2.ctx && (claimUses p.2.claimed va size || (p.2.claimed.isSome && sigUses p.2.d.sig va size))) ||
  s.clusters.any (fun p => p.2.table.any (fun e => mine e.ctx && claimUses e.claim va size))

/-- The frames that cached translations of an owner in a range lead to, as `physKey` numbers them. Every translation that an access
has used is cached until it is dropped. -/
def State.tlbFrames (s : State) (owner va size : Nat) : List (Nat × Nat) :=
  (s.tlb.filter (fun t => t.owner == owner && decide (t.base < va + size) && decide (va < t.base + t.size) && pteKind t.leaf == 1)).map
    (fun t => (pteFrame t.leaf + (match pteSpace t.leaf with
      | 0 => 0
      | 1 => 2 ^ 61
      | _ => 2 ^ 60) + (va - t.base), Nat.min (va + size) (t.base + t.size) - Nat.max va t.base))

/-- The checkpointed blocks of some contexts that hold stores into some frames: accesses not yet performed (R213, R316, R321). -/
def State.heldIn (s : State) (mine : Nat → Bool) (frames : List (Nat × Nat)) : List Nat :=
  (s.blocks.filter (fun p => (match s.grids.find p.2.grid with
      | some g => mine g.ctx
      | none => false) &&
    (p.2.held.any (fun b => frames.any (fun f => decide (f.1 ≤ b.1) && decide (b.1 < f.1 + f.2))) ||
      p.2.heldFe.any (fun b => frames.any (fun f => decide (f.1 < 16 * b.1 + 16) && decide (16 * b.1 < f.1 + f.2)))))).map (·.1)

/-- What forcing the checkpoints of some blocks asks for now; none while they have only to be waited for. -/
def State.forceCkpts (s : State) (bs : List Nat) : Option State :=
  match recallStep s "" bs s.ckptReady (notNow "") with
  | .next t => some t
  | _ => none

/-- A page-table edit (R321): translations dropped, locks broken, the leaf set, waiting accesses walk again. -/
def State.pageEdit (s : State) (tenant level va : Nat) (e : DWord) : State :=
  let size := pageSize level false
  let s1 : State := { s with groups := s.groups.mapV (fun _ (g : Group) =>
    if s.tenantOf (s.ctxNum g) == some tenant then { g with ops := g.ops.map (fun (o : PendOp) => o.hitMcas va size true) } else g) }
  { s1 with
    tlb := s1.tlb.filter (fun t => !(t.owner == 4096 + tenant && decide (t.base < va + size) && decide (va < t.base + t.size)))
    shared := s1.shared.filter (fun x => !(x.tenant == tenant && decide (x.va < va + size) &&
      decide (va < x.va + pageSize x.level false))) ++ [⟨tenant, level, va, e⟩]
    faults := s1.faults.mapV (fun _ f =>
      if s1.tenantOf f.ctx == some tenant && decide (va ≤ f.va) && decide (f.va < va + size) && (f.st == .asked || f.st == .forwarded)
      then { f with st := .resolved } else f) }

/-- The launch packet that a pod launch appends (R105). -/
def podPacket (body : List Byte) : List Byte := leBytes 1 1 ++ leBytes 1 0 ++ leBytes 2 0xFFFF ++ leBytes 12 0 ++ body.take 24 ++ leBytes 24 0

/-- The logical device that owns a tenant's range. -/
def State.ownerOf (s : State) (tenant : Nat) : Option Nat :=
  (s.ldevs.find? (fun p => p.2.bound && decide (p.2.tenFirst ≤ tenant) && decide (tenant < p.2.tenFirst + p.2.tenCount))).map (·.1)

/-- A pod launch is dropped: event 0x04 to the owning device (R105, R384). -/
def State.dropLaunch (s : State) (tenant q : Nat) : State :=
  match s.ownerOf tenant with
  | some ld => s.postEvent ld 4 0 [q] []
  | none => s

/-- The queue of a tenant that a pod launch names. -/
def State.podQueue (s : State) (tenant q : Nat) : Option (Nat × Queue) :=
  s.ldevs.findSome? (fun p => match SMap.find p.2.queues q with
    | some x => if s.tenantOf x.ctx == some tenant then some (p.1, x) else none
    | none => none)

/-- A pod launch reaches its queue on this package (R105), whatever its kind (log entry 48); a ring slot it can never use puts the
queue in ERROR. -/
def State.podLaunch (s : State) (tenant q : Nat) (body : List Byte) : Applied :=
  let fine : Outcome := ⟨false, false, 0⟩
  match s.podQueue tenant q with
  | none => .ok (s.dropLaunch tenant q) fine
  | some (ld, x) =>
    if x.st == .error || decide (x.size ≤ x.tail - x.head) then .ok (s.dropLaunch tenant q) fine
    else match s.slotsAt ld q x 1 with
    | .wait t => .later (if s.waitOver x then some t else none)
    | .bad t => .ok ((t.queueError ld q 6).dropLaunch tenant q) fine
    | .ok ps t =>
      let hs := s.slotHolders ps
      if !hs.isEmpty then .later (s.forceCkpts hs)
      else if s.slotsOpen ps then .ok (t.append ld q x (ps.map (fun p => (p, podPacket body)))) fine
      else .later none

/-- Apply a record at its peal: `sr.peal` becomes that number. -/
def State.applyRecord (s : State) (n : Nat) (r : Record) : Applied :=
  let fine : Outcome := ⟨false, false, 0⟩
  let x := match r.kind with
    | 1 | 2 | 3 => let y := s.applyStore r
                   Applied.ok y.1 y.2
    | 4 => s.podLaunch r.tenant r.arg r.body
    | 5 =>
      let va := bodyField r 8 8
      let mine := fun c => s.tenantOf c == some r.tenant
      let hs := s.heldIn mine (s.tlbFrames (4096 + r.tenant) va (pageSize r.arg false))
      if !hs.isEmpty then .later (s.forceCkpts hs)
      else if s.inFlight mine true va (pageSize r.arg false) then .later none
      else .ok (s.pageEdit r.tenant r.arg va (BitVec.ofNat 64 (bodyField r 16 8))) fine
    | _ => .ok (s.topologySwap (r.addr % 65536) (bodyField r 8 2 % 2)) fine
  match x with
  | .ok t o => .ok { t with peal := n, frames := (SMap.set t.frames n r).filter (fun p => decide (n < p.1 + 64)) } o
  | .later t => .later t

/-! ## The record words (R350, R351, R321) -/

/-- Issue a record word: the fragment is held until its record is in the send queue. -/
def recordGo (s : State) (c : Issue) (g : Group) (d : BitVec 6) (before rel : Bool) (kind arg addr : Nat) (body : List Byte) : WOut :=
  let tenant := ((s.ctxOf g).map (·.tenant)).getD 0
  let f := s.fresh
  .hold (f.2.updGrp c.grp (fun y => y.pushOp f.1 .bc c (.record d.toNat before ⟨kind, arg, tenant, addr, body⟩ rel) noOrder []
    false)) (.busy f.1)

def execCbw (w : Width) (rel : Bool) (g : Guard) (d a b : BitVec 6) (s : State) : Out :=
  onceWord s (.cbw w rel g d a b) g (fun s1 c gr _ =>
    let sa := (gr.rs a.toNat).toNat
    if sa % w.bytes != 0 then .trap { cause := 3, addr := sa }
    else recordGo s1 c gr d false rel 1 w.bytes sa ((storeBytes gr 0 (.s b) w ++ leBytes 24 0).take 24))

def execCbc (b64 rel : Bool) (g : Guard) (d a b c : BitVec 6) (s : State) : Out :=
  onceWord s (.cbc b64 rel g d a b c) g (fun s1 i gr _ =>
    let sa := (gr.rs a.toNat).toNat
    let w := if b64 then 8 else 4
    let val := fun (r : BitVec 6) => if b64 then (gr.rs64 r.toNat).toNat else (gr.rs r.toNat).toNat
    if sa % w != 0 then .trap { cause := 3, addr := sa }
    else recordGo s1 i gr d true rel 2 w sa (leBytes 8 (val b) ++ leBytes 8 (val c) ++ leBytes 8 0))

def execCba (b64 rel : Bool) (g : Guard) (d a b : BitVec 6) (s : State) : Out :=
  onceWord s (.cba b64 rel g d a b) g (fun s1 i gr _ =>
    let sa := (gr.rs a.toNat).toNat
    let w := if b64 then 8 else 4
    let val := if b64 then (gr.rs64 b.toNat).toNat else (gr.rs b.toNat).toNat
    if sa % w != 0 then .trap { cause := 3, addr := sa }
    else recordGo s1 i gr d true rel 3 w sa (leBytes 8 val ++ leBytes 16 0))

/-- The conditions of a page edit (R321). -/
def editOk (level va : Nat) (e : DWord) : Bool :=
  decide (2 ^ 55 ≤ va) && decide (va < 2 ^ 56) && va % pageSize level false == 0 && decide (pteKind e ≤ 4) &&
  !(pteKind e == 1 && pteSpace e != 0) && !pteC64 e && leafOk e level va

def execCbpt (lvl : BitVec 2) (rel : Bool) (g : Guard) (d a b : BitVec 6) (s : State) : Out :=
  onceWord s (.cbpt lvl rel g d a b) g (fun s1 c gr _ =>
    let va := (gr.rs64 a.toNat).toNat
    let e := gr.rs64 b.toNat
    if !editOk lvl.toNat va e then .trap { cause := 0x1B, addr := va }
    else recordGo s1 c gr d false rel 5 lvl.toNat 0 (leBytes 8 va ++ leBytes 8 e.toNat ++ leBytes 8 0))

/-- `CLD` (R352): the local store, or zeros outside the partition, as both stand when the access is performed. -/
def execCld (w : Width) (g : Guard) (d : Reg) (a : MAddr) (s : State) : Out :=
  runWord s (.cld w g d a) (fun s1 c gr =>
    let ex := exFor gr c.lanes g d
    let r := loadReq a w.bytes (offsetEa a)
    let ls := r.lanes gr ex
    let x := fun l => (r.ea gr l).toNat
    match ls.find? (fun l => !gr.isHelper l && x l % r.n != 0) with
    | some l => .trap { cause := 3, addr := x l }
    | none =>
      let as := (ls.filter (fun l => x l % r.n == 0)).map (fun l =>
        (⟨l, r.who gr ex l, x l, r.n, .store (x l), [], .ready⟩ : LaneAcc))
      issueOp c gr .ld noOrder (.load d w) (.ok (as, s1)))

def execPeal (ret : Bool) (g : Guard) (d : BitVec 6) (s : State) : Out :=
  onceWord s (.peal ret g d) g (fun s1 c gr _ =>
    .done (s1.updGrp c.grp (fun y => y.apply (wReg64 (.s d) 0 (BitVec.ofNat 64 (if ret then gr.peal else s1.peal))))))

def execPfence (g : Guard) (a : BitVec 6) (s : State) : Out :=
  onceWord s (.pfence g a) g (fun s1 _ gr _ =>
    let n := (gr.rs64 a.toNat).toNat % 2 ^ 63
    if n ≤ s1.peal then .done s1 else .hold s1 (.pfence n))

/-! ## The send queue and the token (R342, R343, R348) -/

/-- A record word whose record is not yet in the send queue still holds its lanes. -/
def Group.recordHeld (g : Group) (op : Nat) : Bool := g.lanes.any (fun x => x.hold == .busy op)

def execRecordEnterSendQueue (grp op : Nat) (s : State) : Out :=
  let row := "RECORD_ENTER_SEND_QUEUE"
  match s.grp grp with
  | none => notNow row
  | some g =>
    match g.op op with
    | none => notNow row
    | some o =>
      match o.kind with
      | .record _ _ r rel =>
        let m := g.mask (fun l => (g.lane l).hold == .busy op)
        let earlier := g.ops.all (fun e => decide (op ≤ e.id) || (match e.kind with
          | .record .. => !g.recordHeld e.id
          | _ => true))
        let s1 := { s.updGrp grp (fun y => y.advance m) with sendq := s.sendq ++ [⟨grp, op, some (s.ctxNum g), none, none, r, false, false, 0⟩] }
        event row (g.recordHeld op && earlier && decide (s.sendq.length < Config.sendSlots) &&
            (!rel || s.released grp g op (g.mask (fun _ => true)) .pod false)) s1
      | _ => notNow row

/-- How far a visit of the token comes in one step: to its end; to a record that has to wait; or nowhere. -/
inductive Visit where
  | over (s : State)
  | held (s : State)
  | stuck
deriving DecidableEq, Repr

/-- Send up to `n` records from the head of the send queue: each is applied here as it goes (R348). `moved` says that a record went in
this step. -/
def sendRecords : Nat → Bool → State → Visit
  | 0, _, s => .over s
  | n + 1, moved, s =>
    match s.sendq with
    | [] => .over s
    | x :: rest =>
      match s.applyRecord (s.peal + 1) x.r with
      | .later none => if moved then .held s else .stuck
      | .later (some t) => .held t
      | .ok t o => sendRecords n true { t with
          sendq := rest, onLoop := SMap.set t.onLoop (s.peal + 1) { x with outOfRange := o.outOfRange, failed := o.failed, before := o.before }
          visit := t.visit + 1 }

/-- The token arrives with the next unused peal number; up to 16 records go in one visit, and it passes on (R342). A record that has
to wait keeps the token here, and the visit, with which the same input goes on, counts the records that went. -/
def execTokenArrive (peal : Nat) (s : State) : Out :=
  let row := "TOKEN_ARRIVE"
  let live := s.formed && s.peal + 1 == peal + s.visit
  match sendRecords (16 - s.visit) false s with
  | .over t => event row live { t with visit := 0 }
  | .held t => event row live { t with stays := true }
  | .stuck => notNow row

/-- A record of another package passes in peal order; one that has first to wait for blocks here stays the next to pass (R321). -/
def execRecordApply (peal sender : Nat) (r : Record) (s : State) : Out :=
  let row := "RECORD_APPLY"
  let live := s.formed && s.peal + 1 == peal && sender != s.pkg && s.ring.contains sender && decide (1 ≤ r.kind) &&
    decide (r.kind ≤ 6) && decide (r.body.length = 24)
  match s.applyRecord peal r with
  | .ok t _ => event row live t
  | .later (some t) => event row live { t with stays := true }
  | .later none => notNow row

/-- What a returned record writes: its peal, with bit 63 for a failure, and the value before (R351). -/
def returnEff (d : Nat) (before : Bool) (n : Nat) (x : SendRec) : Eff :=
  let v := n + (if x.outOfRange || x.failed then 2 ^ 63 else 0)
  if d = 63 then {}
  else (wReg64 (.s (BitVec.ofNat 6 d)) 0 (BitVec.ofNat 64 v)).append
    (if before then wReg64 (.s (BitVec.ofNat 6 (d + 2))) 0 (BitVec.ofNat 64 (if x.outOfRange then 0 else x.before)) else {})

/-- A record has RETURNED (R348): the word's destination and counter, the packet, or the command. -/
def State.recordBack (s : State) (n : Nat) (x : SendRec) : State :=
  let s1 := { s with onLoop := s.onLoop.del n }
  let s2 := match s1.grp x.grp with
    | none => s1
    | some g =>
      match g.op x.op with
      | some o =>
        match o.kind with
        | .record d before _ _ =>
          let e := returnEff d before n x
          let t := s1.updGrp x.grp (fun y => ({ y.apply e with peal := Nat.max y.peal n }).completeOp x.op
            (if x.outOfRange then some (0x1D, 1, o.pc, 0) else none))
          if s.ckpt g then t.sealResult g.blk x.grp e else t
        | _ => s1
      | none => s1
  let s3 := match x.packet with
    | some (ld, q, k) => s2.packetDone ld q k
    | none => s2
  match x.cmd with
  | some _ => s3.finishCmd 16 0 0
  | none => s3

def execRecordReturned (peal : Nat) (s : State) : Out :=
  match s.onLoop with
  | [] => notNow "RECORD_RETURNED"
  | (n, x) :: _ => event "RECORD_RETURNED" (s.formed && n == peal) (s.recordBack n x)

/-- A frame with a bad CRC is sent again by the neighbour that keeps it, and keeps its place (R341): order and effects do not
change. -/
def execFrameCrcRetransmit (peal : Nat) (s : State) : Out :=
  event "FRAME_CRC_RETRANSMIT" (s.formed && (SMap.has s.frames peal || peal == s.peal + 1)) s

/-- QUEUED records of a context are discarded (R348). -/
def State.discardRecords (s : State) (ctx : Nat) : State :=
  let mine := fun (x : SendRec) => x.ctx == some ctx
  (s.sendq.filter mine).foldl (fun t x =>
    let t1 := match x.packet with
      | some (ld, q, k) => t.packetDone ld q k
      | none => t
    match (t1.grp x.grp).bind (fun g => g.op x.op) with
    | some o => t1.updGrp x.grp (fun g => g.completeOp x.op (some (0x1D, 2, o.pc, 0)))
    | none => t1) { s with sendq := s.sendq.filter (fun x => !mine x) }

end Sys2Proof.Machine
end

