-- ==== Sys2Proof/Machine/Holds.lean ====
section
/-! DEFINITION. When a held fragment is ready again (R126), and the stops of a group that pre-emption flags (R82, R83). -/

namespace Sys2Proof.Machine

/-- An operation holds its word no more: it has completed, or the pages of a probe or of a `TBLD` are all there. -/
def Group.opOver (g : Group) (id : Nat) : Bool :=
  match g.op id with
  | none => true
  | some o => o.done || (match o.kind with
    | .probe => o.lanes.all (fun a => !a.isOpen)
    | .tbld .. => o.lanes.all (fun a => !a.waiting)
    | _ => false)

/-- A push has been decided. -/
def Group.pushOver (g : Group) (id : Nat) : Bool :=
  match (g.op id).map (fun (o : PendOp) => o.kind) with
  | some (.push ..) => false
  | _ => true

/-- The wait of a lane's hold is over, so that its fragment may issue its word again (R126). A release, a page fault of a
fetch, a `NAP`, a `YIELD` with time left and handler entry end only by their events. -/
def State.holdDone (s : State) (gid : Nat) (g : Group) (l : Nat) : Bool :=
  match (g.lane l).hold with
  | .none => true
  | .wait ld st cp mx bc => g.waited ld st cp mx bc
  | .nap _ => false
  | .yield u => u == 0
  | .barrier b phase | .sync b phase => (match s.bar g b with
    | some x => x.phase.toNat != phase
    | none => true)
  | .release _ _ _ => false
  | .gate n all sc => s.gateOpen gid g l n all sc
  | .pfence n => decide (n ≤ s.peal)
  | .op id | .busy id => g.opOver id
  | .ready => true
  | .push _ id => g.pushOver id
  | .ckpt => s.ckptReady g.blk
  | .fault _ => false
  | .exit => s.exitReady gid g
  | .handler => false

/-- A push waits for room in its queue, or for its child. -/
def State.pushWaits (s : State) (g : Group) (q id : Nat) : Bool :=
  match s.queue (s.ldOf g) q, (g.op id).map (fun (o : PendOp) => o.kind) with
  | some x, some (.push _ _ wait _ child) => wait && s.pushFull g x child.isSome
  | _, _ => false

/-- A fragment's hold is a wait point now (R83): a wait that is not over, a push without room, or a trapped fragment while another
runs a handler. -/
def State.atWaitPoint (s : State) (gid : Nat) (g : Group) (l : Nat) : Bool :=
  match (g.lane l).hold with
  | .push q id => s.pushWaits g q id
  | .handler => g.handlerOpen
  | h => h.isStop && !s.holdDone gid g l

/-- Stop the fragments of a flagged group that stand at a stop: at a wait point, or at the entry (R83). -/
def State.stopNow (s : State) (gid : Nat) (g : Group) : Group :=
  g.leaders.foldl (fun x l =>
    let h := (g.lane l).hold
    if s.atWaitPoint gid g l then x.stopAt (g.fragment l) .waitPoint
    else if g.words == 0 && (match h with
      | .none => true
      | .fault _ => true
      | _ => false) then x.stopAt (g.fragment l) .entry
    else x) g

/-- Flag a group for pre-emption (R82). -/
def State.flagGroup (s : State) (gid : Nat) : State :=
  match s.grp gid with
  | none => s
  | some g => if g.state == .saved || g.state == .exited then s else s.setGrp gid (s.stopNow gid { g with flagged := true })

/-- The groups of a context. -/
def State.ctxGroups (s : State) (ctx : Nat) : List Nat := (s.groups.filter (fun p => s.ctxNum p.2 == ctx)).map (·.1)

/-- The blocks of a context. -/
def State.ctxBlocks (s : State) (ctx : Nat) : List (Nat × Block) :=
  s.blocks.filter (fun p => ((s.grids.find p.2.grid).map (·.ctx)) == some ctx)

end Sys2Proof.Machine
end

