-- ==== Sys2Proof/Machine/Commands.lean ====
section
/-! DEFINITION. The commands of a logical device's rings: contexts (R67 to R70, R82, R86, R87), queues (R96, R97), pages
(R315, R316, R318) and trap policy (R328, R336), with what they share: a context's fault (R70) and its end. -/

namespace Sys2Proof.Machine

/-- A range lies in device memory, in regions assigned to a device and not retired (R68). -/
def State.ownRange (s : State) (ld base size : Nat) : Bool :=
  let d := s.ld ld
  let mine := fun r => decide (d.regFirst ≤ r) && decide (r < d.regFirst + d.regCount) && !s.mgmt.retired.contains r
  decide (base + size ≤ Config.deviceBytes) &&
  (List.range ((base + size - 1) / Config.regionBytes - base / Config.regionBytes + 1)).all (fun i => mine (base / Config.regionBytes + i))

/-! ## The end of contexts -/

/-- The unfinished grids of a context. -/
def State.openGrids (s : State) (ctx : Nat) : List Nat :=
  (s.grids.filter (fun p => p.2.ctx == ctx && !(p.2.st == .complete) && !(p.2.st == .failed))).map (·.1)

/-- The queues of a context, by device and number. -/
def State.ctxQueues (s : State) (ctx : Nat) : List (Nat × Nat) :=
  s.ldevs.flatMap (fun p => (p.2.queues.filter (fun q => q.2.ctx == ctx)).map (fun q => (p.1, q.1)))

/-- A context becomes FAULTED (R70, R97, R348): its QUEUED records are discarded, its grids fail, its queues go to ERROR with
error 5, the event is posted, and a pending PREEMPT completes with status 1. -/
def State.faultCtx (s : State) (ctx cause : Nat) : State :=
  match s.ctxs.find ctx with
  | none => s
  | some c =>
    let s1 := (s.discardRecords ctx).updCtx ctx (fun x => { x with st := .faulted, dead := true, drain := none, order := [] })
    let s2 := (s1.postEvent c.ld 1 ctx [cause] []).failGrids (s1.openGrids ctx) none
    let s3 := (s2.ctxQueues ctx).foldl (fun t q => t.queueError q.1 q.2 5) s2
    if c.st == .draining then s3.finishCmd c.ld 0 1 else s3

/-- A context that still has work that may fault (R70). -/
def CtxSt.live : CtxSt → Bool
  | .faulted | .destroyed => false
  | _ => true

/-- The states in which an error of the package faults a context (R70). -/
def CtxSt.exposed : CtxSt → Bool
  | .running | .draining | .saved => true
  | _ => false

/-- Every packet of a context has completed, and nothing of it is in an engine. -/
def State.ctxEmpty (s : State) (ctx : Nat) : Bool :=
  (s.ctxQueues ctx).all (fun q => match s.queue q.1 q.2 with
    | some x => x.started.isEmpty
    | none => true) &&
  s.transfers.all (fun p => p.2.ctx != ctx)

/-- A queue retires: its unstarted packets are discarded, its bell record keeps its counts and error (R94). `device` says that a
push of its context may still name it (R122). -/
def LDev.retire (d : LDev) (q : Nat) (x : Queue) (device : Bool) : LDev :=
  { d with queues := d.queues.del q, retired := d.retired.set q ⟨x.tail, x.head, x.error, device && x.kind == .device, x.ctx⟩ }

/-- Retire the queues of a context that ends. -/
def State.retireQueues (s : State) (ctx : Nat) : State :=
  { s with ldevs := s.ldevs.mapV (fun _ d =>
    let t := (d.queues.filter (fun q => q.2.ctx == ctx)).foldl (fun d q => d.retire q.1 q.2 false) d
    { t with retired := t.retired.mapV (fun _ r => if r.ctx == ctx then { r with device := false } else r) }) }

/-- No context's number: that of a transfer whose context has been destroyed, and which stops at its next chunk boundary (R302, R388). -/
def noCtx : Nat := 2 ^ 16

/-- The context number is EMPTY again: its pool, queues, grids, translations, faults and records go. -/
def State.dropCtx (s : State) (ctx : Nat) : State :=
  { s.retireQueues ctx with
    ctxs := s.ctxs.del ctx
    grids := s.grids.filter (fun p => p.2.ctx != ctx)
    tlb := s.tlb.filter (fun t => t.owner != ctx)
    faults := s.faults.filter (fun p => p.2.ctx != ctx)
    records := s.records.filter (fun p => field p.2.bytes 4 2 != ctx)
    transfers := s.transfers.mapV (fun _ t => if t.ctx == ctx then { t with ctx := noCtx } else t) }

/-! ## Context commands -/

/-- A command of a context ring whose completion never waits. -/
def ctxCommand (row : String) (ld code : Nat) (s : State) (body : Nat → Option Ctx → Cmd → Nat × State) : Out :=
  command1 row ld 0 code 6 s (fun c => body c.ctx (s.ctxs.find c.ctx) c)

/-- The operands of CREATE (R68, R387). -/
def State.createOk (s : State) (ld : Nat) (c : Cmd) : Bool :=
  let lim := c.op2 % 2 ^ 16
  let ten := c.op2 / 2 ^ 16 % 2 ^ 16
  let d := s.ld ld
  c.op0 % 4096 == 0 && c.op1 % 4096 == 0 && decide (c.op1 ≤ 2 ^ 40) && (lim == 0 || decide (64 ≤ lim)) && c.op2 / 2 ^ 33 == 0 &&
  (c.op2 / 2 ^ 32 == 0 || s.feature ld 9) && decide (ten < 65535) && decide (d.tenFirst ≤ ten) && decide (ten < d.tenFirst + d.tenCount) &&
  s.ownRange ld c.op0 (Nat.max 1 c.op1)

/-- A new context (R68, R328). -/
def newCtx (ld : Nat) (c : Cmd) : Ctx :=
  let lim := c.op2 % 2 ^ 16
  { st := .created, ld := ld, ldev := 0, bound := false, tenant := c.op2 / 2 ^ 16 % 2 ^ 16, poolBase := c.op0, poolSize := c.op1,
    spLimit := if lim = 0 then 2048 else lim, tenantScope := c.op2 / 2 ^ 32 % 2 == 1, root := 0, sysfence := 0, handler := 0,
    hmask := 0, report := 0, fmask := 0, drain := none, order := [] }

def execCreate (ld : Nat) (s : State) : Out :=
  ctxCommand "CREATE" ld 1 s (fun n x c =>
    if x.isSome || !s.createOk ld c then (2, s)
    else if c.op1 < 65536 then (4, s)
    else (0, { s with ctxs := s.ctxs.set n (newCtx ld c) }))

def execBind (ld : Nat) (s : State) : Out :=
  ctxCommand "BIND" ld 2 s (fun n x c =>
    if (x.map (·.st)) != some .created then (1, s)
    else if !(c.op0 % 4096 == 0 && s.ownRange ld c.op0 4096 && decide (c.op1 < 16) && c.op2 == 0) then (2, s)
    else (0, (s.updCtx n (fun y => { y with st := .ready, bound := true, root := c.op0, ldev := c.op1 })).refreshQueues n))

/-- PREEMPT (R70, R82): READY is SAVED at once; RUNNING flags every group and drains. -/
def execPreempt (ld : Nat) (s : State) : Out :=
  command "PREEMPT" ld 0 3 6 s (fun c =>
    let n := c.ctx
    let st := (s.ctxs.find n).map (·.st)
    if !(st == some .ready || st == some .running) then .done 1 s
    else if !(decide (c.op0 < 2 ^ 48) && c.op1 == 0 && c.op2 == 0) then .done 2 s
    else if st == some .ready then .done 0 ((s.updCtx n (fun y => { y with st := .saved })).refreshQueues n)
    else
      let s1 := (s.updCtx n (fun y => { y with
        st := .draining, drain := if c.op0 = 0 then none else some (s.timebase + c.op0) })).refreshQueues n
      .later ((s1.ctxGroups n).foldl State.flagGroup s1)) (fun _ => none)

def execResume (ld : Nat) (s : State) : Out :=
  ctxCommand "RESUME" ld 4 s (fun n x c =>
    match x with
    | some y =>
      if !(y.st == .saved) then (1, s)
      else if !(c.op0 == 0 && c.op1 == 0 && c.op2 == 0) then (2, s)
      else (0, (s.updCtx n (fun z => { z with st := if (s.ctxBlocks n).isEmpty then .ready else .running })).refreshQueues n)
    | none => (1, s))

/-- DESTROY (R70, R96, R348): records discarded, grids failed; it completes once every started packet has completed, and the
number is then EMPTY. -/
def execDestroy (ld : Nat) (s : State) : Out :=
  command "DESTROY" ld 0 5 6 s (fun c =>
    let n := c.ctx
    match s.ctxs.find n with
    | some x =>
      if !(x.st == .created || x.st == .ready || x.st == .saved || x.st == .faulted) then .done 1 s
      else if !(c.op0 == 0 && c.op1 == 0 && c.op2 == 0) then .done 2 s
      else
        let s1 := (s.discardRecords n).updCtx n (fun y => { y with st := .destroyed, order := [] })
        let s2 := (s1.failGrids (s1.openGrids n) none).refreshQueues n
        if s2.ctxEmpty n then .done 0 (s2.dropCtx n) else .later s2
    | none => .done 1 s)
    (fun c => if s.ctxEmpty c.ctx then some (.done 0 (s.dropCtx c.ctx)) else none)

def execSetlimit (ld : Nat) (s : State) : Out :=
  ctxCommand "SETLIMIT" ld 6 s (fun n x c =>
    if !((x.map (·.st.live)).getD false) then (1, s)
    else if !(decide (64 ≤ c.op0) && decide (c.op0 ≤ 65535) && c.op1 == 0 && c.op2 == 0) then (2, s)
    else (0, s.updCtx n (fun y => { y with spLimit := c.op0 })))

/-! ## Queue commands -/

/-- The operands of QCREATE (R96, R385). -/
def State.qcreateOk (s : State) (ld : Nat) (c : Cmd) : Bool :=
  let q := c.op1 % 64
  let kind := c.op1 / 2 ^ 15 % 4
  c.op0 % 4096 == 0 && decide (c.op0 < 2 ^ 56) && c.op1 / 64 % 4 == 0 && decide (4 ≤ c.op1 / 256 % 32) && decide (c.op1 / 256 % 32 ≤ 20) &&
  kind != 3 && c.op1 / 2 ^ 17 == 0 && (s.queue ld q).isNone &&
  (if kind = 2 then s.feature ld 8 && (s.contQueue ld c.ctx).isNone && decide (c.op2 < 2 ^ 56) else c.op2 == 0)

/-- A new queue: head and tail zero; `err` is the error that its bell record still shows. -/
def newQueue (c : Cmd) (err : Nat) : Queue :=
  let kind := c.op1 / 2 ^ 15 % 4
  { ctx := c.ctx, kind := if kind = 0 then .host else if kind = 1 then .device else .cont, base := c.op0, log2 := c.op1 / 256 % 32,
    prio := c.op1 / 2 ^ 13 % 4, entries := c.op2, tail := 0, head := 0, st := .idle, error := err, held := false, started := [],
    children := [], since := none, promoted := false, wait := none, accepted := none, conts := [] }

def execQcreate (ld : Nat) (s : State) : Out :=
  command1 "QCREATE" ld 1 1 5 s (fun c =>
    if !(((s.ctxs.find c.ctx).map (·.st.live)).getD false) then (1, s)
    else if !s.qcreateOk ld c then (2, s)
    else
      let q := c.op1 % 64
      let err := ((SMap.find (s.ld ld).retired q).map (·.error)).getD 0
      (0, (s.updLd ld (fun d => { d with retired := d.retired.del q })).putQueue ld q (newQueue c err)))

/-- A command on a queue of its context: status 2 for any other queue number. -/
def queueCommand (row : String) (ld code : Nat) (s : State) (body : Nat → Queue → Nat × State) : Out :=
  command1 row ld 1 code 5 s (fun c =>
    if 64 ≤ c.op0 || c.op1 != 0 || c.op2 != 0 then (2, s)
    else match s.queue ld c.op0 with
    | none => (2, s)
    | some x => if x.ctx != c.ctx then (2, s) else body c.op0 x)

def execQsuspend (ld : Nat) (s : State) : Out :=
  queueCommand "QSUSPEND" ld 2 s (fun q x =>
    if x.st == .suspended || x.st == .error then (1, s) else (0, s.putQueue ld q { x with held := true }))

def execQresume (ld : Nat) (s : State) : Out :=
  queueCommand "QRESUME" ld 3 s (fun q x =>
    if x.st == .suspended then (0, s.putQueue ld q { x with held := false }) else (1, s))

/-- Child grids of packets of a queue that have not been taken. -/
def Queue.unstarted (x : Queue) : List Nat := (x.children.filter (fun p => decide (x.head ≤ p.1))).map (·.2)

/-- QRESET (R97, R120): the packets not taken are discarded, with their children. -/
def execQreset (ld : Nat) (s : State) : Out :=
  queueCommand "QRESET" ld 4 s (fun q x =>
    if !(x.st == .error) then (1, s)
    else
      let y : Queue := { x with
        st := .idle, head := x.tail, wait := none, accepted := none, promoted := false,
        children := x.children.filter (fun p => decide (p.1 < x.head)) }
      (0, (s.failGrids x.unstarted none).putQueue ld q y))

def execQretire (ld : Nat) (s : State) : Out :=
  queueCommand "QRETIRE" ld 5 s (fun q x =>
    if !(x.st == .idle || x.st == .suspended || x.st == .error) || !x.started.isEmpty then (1, s)
    else (0, (s.failGrids x.unstarted none).updLd ld (fun d => d.retire q x true)))

/-! ## Page commands -/

/-- Drop a context's cached translations of a private range. -/
def State.dropTlb (s : State) (ctx va size : Nat) : State :=
  { s with tlb := s.tlb.filter (fun t => !(t.owner == ctx && decide (t.base < va + size) && decide (va < t.base + t.size))) }

/-- The range of an INVAL: 0 and 0 name the whole private window. -/
def invalRange (c : Cmd) : Nat × Nat := if c.op0 = 0 && c.op1 = 0 then (0, 2 ^ 55) else (c.op0, c.op1)

/-- An invalidation begins: each `MCAS` with entries in the range translates them anew if it starts again (R250). -/
def State.beginInval (s : State) (ctx va size : Nat) : State :=
  { s with groups := s.groups.mapV (fun _ (g : Group) =>
    if s.ctxNum g == ctx then { g with ops := g.ops.map (fun (o : PendOp) => o.hitMcas va size false) } else g) }

/-- An invalidation goes on: stores that checkpointed blocks hold into the range's frames are forced out; with none left, and no
access open that used a translation of the range, the translations go and it completes. -/
def State.moreInval (s : State) (c : Cmd) : Option CmdOut :=
  let r := invalRange c
  let hs := s.heldIn (fun x => x == c.ctx) (s.tlbFrames c.ctx r.1 r.2)
  if !hs.isEmpty then (s.forceCkpts hs).map .later
  else if s.inFlight (fun x => x == c.ctx) false r.1 r.2 then none
  else some (.done 0 (s.dropTlb c.ctx r.1 r.2))

/-- INVAL (R316): it completes once no TLB holds a translation of the range and no access that used one is open, held stores of
checkpointed blocks among them. -/
def execInval (ld : Nat) (s : State) : Out :=
  command "INVAL" ld 2 1 4 s (fun c =>
    let r := invalRange c
    if (s.ctxs.find c.ctx).isNone then .done 1 s
    else if !(c.op2 == 0 && r.1 % 4096 == 0 && decide (r.1 < 2 ^ 55) && r.2 % 4096 == 0 && decide (4096 ≤ r.2) && decide (r.2 ≤ 2 ^ 55)) then
      .done 2 s
    else
      let t := s.beginInval c.ctx r.1 r.2
      (t.moreInval c).getD (.later t)) s.moreInval

/-- FAULTDONE (R316): a fault of the context that was forwarded to the host ends. -/
def execFaultdone (ld : Nat) (s : State) : Out :=
  command1 "FAULTDONE" ld 2 2 4 s (fun c =>
    match s.faults.find c.op0 with
    | some f =>
      if !(f.st == .forwarded && f.ld == ld && f.ctx == c.ctx && decide (c.op1 < 2) && c.op2 == 0) then (2, s)
      else (0, { s with faults := s.faults.set c.op0 { f with st := if c.op1 = 0 then .resolved else .failed } })
    | none => (2, s))

/-- POOL (R316, R318): a new allocation pool. -/
def execPool (ld : Nat) (s : State) : Out :=
  command1 "POOL" ld 2 3 4 s (fun c =>
    let regions := (List.range 768).filter (fun r => decide (r * Config.regionBytes < c.op0 + c.op1) && decide (c.op0 < (r + 1) * Config.regionBytes))
    if !(c.op0 % 2 ^ 21 == 0 && c.op1 % 2 ^ 21 == 0 && decide (c.op1 ≤ Config.deviceBytes) && decide (c.op0 + c.op1 ≤ Config.deviceBytes) &&
      c.op2 == 0 && (c.op1 == 0 || regions.all (fun r => !s.mgmt.retired.contains r))) then (2, s)
    else (0, s.updLd ld (fun d => { d with poolBase := c.op0, poolSize := c.op1, poolUsed := [] })))

/-- RETIREOK (R318): a region that has been announced is vacated. -/
def execRetireok (ld : Nat) (s : State) : Out :=
  command1 "RETIREOK" ld 2 4 4 s (fun c =>
    if !(decide (s.mgmt.announced ≤ c.op0) && decide (c.op0 < 768) && c.op1 == 0 && c.op2 == 0) then (2, s)
    else (0, { s with mgmt := { s.mgmt with vacated := insertNat s.mgmt.vacated c.op0 } }))

/-! ## Trap commands -/

/-- A trap command: its context is neither EMPTY, FAULTED nor DESTROYED (R328). -/
def trapCommand (row : String) (ld code : Nat) (s : State) (body : Cmd → Nat × State) : Out :=
  command1 row ld 3 code 3 s (fun c => if ((s.ctxs.find c.ctx).map (·.st.live)).getD false then body c else (1, s))

def execHandler (ld : Nat) (s : State) : Out :=
  trapCommand "HANDLER" ld 1 s (fun c =>
    if !(c.op0 % 8 == 0 && decide (c.op0 < 2 ^ 56) && c.op2 % 4096 == 0 && decide (c.op2 < 2 ^ 56)) then (2, s)
    else (0, s.updCtx c.ctx (fun x => { x with handler := c.op0, hmask := BitVec.ofNat 64 c.op1, report := c.op2 })))

def execForward (ld : Nat) (s : State) : Out :=
  trapCommand "FORWARD" ld 2 s (fun c =>
    if !(c.op1 == 0 && c.op2 == 0) then (2, s) else (0, s.updCtx c.ctx (fun x => { x with fmask := BitVec.ofNat 64 c.op0 })))

/-- A lane of a completed record goes on (R336): at the word, or at the next. In a flagged or saved group it stays stopped
until the group resumes (R340). -/
def Group.unpark (g : Group) (rid : Nat) (pc : BitVec 56) : Group :=
  { g with lanes := g.lanes.map (fun x =>
    if x.st == .service rid then
      { x with st := (if g.flagged || g.state == .saved then .stopped .waitPoint else .running), pc := pc, hold := .none }
    else x) }

/-- The v0:v1 that a completed service record gives the lanes of its call. -/
def resultEff (regs : Nat) (m : Mask) (v : Nat → DWord) : Eff :=
  Eff.lanes (Mask.lanes m) (fun l =>
    (wReg (.v 0) l ((v l).setWidth 32)).append (if 2 ≤ regs then wReg (.v 1) l ((v l >>> 32).setWidth 32) else {}))

/-- Complete a record: the lanes take their results and go on, in the shadow of a checkpointed block too (R339), and a PARKED
group enters the pending set again. -/
def State.completeRecord (s : State) (rid : Nat) (x : SvcRec) (e : Eff) (pc : BitVec 56) : State :=
  let s0 := { s with records := s.records.del rid }
  match s0.grp x.grp with
  | none => s0
  | some g =>
    let g1 := (g.applyBoth e).unpark rid pc
    let g2 := if g.state == .parked then
        { g1 with state := s.entryState g.core (g.idx % 4), readyClk := s.clk, idleClk := s.clk }
      else g1
    let s1 := s0.setGrp x.grp g2
    s1.updBlk g.blk (fun b => { b with shadow := b.shadow.map (fun sh => { sh with
      groups := sh.groups.map (fun p => if p.1 == x.grp then (p.1, (p.2.applyBoth e).unpark rid pc) else p) }) })

/-- TRAPDONE (R328, R336, R340). A service record's results are the first eight bytes of each lane's slot as they stand in
device memory (R335). An unknown id is told from a context that takes no command: a reset has discarded the record (R388). -/
def execTrapdone (ld : Nat) (s : State) : Out :=
  command1 "TRAPDONE" ld 3 3 3 s (fun c =>
    match s.records.find c.op0 with
    | none => (2, s)
    | some x =>
      if !(((s.ctxs.find c.ctx).map (·.st.live)).getD false) then (1, s)
      else
      let mine := x.ld == ld && x.announced && field x.bytes 4 2 == c.ctx
      if !mine || 3 ≤ c.op1 || c.op2 != 0 then (2, s)
      else match s.grp x.grp with
      | none => (1, s)
      | some g =>
        if g.state == .exited then (1, s) else
        let e : Eff := if c.op1 = 1 && x.code.isSome then resultEff (s.descOf g).regs x.lanes (fun l =>
            BitVec.ofNat 64 (Memory.read s.mem (x.addr + 64 + 32 * l) 8)) else {}
        if c.op1 = 2 then (0, { s.failGrids [g.grid] (some (g.grid, [field x.bytes 0 2], x.bytes.take 64)) with
            records := s.records.del c.op0 })
        else (0, s.completeRecord c.op0 x e (if c.op1 = 1 then x.pc + 8 else x.pc)))

end Sys2Proof.Machine
end

