-- ==== Sys2Proof/Machine/Transcend.lean ====
section
/-! DEFINITION. The transcendental words (R188, R189): exact cases and special cases as stated; elsewhere the result is
a free value kept within the stated bound, which a fixed-point evaluation of the exact function decides: its own error lies far
below what separates a representable value from a bound (log entry 7). -/

namespace Sys2Proof.Machine

/-! ## The exact functions in fixed point, 256 fraction bits -/

def fixOne : Nat := 2 ^ 256
/-- ln 2 × 2^256. -/
def fixLn2 : Nat := 80260960185991308862233904206310070533990667611589946606122867505419956976171
/-- 2/π × 2^512. -/
def fixTwoOverPi : Nat :=
  8535675632308308185205786335422061505642989735860207386942128722424051074295790415111967893997186154871842859740117799349179547364513177799357434299106436
/-- π/2 × 2^256. -/
def fixHalfPi : Nat := 181885788445883162140117471388864931326696688664196214979386075558969447233092

/-- Taylor sum of exp: term k is the one before × y / k. -/
def expLoop : Nat → Nat → Nat → Nat → Nat → Nat
  | 0, _, _, _, acc => acc
  | n + 1, k, y, term, acc => let t := term * y / fixOne / k; expLoop n (k + 1) y t (acc + t)

/-- exp(y) for 0 ≤ y < 1, all scaled by 2^256. -/
def expFix (y : Nat) : Nat := expLoop 60 1 y fixOne fixOne

/-- 2^x for x = m × 2^e (signed), as n × 2^k. -/
def exp2Dy (m e : Int) : Dy :=
  let t : Int := if 0 ≤ e + 256 then m * 2 ^ (e + 256).toNat else m / (2 ^ (-(e + 256)).toNat : Nat)
  let i := t / (fixOne : Int)
  let f := (t % (fixOne : Int)).toNat
  ⟨(expFix (f * fixLn2 / fixOne) : Nat), i - 256⟩

/-- Fraction bits of log2 by repeated squaring of x in [1, 2) scaled by 2^256. -/
def logLoop : Nat → Nat → Nat → Nat
  | 0, _, acc => acc
  | n + 1, x, acc =>
    let y := x * x / 2 ^ 256
    if 2 ^ 257 ≤ y then logLoop n (y / 2) (2 * acc + 1) else logLoop n y (2 * acc)

/-- log2 of m × 2^e, m > 0, to 120 fraction bits. -/
def log2Dy (m : Nat) (e : Int) : Dy :=
  let k := Nat.log2 m
  let x := m * 2 ^ 256 / 2 ^ k
  ⟨((k : Int) + e) * (2 ^ 120 : Nat) + (logLoop 120 x 0 : Nat), -120⟩

/-- Taylor sums of sin and cos: alternating terms, scaled by 2^256. -/
def trigLoop : Nat → Nat → Nat → Int → Int → Int
  | 0, _, _, _, acc => acc
  | n + 1, k, y2, term, acc =>
    let t := -(term * y2) / (2 ^ 256 : Nat) / ((k * (k + 1) : Nat) : Int)
    trigLoop n (k + 2) y2 t (acc + t)

/-- sin or cos of an angle below π/2 scaled by 2^256. -/
def sinFix (y : Nat) : Int := trigLoop 40 2 (y * y / 2 ^ 256) y y
def cosFix (y : Nat) : Int := trigLoop 40 1 (y * y / 2 ^ 256) (2 ^ 256 : Nat) (2 ^ 256 : Nat)

/-- sin or cos of m × 2^e, the argument reduced by the bits of 2/π (R188); cos of a small one is barely below 1. -/
def trigDy (cos neg : Bool) (m : Nat) (e : Int) : Dy :=
  let p := m * fixTwoOverPi
  let t := if e - 256 ≥ 0 then p * 2 ^ (e - 256).toNat else p / 2 ^ (256 - e).toNat
  let q := t / 2 ^ 256 % 4
  let y := t % 2 ^ 256 * fixHalfPi / 2 ^ 256
  let v : Int :=
    if cos then (match q with | 0 => cosFix y | 1 => -(sinFix y) | 2 => -(cosFix y) | _ => sinFix y)
    else (match q with | 0 => sinFix y | 1 => cosFix y | 2 => -(sinFix y) | _ => -(cosFix y))
  if cos && decide ((Nat.log2 m : Int) + e < -100) then Dy.add ⟨1, 0⟩ ⟨-((m * m : Nat) : Int), 2 * e - 1⟩
  else ⟨if neg && !cos then -v else v, -256⟩

/-- tanh of m × 2^e, m > 0, scaled by 2^256; of a small argument, a value barely below it. -/
def tanhDy (m : Nat) (e : Int) : Dy :=
  let big := decide (5 ≤ (Nat.log2 m : Int) + e)
  if big then ⟨(fixOne - 1 : Nat), -256⟩
  else if (Nat.log2 m : Int) + e < -60 then ⟨(m * 2 ^ 200 - 1 : Nat), e - 200⟩
  else
    let y := if 0 ≤ e + 257 then m * 2 ^ (e + 257).toNat else m / 2 ^ (-(e + 257)).toNat
    let z := y * fixOne / fixLn2
    let t := expFix (z % fixOne * fixLn2 / fixOne) * 2 ^ (z / fixOne)
    ⟨((t - fixOne) * fixOne / (t + fixOne) : Nat), -256⟩

/-! ## Bounds -/

/-- The spacing of FP32 values at an exact value, subnormal spacing included (R188), as a power of two. -/
def ulpExp (v : Dy) : Int :=
  if v.m == 0 then -149
  else
    let k := (Nat.log2 v.m.natAbs : Int) + v.e
    if k < -126 then -149 else k - 23

/-- |c − v| ≤ 2^b. -/
def within (c : Word) (v : Dy) (b : Int) : Bool :=
  match fp32.value c.toNat with
  | .fin n m e =>
    let d := Dy.add ⟨if n then -(m : Int) else m, e⟩ ⟨-v.m, v.e⟩
    decide (0 ≤ (Dy.add ⟨1, b⟩ ⟨-(d.m.natAbs : Int), d.e⟩).m)
  | _ => false

def signNat (n : Bool) : Nat := if n then 2 ^ 31 else 0

/-- A result whose exact value has a sign and may be tiny: one that is tiny before rounding becomes zero of its sign under `ftz` (R25).
Underflow is set where the exact value is tiny after rounding, for whatever result is delivered (R26), and for a subnormal result and a
flushed one (R189). -/
def transResult (ftz before after neg : Bool) (bits : Nat) : Nat × Flags :=
  if ftz && before then (signNat neg, fUnderflow)
  else (bits, if after || fp32.subnormal bits then fUnderflow else 0)

/-- |x| ≤ 2^−126 for x = m × 2^e: sin and tanh of it are tiny before rounding, and but for |x| = 2^−126 after it. -/
def smallArg (m : Nat) (e : Int) : Bool := decide (0 ≤ (Dy.add ⟨1, -126⟩ ⟨-(m : Int), e⟩).m)
def tinyArg (m : Nat) (e : Int) : Bool := decide (0 < (Dy.add ⟨1, -126⟩ ⟨-(m : Int), e⟩).m)

/-- The proposed value when it lies within the bound and keeps the sign rule, else the exact value rounded. -/
def transPick (id : Nat) (a : Word) (daz ftz before after : Bool) (v : Dy) (b : Int) (ok : Word → Bool) : Nat × Flags :=
  let c := Config.transcendental id a daz ftz
  transResult ftz before after (decide (v.m < 0)) (if within c v b && ok c then c.toNat else (fp32.roundDy ⟨.rn, false, false⟩ v false).1)

/-- One of the two bracketing values (R188), or the value itself when exact. Beyond the largest finite value the two
are that value and infinity, and either sets overflow, which R189 does not list (log entry 7). -/
def faithfulPick (id : Nat) (a : Word) (daz ftz neg : Bool) (num den : Nat) (e : Int) : Nat × Flags :=
  let lo := fp32.round ⟨.rz, false, false⟩ neg num den e
  let small := decide (magExp num den e < -126)
  if lo.2 == 0 then transResult ftz small false neg lo.1
  else
    let up := Config.faithful id a daz ftz
    let bits := if up then lo.1 + 1 else lo.1
    let r := transResult ftz small small neg bits
    (r.1, r.2 ||| (if lo.1 % 2 ^ 31 + 1 == fp32.inf then fOverflow else 0))

/-- The reciprocal square root as a dyadic below the exact value, with a sticky last bit. -/
def rsqrtDy (m : Nat) (e : Int) : Nat × Int :=
  let m1 := if e % 2 == 0 then m else 2 * m
  let e1 := if e % 2 == 0 then e else e - 1
  let n := 2 ^ 256
  let s := isqrt (n / m1)
  (2 * s + (if s * s * m1 == n then 0 else 1), -128 - e1 / 2 - 1)

/-! ## The words (R189) -/

def fp32NaN : Nat := 0x7FC00000

/-- Any NaN gives the canonical NaN; a signalling one sets invalid. -/
def nanResult (sig : Bool) : Nat × Flags := (fp32NaN, if sig then fInvalid else 0)

def frcp (a : Word) (daz ftz : Bool) : Nat × Flags :=
  match fp32.value a.toNat with
  | .nan s => nanResult s
  | .inf n => (signNat n, 0)
  | .fin n m e => if m == 0 then (signNat n + fp32.inf, fDivzero) else faithfulPick 0 a daz ftz n 1 m (-e)

def frsq (a : Word) (daz ftz : Bool) : Nat × Flags :=
  match fp32.value a.toNat with
  | .nan s => nanResult s
  | .inf n => if n then (fp32NaN, fInvalid) else (0, 0)
  | .fin n m e =>
    if m == 0 then (signNat n + fp32.inf, fDivzero)
    else if n then (fp32NaN, fInvalid)
    else let p := rsqrtDy m e; faithfulPick 1 a daz ftz false p.1 1 p.2

/-- The integer value of m × 2^e, if it is one. -/
def intOf (m : Nat) (e : Int) : Option Nat :=
  if 0 ≤ e then some (m * 2 ^ e.toNat) else if m % 2 ^ (-e).toNat == 0 then some (m / 2 ^ (-e).toNat) else none

def fex2 (a : Word) (daz ftz : Bool) : Nat × Flags :=
  match fp32.value a.toNat with
  | .nan s => nanResult s
  | .inf n => if n then (0, 0) else (fp32.inf, 0)
  | .fin n m e =>
    let x : Dy := ⟨if n then -(m : Int) else m, e⟩
    if 0 ≤ (x.add ⟨-128, 0⟩).m then (fp32.inf, fOverflow)
    else if (x.add ⟨149, 0⟩).m < 0 then (0, fUnderflow)
    else
      let v := exp2Dy x.m x.e
      let tiny := decide ((x.add ⟨126, 0⟩).m < 0)
      match intOf m e with
      | some k =>
        let i : Int := if n then -(k : Int) else k
        if -126 ≤ i then (((i + 127).toNat) * 2 ^ 23, 0)
        else transPick 2 a daz ftz tiny tiny v (ulpExp v + 1) (fun c => !c.msb)
      | none => transPick 2 a daz ftz tiny tiny v (ulpExp v + 1) (fun c => !c.msb)

def flg2 (a : Word) (daz ftz : Bool) : Nat × Flags :=
  match fp32.value a.toNat with
  | .nan s => nanResult s
  | .inf n => if n then (fp32NaN, fInvalid) else (fp32.inf, 0)
  | .fin n m e =>
    if m == 0 then (signBitInf, fDivzero)
    else if n then (fp32NaN, fInvalid)
    else
      let k := Nat.log2 m
      if m == 2 ^ k then ((fp32.ofInt ⟨.rn, false, false⟩ ((k : Int) + e)).1, 0)
      else
        let v := log2Dy m e
        -- a in [0.5, 2]: the exponent of its leading bit is −1 or 0 (2 itself is a power of two)
        let near := decide (-1 ≤ (k : Int) + e) && decide ((k : Int) + e ≤ 0)
        transPick 3 a daz ftz false false v (if near then -22 else ulpExp v + 1) (fun _ => true)
where
  signBitInf : Nat := 2 ^ 31 + fp32.inf

def ftrig (cos : Bool) (a : Word) (daz ftz : Bool) : Nat × Flags :=
  match fp32.value a.toNat with
  | .nan s => nanResult s
  | .inf _ => (fp32NaN, fInvalid)
  | .fin n m e =>
    if m == 0 then (if cos then 0x3F800000 else signNat n, 0)
    else transPick (if cos then 5 else 4) a daz ftz (!cos && smallArg m e) (!cos && tinyArg m e) (trigDy cos n m e) (-22) (fun _ => true)

def ftanh (a : Word) (daz ftz : Bool) : Nat × Flags :=
  match fp32.value a.toNat with
  | .nan s => nanResult s
  | .inf n => (signNat n + 0x3F800000, 0)
  | .fin n m e =>
    if m == 0 then (signNat n, 0)
    else
      let t := tanhDy m e
      let v : Dy := ⟨if n then -t.m else t.m, t.e⟩
      transPick 6 a daz ftz (smallArg m e) (tinyArg m e) v (ulpExp v + 1) (fun c => c.msb == n && decide (c.toNat % 2 ^ 31 ≤ 0x3F800000))

end Sys2Proof.Machine
end

