-- ==== Sys2Proof/Machine/FloatWords.lean ====
section
/-! DEFINITION. The floating-point words, majors 0x20 to 0x36 (R179 to R189). -/

namespace Sys2Proof.Machine

/-- `fp.mode` fields (R25). -/
def Group.ftz (g : Group) : Bool := g.fpMode.getLsbD 3
def Group.daz (g : Group) : Bool := g.fpMode.getLsbD 2

/-- A rounding code 0 to 3 (R25). -/
def modeOf (n : Nat) : RMode :=
  match n % 4 with
  | 0 => .rn | 1 => .rz | 2 => .rp | _ => .rm

def Group.rnd (g : Group) : RMode := modeOf g.fpMode.toNat

end Sys2Proof.Machine

namespace Sys2Proof
open Machine

/-- The mode a word rounds in (R180). -/
def RndSel.rmode (r : RndSel) (g : Group) : RMode :=
  match r with
  | .mode _ => g.rnd
  | .rn => .rn | .rz => .rz | .rp => .rp | .rm => .rm

end Sys2Proof

namespace Sys2Proof.Machine

def rndOf (g : Group) (r : RndSel) (sat : Bool) : Rnd := ⟨r.rmode g, sat, g.ftz⟩

end Sys2Proof.Machine

namespace Sys2Proof
open Machine

/-- A FP32 source of a lane after `daz` (R179), with its denorm flag. -/
def Src.fp (g : Group) (l : Nat) (x : Src) : Nat × Flags := fp32.daz g.daz (x.get g l .fp).toNat

end Sys2Proof

namespace Sys2Proof.Machine

/-- A one-source FP32 word. -/
def effFp1 (f : Group → Nat → Nat × Flags) (o : Op1) (g : Group) (ex : Mask) : Eff :=
  runDst g ex o.d (fun l =>
    let a := o.a.fp g l
    let r := f g a.1
    (wNat false o.d l r.1).append (wFlags (r.2 ||| a.2)))

/-- A two-source FP32 word. -/
def effFp2 (f : Group → Nat → Nat → Nat × Flags) (o : Op2) (g : Group) (ex : Mask) : Eff :=
  runDst g ex o.d (fun l =>
    let a := o.a.fp g l
    let b := o.b.fp g l
    let r := f g a.1 b.1
    (wNat false o.d l r.1).append (wFlags (r.2 ||| a.2 ||| b.2)))

def effFma (r : RndSel) (sat : Bool) (o : Op3) (g : Group) (ex : Mask) : Eff :=
  runDst g ex o.d (fun l =>
    let a := o.a.fp g l
    let b := o.b.fp g l
    let c := o.c.fp g l
    let z := fp32.fma (rndOf g r sat) a.1 b.1 c.1
    (wNat false o.d l z.1).append (wFlags (z.2 ||| a.2 ||| b.2 ||| c.2)))

def effFscale (r : RndSel) (sat : Bool) (o : Op2) (g : Group) (ex : Mask) : Eff :=
  runDst g ex o.d (fun l =>
    let a := o.a.fp g l
    let z := fp32.fscale (rndOf g r sat) a.1 (readInt true 32 (o.b.get g l .sext).toNat)
    (wNat false o.d l z.1).append (wFlags (z.2 ||| a.2)))

def effFset (cc : FCc) (d : CmpDst) (a b : Src) (g : Group) (ex : Mask) : Eff :=
  runCmp g ex d (fun l =>
    let x := a.fp g l
    let y := b.fp g l
    let u := fp32.value x.1
    let v := fp32.value y.1
    (fsetHolds cc u v, sigFlag [u, v] ||| x.2 ||| y.2))

end Sys2Proof.Machine

namespace Sys2Proof
open Machine

/-- The format of an F3 code. -/
def F3.fmt : F3 → Fmt
  | .f32 => Machine.fp32 | .f16 => Machine.fp16 | .bf16 => Machine.bf16

end Sys2Proof

namespace Sys2Proof.Machine

/-- The packed format (R187). -/
def pkFmt (bf : Bool) : Fmt := if bf then bf16 else fp16

/-- One half of a packed operand after `daz`. -/
def half (g : Group) (bf : Bool) (x : Nat) (h : Nat) : Nat × Flags := (pkFmt bf).daz g.daz (x / 2 ^ (16 * h) % 2 ^ 16)

/-- A packed word: each half on its own, flags of both (R187). -/
def packed (g : Group) (bf : Bool) (xs : List Nat) (f : List Nat → Nat × Flags) : Nat × Flags :=
  let lo := xs.map (fun x => half g bf x 0)
  let hi := xs.map (fun x => half g bf x 1)
  let a := f (lo.map (·.1))
  let b := f (hi.map (·.1))
  (a.1 + b.1 * 2 ^ 16, (lo ++ hi).foldl (fun acc x => acc ||| x.2) (a.2 ||| b.2))

def effPk2 (bf : Bool) (f : Group → Fmt → Nat → Nat → Nat × Flags) (o : Op2) (g : Group) (ex : Mask) : Eff :=
  runDst g ex o.d (fun l =>
    let z := packed g bf [(o.a.get g l .pk).toNat, (o.b.get g l .pk).toNat]
      (fun xs => f g (pkFmt bf) (xs.getD 0 0) (xs.getD 1 0))
    (wNat false o.d l z.1).append (wFlags z.2))

def effPkfma (bf : Bool) (r : RndSel) (sat : Bool) (o : Op3) (g : Group) (ex : Mask) : Eff :=
  runDst g ex o.d (fun l =>
    let z := packed g bf [(o.a.get g l .pk).toNat, (o.b.get g l .pk).toNat, (o.c.get g l .pk).toNat]
      (fun xs => (pkFmt bf).fma (rndOf g r sat) (xs.getD 0 0) (xs.getD 1 0) (xs.getD 2 0))
    (wNat false o.d l z.1).append (wFlags z.2))

/-- `FDP2`: both products and the addend summed exactly, rounded once (R187). -/
def fdp2 (g : Group) (bf : Bool) (r : Rnd) (a b c : Nat) : Nat × Flags :=
  let hs := [half g bf a 0, half g bf a 1, half g bf b 0, half g bf b 1]
  let z := fp32.daz g.daz c
  let v := hs.map (fun h => (pkFmt bf).value h.1)
  let a0 := v.getD 0 (.nan false)
  let a1 := v.getD 1 (.nan false)
  let b0 := v.getD 2 (.nan false)
  let b1 := v.getD 3 (.nan false)
  let cv := fp32.value z.1
  let any := (v ++ [cv]).any FV.isNan
  let bad := !any && (invalidMul a0 b0 || invalidMul a1 b1)
  let s := fp32.sum r [a0.mul b0, a1.mul b1, cv]
  let fl := if any then sigFlag (v ++ [cv]) else s.2 ||| (if bad then fInvalid else 0)
  (s.1, hs.foldl (fun acc h => acc ||| h.2) (fl ||| z.2))

def effFdp2 (bf : Bool) (r : RndSel) (sat : Bool) (o : Op3) (g : Group) (ex : Mask) : Eff :=
  runDst g ex o.d (fun l =>
    let z := fdp2 g bf (rndOf g r sat) (o.a.get g l .pk).toNat (o.b.get g l .pk).toNat (o.c.get g l .fp).toNat
    (wNat false o.d l z.1).append (wFlags z.2))

def effFclass (f : F3) (o : Op1) (g : Group) (ex : Mask) : Eff :=
  runDst g ex o.d (fun l => wNat false o.d l ((F3.fmt f).fclass ((o.a.get g l .fp).toNat % 2 ^ (F3.fmt f).width)))

/-- A transcendental: `daz` on the operand, its own result and flags (R188, R189). -/
def trans (f : Word → Bool → Bool → Nat × Flags) (g : Group) (a : Nat) : Nat × Flags :=
  f (BitVec.ofNat 32 a) g.daz g.ftz

/-! ## The words -/

def execFadd (r : RndSel) (sat : Bool) (o : Op2) (s : State) : Out :=
  laneWord s (.fadd r sat o) o.g (effFp2 (fun g => fp32.fadd (rndOf g r sat)) o)
def execFmul (r : RndSel) (sat : Bool) (o : Op2) (s : State) : Out :=
  laneWord s (.fmul r sat o) o.g (effFp2 (fun g => fp32.fmul (rndOf g r sat)) o)
def execFma (r : RndSel) (sat : Bool) (o : Op3) (s : State) : Out := laneWord s (.fma r sat o) o.g (effFma r sat o)
def execFmin (o : Op2) (s : State) : Out := laneWord s (.fmin o) o.g (effFp2 (fun _ => fp32.minmax false) o)
def execFmax (o : Op2) (s : State) : Out := laneWord s (.fmax o) o.g (effFp2 (fun _ => fp32.minmax true) o)
def execFset (cc : FCc) (g : Guard) (d : CmpDst) (a b : Src) (s : State) : Out :=
  laneWord s (.fset cc g d a b) g (effFset cc d a b)
def execFclass (f : F3) (o : Op1) (s : State) : Out := laneWord s (.fclass f o) o.g (effFclass f o)
def execFrnd (r : RndSel) (o : Op1) (s : State) : Out :=
  laneWord s (.frnd r o) o.g (effFp1 (fun g => fp32.frnd (r.rmode g)) o)
def execPkadd (bf : Bool) (r : RndSel) (sat : Bool) (o : Op2) (s : State) : Out :=
  laneWord s (.pkadd bf r sat o) o.g (effPk2 bf (fun g f => f.fadd (rndOf g r sat)) o)
def execPkmul (bf : Bool) (r : RndSel) (sat : Bool) (o : Op2) (s : State) : Out :=
  laneWord s (.pkmul bf r sat o) o.g (effPk2 bf (fun g f => f.fmul (rndOf g r sat)) o)
def execPkfma (bf : Bool) (r : RndSel) (sat : Bool) (o : Op3) (s : State) : Out :=
  laneWord s (.pkfma bf r sat o) o.g (effPkfma bf r sat o)
def execPkmm (bf mx : Bool) (o : Op2) (s : State) : Out :=
  laneWord s (.pkmm bf mx o) o.g (effPk2 bf (fun _ f => f.minmax mx) o)
def execFdp2 (bf : Bool) (r : RndSel) (sat : Bool) (o : Op3) (s : State) : Out :=
  laneWord s (.fdp2 bf r sat o) o.g (effFdp2 bf r sat o)
def execFscale (r : RndSel) (sat : Bool) (o : Op2) (s : State) : Out :=
  laneWord s (.fscale r sat o) o.g (effFscale r sat o)
def execFrcp (o : Op1) (s : State) : Out := laneWord s (.frcp o) o.g (effFp1 (trans frcp) o)
def execFrsq (o : Op1) (s : State) : Out := laneWord s (.frsq o) o.g (effFp1 (trans frsq) o)
def execFsqrt (r : RndSel) (o : Op1) (s : State) : Out :=
  laneWord s (.fsqrt r o) o.g (effFp1 (fun g => fp32.fsqrt (rndOf g r false)) o)
def execFex2 (o : Op1) (s : State) : Out := laneWord s (.fex2 o) o.g (effFp1 (trans fex2) o)
def execFlg2 (o : Op1) (s : State) : Out := laneWord s (.flg2 o) o.g (effFp1 (trans flg2) o)
def execFsin (o : Op1) (s : State) : Out := laneWord s (.fsin o) o.g (effFp1 (trans (ftrig false)) o)
def execFcos (o : Op1) (s : State) : Out := laneWord s (.fcos o) o.g (effFp1 (trans (ftrig true)) o)
def execFtanh (o : Op1) (s : State) : Out := laneWord s (.ftanh o) o.g (effFp1 (trans ftanh) o)
def execFdiv (r : RndSel) (sat : Bool) (o : Op2) (s : State) : Out :=
  laneWord s (.fdiv r sat o) o.g (effFp2 (fun g => fp32.fdiv (rndOf g r sat)) o)

end Sys2Proof.Machine
end

