-- ==== Sys2Proof/Machine/Convert.lean ====
section
/-! DEFINITION. The conversion words `CVT`, `CVTQ` and `CVTD` (R190 to R193), with the per-lane generator of stochastic
rounding (R23). -/

namespace Sys2Proof.Machine

end Sys2Proof.Machine

namespace Sys2Proof
open Machine

/-- The format of a float element type. -/
def CTy.fmt : CTy → Fmt
  | .f16 => Machine.fp16 | .bf16 => Machine.bf16 | .e4m3 => Machine.e4m3 | .e5m2 => Machine.e5m2 | _ => Machine.fp32

def CTy.signed : CTy → Bool
  | .s4 | .s8 | .s16 | .s32 | .s64 => true
  | _ => false

end Sys2Proof

namespace Sys2Proof.Machine

/-- The element of a source read (R190): its bits. -/
def elemOf (w k v : Nat) : Nat := v / 2 ^ (w * k) % 2 ^ w

/-- Replace an element, keeping the other bits (R191). -/
def putElem (w k old v : Nat) : Nat :=
  old - elemOf w k old * 2 ^ (w * k) + v % 2 ^ w * 2 ^ (w * k)

/-- The converted bits of one element with flags (R191). -/
def cvtElem (g : Group) (dst src : CTy) (mode : RMode) (sat : Bool) (bits : Nat) : Nat × Flags :=
  let r : Rnd := ⟨mode, sat, g.ftz⟩
  if src.isFloat then
    let x := (CTy.fmt src).daz g.daz bits
    if dst.isFloat then
      let y := (CTy.fmt src).convert (CTy.fmt dst) r x.1
      (y.1, y.2 ||| x.2)
    else
      let y := (CTy.fmt src).toInt mode (CTy.signed dst) dst.bits x.1
      (wrapInt dst.bits y.1, y.2 ||| x.2)
  else
    let v := readInt (CTy.signed src) src.bits bits
    if dst.isFloat then (CTy.fmt dst).ofInt r v
    else
      let y := clampInt (CTy.signed dst) dst.bits v
      if sat then (wrapInt dst.bits y, if y == v then 0 else fSat) else (wrapInt dst.bits v, 0)

/-- The mode of a lane: `.sr` draws 24 bits from its generator (R23). -/
def srMode (g : Group) (l : Nat) (sr : Bool) (m : RMode) : RMode := if sr then .sr (rngBits (g.lane l).rng) else m

/-- The lane's generator advances once per element converted (R23). -/
def wRng (g : Group) (l : Nat) (sr : Bool) : Eff := if sr then { rng := [(l, rngStep (g.lane l).rng)] } else {}

def effCvt (dst src : CTy) (sel pos : BitVec 3) (r : RndSel) (sr sat : Bool) (d a : Reg) (g : Group) (ex : Mask) : Eff :=
  runDst g ex d (fun l =>
    let bits := if src.bits = 64 then (a.get64 g l).toNat else elemOf src.bits sel.toNat (a.get g l).toNat
    let y := cvtElem g dst src (srMode g l sr (r.rmode g)) sat bits
    let w := if dst.bits = 64 then wNat true d l y.1
      else if dst.bits = 32 then wNat false d l y.1
      else wNat false d l (putElem dst.bits pos.toNat (d.get g l).toNat y.1)
    (w.append (wFlags y.2)).append (wRng g l sr))

/-- The blocks of `CVTQ` (R192): lanes kL to kL + L − 1. A lane that does not execute, or is a helper, gives +0. -/
def quantBlocks (ty : BTy) (L : Nat) (sr : Bool) (m : RMode) (sat : Bool) (a : BitVec 8) (g : Group) (ex : Mask) :
    List (Nat × (Nat × List Nat × Flags) × Flags) :=
  (List.range (g.width / L)).map (fun k =>
    let ls := (List.range L).map (fun i => k * L + i)
    let xs := ls.map (fun l => if Mask.has ex l && !g.isHelper l then fp32.daz g.daz (g.rv a.toNat l).toNat else (0, 0))
    let q := quantise ty sat (xs.map (fun x => fp32.value x.1)) (ls.map (fun l => srMode g l sr m))
    (k, q, xs.foldl (fun acc x => acc ||| x.2) 0))

/-- A signalling NaN among the block's sources sets invalid with the block's own flag (R20 step 1). -/
def effCvtq (ty : BTy) (l32 scale sr : Bool) (r : RndSel) (sat : Bool) (pos : BitVec 3) (d a : BitVec 8) (g : Group)
    (ex : Mask) : Eff :=
  let L := if l32 then 32 else 16
  (quantBlocks ty L sr (r.rmode g) sat a g ex).foldl (fun acc b =>
    let ls := (Mask.lanes ex).filter (fun l => l / L == b.1)
    let e := Eff.lanes ls (fun l =>
      (if scale then wReg (.v d) l (BitVec.ofNat 32 b.2.1.1)
        else wNat false (.v d) l (putElem 4 pos.toNat (g.rv d.toNat l).toNat (b.2.1.2.1.getD (l % L) 0))).append
      (if scale then {} else wRng g l sr))
    let fl := if ls.isEmpty then 0 else (if scale then (b.2.1.2.2 ||| b.2.2) &&& fInvalid else b.2.1.2.2 ||| b.2.2)
    (acc.append e).append (wFlags fl)) {}

def effCvtd (f : F3) (r : RndSel) (sat : Bool) (elem : BitVec 3) (hi : Bool) (d a : BitVec 8) (b : Reg) (g : Group)
    (ex : Mask) : Eff :=
  Eff.lanes (Mask.lanes ex) (fun l =>
    let v := blockElem ((b.get g l).toNat % 256) (elemOf 4 elem.toNat (g.rv a.toNat l).toNat)
    let y := v.roundTo (F3.fmt f) (if f == .f32 then ⟨.rn, false, false⟩ else rndOf g r sat)
    let w := if f == .f32 then wNat false (.v d) l y.1
      else wNat false (.v d) l (putElem 16 hi.toNat (g.rv d.toNat l).toNat y.1)
    w.append (wFlags y.2))

def execCvt (dst src : CTy) (sel pos : BitVec 3) (r : RndSel) (sr sat : Bool) (g : Guard) (d a : Reg) (s : State) : Out :=
  laneWord s (.cvt dst src sel pos r sr sat g d a) g (effCvt dst src sel pos r sr sat d a)
def execCvtq (ty : BTy) (l32 scale sr : Bool) (r : RndSel) (sat : Bool) (pos : BitVec 3) (g : Guard) (d a : BitVec 8)
    (s : State) : Out :=
  laneWord s (.cvtq ty l32 scale sr r sat pos g d a) g (effCvtq ty l32 scale sr r sat pos d a)
def execCvtd (f : F3) (r : RndSel) (sat : Bool) (elem : BitVec 3) (half : Bool) (g : Guard) (d a : BitVec 8) (b : Reg)
    (s : State) : Out :=
  laneWord s (.cvtd f r sat elem half g d a b) g (effCvtd f r sat elem half d a b)

end Sys2Proof.Machine
end

