-- ==== Sys2Proof/Machine/Tables.lean ====
section
/-! DEFINITION. The activation tables: `TBLD`, its completion, and `TBL` (R194 to R197). -/

namespace Sys2Proof.Machine

/-- The table words of a bank: word k of the image. -/
def Core.table (c : Core) (bank : Bool) (k : Nat) : Nat := (SMap.getD (if bank then c.img1 else c.img0) k 0).toNat

def Core.tag (c : Core) (bank : Bool) : Option (Nat × Nat) := if bank then c.tag1 else c.tag0

/-- An image's header obeys R194: lo finite; scale positive, normal and finite; the reserved bytes zero. -/
def tableOk (w : Nat → Nat) : Bool :=
  w 0 / 2 ^ 23 % 256 != 255 && w 1 / 2 ^ 31 == 0 && w 1 / 2 ^ 23 % 256 != 0 && w 1 / 2 ^ 23 % 256 != 255 &&
  (List.range 12).all (fun i => w (4 + i) == 0)

/-- A result taken from the table as it stands: a NaN is canonical (R14), and `ftz` flushes a tiny one (R25, R179). -/
def tblEdge (ftz : Bool) (x : Nat) : Nat × Flags :=
  let v := Machine.fp32.value x
  let y := v.roundTo Machine.fp32 ⟨.rn, false, ftz⟩
  (y.1, y.2 ||| sigFlag [v])

/-- One interpolation of an operand after `daz` (R196): the value with its flags. -/
def interpolate (w : Nat → Nat) (ftz : Bool) (x : Nat) : Nat × Flags :=
  let r : Rnd := ⟨.rn, false, false⟩
  match Machine.fp32.value x with
  | .nan sig => (Machine.fp32.qnan, if sig then fInvalid else 0)
  | .inf neg => tblEdge ftz (if neg then w 2 else w 3)
  | .fin n m e =>
    let lo := (Machine.fp32.value (w 0)).dy
    let d := ((FV.fin n m e).dy.add ⟨-lo.m, lo.e⟩).mul (Machine.fp32.value (w 1)).dy
    let t := (Machine.fp32.roundDy r d false).1
    match Machine.fp32.value t with
    | .fin tn tm te =>
      let q := scaleTo tm 1 te 0
      if tn && tm != 0 then tblEdge ftz (w 2)
      else if 256 * q.2 ≤ q.1 then tblEdge ftz (w 3)
      else
        let i := q.1 / q.2
        let f := (FV.fin false tm te).dy.add ⟨-(i : Int), 0⟩
        let y0 := Machine.fp32.value (w (16 + 2 * i))
        let s := Machine.fp32.value (w (17 + 2 * i))
        let fv := FV.fin false f.m.natAbs f.e
        let z := Machine.fp32.sum { r with ftz := ftz } [s.mul fv, y0]
        (z.1, z.2 ||| sigFlag [s, y0] ||| (if !s.isNan && !y0.isNan && invalidMul s fv then fInvalid else 0))
    | .inf tn => tblEdge ftz (if tn then w 2 else w 3)
    | .nan _ => (Machine.fp32.qnan, 0)

/-- What `TBL` gives an operand (R179, R196). -/
def tblValue (w : Nat → Nat) (daz ftz : Bool) (x : Nat) : Nat × Flags :=
  let a := Machine.fp32.daz daz x
  let y := interpolate w ftz a.1
  (y.1, y.2 ||| a.2)

def execTbl (g : Guard) (d a : BitVec 8) (b : BitVec 6) (s : State) : Out :=
  runWord s (.tbl g d a b) (fun s1 c gr =>
    let k := s1.core gr.core
    let sb := gr.rs64 b.toNat
    if k.tag k.bank != some (s1.ctxNum gr, sb.toNat) then
      (if gr.nonHelpers (gr.guarded c.lanes g) == 0 then .done s1 else .trap { cause := 0x13, info := sb.toNat })
    else .done (s1.setGrp c.grp (gr.run (fun h => Eff.lanes (Mask.lanes (h.guarded c.lanes g)) (fun l =>
      let z := tblValue (k.table k.bank) h.daz h.ftz (h.rv a.toNat l).toNat
      (wNat false (.v d) l z.1).append (wFlags z.2))))))

/-- `TBLD` (R195): its accesses are made with the sources read at issue, and its fragment waits while pages of the image wait in replay
(R313). -/
def execTbld (g : Guard) (d a : BitVec 6) (s : State) : Out :=
  onceWord s (.tbld g d a) g (fun s1 c gr ex =>
    let sa := gr.rs64 a.toNat
    let who := gr.nonHelpers ex
    let l := (Mask.lanes who).headD 0
    match c.hold with
    | .busy _ => .done s1
    | _ =>
    if sa.toNat % 64 != 0 then .trap { cause := 3, addr := sa.toNat }
    else
      let x := s1.tryAll (s1.ldOf gr) (s1.ctxNum gr) .read ((List.range 33).map (fun i => (l, sa + BitVec.ofNat 64 (64 * i))))
      match firstFail (fun _ => false) x.1 (·.isRemote) 7 with
      | some t => .trap t
      | none =>
        let as := (okAccs x.1).map (fun b => { b with n := 64, who := who })
        match as.find? (fun b => b.st == .failed) with
        | some b => .trap { cause := 0x0B, addr := b.va, info := who.toNat }
        | none =>
          let f := x.2.fresh
          let t := f.2.updGrp c.grp (fun y => y.pushOp f.1 .ld c (.tbld d.toNat sa.toNat) noOrder as false)
          if waitsFault as then .hold t (.busy f.1) else .done t)

/-- A `TBLD` of a core is in flight: `tbl.state.loading` (R80, R195). -/
def State.tableLoading (s : State) (core : Nat) : Bool :=
  s.groups.any (fun p => p.2.core == core && p.2.ops.any (fun o => match o.kind with | .tbld .. => !o.done | _ => false))

/-- Every store that the group issued before an operation has been performed. -/
def Group.earlierStoresDone (g : Group) (op : Nat) : Bool :=
  g.ops.all (fun e => decide (op ≤ e.id) || !e.kind.isWrite || e.done || e.lanes.all (fun a => !a.isOpen))

/-- The oldest `TBLD` of a core receives its image: the other bank is loaded and becomes current, or a bad header leaves
its tag none (R195). -/
def execTbldLoadComplete (grp op : Nat) (s : State) : Out :=
  withOp s "TBLD_LOAD_COMPLETE" grp op (fun g o =>
    match o.kind with
    | .tbld d sa =>
      let first := s.groups.all (fun p => !(p.2.core == g.core) || p.2.ops.all (fun e => match e.kind with
        | .tbld .. => e.done || decide (op ≤ e.id)
        | _ => true))
      let bs := o.lanes.flatMap (s.groupBytes grp g)
      let ws : SMap Word := (List.range 528).map (fun k => (k, BitVec.ofNat 32 (leNat ((bs.drop (4 * k)).take 4))))
      let k := s.core g.core
      let ok := tableOk (fun i => (SMap.getD ws i 0).toNat)
      let tag := if ok then some (s.ctxNum g, sa) else none
      let k1 := if k.bank then { k with tag0 := tag, img0 := if ok then ws else k.img0 }
        else { k with tag1 := tag, img1 := if ok then ws else k.img1 }
      let k2 := if ok then { k1 with bank := !k.bank } else k1
      event "TBLD_LOAD_COMPLETE" (first && g.earlierStoresDone op && o.lanes.all (fun a => a.st == .ready && s.mayPerform grp g o a false && s.accessFree g a true))
        (((s.setCore g.core k2).updGrp grp (fun x => (x.applyBoth (wReg (.s (BitVec.ofNat 6 d)) 0 (if ok then 0 else 2))).readyDone
          op)).settle grp op)
    | _ => notNow "TBLD_LOAD_COMPLETE")

end Sys2Proof.Machine
end

