-- ==== Sys2Proof/Machine/CsrWords.lean ====
section
/-! DEFINITION. The context registers read and written by number (R75 to R80, R89, R91, R92). -/

namespace Sys2Proof.Machine

/-- The value of a register for a group (R25, R26, R76 to R80). The count includes the reading `CSRR`. -/
def State.csr (s : State) (g : Group) (r : Csr) : Word :=
  let c := s.ctxOf g
  match r with
  | .fpMode => g.fpMode
  | .fpFlags => g.fpFlags
  | .fpSeed => g.fpSeed
  | .ctxId => BitVec.ofNat 32 ((c.map (·.tenant)).getD 0 * 65536 + (c.map (·.ldev)).getD 0 * 4096 + s.ctxNum g)
  | .spLimit => BitVec.ofNat 32 (s.spLimit g)
  | .spCount => BitVec.ofNat 32 g.spCount
  | .spLast => match g.spLast with
    | some id => BitVec.ofNat 32 (65536 + id)
    | none => 0
  | .preempt => (if (c.map (·.st)) == some .draining then 2 else 0) + (if g.flagged then 1 else 0)
  | .sysfence => (c.map (·.sysfence)).getD 0
  | .tblState => (if s.tableLoading g.core then 2 else 0) + (if (s.core g.core).bank then 1 else 0)

/-- A write by its access code (R92): `fp.mode` keeps its reserved bits 0, `fp.flags` clears where the value is 1,
`fp.seed` also sets every lane's state (R24); read-only registers ignore it. -/
def Group.writeCsr (g : Group) (r : Csr) (x : Word) : Group :=
  match r with
  | .fpMode => { g with fpMode := x &&& 15 }
  | .fpFlags => { g with fpFlags := clearFlags g.fpFlags x }
  | .fpSeed => { g with fpSeed := x, lanes := g.lanes.mapIdx (fun l y => { y with rng := seedLane x l }) }
  | _ => g

def execCsrr (g : Guard) (d : Reg) (r : Csr) (s : State) : Out :=
  regWord s (.csrr g d r) (fun s1 c gr => runDst gr (gr.guarded c.lanes g) d (fun l => wReg d l (s1.csr gr r)))

def execCsrw (g : Guard) (r : Csr) (a : BitVec 6) (s : State) : Out :=
  onceWord s (.csrw g r a) g (fun s1 c gr _ => .done (s1.setGrp c.grp (gr.writeCsr r (gr.rs a.toNat))))

def execCsrx (g : Guard) (d : BitVec 6) (r : Csr) (a : BitVec 6) (s : State) : Out :=
  onceWord s (.csrx g d r a) g (fun s1 c gr _ =>
    .done (s1.setGrp c.grp ((gr.writeCsr r (gr.rs a.toNat)).apply (wReg (.s d) 0 (s1.csr gr r)))))

end Sys2Proof.Machine
end

