-- ==== Sys2Proof/Machine/Matrix.lean ====
section
/-! DEFINITION. The matrix engines (R266 to R291): format records, the seven matrix words, the reservation table with its
arbiter and unit account, passes with their faults and trailer checks, paired passes, zeroing and vector moves, and the
numeric event counters. Drains and accumulator loads are in Drain.lean. -/

namespace Sys2Proof.Machine

/-! ## Format records (R269 to R271) -/

/-- The element class of a format code: FP32, 16-bit, 8-bit, 4-bit (R266). -/
def fmtClass (c : Nat) : Nat := if c = 0 then 0 else if c ≤ 2 then 1 else if c ≤ 4 then 2 else 3

/-- The floating-point format of a code up to 4. -/
def fmtOf (c : Nat) : Fmt :=
  match c with
  | 1 => fp16 | 2 => bf16 | 3 => e4m3 | 4 => e5m2 | _ => fp32

def MFmt.len (f : MFmt) : Nat := if f.blen = 1 then 32 else 16

/-- A format descriptor with units, valid under R270. -/
def readMfmt (bs : List Byte) : Option MFmt :=
  let f := field bs
  let m : MFmt := ⟨f 0 1, f 1 1, f 2 1, f 3 1, f 4 4, fieldS64 bs 8, fieldS32 bs 16, fieldS32 bs 20, fieldS64 bs 24, fieldS32 bs 32,
    fieldS32 bs 36, f 40 8, f 48 8⟩
  let cl := fmtClass m.afmt
  let trail := fun (t : Nat) => t == 0 || (decide (2 ≤ cl) && m.k % 256 == 0 && t % 32 == 0)
  if decide (m.afmt ≤ 6) && decide (m.bfmt ≤ 6) && cl == fmtClass m.bfmt && decide (m.blen ≤ 1) &&
      (cl != 3 || (m.afmt == m.bfmt && m.blen + 5 == m.afmt)) &&
      m.k % m.len == 0 && decide (m.len ≤ m.k) && decide (m.k ≤ 16384) &&
      decide ([32, 16, 8, 4].getD cl 0 ≤ m.units) && (cl == 3 || zeros bs 8 32) && trail m.atrail && trail m.btrail && zeros bs 56 8
  then some m else none

/-- What a descriptor does to a record (R271): the status, and the records of the group. -/
def State.loadMfmt (s : State) (g : Group) (mf : Nat) (bs : List Byte) : Nat × SMap MFmt :=
  if field bs 3 1 = 0 then (0, SMap.del g.mf mf)
  else match readMfmt bs with
  | none => (2, g.mf)
  | some m =>
    let mine := ((SMap.find g.mf mf).map (·.units)).getD 0
    if s.freeUnits (clusterOf g.core) + mine < m.units then (1, g.mf) else (0, SMap.set g.mf mf m)

/-- An `MFMT` of the group to a record has not completed. -/
def Group.mfPending (g : Group) (mf : Nat) : Bool :=
  g.ops.any (fun o => match o.kind with | .mfmt _ m _ => m == mf && !o.done | _ => false)

/-! ## The words (R272, R273) -/

/-- A matrix word: its fragment holds every lane (R272). -/
def matrixWord (s : State) (i : Instr) (body : State → Issue → Group → WOut) : Out :=
  runWord s i (fun s1 c g => if g.converged c.lanes then body s1 c g else .trap (trapOf 0x0C))

def allLanes (g : Group) : Mask := g.mask (fun _ => true)

/-- Passes, drains and accumulator loads perform the release of R260 (R275, R286, R287). -/
def MKind.order : MKind → Order
  | .pass _ | .drain _ _ | .mlda _ => ⟨false, true, .pkg⟩
  | .zero | .mvec .. => noOrder

/-- Post an entry in the cluster's table, if it has room (R272, R276). What it will read is remembered from now on: it sees no
write that its group issues later (R260). -/
def postEntry (s : State) (c : Issue) (g : Group) (slot : Nat) (kind : MKind) (k : State → State) : WOut :=
  let cl := clusterOf g.core
  if !(s.cluster cl).room then .notReady
  else
    let f := s.fresh
    let e : MEntry := ⟨f.1, c.grp, s.ctxNum g, g.blk, g.core, slot, c.pc.toNat, kind, c.clk, (s.descOf g).cls, none, .posted, 0, none, none,
      false, [], none, []⟩
    let t := (f.2.updGrp c.grp (fun x => x.pushOp f.1 .mx c (.matrix f.1) kind.order [] false)).remember f.1 c.grp
    .done (k (t.setCluster cl { t.cluster cl with table := insertBy (·.age) e (t.cluster cl).table }))

/-- The signed halves of the stride pair (R274). -/
def strideA (x : DWord) : Int := (x.setWidth 32).toInt
def strideB (x : DWord) : Int := ((x >>> 32).setWidth 32).toInt

/-- The requests of a twin, withdrawn for want of a match, that the next paired request of a group brings back (R281). -/
def State.twinBack (s : State) (gid : Nat) (n : Nat) : List (MEntry) :=
  match (s.grp gid).bind s.twinOf with
  | none => []
  | some x => ((s.pairedOf x).take n).filter (fun e => e.st == .withdrawn)

/-- The twin's table has room for them (R266). -/
def State.twinFits (s : State) (gid : Nat) : Bool :=
  (s.twinBack gid ((s.pairedOf gid).length + 1)).all (fun e => (match s.grp e.grp with
    | some g => g.flagged || g.state == .saved || decide ((s.cluster (clusterOf g.core)).taken +
        (s.twinBack gid ((s.pairedOf gid).length + 1)).length ≤ 32)
    | none => true))

/-- When a group posts a paired request, its twin's request that was withdrawn for want of it is posted again with its
age (R281); a parked or stopping twin posts it when it goes on. -/
def State.repostTwin (s : State) (gid : Nat) : State :=
  match (s.grp gid).bind s.twinOf with
  | none => s
  | some x =>
    match s.grp x with
    | none => s
    | some g =>
      let out := s.twinBack gid (s.pairedOf gid).length
      let ids := out.map (·.eid)
      if out.isEmpty then s
      else if g.flagged || g.state == .saved then
        s.setGrp x { g with withdrawn := g.withdrawn.map (fun e => if ids.contains e.eid then { e with st := EntSt.posted } else e) }
      else
        let cl := clusterOf g.core
        (s.setGrp x { g with withdrawn := g.withdrawn.filter (fun e => !ids.contains e.eid) }).setCluster cl
          { s.cluster cl with table := out.foldl (fun t e => insertBy (·.age) { e with st := EntSt.posted, core := g.core } t) (s.cluster cl).table }

/-- `MMA` and `MMAP` (R272, R274). -/
def passWord (s : State) (c : Issue) (g : Group) (p : PassArgs) (paired : Bool) : WOut :=
  let a := g.rs64 p.a.toNat
  let b := g.rs64 p.b.toNat
  let st := g.rs64 p.c.toNat
  if g.mfPending p.mf.toNat || (paired && !s.twinFits c.grp) then .notReady
  else match SMap.find g.mf p.mf.toNat with
  | none => .trap (trapOf 0x15)
  | some f =>
    if paired && !(s.descOf g).pair then .trap (trapOf 0x15)
    else
      match [a, b, (st.setWidth 32).signExtend 64, ((st >>> 32).setWidth 32).signExtend 64].find? (fun (x : DWord) => x.toNat % 16 != 0) with
      | some x => .trap { cause := 3, addr := x.toNat }
      | none => postEntry s c g p.slot.toNat (.pass ⟨paired, a.toNat, b.toNat, strideA st, strideB st, p.sat, f⟩)
          (if paired then (fun t => t.repostTwin c.grp) else id)

def execMma (p : PassArgs) (s : State) : Out := matrixWord s (.mma p) (fun s1 c g => passWord s1 c g p false)
def execMmap (p : PassArgs) (s : State) : Out := matrixWord s (.mmap p) (fun s1 c g => passWord s1 c g p true)

/-- `MFMT` (R271): the descriptor is read when it completes, after a `.grp` release. -/
def execMfmt (d : BitVec 6) (mf : BitVec 3) (a : BitVec 6) (s : State) : Out :=
  matrixWord s (.mfmt d mf a) (fun s1 c g =>
    let sa := g.rs64 a.toNat
    if g.mfPending mf.toNat then .notReady
    else
      issueOp c g .mx noOrder (.mfmt d.toNat mf.toNat sa.toNat)
        (s1.memTry g c.lanes { loadReq ⟨.s a, .imm 0⟩ 64 (fun _ _ => sa) with uni := true, helpers := false }))

def execMzero (slot : BitVec 3) (s : State) : Out :=
  matrixWord s (.mzero slot) (fun s1 c g => postEntry s1 c g slot.toNat .zero id)

/-- `MDRN` (R282, R286). -/
def execMdrn (z : Bool) (slot : BitVec 3) (a : BitVec 6) (s : State) : Out :=
  matrixWord s (.mdrn z slot a) (fun s1 c g =>
    let sa := (g.rs64 a.toNat).toNat
    if sa % 64 != 0 then .trap { cause := 3, addr := sa }
    else postEntry s1 c g slot.toNat (.drain z sa) id)

def execMlda (slot : BitVec 3) (a : BitVec 6) (s : State) : Out :=
  matrixWord s (.mlda slot a) (fun s1 c g =>
    let sa := (g.rs64 a.toNat).toNat
    if sa % 64 != 0 then .trap { cause := 3, addr := sa }
    else postEntry s1 c g slot.toNat (.mlda sa) id)

/-- `MVEC` (R289): `.w` takes the non-helper lanes and reads its registers now (R134). -/
def execMvec (w t : Bool) (n : BitVec 3) (d : BitVec 8) (b : BitVec 6) (slot : BitVec 3) (s : State) : Out :=
  matrixWord s (.mvec w t n d b slot) (fun s1 c g =>
    let lanes := if w then g.nonHelpers c.lanes else c.lanes
    let vals : SMap Word := if w then ((List.range (n.toNat + 1)).flatMap (fun m => (Mask.lanes lanes).map (fun l =>
      (m * 64 + l, g.rv (if d.toNat = 255 then 255 else d.toNat + m) l)))) else []
    postEntry s1 c g slot.toNat (.mvec w t (n.toNat + 1) d.toNat (g.rs b.toNat).toNat lanes vals) id)

/-- The descriptor of an `MFMT` arrives, after the `.grp` release (R271). -/
def execMfmtComplete (grp op : Nat) (s : State) : Out :=
  withOp s "MFMT_COMPLETE" grp op (fun g o =>
    match o.kind, o.lanes with
    | .mfmt d mf _, [a] =>
      let r := s.readPhys grp g a.lane a.phys 64
      let x := s.loadMfmt g mf r.1
      event "MFMT_COMPLETE" (a.st == .ready && s.released grp g op (allLanes g) .grp false && s.mayPerform grp g o a false &&
          s.accessFree g a true && s.shareOk grp a)
        ((r.2.updGrp grp (fun y => { (y.applyBoth (wReg (.s (BitVec.ofNat 6 d)) 0 (BitVec.ofNat 32 x.1))).readyDone op with mf := x.2 })).settle
          grp op)
    | _, _ => notNow "MFMT_COMPLETE")

/-! ## Entries and slots -/

def emptySlot : Slot := ⟨.idle, [], 0, none, []⟩

def State.slotOf (s : State) (e : MEntry) : Slot :=
  SMap.getD (((s.blocks.find e.blk).map (·.slots)).getD []) e.slot emptySlot

/-- Change a slot. A slot written in checkpointed mode bars a rollback until the next checkpoint (R211, R292). -/
def State.updSlot (s : State) (e : MEntry) (wrote : Bool) (f : Slot → Slot) : State :=
  s.updBlk e.blk (fun b => { b with
    slots := SMap.set b.slots e.slot (f (SMap.getD b.slots e.slot emptySlot))
    slotWritten := b.slotWritten || wrote })

def State.entry (s : State) (cl eid : Nat) : Option MEntry := (s.cluster cl).table.find? (fun e => e.eid == eid)

def State.updEntry (s : State) (e : MEntry) (f : MEntry → MEntry) : State :=
  let cl := clusterOf e.core
  s.setCluster cl { s.cluster cl with table := (s.cluster cl).table.map (fun x => if x.eid == e.eid then f x else x) }

def MEntry.isGranted (e : MEntry) : Bool := match e.st with
  | .granted _ => true
  | _ => false

def MEntry.isPass (e : MEntry) : Bool := match e.kind with
  | .pass _ => true
  | _ => false

/-- The operation of an entry ends: it leaves the table or its group's control record, frees its lines, and `mx` retires
it with an error or none (R272, R276). -/
def State.dropEntry (s : State) (e : MEntry) (err : Option (Nat × Nat × Nat × Nat)) : State :=
  let cl := clusterOf e.core
  let t := ((s.unclaim e.eid).forget e.eid).setCluster cl { s.cluster cl with table := (s.cluster cl).table.filter (fun x => x.eid != e.eid) }
  (t.updGrp e.grp (fun g => { g with withdrawn := g.withdrawn.filter (fun x => x.eid != e.eid) })).endOp e.grp e.eid err

/-- The report of an error found after issue: PC, slot and row progress (R272). -/
def MEntry.error (e : MEntry) (cause reason progress : Nat) : Option (Nat × Nat × Nat × Nat) :=
  some (cause, reason, e.pc, e.slot + 65536 * progress)

/-- An operation ends with a matrix error and no effect on the slot. -/
def State.refuseEntry (s : State) (e : MEntry) (reason : Nat) : State :=
  s.dropEntry e (e.error 0x16 reason (s.slotOf e).progress)

/-- An operation that is no resuming pass completes: its slot is IDLE again with row progress 0 (R267). -/
def State.finishEntry (s : State) (e : MEntry) (wrote : Bool) (data : SMap Word) (err : Option (Nat × Nat × Nat × Nat)) : State :=
  (s.updSlot e wrote (fun _ => ⟨.idle, data, 0, none, []⟩)).dropEntry e err

/-- The earlier accesses of the group that an engine's release waits on are over (R260, R275). -/
def State.opReleased (s : State) (e : MEntry) : Bool :=
  match s.grp e.grp with
  | none => true
  | some g => s.released e.grp g e.eid (allLanes g) .pkg false

/-! ## The unit account (R266, R277) -/

/-- Clocks of a pass (R266). -/
def MFmt.clocks (f : MFmt) : Nat :=
  match fmtClass f.afmt with
  | 0 => 16 * f.k | 1 => 2 * f.k | 2 => f.k | _ => f.k / 2

def MEntry.units (e : MEntry) : Nat :=
  match e.kind with
  | .pass p => ceilDiv (p.fmt.clocks * (e.weight.getD 64)) 256
  | _ => 0

/-- The power limit that PLIMIT stands for (R392). -/
def Mgmt.limit (g : Mgmt) : Nat := Nat.min 5000 (Nat.max 1000 (g.plimit.toNat % 8192))

/-- What the draw averaged over the last millisecond stays under. -/
def State.drawLimit (s : State) : Nat := if s.clk < s.mgmt.limitAt + Config.clocksPerMs then 5000 else s.mgmt.limit

/-- Corrected soft errors may have been counted and the draw measured anew; both numbers are free, the draw up to the
limit that the arbiter holds it under, or up to 5,000 W in the millisecond after a write to PLIMIT (R11, R391, R392). -/
def State.measure (s : State) (die : Nat) : State :=
  let n := SMap.getD s.mgmt.eccCnt die 0 + Config.freeNat s.free
  { s with
    free := s.free + 2
    mgmt := { s.mgmt with
      eccCnt := SMap.put s.mgmt.eccCnt die (Nat.min n (2 ^ 32 - 1)) 0
      draw := Config.freeNat (s.free + 1) % (s.drawLimit + 1) } }

/-- The account of a cluster refills every 256 clocks, up to 4,096. -/
def execUnitRefill (cl : Nat) (s : State) : Out :=
  let c := s.cluster cl
  event "UNIT_REFILL" (decide (cl < Config.numClusters) && decide ((c.refills + 1) * 256 ≤ s.clk))
    ((s.setCluster cl { c with account := c.credit 1, refills := c.refills + 1 }).measure (cl / 20))

/-! ## Operands of a pass (R274) -/

/-- One operand panel: format, base, row step, and the place of its scale bytes. -/
structure Panel where
  fmt : Nat
  base : Nat
  step : Int
  scale : Int
  srow : Int
  sblk : Int
  len : Nat
  trail : Nat
deriving DecidableEq, Repr

def PassCap.panelA (p : PassCap) : Panel :=
  ⟨p.fmt.afmt, p.a, p.sa, p.fmt.ascale, p.fmt.asrow, p.fmt.asblk, p.fmt.len, p.fmt.atrail⟩
def PassCap.panelB (p : PassCap) : Panel :=
  ⟨p.fmt.bfmt, p.b, p.sb, p.fmt.bscale, p.fmt.bsrow, p.fmt.bsblk, p.fmt.len, p.fmt.btrail⟩

/-- An address modulo 2^64. -/
def wrap64 (x : Int) : Nat := (x % 2 ^ 64).toNat

/-- The address of byte n of a row or column. -/
def Panel.at (p : Panel) (i n : Nat) : Nat := wrap64 ((p.base : Int) + (i : Int) * p.step + (n : Int))

def Panel.scaleAt (p : Panel) (i b : Nat) : Nat := wrap64 ((p.base : Int) + p.scale + (i : Int) * p.srow + (b : Int) * p.sblk)

/-- Bytes of n elements. -/
def Panel.bytes (p : Panel) (n : Nat) : Nat := n * fmtBits p.fmt / 8

/-- What a panel reads: byte `va` at the time of its element or scale byte, by number. -/
abbrev PanelRead := Nat → Nat → Byte

/-- The numbers of element k and of scale byte b of row i, and of a granule of a trailer: each is read once (R275). -/
def elemKey (i k : Nat) : Nat := i * 2 ^ 16 + k
def scaleKey (i b : Nat) : Nat := i * 2 ^ 16 + 2 ^ 15 + b
def trailKey (n : Nat) : Nat := 2 ^ 26 + n

/-- The bits of an element. -/
def Panel.elem (p : Panel) (rd : PanelRead) (i k : Nat) : Nat :=
  if 5 ≤ p.fmt then (rd (elemKey i k) (p.at i (k / 2))).toNat / 16 ^ (k % 2) % 16
  else leNat ((List.range (p.bytes 1)).map (fun n => rd (elemKey i k) (p.at i (p.bytes k + n))))

def Panel.scaleByte (p : Panel) (rd : PanelRead) (i b : Nat) : Byte := rd (scaleKey i b) (p.scaleAt i b)

/-- The bytes of a row's elements from k on: of a 4-bit format, two elements each. -/
def Panel.rowBytes (p : Panel) (rd : PanelRead) (i k n : Nat) : List Byte :=
  if 5 ≤ p.fmt then (List.range (n / 2)).map (fun m => BitVec.ofNat 8 (p.elem rd i (k + 2 * m) + 16 * p.elem rd i (k + 2 * m + 1)))
  else (List.range n).flatMap (fun m => leBytes (p.bytes 1) (p.elem rd i (k + m)))

/-- An element's value, and whether it lies in a zero block (R17, R31). -/
def Panel.value (p : Panel) (rd : PanelRead) (i k : Nat) : Bool × FV :=
  if 5 ≤ p.fmt then
    let sc := (p.scaleByte rd i (k / p.len)).toNat
    (sc % 64 == 0, blockElem sc (p.elem rd i k))
  else (false, (fmtOf p.fmt).value (p.elem rd i k))

/-- The bytes of block b of row i, by address and length: its elements and its scale byte. -/
def Panel.runs (p : Panel) (i b : Nat) : List (Nat × Nat) :=
  (p.at i (p.bytes (b * p.len)), p.bytes p.len) :: (if 5 ≤ p.fmt then [(p.scaleAt i b, 1)] else [])

/-- The rows an operand has for a pass: 256, or 512 columns for a paired one. -/
def PassCap.cols (p : PassCap) : Nat := if p.paired then 512 else 256

/-- The blocks of the 256-element chunk that begins at block b. -/
def Panel.chunk (p : Panel) (b : Nat) : List Nat := (List.range (256 / p.len)).map (· + b)

/-- What an operand needs before block b is added: the block of every row, and at the start of a chunk with a trailer the
chunk of rows 0 to 255 and the trailer (R279). -/
def Panel.need (p : Panel) (rows b : Nat) : List (Nat × Nat) :=
  (List.range rows).flatMap (fun i => p.runs i b) ++
  (if p.trail != 0 && b * p.len % 256 == 0 then
    (p.trail + 32 * (b * p.len / 256), 32) :: (List.range 256).flatMap (fun i => (p.chunk b).flatMap (p.runs i)) else [])

def PassCap.need (p : PassCap) (b : Nat) : List (Nat × Nat) := p.panelA.need 256 b ++ p.panelB.need p.cols b

/-- A chunk's bytes in the order of R285: elements row by row, then scale bytes row by row. -/
def Panel.chunkBytes (p : Panel) (rd : PanelRead) (b : Nat) : List Byte :=
  (List.range 256).flatMap (fun i => p.rowBytes rd i (b * p.len) 256) ++
  (if 5 ≤ p.fmt then (List.range 256).flatMap (fun i => (p.chunk b).map (p.scaleByte rd i)) else [])

/-- The check of a chunk's trailer, when one begins at block b (R279). -/
def Panel.trailOk (p : Panel) (rd : PanelRead) (b : Nat) : Bool :=
  if p.trail != 0 && b * p.len % 256 == 0 then
    let q := b * p.len / 256
    let t := (List.range 32).map (fun n => rd (trailKey (2 * q + n / 16)) (p.trail + 32 * q + n))
    field t 12 2 == 256 && field t 14 2 == 256 && field t 16 1 == p.fmt && field t 0 4 == crc32c (p.chunkBytes rd b)
  else true

/-! ## The sum of a pass (R31) -/

/-- Event classes of an element as bits 0 to 3 (R290), from the flags of a rounding; `op` says that an operand was NaN. -/
def evBits (fl : Flags) (op : Bool) : Nat :=
  (if fl &&& fInvalid != 0 && !op then 1 else 0) ||| (if fl &&& fOverflow != 0 then 2 else 0) ||| (if fl &&& fSat != 0 then 4 else 0)

/-- A product: NaN operands first, then zero blocks (R31). -/
def passMul (x y : Bool × FV) : FV :=
  if x.2.isNan || y.2.isNan then .nan false else if x.1 || y.1 then .fin false 0 0 else x.2.mul y.2

/-- One block added to an element: the new value and its events. -/
def addBlock (sat : Bool) (acc : Nat) (xs ys : List (Bool × FV)) : Nat × Nat :=
  let r : Rnd := ⟨.rn, sat, false⟩
  let op := (xs ++ ys).any (fun x => x.2.isNan)
  let ps := (xs.zip ys).map (fun p => passMul p.1 p.2)
  let t := fp32.sum r ps
  let bad := !op && ps.any FV.isNan
  let z := fp32.sum r [fp32.value acc, fp32.value t.1]
  (z.1, evBits t.2 op ||| (if bad then 1 else 0) ||| evBits z.2 false)

/-- Blocks b0 up to b1 added to one element of a slot. -/
def addBlocks (p : PassCap) (ra rb : PanelRead) (i j b0 b1 : Nat) (acc ev : Nat) : Nat × Nat :=
  ((List.range (b1 - b0)).map (· + b0)).foldl (fun (x : Nat × Nat) b =>
    let ks := (List.range p.fmt.len).map (· + b * p.fmt.len)
    let y := addBlock p.sat x.1 (ks.map (p.panelA.value ra i)) (ks.map (p.panelB.value rb j))
    (y.1, x.2 ||| y.2)) (acc, ev)

/-- A slot and the events of its elements after blocks b0 up to b1; `half` is 1 for the twin that takes columns 256 to
511. -/
def runPass (p : PassCap) (ra rb : PanelRead) (half b0 b1 : Nat) (data : SMap Word) (seen : SMap Nat) : SMap Word × SMap Nat :=
  let cells := (List.range 65536).map (fun n =>
    (n, addBlocks p ra rb (n / 256) (n % 256 + 256 * half) b0 b1 (SMap.getD data n 0).toNat (SMap.getD seen n 0)))
  (cells.filterMap (fun c => if c.2.1 = 0 then none else some (c.1, BitVec.ofNat 32 c.2.1)),
   cells.filterMap (fun c => if c.2.2 = 0 then none else some (c.1, c.2.2)))

/-! ## Numeric events (R290, R291) -/

def emptyNum : NumClass := ⟨0, 0xFFFFFFFF, 0, 0, 0xFFFFFFFF, 0, false, 0⟩

/-- Count n events of a class: the state of the class, and whether its action fires now, which it does in a window when the count
first rises above the threshold (R291). An action of 00 never fires. -/
def NumClass.add (c : NumClass) (n : Nat) : NumClass × Bool :=
  let count := Nat.min (c.count + n) 0xFFFFFFFF
  let fires := !c.firedNow && decide (c.count ≤ c.threshold) && decide (c.threshold < count) && c.control % 4 != 0
  ({ c with count := count, firedNow := c.firedNow || fires, control := if fires then c.control ||| 4 else c.control }, fires)

/-- Count the events of an operation and take the actions that fire: a deferred trap of the group, a host event. -/
def State.countNumeric (s : State) (e : MEntry) (evs : SMap Nat) : State :=
  let ld := ((s.ctxs.find e.ctx).map (·.ld)).getD 0
  [0, 1, 2, 3].foldl (fun t cls =>
    let n := (evs.filter (fun p => p.2.testBit cls)).length
    if n = 0 then t
    else
      let x := (SMap.getD (t.ld ld).num cls emptyNum).add n
      let t1 := t.updLd ld (fun d => { d with num := SMap.set d.num cls x.1 })
      let t2 := if x.2 && x.1.control % 2 == 1 then t1.updGrp e.grp (fun g => { g with errs := g.errs ++
          [⟨0x18, cls, e.pc, 0, .mx, ((g.op e.eid).map (·.num)).getD 0, g.nextSeq⟩] }) else t1
      if x.2 && x.1.control / 2 % 2 == 1 then t2.postEvent ld 7 e.ctx [cls] [] else t2) s

/-- The NaN results of a slot count in class 3. -/
def markNan (data : SMap Word) (evs : SMap Nat) : SMap Nat :=
  (List.range 65536).filterMap (fun n =>
    let v := (SMap.getD evs n 0) ||| (if (fp32.value (SMap.getD data n 0).toNat).isNan then 8 else 0)
    if v = 0 then none else some (n, v))

/-- A window of a class starts at a multiple of 1,024 × its length: the count is cleared and written settings take effect.
From a window that never ends, the length written gives the next start (R290, R291). -/
def execNumericWindowStart (ld cls : Nat) (s : State) : Out :=
  let c := SMap.getD (s.ld ld).num cls emptyNum
  let len := 1024 * (if c.window = 0 then c.nextWindow else c.window)
  let c1 : NumClass := { c with count := 0, firedNow := false, threshold := c.nextThreshold, window := c.nextWindow, start := s.timebase }
  event "NUMERIC_WINDOW_START" (decide (ld < 16) && decide (cls < 4) && decide (0 < len) && decide (c.start / Nat.max 1 len < s.timebase / Nat.max 1 len))
    (s.updLd ld (fun d => { d with num := SMap.set d.num cls c1 }))

/-- A driver in expert control writes a threshold or window (R290, R386). -/
def execNumericSettingWrite (ld cls : Nat) (window : Bool) (v : Word) (s : State) : Out :=
  let c := SMap.getD (s.ld ld).num cls emptyNum
  let c1 : NumClass := if window then { c with nextWindow := v.toNat } else { c with nextThreshold := v.toNat }
  event "NUMERIC_SETTING_WRITE" (decide (ld < 16) && s.mgmt.accepted && (s.ld ld).bound && decide (cls < 4))
    (if (s.ld ld).expert then s.updLd ld (fun d => { d with num := SMap.set d.num cls c1 }) else s)

/-! ## Granting (R267, R268, R276, R280, R281) -/

/-- The requests that stand before an entry on its slot. -/
def State.isHead (s : State) (e : MEntry) : Bool :=
  (((s.cluster (clusterOf e.core)).table.takeWhile (fun x => x.eid != e.eid)).all (fun x => !(x.core == e.core && x.slot == e.slot)))

/-- The matching request of the twin. -/
def State.matchOf (s : State) (e : MEntry) : Option MEntry :=
  match (s.grp e.grp).bind s.twinOf with
  | none => none
  | some x => (s.pairedOf x)[((s.pairedOf e.grp).takeWhile (fun y => y.eid != e.eid)).length]?

/-- The twin can post no more. -/
def State.twinGone (s : State) (e : MEntry) : Bool :=
  match (s.grp e.grp).bind s.twinOf with
  | none => true
  | some x => ((s.grp x).map (fun g => g.state == .exiting || g.state == .exited)).getD true

/-- Operands that two requests must share, units aside (R278, R280). -/
def PassCap.agrees (p q : PassCap) : Bool :=
  decide ({ p with fmt := { p.fmt with units := 0 } } = { q with fmt := { q.fmt with units := 0 } })

/-- The two requests of a pair agree (R280). -/
def MEntry.agrees (e f : MEntry) : Bool :=
  e.slot == f.slot && (match e.kind, f.kind with
    | .pass p, .pass q => p.agrees q
    | _, _ => false)

/-- A pass that continues what a halted pass began (R278). -/
def State.resumes (s : State) (e : MEntry) : Bool :=
  match e.kind, (s.slotOf e).halted with
  | .pass p, some q => (s.slotOf e).st == .halted && p.agrees q
  | _, _ => false

/-- An operation that a HALTED slot turns away (R267). -/
def State.barred (s : State) (e : MEntry) : Bool :=
  (s.slotOf e).st == .halted && (match e.kind with
    | .zero | .mlda _ => false
    | .pass _ => !s.resumes e
    | _ => true)

/-- The twin's request stands in its table, posted or granted: none that pre-emption has withdrawn (R84, R276). -/
def State.standing (s : State) (f : MEntry) : Bool := (s.entry (clusterOf f.core) f.eid).isSome && (f.st == .posted || f.isGranted)

/-- An entry may be granted: it heads its slot, its twin's agreeing request is posted, and the pass path asks for an
account at or above zero. -/
def State.eligible (s : State) (e : MEntry) : Bool :=
  e.st == .posted && s.isHead e && !s.barred e &&
  (!e.paired || (match s.matchOf e with
    | some f => s.standing f && e.agrees f && s.resumes e == s.resumes f && !s.barred f
    | none => false))

/-- Lexicographic order. -/
def lexLt : List Nat → List Nat → Bool
  | a :: r, b :: t => decide (a < b) || (a == b && lexLt r t)
  | _, _ => false

/-- The arbiter's order of passes (R276): a paired one that has failed to start in 4 windows, one that has waited 4,096 clocks,
the class, the units, the age. -/
def State.grantKey (s : State) (e : MEntry) (pos : Nat) : List Nat :=
  let waited := decide (e.age + 4096 ≤ s.clk)
  [if e.paired && decide (4 ≤ e.missed) then 0 else 1, if waited then 0 else 1, if waited then pos else 0, 3 - e.cls, e.units, pos]

/-- The entry the arbiter would grant on a path. -/
def State.choice (s : State) (cl : Nat) (pass : Bool) : Option MEntry :=
  let cand := (s.cluster cl).table.filter (fun e => e.isPass == pass && s.eligible e)
  if pass then
    ((cand.zip (List.range cand.length)).foldl (fun (acc : Option (MEntry × List Nat)) x =>
      let k := s.grantKey x.1 x.2
      match acc with
      | none => some (x.1, k)
      | some b => if lexLt k b.2 then some (x.1, k) else acc) none).map (·.1)
  else cand.head?

/-- A path of a cluster is in use. -/
def State.pathBusy (s : State) (cl : Nat) (pass : Bool) : Bool :=
  (s.cluster cl).table.any (fun e => e.isPass == pass && e.isGranted)

/-- A granted operation takes its slot: a pass that neither resumes nor comes back from a stall starts at row 0; one that resumes goes
on with the numeric events of the blocks already added. -/
def State.occupy (s : State) (e : MEntry) : State :=
  let keep := s.resumes e || (s.slotOf e).st == .stalled
  let t := s.updSlot e false (fun x => { x with st := .busy, progress := if keep || !e.isPass then x.progress else 0 })
  t.updEntry e (fun x => { x with begun := false, seen := if s.resumes e then (s.slotOf e).seen else x.seen })

/-- Grant an entry. A half of a pair starts only with its twin, granted in the same 64-clock window. -/
def State.grant (s : State) (cl : Nat) (e : MEntry) : State :=
  let s1 := s.updEntry e (fun x => { x with st := .granted s.clk })
  let s2 := if e.isPass then s1.setCluster cl ((s1.cluster cl).charge s.clk e.units) else s1
  if !e.paired then s2.occupy e
  else match s2.matchOf e with
  | some f => (match f.st with
    | .granted t => if t / 64 = s.clk / 64 then (s2.occupy e).occupy f else s2
    | _ => s2)
  | none => s2

/-- An entry that a group of a cluster holds withdrawn. -/
def State.heldEntry (s : State) (cl eid : Nat) : Option MEntry :=
  (s.groups.filter (fun p => clusterOf p.2.core == cl)).findSome? (fun p => p.2.withdrawn.find? (fun e => e.eid == eid))

/-- A request that its group holds withdrawn: one whose twin is gone ends with reason 3 (R281), and one of a group that goes on after
pre-emption enters the table when it has room (R87, R266). -/
def serveWithdrawn (row : String) (e : MEntry) (s : State) : Out :=
  match s.grp e.grp with
  | none => notNow row
  | some g =>
    if e.st == .withdrawn then event row (s.twinGone e) (s.refuseEntry e 3)
    else event row (e.st == .posted && !g.flagged && !(g.state == .saved) && (s.cluster (clusterOf g.core)).room) (s.repost e.grp)

/-- The arbiter serves an entry: it grants it, or the entry at the head of its slot's order ends with a matrix error: 3 for a
twin that is gone, 2 for twins that disagree, 4 for a halted slot. A paired request waits for its twin's before it is judged. -/
def execEntryGrant (cl eid : Nat) (s : State) : Out :=
  let row := "ENTRY_GRANT"
  let funds := decide (0 ≤ ((s.cluster cl).refilled s.clk).account)
  match s.entry cl eid with
  | none => (match s.heldEntry cl eid with
    | some e => serveWithdrawn row e s
    | none => notNow row)
  | some e =>
    match (if e.paired then s.matchOf e else none) with
    | some f =>
      if e.st == .posted && s.isHead e && s.standing f && !e.agrees f then .next ((s.refuseEntry e 2).refuseEntry f 2)
      else if e.st == .posted && s.standing f && s.isHead e && s.isHead f && (s.barred e || s.barred f || s.resumes e != s.resumes f) then
        .next ((s.refuseEntry e 4).refuseEntry f 4)
      else event row (decide (s.choice cl true = some e) && !s.pathBusy cl true && funds) (s.grant cl e)
    | none =>
      if e.paired && e.st == .posted && s.twinGone e then .next (s.refuseEntry e 3)
      else if !e.paired && e.st == .posted && s.isHead e && s.barred e then .next (s.refuseEntry e 4)
      else event row (decide (s.choice cl e.isPass = some e) && !s.pathBusy cl e.isPass && (!e.isPass || funds)) (s.grant cl e)

/-- A pass window ends (R280): a half granted alone in an earlier window is released and keeps its age. -/
def State.loneHalf (s : State) (e : MEntry) : Bool :=
  e.paired && (match e.st with
    | .granted t => decide (t / 64 < s.clk / 64) && !((s.slotOf e).st == .busy)
    | _ => false)

def execPassWindowEnd (die : Nat) (s : State) : Out :=
  let mine := fun (cl : Nat) => cl / 20 == die
  event "PASS_WINDOW_END" (s.clusters.any (fun p => mine p.1 && p.2.table.any s.loneHalf))
    { s with clusters := s.clusters.mapV (fun cl c => if mine cl then { c with table := c.table.map (fun e =>
      if s.loneHalf e then { e with st := EntSt.posted, missed := e.missed + 1 } else e) } else c) }

/-! ## Passes (R274 to R281) -/

/-- The halves of a pass with the columns each takes: the twin in the even cluster leads (R280). -/
def State.halves (s : State) (e : MEntry) : List (MEntry × Nat) :=
  let side := fun (x : MEntry) => if x.paired then clusterOf x.core % 2 else 0
  match (if e.paired then s.matchOf e else none) with
  | some f => [(e, side e), (f, side f)]
  | none => [(e, side e)]

/-- The pass runs: every half is granted and its slot BUSY. -/
def State.running (s : State) (hs : List (MEntry × Nat)) : Bool :=
  hs.all (fun h => h.1.isGranted && (s.slotOf h.1).st == .busy)

/-- What the load pipes meet, block by block. -/
inductive Scan where
  | all (m : SMap Phys)
  | wait (b fid : Nat) (m : SMap Phys)
  | bad (b : Nat) (m : SMap Phys)
  | trail (b : Nat) (m : SMap Phys)
deriving DecidableEq, Repr

def Scan.pages : Scan → SMap Phys
  | .all m | .wait _ _ m | .bad _ m | .trail _ m => m

/-- Memory that a pass may read (R274). -/
def Phys.readable : Phys → Bool
  | .dev _ | .host _ => true
  | _ => false

/-- A byte as it is now, whatever reads it. -/
def State.rdNow (s : State) (m : SMap Phys) (_key va : Nat) : Byte := s.engByte 0 (pageAt m va)

/-- A byte that engine operation `op` reads: each element, by number, at a time of its own since the operation began to read
(R275). -/
def State.rdAt (s : State) (op base : Nat) (m : SMap Phys) (key va : Nat) : Byte :=
  s.engByteAt op 0 (s.elemTime op (base + key)) (pageAt m va)

/-- The numbers from which the elements of A and of B count in a pass, and how many numbers a pass takes. -/
def panelABase : Nat := 2 ^ 28
def panelBBase : Nat := 3 * 2 ^ 27
def passDraws : Nat := 2 ^ 29

/-- Translate and check the blocks of a pass from block b on (R278, R279), for the engine operation that reads for both halves. What it
reads is what state `rd` gives: each element has one value (R275). -/
def State.scan (s : State) (rd : State) (ld ctx op : Nat) (p : PassCap) : Nat → Nat → SMap Phys → Scan × State
  | 0, _, m => (.all m, s)
  | n + 1, b, m =>
    let ps := ((p.need b).flatMap (fun r => pagesFrom r.1 r.2)).foldl insertNat []
    let x := s.engPages ld ctx (opKey op) false (ps.filter (fun q => !SMap.has m q))
    match x.1 with
    | .wait f => (.wait b f m, x.2)
    | .bad _ => (.bad b m, x.2)
    | .ok m1 =>
      let m2 := m1.foldl (fun acc q => SMap.set acc q.1 q.2) m
      if m1.any (fun q => !q.2.readable) then (.bad b m, x.2)
      else if !(p.panelA.trailOk (rd.rdAt op panelABase m2) b && p.panelB.trailOk (rd.rdAt op panelBBase m2) b) then (.trail b m2, x.2)
      else x.2.scan rd ld ctx op p n (b + 1) m2

/-- Places that blocks b0 up to b1 read. -/
def PassCap.places (p : PassCap) (m : SMap Phys) (b0 b1 : Nat) : List Phys :=
  ((List.range (b1 - b0)).map (· + b0)).flatMap (fun b => (p.need b).flatMap (fun r => (List.range r.2).map (fun i => pageAt m (r.1 + i))))

/-- Take the halves of a pass to block b1: their slots and events. -/
def State.advancePass (s : State) (op : Nat) (p : PassCap) (m : SMap Phys) (b0 b1 : Nat) (hs : List (MEntry × Nat)) :
    List (MEntry × SMap Word × SMap Nat) :=
  hs.map (fun h => (h.1, runPass p (s.rdAt op panelABase m) (s.rdAt op panelBBase m) h.2 b0 b1 (s.slotOf h.1).data h.1.seen))

/-- The operation that reads for both halves of a pass: the leader's (R280). -/
def passOp (eid : Nat) (hs : List (MEntry × Nat)) : Nat := ((hs.find? (fun h => h.2 == 0)).map (fun (h : MEntry × Nat) => h.1.eid)).getD eid

/-- A pass ends or stops: its reads are over. -/
def State.readsOver (s : State) : State := { s with free := s.free + passDraws }

/-- The load pipes of a pass begin to read, once the release of each half's group is complete (R275). -/
def State.beginPass (s : State) (row : String) (hs : List (MEntry × Nat)) : Out :=
  event row (hs.all (fun h => s.opReleased h.1)) (hs.foldl (fun t h => (t.readsNow h.1.eid).updEntry h.1 (fun x => { x with begun := true })) s)

/-- The frame of the two pass events: a running pass, scanned from its row progress. -/
def passEvent (row : String) (cl eid : Nat) (s : State) (k : PassCap → List (MEntry × Nat) → Nat → Nat → Scan × State → Out) : Out :=
  match s.entry cl eid with
  | none => notNow row
  | some e =>
    match e.kind with
    | .pass p =>
      let hs := s.halves e
      let ld := ((s.ctxs.find e.ctx).map (·.ld)).getD 0
      let nb := p.fmt.k / p.fmt.len
      let b0 := (s.slotOf e).progress / p.fmt.len
      let op := passOp eid hs
      let x := s.scan s ld e.ctx op p (nb - b0) b0 []
      let ps := p.places x.1.pages b0 (match x.1 with | .all _ => nb | .wait b _ _ | .bad b _ | .trail b _ => b)
      if !s.running hs then notNow row
      else if !hs.all (fun h => h.1.begun) then s.beginPass row hs
      else recallStep s row (s.holders 0 (ps.filterMap (engLine 0))) s.ckptReady
        (if ps.all (fun q => s.lineFree eid 0 q && s.engClean q) then k p hs op b0 x else notNow row)
    | _ => notNow row

/-- A pass finishes its slot, and `mx` retires it (R275, R280). A resuming pass leaves the row progress at K. -/
def execPassComplete (cl eid : Nat) (s : State) : Out :=
  passEvent "PASS_COMPLETE" cl eid s (fun p hs op b0 x =>
    match x.1 with
    | .all m =>
      .next ((s.advancePass op p m b0 (p.fmt.k / p.fmt.len) hs).foldl (fun t r =>
        let k := if ((t.slotOf r.1).halted).isSome then p.fmt.k else 0
        ((t.updSlot r.1 true (fun _ => ⟨.idle, r.2.1, k, none, []⟩)).countNumeric r.1 (markNan r.2.1 r.2.2)).dropEntry r.1 none) x.2.readsOver)
    | _ => notNow "PASS_COMPLETE")

/-- A pass stops after its last whole block (R278, R279): STALLED for a page to be served, HALTED for one that can never be
used or a trailer that does not match. -/
def execPassFault (cl eid : Nat) (s : State) : Out :=
  passEvent "PASS_FAULT" cl eid s (fun p hs op b0 x =>
    let halt := fun (b : Nat) (m : SMap Phys) (cause reason : Nat) =>
      Host.Outcome.next ((s.advancePass op p m b0 b hs).foldl (fun t r =>
        (t.updSlot r.1 true (fun _ => ⟨.halted, r.2.1, b * p.fmt.len, some p, r.2.2⟩)).dropEntry r.1 (r.1.error cause reason (b * p.fmt.len)))
        x.2.readsOver)
    match x.1 with
    | .all _ => notNow "PASS_FAULT"
    | .wait b f m =>
      .next ((s.advancePass op p m b0 b hs).foldl (fun t r =>
        (t.updSlot r.1 true (fun y => { y with st := .stalled, data := r.2.1, progress := b * p.fmt.len })).updEntry r.1 (fun e =>
          { e with st := .stalled f, seen := r.2.2 })) x.2.readsOver)
    | .bad b m => halt b m 0x16 1
    | .trail b m => halt b m 0x17 0)

/-- A stalled pass's fault is over (R278): the pass is posted again with its age, or its slot halts, with its twin's (R280). -/
def execPassResume (cl eid : Nat) (s : State) : Out :=
  let row := "PASS_RESUME"
  match s.entry cl eid with
  | none => notNow row
  | some e =>
    match e.kind, e.st with
    | .pass p, .stalled f =>
      if !s.faultOver f then notNow row
      else if s.faultFailed f then
        .next ((s.halves e).foldl (fun t h => (t.updSlot h.1 true (fun x => { x with st := .halted, halted := some p, seen := h.1.seen })).dropEntry
          h.1 (h.1.error 0x16 1 (t.slotOf h.1).progress)) s)
      else event row ((s.cluster cl).room) (s.updEntry e (fun x => { x with st := .posted }))
    | _, _ => notNow row

/-- The toggle estimate of a posted pass (R277): bits that change between consecutive elements of the first 16 rows of A and
of its own first 16 columns of B. -/
def execUnitEstimate (cl eid : Nat) (s : State) : Out :=
  let row := "UNIT_ESTIMATE"
  match s.entry cl eid with
  | none => notNow row
  | some e =>
    match e.kind with
    | .pass p =>
      let ld := ((s.ctxs.find e.ctx).map (·.ld)).getD 0
      let n := Nat.min p.fmt.k 256
      let bits := fmtBits p.fmt.afmt
      let j0 := if e.paired then 256 * (clusterOf e.core % 2) else 0
      let rows := (List.range 16).map (fun i => (p.panelA, i)) ++ (List.range 16).map (fun j => (p.panelB, j0 + j))
      let ps := (rows.flatMap (fun r => pagesFrom (r.1.at r.2 0) (r.1.bytes n))).foldl insertNat []
      let x := s.engPages ld e.ctx 0 false ps
      match x.1 with
      | .ok m =>
        let rd := s.rdNow m
        let t := sumNat (rows.map (fun r => sumNat ((List.range (n - 1)).map (fun k =>
          (Mask.lanes (BitVec.ofNat 64 (r.1.elem rd r.2 k ^^^ r.1.elem rd r.2 (k + 1)))).length))))
        event row (e.weight.isNone && m.all (fun q => q.2.readable)) (x.2.updEntry e (fun y => { y with weight := some (16 + 48 * t / (32 * (n - 1) * bits)) }))
      | _ => notNow row
    | _ => notNow row

/-! ## Zeroing and vector moves (R288, R289) -/

/-- The frame of a drain-path completion: the entry is granted and its slot BUSY. -/
def entryEvent (row : String) (cl eid : Nat) (s : State) (k : MEntry → Slot → Out) : Out :=
  match s.entry cl eid with
  | none => notNow row
  | some e => if e.isGranted && (s.slotOf e).st == .busy then k e (s.slotOf e) else notNow row

def execMzeroComplete (cl eid : Nat) (s : State) : Out :=
  entryEvent "MZERO_COMPLETE" cl eid s (fun e _ => event "MZERO_COMPLETE" (e.kind == .zero) (s.finishEntry e true [] none))

/-- The element that register vd + m of a lane moves. -/
def vecElem (t : Bool) (pos m l : Nat) : Nat :=
  let r := pos % 256
  let c := pos / 256 % 256
  if t then (r + l) % 256 * 256 + (c + m) % 256 else (r + m) % 256 * 256 + (c + l) % 256

/-- `.r` writes the registers, some lanes before others (R134); `.w` writes the elements of its lanes from the values their registers held
at issue (R134, R289). -/
def execMvecComplete (cl eid : Nat) (s : State) : Out :=
  entryEvent "MVEC_COMPLETE" cl eid s (fun e x =>
    match e.kind with
    | .mvec w t_ n d pos lanes vals =>
      let cells := (List.range n).flatMap (fun m => (Mask.lanes lanes).map (fun l => (m, l)))
      if w then
        let data := cells.foldl (fun acc c => SMap.put acc (vecElem t_ pos c.1 c.2) (SMap.getD vals (c.1 * 64 + c.2) 0) 0) x.data
        .next (s.finishEntry e true data none)
      else
        let part := lanes &&& BitVec.ofNat 64 (Config.freeNat s.free)
        let now := if part == 0 then lanes else part
        let eff := ((cells.filter (fun c => Mask.has now c.2)).map (fun c => wReg (.v (BitVec.ofNat 8 (if d = 255 then 255 else d + c.1))) c.2 (SMap.getD x.data (vecElem t_ pos c.1 c.2) 0))).foldl
          Eff.append {}
        let t := { s with free := s.free + 1 }.updGrp e.grp (fun y => y.applyBoth eff)
        .next (if now == lanes then t.finishEntry e false x.data none
          else t.updEntry e (fun y => { y with kind := .mvec w t_ n d pos (lanes &&& ~~~now) vals }))
    | _ => notNow "MVEC_COMPLETE")

end Sys2Proof.Machine
end

