-- ==== Sys2Proof/Machine/Drain.lean ====
section
/-! DEFINITION. Drains and accumulator loads (R282 to R287): the drain descriptor, the map from tile to tensor, conversion
with trailers, and the events that complete `MDRN` and `MLDA`. -/

namespace Sys2Proof.Machine

/-! ## The descriptor (R282, R283) -/

/-- The dimensions of a part up to the eighth: beyond the rank the size is 1. -/
def Part.dim (p : Part) (d : Nat) : Nat × Int := p.dims.getD d (1, 0)

/-- The block length of a part's format. -/
def Part.len (p : Part) : Nat := if p.fmt = 6 then 32 else 16

def Part.isBlock (p : Part) : Bool := decide (5 ≤ p.fmt)

/-- Read one destination part at an offset of the descriptor, with its shape record's bytes. -/
def readPart (bs : List Byte) (o : Nat) (shape : List Byte) (transposed : Bool) : Option Part :=
  match readShape shape with
  | none => none
  | some sh =>
    let f := fun k n => field bs (o + k) n
    let org := fun d => field bs (8 + 4 * d) 4
    let p : Part := ⟨sh.fmt, sh.dims, f 8 8, f 16 8, f 24 8, f 32 1, if transposed then org 1 else org 0,
      if transposed then org 0 else org 1, [org 2, org 3, org 4, org 5, org 6, org 7]⟩
    let L := p.len
    let rules := decide (p.fmt ≤ 6) && zeros bs (o + 33) 7 &&
      (if p.isBlock then p.o0 % L == 0 && (p.dims.drop 1).all (fun d => d.2 % ((L / 2 : Nat) : Int) == 0) && decide (p.btype ≤ 3) &&
          p.trail % 32 == 0
        else p.sbase == 0 && p.btype == 0 && (if 3 ≤ p.fmt then p.trail % 32 == 0 else p.trail == 0))
    if rules then some p else none

/-- The rules of a descriptor that need no shape record. An `MLDA` ignores rnd, flags and seed. -/
def drainFields (bs : List Byte) (load : Bool) : Bool :=
  let mode := field bs 0 1
  (if load then mode == 0 else decide (mode ≤ 2) && decide (field bs 1 1 ≤ 4) && decide (field bs 2 1 ≤ 1)) &&
  zeros bs 3 1 && zeros bs 120 8 && field bs 40 8 % 128 == 0 &&
  (if mode = 1 then field bs 80 8 % 128 == 0 else zeros bs 80 40)

/-- The formats a descriptor may name. -/
def DrainDesc.formatsOk (d : DrainDesc) : Bool :=
  d.parts.all (fun p => (d.mode != 2 || decide (p.fmt ≤ 2)) && (d.rnd != 4 || decide (3 ≤ p.fmt)))

/-- What reading a descriptor gives. -/
inductive DRes where
  | ok (d : DrainDesc)
  | wait (fid : Nat)
  | err (reason : Nat)
  | later
  | held (blks : List Nat)
deriving DecidableEq, Repr

/-- Go on with pages that are there; one that can never be used is reason 1 (R286, R287). -/
def Pages.orErr (p : Pages × State) (k : SMap Phys → State → DRes × State) : DRes × State :=
  match p.1 with
  | .wait f => (.wait f, p.2)
  | .bad _ => (.err 1, p.2)
  | .ok m => k m p.2

/-- Go on with a record that has been read; one that cannot be read is reason 1. -/
def EngRead.orErr (r : EngRead) (s : State) (k : List Byte → DRes × State) : DRes × State :=
  match r with
  | .ok bs => k bs
  | .later => (.later, s)
  | .held b => (.held b, s)
  | .poison | .space => (.err 1, s)

/-- The destination parts of a descriptor, with the bytes of their shape records. -/
def drainParts (bs : List Byte) (load : Bool) (s1 s2 : List Byte) : DRes :=
  match readPart bs 40 s1 false, (if field bs 0 1 == 1 then (readPart bs 80 s2 true).map (fun p => [p]) else some []) with
  | some p, some q =>
    let d : DrainDesc := ⟨field bs 0 1, if load then 0 else field bs 1 1, !load && field bs 2 1 == 1, BitVec.ofNat 32 (field bs 4 4), p :: q⟩
    if load || d.formatsOk then .ok d else .err 5
  | _, _ => .err 5

/-- Read and check the descriptor of an entry, with its shape records, as by a load. -/
def State.drainDesc (s : State) (e : MEntry) (ld sa : Nat) (load : Bool) : DRes × State :=
  let pages := fun (t : State) (ps : List Nat) => t.engPages ld e.ctx (opKey e.eid) false ps
  Pages.orErr (pages s (pagesFrom sa 128)) (fun m x =>
    (x.engRead e.eid 0 m sa 128).orErr x (fun bs =>
      if !drainFields bs load then (.err 5, x)
      else
        let two := field bs 0 1 == 1
        Pages.orErr (pages x (pagesFrom (field bs 40 8) 128 ++ (if two then pagesFrom (field bs 80 8) 128 else []))) (fun m2 y =>
          (y.engRead e.eid 0 m2 (field bs 40 8) 128).orErr y (fun s1 =>
            (if two then y.engRead e.eid 0 m2 (field bs 80 8) 128 else EngRead.ok []).orErr y (fun s2 => (drainParts bs load s1 s2, y))))))

/-! ## Places (R283) -/

/-- Part element (r, c): c counts along dimension 0. -/
def Part.inside (p : Part) (r c : Nat) : Bool :=
  decide (p.o0 + c < (p.dim 0).1) && decide (p.o1 + r < (p.dim 1).1) &&
  (List.range 6).all (fun k => decide (p.rest.getD k 0 < (p.dim (k + 2)).1))

/-- The offset of row r from the base. -/
def Part.rowOff (p : Part) (r : Nat) : Int :=
  (p.o1 + r : Nat) * (p.dim 1).2 + (List.range 6).foldl (fun (a : Int) k => a + (p.rest.getD k 0 : Int) * (p.dim (k + 2)).2) 0

/-- The bytes of one element; a block format packs two. -/
def Part.width (p : Part) : Nat := fmtBits p.fmt / 8

def Part.addr (p : Part) (r c : Nat) : Nat :=
  if p.isBlock then wrap64 ((p.base : Int) + p.rowOff r + ((p.o0 + c) / 2 : Nat))
  else wrap64 ((p.base : Int) + p.rowOff r + (p.o0 + c : Nat) * (p.dim 0).2)

/-- The scale byte of the block that element (r, c) lies in. -/
def Part.scaleAddr (p : Part) (r c : Nat) : Nat :=
  wrap64 ((p.sbase : Int) + p.rowOff r / ((p.len / 2 : Nat) : Int) + ((p.o0 + c) / p.len : Nat))

/-- The columns of a row that are inside. -/
def Part.cols (p : Part) (r : Nat) : List Nat := (List.range 256).filter (p.inside r)

/-- The rows with an inside element. -/
def Part.rows (p : Part) : List Nat := (List.range 256).filter (fun r => p.inside r 0)

/-! ## Conversion (R284) -/

/-- A row as converted: column, bits and flags of each inside element, and first column and scale byte of each block. -/
structure RowOut where
  r : Nat
  elems : List (Nat × Nat × Flags)
  scales : List (Nat × Nat)
deriving DecidableEq, Repr

/-- The modes of n elements of a row whose generator starts at g. -/
def srModes : Nat → Word → List RMode
  | 0, _ => []
  | n + 1, g => .sr (rngBits g) :: srModes n (rngStep g)

/-- A code 0 to 3 as a type of R18. -/
def btypeOf (n : Nat) : BTy :=
  match n % 4 with
  | 0 => .int | 1 => .e2m1 | 2 => .pow2 | _ => .hyb

/-- Convert one row. `val` is the slot's element (row, column) of the part, `gen` the generator of row 0 (R284). -/
def Part.convertRow (p : Part) (d : DrainDesc) (gen : Nat) (val : Nat → Nat → Word) (r : Nat) : RowOut :=
  let cs := p.cols r
  let modes := if d.rnd = 4 then srModes cs.length (seedLane d.seed (gen + r)) else cs.map (fun _ => modeOf d.rnd)
  let xs := cs.zip modes
  if p.isBlock then
    let blocks := (cs.filter (fun c => (p.o0 + c) % p.len == 0)).map (fun c0 =>
      let mine := xs.filter (fun x => decide (c0 ≤ x.1) && decide (x.1 < c0 + p.len))
      (c0, mine.map (·.1), quantBlock (btypeOf p.btype) d.sat (mine.map (fun x => fp32.value (val r x.1).toNat)) (mine.map (·.2))))
    ⟨r, blocks.flatMap (fun b => (b.2.1.zip b.2.2.2.1).map (fun e => (e.1, e.2.1, e.2.2))), blocks.map (fun b => (b.1, b.2.2.1))⟩
  else
    ⟨r, xs.map (fun x =>
      let v := fp32.value (val r x.1).toNat
      let y := if p.fmt = 0 then (if v.isNan then fp32.qnan else (val r x.1).toNat, (0 : Flags))
        else v.roundTo (fmtOf p.fmt) ⟨x.2, d.sat, false⟩
      (x.1, y.1, y.2)), []⟩

/-- Codes in pairs, the lower in the low nibble (R16). -/
def pairCodes : List (Nat × Nat × Flags) → List (Nat × Nat)
  | a :: b :: r => (a.1, a.2.1 + 16 * b.2.1) :: pairCodes r
  | [a] => [(a.1, a.2.1)]
  | [] => []

/-- The bytes of a row's elements with their addresses, in ascending dimension 0. -/
def RowOut.writes (o : RowOut) (p : Part) : List (Nat × Byte) :=
  if p.isBlock then (pairCodes o.elems).map (fun c => (p.addr o.r c.1, BitVec.ofNat 8 c.2))
  else o.elems.flatMap (fun e => (withOffsets (leBytes p.width e.2.1)).map (fun b => ((p.addr o.r e.1 + b.1) % 2 ^ 64, b.2)))

def RowOut.scaleWrites (o : RowOut) (p : Part) : List (Nat × Byte) :=
  o.scales.map (fun c => (p.scaleAddr o.r c.1, BitVec.ofNat 8 c.2))

/-- Every byte of a part, elements before scale bytes: the order of the CRC (R285). -/
def partWrites (p : Part) (rows : List RowOut) : List (Nat × Byte) :=
  rows.flatMap (fun o => o.writes p) ++ rows.flatMap (fun o => o.scaleWrites p)

/-- The largest magnitude converted (R285). -/
def bmaxOf (vs : List Word) : Nat :=
  if vs.any (fun v => (fp32.value v.toNat).isNan) then fp32.qnan else maxNat (vs.map (fun v => v.toNat % 2 ^ 31))

/-- A part's trailer (R285). `rows` and `cols` count tile rows and columns. -/
def trailerBytes (p : Part) (out : List RowOut) (vals : List Word) (rows cols : Nat) : List Byte :=
  leBytes 4 (crc32c ((partWrites p out).map (·.2))) ++ leBytes 4 (bmaxOf vals) ++
  leBytes 4 (sumNat (out.map (fun o => (o.elems.filter (fun e => e.2.2 &&& fSat != 0)).length))) ++
  leBytes 2 rows ++ leBytes 2 cols ++ leBytes 1 p.fmt ++ leBytes 1 p.btype ++ leBytes 14 0

/-- A part's format writes a trailer. -/
def Part.hasTrailer (p : Part) : Bool := decide (3 ≤ p.fmt)

/-! ## One drain -/

/-- What one part of a drain writes: its bytes by address, its trailer with the number of its part, and the events of tile elements,
keyed by row × 256 + column. -/
structure PartOut where
  bytes : List (Nat × Byte)
  trailer : List (Nat × List Byte)
  events : SMap Nat
deriving DecidableEq, Repr

/-- The NaN outcome of an element: a NaN code, or an element of a block with the NaN scale. -/
def Part.nanOut (p : Part) (o : RowOut) (c bits : Nat) : Bool :=
  if p.isBlock then o.scales.any (fun x => x.1 / p.len == c / p.len && x.2 % 64 == 63) else ((fmtOf p.fmt).value bits).isNan

/-- A part of a storing drain. -/
def Part.store (p : Part) (d : DrainDesc) (transposed : Bool) (data : SMap Word) : PartOut :=
  let key := fun r c => if transposed then c * 256 + r else r * 256 + c
  let val := fun r c => SMap.getD data (key r c) 0
  let out := p.rows.map (p.convertRow d (if transposed then 256 else 0) val)
  let nr := p.rows.length
  let nc := if nr = 0 then 0 else (p.cols 0).length
  let vals := p.rows.flatMap (fun r => (p.cols r).map (val r))
  { bytes := partWrites p out
    trailer := if p.hasTrailer then [(0, trailerBytes p out vals (if transposed then nc else nr) (if transposed then nr else nc))] else []
    events := out.foldl (fun m o => o.elems.foldl (fun m e =>
      let ev := (evBits e.2.2 true) ||| (if p.nanOut o e.1 e.2.1 then 8 else 0)
      if ev = 0 then m else SMap.set m (key o.r e.1) (SMap.getD m (key o.r e.1) 0 ||| ev)) m) [] }

/-- Elements of an add-on-store drain (R286): each read, added, rounded once. Elements that share bytes add one after the
other. -/
def Part.add (p : Part) (d : DrainDesc) (rd : Nat → Byte) (data : SMap Word) (cells : List (Nat × Nat)) : PartOut :=
  let f := fmtOf p.fmt
  let x := cells.foldl (fun (acc : SMap Byte × SMap Nat) rc =>
    let at_ := fun i => (p.addr rc.1 rc.2 + i) % 2 ^ 64
    let old := leNat ((List.range p.width).map (fun i => (SMap.find acc.1 (at_ i)).getD (rd (at_ i))))
    let v := SMap.getD data (rc.1 * 256 + rc.2) 0
    let a := f.value old
    let b := fp32.value v.toNat
    let y := f.sum ⟨modeOf d.rnd, d.sat, false⟩ [a, b]
    let ev := evBits y.2 (a.isNan || b.isNan) ||| (if (f.value y.1).isNan then 8 else 0)
    ((withOffsets (leBytes p.width y.1)).foldl (fun m w => SMap.set m (at_ w.1) w.2) acc.1,
     if ev = 0 then acc.2 else SMap.set acc.2 (rc.1 * 256 + rc.2) ev)) ([], [])
  ⟨x.1, [], x.2⟩

/-- Every address the elements and scale bytes of a part take. -/
def Part.elemAddrs (p : Part) : List Nat :=
  p.rows.flatMap (fun r =>
    (p.cols r).flatMap (fun c => (List.range (if p.isBlock then 1 else p.width)).map (fun i => (p.addr r c + i) % 2 ^ 64)) ++
    (if p.isBlock then (p.cols r).map (p.scaleAddr r) else []))

/-- Every address a descriptor's parts write, trailers included. -/
def DrainDesc.targets (d : DrainDesc) : List Nat :=
  d.parts.flatMap (fun p => p.elemAddrs ++ (if p.hasTrailer then (List.range 32).map (· + p.trail) else []))

/-- The events of two sets of elements, an element's together. -/
def mergeEvents (a b : SMap Nat) : SMap Nat := b.foldl (fun m e => SMap.set m e.1 (SMap.getD m e.1 0 ||| e.2)) a

/-- Where a transposed copy overlaps its primary copy, which of the two bytes stands is open (R292). -/
def mergeParts (free : Nat) (a b : List (Nat × Byte)) : List (Nat × Byte) :=
  a ++ ((b.zip (List.range b.length)).filter (fun x => !(a.any (fun y => y.1 == x.1.1)) || Config.freeBit (free + x.2))).map (·.1)

/-- What a storing drain writes: bytes, trailers by part, events. -/
def State.drainOut (s : State) (d : DrainDesc) (data : SMap Word) : PartOut × State :=
  match d.parts with
  | [p] => (p.store d false data, s)
  | p :: q :: _ =>
    let x := p.store d false data
    let y := q.store d true data
    (⟨mergeParts s.free x.bytes y.bytes, x.trailer ++ y.trailer.map (fun r => (1, r.2)), mergeEvents x.events y.events⟩,
      { s with free := s.free + y.bytes.length })
  | [] => (⟨[], [], []⟩, s)

def Phys.isDevice : Phys → Bool
  | .dev _ => true
  | _ => false

/-- The lines of some addresses whose pages are known. -/
def addrLines (m : SMap Phys) (as : List Nat) : List Nat := linesOf 0 (as.map (pageAt m))

/-- The lines of a drain's trailers, which it keeps until they are written. -/
def MEntry.tailLines (e : MEntry) (m : SMap Phys) (tail : List (Nat × List Byte)) : List Nat :=
  addrLines m (tail.map (fun t => (((e.desc.map (·.parts)).getD [])[t.1]?.map (·.trail)).getD 0))

/-- A drain begins (R286 steps 1, 3 and 4): it reads its descriptor and translates every destination line; then a storing one converts
its elements and claims its lines in ascending order; an adding one claims them one by one (R261). -/
def State.beginDrain (s : State) (row : String) (e : MEntry) (sa : Nat) : Out :=
  let ld := ((s.ctxs.find e.ctx).map (·.ld)).getD 0
  let fail := fun (t : State) (reason : Nat) =>
    Host.Outcome.next (t.finishEntry e false (t.slotOf e).data (e.error 0x16 reason (t.slotOf e).progress))
  let x := match e.desc with
    | some d => (DRes.ok d, s)
    | none => s.drainDesc e ld sa false
  match x.1 with
  | .wait f => .next (x.2.updEntry e (fun y => { y with wait := some f }))
  | .err n => fail x.2 n
  | .later => notNow row
  | .held bs => recallStep s row bs s.ckptReady (notNow row)
  | .ok d =>
    let y := x.2.engPages ld e.ctx (opKey e.eid) true (pagesOf d.targets)
    match y.1 with
    | .wait f => .next (y.2.updEntry e (fun z => { z with desc := some d, wait := some f }))
    | .bad _ => fail y.2 1
    | .ok m =>
      let lines := addrLines m d.targets
      if m.any (fun q => !q.2.isDevice) then fail y.2 5
      else if d.mode = 2 then .next (y.2.updEntry e (fun z => { z with
        desc := some d, claim := some ⟨lines.map (fun l => (l, [])), [], m⟩, wait := none }))
      else recallStep s row (s.holders 0 lines) s.ckptReady
        (let out := y.2.drainOut d (s.slotOf e).data
         let ps := piecesOf 0 (out.1.bytes.map (fun b => (pageAt m b.1, b.2)))
         .next ((out.2.claim e.eid lines).updEntry e (fun z => { z with
           desc := some d, claim := some ⟨ps, [], m⟩, tail := out.1.trailer, seen := out.1.events, wait := none })))

/-- The elements that a part of a drain adds to. -/
def Part.cells (p : Part) : List (Nat × Nat) := p.rows.flatMap (fun r => (p.cols r).map (fun c => (r, c)))

/-- An adding drain whose lines are all granted adds (R286): every element is read, added and rounded, while the drain owns its lines;
the bytes of each line are then written as one write (R261). -/
def State.addAll (s : State) (e : MEntry) (d : DrainDesc) (p : Part) (cl : Claim) : State :=
  let rd := fun (va : Nat) => match pageAt cl.dst va with
    | .dev pa => s.newestByte pa
    | _ => 0
  let out := p.add d rd (s.slotOf e).data p.cells
  s.updEntry e (fun z => { z with
    begun := true, seen := out.events, claim := some { cl with pieces := piecesOf 0 (out.bytes.map (fun b => (pageAt cl.dst b.1, b.2))) } })

/-- One step of an adding drain (R261): it claims its next line, once the one before has been granted; with all granted and no poison
among what it reads, it adds; then it writes line by line. -/
def State.addStep (s : State) (row : String) (e : MEntry) (d : DrainDesc) (p : Part) (cl : Claim) : Out :=
  let mine := cl.pieces.map (·.1)
  let claimed := mine.filter (fun l => s.owned.any (fun o => o == (l, e.eid)))
  if e.begun then
    let w := s.writeSome e.grp e.eid 0 true [] cl
    event row (!w.1.isEmpty) (w.2.2.updEntry e (fun y => { y with claim := some w.2.1 }))
  else if !claimed.all (s.holdsLine e.eid) then notNow row
  else match mine.find? (fun l => !claimed.contains l) with
  | some l => recallStep s row (s.holders 0 [l]) s.ckptReady (.next (s.claim e.eid [l]))
  | none => event row (p.elemAddrs.all (fun a => s.engClean (pageAt cl.dst a))) (s.addAll e d p cl)

/-- Every write of an operation to some addresses has reached its visibility time. -/
def State.bytesVisible (s : State) (gid op : Nat) (m : SMap Phys) (as : List Nat) : Bool :=
  s.invis.all (fun w => !(w.grp == gid && w.op == op) || as.all (fun a => match pageAt m a with
    | .dev pa => !SMap.has w.bytes pa
    | _ => true))

/-- The trailer of a part is written once every element of its part is visible (R285). -/
def State.trailerStep (s : State) (row : String) (e : MEntry) (d : DrainDesc) (cl : Claim) : Out :=
  let ready := e.tail.filter (fun t => match d.parts[t.1]? with
    | some p => s.bytesVisible e.grp e.eid cl.dst p.elemAddrs && (addrLines cl.dst [p.trail]).all (s.holdsLine e.eid)
    | none => true)
  match ready with
  | [] => notNow row
  | t :: _ =>
    let rest := e.tail.filter (fun u => u.1 != t.1)
    let at_ := ((d.parts[t.1]?).map (·.trail)).getD 0
    let bs := (withOffsets t.2).map (fun b => (pageAt cl.dst (at_ + b.1), b.2))
    let done := (e.tailLines cl.dst [t]).filter (fun l => !(e.tailLines cl.dst rest).contains l)
    .next (((s.engWrite e.grp e.eid 0 false bs).unclaimLines e.eid done).updEntry e (fun y => { y with tail := rest }))

/-- The life of a granted drain (R286): it begins once its release is done and its page has been served; it writes or adds line by
line; its trailers follow; then it retires, clearing the slot under `.z`. -/
def execDrainComplete (cl eid : Nat) (s : State) : Out :=
  let row := "DRAIN_COMPLETE"
  entryEvent row cl eid s (fun e x =>
    match e.kind with
    | .drain z sa =>
      match e.claim, e.desc with
      | some c, some d =>
        if !c.pieces.isEmpty then
          match d.mode, d.parts with
          | 2, p :: _ => s.addStep row e d p c
          | _, _ =>
            let w := s.writeSome e.grp eid 0 false (e.tailLines c.dst e.tail) c
            event row (!w.1.isEmpty) (w.2.2.updEntry e (fun y => { y with begun := true, claim := some w.2.1 }))
        else if !e.tail.isEmpty then s.trailerStep row e d c
        else .next ((s.countNumeric e e.seen).finishEntry e z (if z then [] else x.data) none)
      | _, _ =>
        if s.opReleased e && (match e.wait with
          | some f => s.faultOver f
          | none => true) then s.beginDrain row e sa else notNow row
    | _ => notNow row)

/-! ## Accumulator loads (R287) -/

/-- The bytes of the window: address and length. -/
def Part.window (p : Part) : List (Nat × Nat) :=
  p.rows.flatMap (fun r => (p.cols r).flatMap (fun c =>
    (p.addr r c, if p.isBlock then 1 else p.width) :: (if p.isBlock then [(p.scaleAddr r c, 1)] else [])))

/-- An inside element widened to FP32; elements and scale bytes are read as in a pass. -/
def Part.load (p : Part) (rd : PanelRead) (r c : Nat) : Nat :=
  let a := p.addr r c
  let v := if p.isBlock then blockElem (rd (scaleKey r (c / p.len)) (p.scaleAddr r c)).toNat
      ((rd (elemKey r c) a).toNat / 16 ^ ((p.o0 + c) % 2) % 16)
    else (fmtOf p.fmt).value (leNat ((List.range p.width).map (fun i => rd (elemKey r c) ((a + i) % 2 ^ 64))))
  (v.roundTo fp32 ⟨.rn, false, false⟩).1

/-- The slot that a window gives: clipped elements are +0. -/
def Part.tile (p : Part) (rd : PanelRead) : SMap Word :=
  p.rows.flatMap (fun r => (p.cols r).filterMap (fun c =>
    let v := p.load rd r c
    if v = 0 then none else some (r * 256 + c, BitVec.ofNat 32 v)))

/-- An accumulator load translates every page of its window before it writes the slot. -/
def State.tryLoad (s : State) (e : MEntry) (sa : Nat) (row : String) : Out :=
  let ld := ((s.ctxs.find e.ctx).map (·.ld)).getD 0
  let x := match e.desc with
    | some d => (DRes.ok d, s)
    | none => s.drainDesc e ld sa true
  let back := fun (t : State) (reason : Nat) =>
    -- the slot is as it was before the grant
    let y := t.slotOf e
    (t.updSlot e false (fun q => { q with st := if y.halted.isSome then .halted else .idle })).dropEntry e (e.error 0x16 reason y.progress)
  match x.1 with
  | .wait f => .next (x.2.updEntry e (fun y => { y with wait := some f }))
  | .err n => .next (back x.2 n)
  | .later => notNow row
  | .held bs => recallStep s row bs s.ckptReady (notNow row)
  | .ok d =>
    let runs := (d.parts.take 1).flatMap Part.window
    let y := x.2.engPages ld e.ctx (opKey e.eid) false ((runs.flatMap (fun r => pagesFrom r.1 r.2)).foldl insertNat [])
    match y.1 with
    | .wait f => .next (y.2.updEntry e (fun z => { z with desc := some d, wait := some f }))
    | .bad _ => .next (back y.2 1)
    | .ok m =>
      if m.any (fun q => !q.2.readable) then .next (back y.2 5)
      else
        let ps := runs.flatMap (fun r => (List.range r.2).map (fun i => pageAt m (r.1 + i)))
        let data := (((d.parts.head?).map (fun p => p.tile (s.rdAt e.eid panelABase m))).getD [])
        recallStep s row (s.holders 0 (ps.filterMap (engLine 0))) s.ckptReady
          (event row (ps.all (fun q => s.lineFree e.eid 0 q && s.engClean q)) (y.2.readsOver.finishEntry e true data none))

/-- An accumulator load (R287): it begins to read once its release is done; each element is then read at a time of its own (R275). -/
def execMldaComplete (cl eid : Nat) (s : State) : Out :=
  let row := "MLDA_COMPLETE"
  entryEvent row cl eid s (fun e _ =>
    match e.kind with
    | .mlda sa =>
      if !e.begun then event row (s.opReleased e) ((s.readsNow eid).updEntry e (fun y => { y with begun := true }))
      else if (match e.wait with
        | some f => s.faultOver f
        | none => true) then s.tryLoad e sa row else notNow row
    | _ => notNow row)

end Sys2Proof.Machine
end

