-- ==== Sys2Proof/Machine/Traps.lean ====
section
/-! DEFINITION. What follows a trap or a service call: handler entry (R329), the sage cores' completions (R334, R336), fault
service (R313, R315) and the service of a fetch fault (R312). -/

namespace Sys2Proof.Machine

/-! ## Handler entry (R329) -/

/-- The address of a group's report slot in a report area (R329): `pos` is the group's resident position. -/
def Group.reportSlot (g : Group) (area : Nat) : Nat := area + 64 * (128 * g.core + 32 * (g.idx % 4) + g.pos)

/-- The lanes of a trapped fragment: those of its report that wait, and the helper lanes anchored in them now (R142). -/
def Group.trapLanes (g : Group) (r : Report) : Mask :=
  let own := fun i => g.isRunning i && (g.lane i).hold == .handler && Mask.has r.lanes i
  g.mask (fun i => own i || (g.isHelper i && (match g.anchor i with | some a => own a | none => false)))

/-- The report store that waits in replay. -/
def Group.reportOp (g : Group) : Option PendOp := g.ops.find? (fun o => o.kind == .report)

/-- The fragment of a lane stands first of those waiting for handler entry (R329): no handler runs, and its own report store is in
replay, or none is and no lower PC waits. -/
def Group.entersNext (g : Group) (l : Nat) : Bool :=
  !g.handlerOpen && g.isRunning l && (g.lane l).hold == .handler &&
  (match g.reportOp with
    | some o => o.lanes.any (fun a => Mask.has a.who l)
    | none => g.laneIds.all (fun i => !(g.isRunning i && (g.lane i).hold == .handler) ||
        decide ((g.lane l).pc.toNat ≤ (g.lane i).pc.toNat)))

/-- The lanes begin at the handler with their v0:v1 saved and v0:v1 the address of the report. -/
def Group.enterHandler (g : Group) (m : Mask) (handler : Nat) (slot : DWord) : Group :=
  let lanes := g.lanes.mapIdx (fun l x =>
    if Mask.has m l then
      if x.st == .running then
        { x with saved := some (g.rv 0 l, g.rv 1 l), hnd := some x.pc, pc := BitVec.ofNat 56 handler, hold := .none }
      else { x with saved := some (g.rv 0 l, g.rv 1 l) }
    else x)
  ({ g with lanes := lanes }).applyBoth (Eff.lanes (Mask.lanes m) (fun l => wReg64 (.v 0) l slot))

/-- The report store cannot be made: a double trap (R327). -/
def State.reportLost (s : State) (g : Group) (r : Report) (second : Nat) : State := s.failWith g (r.double second)

/-- The report store that waits in replay ends. -/
def Group.endReport (g : Group) : Group := { g with ops := g.ops.filter (fun o => !(o.kind == .report)) }

/-- The device line of a place. -/
def Phys.devLine : Phys → List Nat
  | .dev pa => [pa / 128]
  | _ => []

/-- The report is stored as a store of the fragment, and the fragment enters its handler. -/
def State.enterHandler (s : State) (gid : Nat) (g : Group) (m : Mask) (tw : TrapWait) (ph : Phys) : State :=
  let slot := g.reportSlot tw.area
  let n := s.fresh
  let t := n.2.storePhys gid n.1 g m ph (withOffsets tw.rep.bytes) false (Config.freeNat s.free)
  { t with free := s.free + 1 }.updGrp gid (fun y =>
    { y.enterHandler m tw.handler (BitVec.ofNat 64 slot) with traps := y.traps.filter (fun (w : TrapWait) => !(w == tw)) })

/-- Handler entry: the report is stored as a store of the fragment with a `.grp` release, and the fragment enters the handler.
A fault on the store waits in replay, once the buffer has room (R313). A place of the bell window takes no store of this width (R224). -/
def execHandlerEntry (grp lane : Nat) (s : State) : Out :=
  let row := "HANDLER_ENTRY"
  match s.grp grp with
  | none => notNow row
  | some g =>
    match g.traps.find? (fun (w : TrapWait) => Mask.has w.rep.lanes lane) with
    | none => notNow row
    | some tw =>
      let m := g.trapLanes tw.rep
      let slot := g.reportSlot tw.area
      let fid := g.reportOp.bind (fun o => o.lanes.findSome? (fun a => match a.st with
        | .fault f => some f
        | _ => none))
      let live := g.entersNext lane && (fid.map s.faultOver).getD true && s.released grp g s.nextId m .grp false
      let g0 := g.endReport
      let s0 := s.setGrp grp g0
      let x := s0.xlat (s.ctxNum g) slot .write
      if !live then notNow row
      else if (fid.map s.faultFailed).getD false then .next (s0.reportLost g0 tw.rep 0x0B)
      else if 2 ^ 56 ≤ slot then .next (s0.reportLost g0 tw.rep 4)
      else match x.1 with
      | .fault k q =>
        let f := x.2.askFault (s.ldOf g) (s.ctxNum g) slot .write k q 0
        let i : Issue := ⟨grp, m, (g.lane lane).pc, tw.rep.word, .handler, s.clk⟩
        let n := f.2.fresh
        event row (decide (s0.replayUsed g.core < 64)) (n.2.updGrp grp (fun y => y.pushOp n.1 .own i .report noOrder
          [⟨lane, m, slot, 64, .zero, [], .fault f.1⟩] false))
      | .poisoned => .next (x.2.reportLost g0 tw.rep 0x0A)
      | .remote _ _ => .next (x.2.reportLost g0 tw.rep 7)
      | .bad => .next (x.2.reportLost g0 tw.rep 0x0B)
      | .ok (.bell _) => .next (x.2.reportLost g0 tw.rep 3)
      | .ok ph =>
        let acc : LaneAcc := ⟨lane, m, slot, 64, ph, [], .ready⟩
        if !s.accessFree g acc false then notNow row
        else recallFor s row g.blk (s.holders g.blk ph.devLine) (.next (x.2.enterHandler grp g m tw ph))

/-! ## Sage-core services (R334, R336) -/

/-- The sage cores complete a record of code 0xF000 or above. -/
def execServiceComplete (ld rid : Nat) (s : State) : Out :=
  let row := "SERVICE_COMPLETE"
  match s.records.find rid with
  | none => notNow row
  | some x =>
    let code := x.code.getD 0
    let regs := ((s.grp x.grp).map (fun g => (s.descOf g).regs)).getD 0
    let e := resultEff regs x.lanes (fun l => if code = 0xFFFF then BitVec.ofNat 64 (field x.bytes (64 + 32 * l) 8) else BitVec.allOnes 64)
    event row (x.ld == ld && decide (0xF000 ≤ code)) (s.completeRecord rid x e (x.pc + 8))

/-! ## Fault service (R313, R315) -/

/-- The entry that decides an address: where it lies, its level and its value. -/
def leafAt (mem : List Host.Cell) : Nat → Nat → Nat → Nat × Nat × DWord
  | level, table, va =>
    let pa := table + 8 * (va / 2 ^ (12 + 9 * level) % 512)
    let e : DWord := BitVec.ofNat 64 (Memory.read mem pa 8)
    match level with
    | 0 => (pa, 0, e)
    | l + 1 => if pteKind e == 5 then leafAt mem l (pteFrame e) va else (pa, l + 1, e)

/-- The size of an allocation, by the code in [5:4] (R315). -/
def allocSize (code : Nat) : Nat := if code = 0 then 4096 else if code = 1 then 65536 else 2 ^ 21

/-- The lowest free frame of a device's pool. -/
def LDev.freeFrame (d : LDev) (size : Nat) : Option Nat :=
  let free := fun (a : Nat) => d.poolUsed.all (fun u => decide (u.1 + u.2 ≤ a) || decide (a + size ≤ u.1))
  let starts := d.poolBase :: d.poolUsed.map (fun u => ceilDiv (u.1 + u.2) size * size)
  (sortBy id starts).find? (fun a => decide (d.poolBase ≤ a) && decide (a + size ≤ d.poolBase + d.poolSize) && free a)

/-- What a sage core does for a fault by itself: nothing is left to do, or entries to write from an address on and the frame
and size to take; none when the host must serve it. -/
def State.sagePlan (s : State) (f : PFault) : Option (Option (Nat × Nat × Nat × Nat)) :=
  match s.ctxs.find f.ctx with
  | none => none
  | some c =>
    if 2 ^ 55 ≤ f.va then none
    else match s.walk f.ctx f.va with
    | .malformed => none
    | .leaf e _ =>
      if pteKind e == 1 && pteSpace e == 0 && (!(f.access == 1 || f.access == 4) || pteWrite e) && (f.access != 2 || pteExec e) then some none
      else if pteKind e != 0 || !pteWrite e then none
      else
        let at_ := leafAt s.mem 4 c.root f.va
        let code := e.toNat / 16 % 4
        let size := allocSize code
        let first := at_.1 - at_.1 % 128
        let same := (List.range 16).all (fun i =>
          let x : DWord := BitVec.ofNat 64 (Memory.read s.mem (first + 8 * i) 8)
          pteKind x == 0 && pteWrite x && x.toNat / 16 % 4 == 1)
        let fits := match code, at_.2.1 with
          | 0, 0 => true
          | 1, 0 => same
          | 2, 1 => true
          | _, _ => false
        if !fits then none
        else match (s.ld f.ld).freeFrame size with
        | none => none
        | some fr => some (some (if code = 1 then first else at_.1, if code = 1 then 16 else 1, fr, size))

/-- Write zeros over a range: listed bytes go, and its poison with them. -/
def State.zeroFrame (s : State) (base size : Nat) : State :=
  { s with
    mem := s.mem.filter (fun c => decide (c.1 < base) || decide (base + size ≤ c.1))
    poison := s.poison.filter (fun p => decide (p * 16 < base) || decide (base + size ≤ p * 16)) }

/-- Write PRESENT, writable, non-executable entries for a frame taken from the pool. -/
def State.mapFrame (s : State) (pa n frame size : Nat) : State :=
  let entry := fun (i : Nat) => 1 + 8 + (if n = 16 then 32 else 0) + frame + 4096 * (if n = 16 then i else 0)
  (s.zeroFrame frame size).devWrite ((List.range n).flatMap (fun i => (withOffsets (leBytes 8 (entry i))).map (fun b =>
    (pa + 8 * i + b.1, b.2)))) []

def State.endFault (s : State) (fid : Nat) (st : FaultSt) : State :=
  { s with faults := s.faults.upd fid (fun f => { f with st := st }) }

/-- A sage core can read the tables for a fault: no region of theirs is being moved (R319), and what checkpointed blocks hold of them has
been released (R309). -/
def State.sageReads (s : State) (f : PFault) : Option State :=
  let r := s.recallWalk f.ctx f.va 6
  if r.2 && !((r.1.walkLines f.ctx f.va).any (fun l => r.1.isMoving (l * 128))) then some r.1 else none

/-- A sage core maps a page of the private window that allocates on demand (R315). -/
def execSageAllocService (ld fid : Nat) (s0 : State) : Out :=
  let row := "SAGE_ALLOC_SERVICE"
  match (s0.faults.find fid).bind (fun f => (s0.sageReads f).map (fun s => (f, s))) with
  | none => notNow row
  | some (f, s) =>
    match s.sagePlan f with
    | none => notNow row
    | some p => event row (f.ld == ld && f.st == .asked && !f.serviceless) (match p with
      | none => s.endFault fid .resolved
      | some a =>
        ((s.mapFrame a.1 a.2.1 a.2.2.1 a.2.2.2).updLd ld (fun d => { d with poolUsed := d.poolUsed ++ [(a.2.2.1, a.2.2.2)] })).endFault fid .resolved)

/-- The 32 bytes of a fault record (R315). -/
def faultRecord (fid : Nat) (f : PFault) : List Byte :=
  leBytes 4 fid ++ leBytes 2 f.ctx ++ leBytes 1 f.access ++ leBytes 1 f.kind ++ leBytes 8 f.va ++ leBytes 16 0

/-- Any other fault goes to the host's fault ring. -/
def execFaultForward (ld fid : Nat) (s0 : State) : Out :=
  let row := "FAULT_FORWARD"
  match (s0.faults.find fid).bind (fun f => (s0.sageReads f).map (fun s => (f, s))) with
  | none => notNow row
  | some (f, s) => event row (f.ld == ld && f.st == .asked && !f.serviceless && (s.sagePlan f).isNone)
      ((s.endFault fid .forwarded).queueEntry ld 4 (faultRecord fid f))

/-- A lane waits for a page that its fetch needs; the wait under which it fetched is kept. -/
def Lane.awaitPage (x : Lane) (fid : Nat) : Lane :=
  { x with kept := if x.hold == .none then x.kept else x.hold, hold := .fault fid }

/-- The page is there: the lane waits as before. A resumed `LDFE` that has still to issue stays marked as such. -/
def Lane.pageServed (x : Lane) : Lane :=
  if x.kept == .ready then { x with hold := .none } else { x with hold := x.kept, kept := .none }

/-- A fetch fault is over (R312): the fragment may fetch again, with the wait under which it fetched, or its word traps (R314). -/
def execFetchFaultServed (grp lane : Nat) (s : State) : Out :=
  let row := "FETCH_FAULT_SERVED"
  match s.grp grp with
  | none => notNow row
  | some g =>
    match (g.lane lane).hold with
    | .fault f =>
      let m := g.fragment lane
      let pc := (g.lane lane).pc
      let s1 := s.setGrp grp (g.updLanes m (fun x => if x.st == .running then x.pageServed else x))
      event row (g.isRunning lane && s.faultOver f)
        (if s.faultFailed f then s1.takeTrap grp m pc 0 { cause := 0x0B, addr := pc.toNat, info := m.toNat } else s1)
    | _ => notNow row

end Sys2Proof.Machine
end

