-- ==== Sys2Proof/Machine/Preempt.lean ====
section
/-! DEFINITION. Pre-emption (R83 to R86): the parking of groups, the saving of blocks, the end of a drain and its limit. -/

namespace Sys2Proof.Machine

/-! ## Live sets (R73, R83) -/

def allLive : LiveSet := ⟨2 ^ 256 - 1, 2 ^ 64 - 1, 255, 255, 255⟩

def LiveSet.union (a b : LiveSet) : LiveSet := ⟨a.v ||| b.v, a.s ||| b.s, a.p ||| b.p, a.j ||| b.j, a.a ||| b.a⟩

/-- What a lane's stop holds live: at a safe point the entry's set, at the entry no accumulator, elsewhere everything. -/
def Lane.live (x : Lane) : LiveSet :=
  match x.st with
  | .stopped (.safePoint l _) => l
  | .stopped .entry => { allLive with a := 0 }
  | .arrived _ | .service _ | .stopped .waitPoint | .running => allLive
  | .helper | .exited => ⟨0, 0, 0, 0, 0⟩

/-- The union of the live sets of a group's stops (R84 step 4). -/
def Group.liveSet (g : Group) : LiveSet := g.lanes.foldl (fun a x => a.union x.live) ⟨0, 0, 0, 0, 0⟩

/-- Registers outside the live set read zero after resumption. -/
def Group.keepLive (g : Group) (l : LiveSet) : Group :=
  { g with
    v := g.v.filter (fun p => l.v.testBit (p.1 / 64))
    shadow := g.shadow.filter (fun p => l.v.testBit (p.1 / 64))
    s := g.s.filter (fun p => l.s.testBit p.1)
    p := g.p.filter (fun q => l.p.testBit q.1)
    j := g.j.filter (fun q => l.j.testBit q.1) }

/-! ## Parking (R84) -/

/-- Every fragment of the group has stopped. -/
def Group.allStopped (g : Group) : Bool := g.laneIds.all (fun l => !((g.lane l).st == .running))

/-- The requests of a group that have not been granted: posted, and not the stalled pass of their slot. -/
def State.ungranted (s : State) (gid : Nat) (g : Group) : List MEntry :=
  (s.cluster (clusterOf g.core)).table.filter (fun e => e.grp == gid && e.st == .posted &&
    !((s.slotOf e).st == .stalled && s.isHead e))

/-- Step 1: withdraw them into the control record. -/
def State.withdraw (s : State) (gid : Nat) (g : Group) (es : List MEntry) : State :=
  let ids := es.map (·.eid)
  let cl := clusterOf g.core
  (s.setCluster cl { s.cluster cl with table := (s.cluster cl).table.filter (fun e => !ids.contains e.eid) }).setGrp gid
    { g with withdrawn := sortBy (·.eid) (g.withdrawn ++ es) }

/-- Step 2: nothing but withdrawn requests is outstanding. -/
def Group.quiet (g : Group) : Bool := g.ops.all (fun o => g.withdrawn.any (fun e => e.eid == o.id))

/-- Every group of a block has parked or exited. -/
def State.blockParked (s : State) (b : Nat) : Bool :=
  match s.blocks.find b with
  | none => true
  | some x => x.groups.all (fun k => match s.grp k with
    | some g => g.state == .saved || g.state == .exited
    | none => true)

/-- A saved block's slot: one that no group of the block holds live holds +0 (R73). -/
def Block.saveSlots (x : Block) : SMap Slot := x.slots.mapV (fun n y => if x.liveSlots.contains n then y else { y with data := [] })

/-- Save the blocks of a unit: they leave their cores together (R85). -/
def State.saveUnit (s : State) (bs : List Nat) : State :=
  bs.foldl (fun t b =>
    match t.blocks.find b with
    | none => t
    | some x =>
      let ctx := ((t.grids.find x.grid).map (·.ctx)).getD 0
      (t.updBlk b (fun y => { y with saved := true, slots := y.saveSlots, liveSlots := [] })).updCtx ctx (fun c =>
        { c with order := c.order ++ [b] })) s

/-- The drain limit of a PREEMPT has been reached (R86). -/
def State.drainOver (s : State) (ctx : Nat) : Bool :=
  match (s.ctxs.find ctx).bind (·.drain) with
  | some t => decide (t ≤ s.timebase)
  | none => false

/-- Save every unit of a context whose groups have all parked. -/
def State.saveParked (s : State) (ctx : Nat) : State :=
  ((s.ctxBlocks ctx).map (·.1)).foldl (fun t b =>
    let u := t.unitOf b
    if !(((t.blocks.find b).map (·.saved)).getD true) && u.all t.blockParked then t.saveUnit u else t) s

/-- Steps 4 and 5: the group keeps what is live and leaves both scheduling sets. -/
def State.parkGroup (s : State) (gid : Nat) (g : Group) : State :=
  let l := g.liveSet
  let t := s.setGrp gid { g.keepLive l with state := .saved, fetched := [], missing := [] }
  t.updBlk g.blk (fun b => { b with liveSlots := b.slots.keys.foldl (fun acc n => if l.a.testBit n then insertNat acc n else acc) b.liveSlots })

/-- A flagged group whose fragments have all stopped parks, one step of R84 after another. -/
def execGroupPark (grp : Nat) (s : State) : Out :=
  let row := "GROUP_PARK"
  match s.grp grp with
  | none => notNow row
  | some g =>
    let live := g.flagged && !s.drainOver (s.ctxNum g) && g.allStopped && (g.state == .active || g.state == .pending || g.state == .parked)
    let es := s.ungranted grp g
    if !es.isEmpty then event row live (s.withdraw grp g es)
    else if !g.quiet then notNow row
    else if s.ckpt g && !s.ckptReady g.blk then
      event row (live && !(((s.blkOf g).map (·.halt)).getD true)) (s.updBlk g.blk (fun b => { b with halt := true }))
    else
      let t := if s.ckpt g then s.checkpoint g.blk else s
      event row (live && !(((s.blkOf g).map (·.rolling)).getD false)) ((t.parkGroup grp g).saveParked (s.ctxNum g))

/-! ## The end of a drain (R86) -/

/-- No engine works for a context. -/
def State.enginesQuiet (s : State) (ctx : Nat) : Bool :=
  s.transfers.all (fun p => p.2.ctx != ctx) && s.colls.all (fun p => p.2.ctx != ctx) &&
  s.clusters.all (fun p => p.2.table.all (fun (e : MEntry) => e.ctx != ctx))

/-- Every block is saved and every engine operation is over: SAVED. -/
def execContextSaved (ctx : Nat) (s : State) : Out :=
  let row := "CONTEXT_SAVED"
  match s.ctxs.find ctx with
  | none => notNow row
  | some c =>
    let t := s.saveParked ctx
    event row (c.st == .draining && !s.drainOver ctx && (t.ctxBlocks ctx).all (fun p => p.2.saved) && s.enginesQuiet ctx)
      ((t.updCtx ctx (fun x => { x with st := .saved, drain := none })).finishCmd c.ld 0 0)

/-- A group that goes on in place keeps its registers; its withdrawn requests are posted again (R86). -/
def State.wakeInPlace (s : State) (gid : Nat) : State :=
  match s.grp gid with
  | none => s
  | some g => (s.setGrp gid g.wakeInPlace).repost gid

/-- A parked group of a block that is not saved. -/
def State.parkedInPlace (s : State) (ctx : Nat) : List Nat :=
  (s.ctxGroups ctx).filter (fun k => match s.grp k with
    | some g => g.state == .saved && !(((s.blkOf g).map (·.saved)).getD true)
    | none => false)

/-- Wake parked groups in place, each once its cluster has its operand-buffer units (R86, R271). -/
def State.wakeFits (s : State) (gids : List Nat) : State :=
  gids.foldl (fun t k => match t.grp k with
    | some g => if sumNat (g.mf.map (fun p => p.2.units)) ≤ t.freeUnits (clusterOf g.core) then t.wakeParked k else t
    | none => t) s

/-- A word of the block waits for the checkpoint that it has forced (R212). -/
def State.ckptWaits (s : State) (b : Block) : Bool :=
  b.groups.any (fun k => match s.grp k with
    | some g => g.laneIds.any (fun l => (g.lane l).hold == .ckpt)
    | none => false)

/-- The drain limit is reached (R86): flags are cleared and the groups of unsaved blocks go on, issue that was halted for the checkpoint
of a parking group with them; with no block resident the context is READY (R70). A parked one that lacks its operand-buffer units goes on once they are free. -/
def execDrainLimitReached (ctx : Nat) (s : State) : Out :=
  let row := "DRAIN_LIMIT_REACHED"
  match s.ctxs.find ctx with
  | none => notNow row
  | some c =>
    if c.st == .running then
      let t := s.wakeFits (s.parkedInPlace ctx)
      event row ((t.parkedInPlace ctx).length != (s.parkedInPlace ctx).length) t
    else
      let here := (s.ctxGroups ctx).filter (fun k => match s.grp k with
        | some g => !(g.state == .saved) && !(g.state == .exited)
        | none => false)
      let s2 := { here.foldl State.wakeInPlace s with
        groups := (here.foldl State.wakeInPlace s).groups.mapV (fun _ (g : Group) => if s.ctxNum g == ctx then { g with flagged := false } else g)
        blocks := s.blocks.mapV (fun _ (b : Block) => if ((s.grids.find b.grid).map (fun (g : Grid) => g.ctx)) == some ctx then
          { b with liveSlots := [], halt := b.halt && s.ckptWaits b } else b) }
      let s3 := (s2.wakeFits (s2.parkedInPlace ctx)).updCtx ctx (fun x => { x with st := .running, drain := none })
      event row (c.st == .draining && s.drainOver ctx) (((s3.refreshQueues ctx).idleCtx ctx).finishCmd c.ld 0 3)

end Sys2Proof.Machine
end

