-- ==== Sys2Proof/Machine/Errors.lean ====
section
/-! DEFINITION. Failures: uncorrectable errors and rollback (R338, R339), compute-die and self-test failures (R70, R391), bank
drops and the migration of regions (R318, R319). -/

namespace Sys2Proof.Machine

/-! ## Rollback (R339) -/

/-- An operation writes its slot. -/
def MKind.writesSlot : MKind → Bool
  | .pass _ | .zero | .mlda _ => true
  | .drain z _ => z
  | .mvec w .. => w

/-- No accumulator slot of a block has been written since its last checkpoint (R338), and none is being written. -/
def State.slotsStill (s : State) (b : Nat) (x : Block) : Bool :=
  !x.slotWritten && s.clusters.all (fun p => p.2.table.all (fun e => e.blk != b || !e.isGranted || !e.kind.writesSlot))

/-- An operation that was outstanding when the shadow was taken. -/
def Shadow.knows (sh : Shadow) (gid op : Nat) : Bool :=
  sh.groups.any (fun p => p.1 == gid && p.2.ops.any (fun o => o.id == op))

/-- Steps 1 and 2 begin: issue halts, `LDFE` waits that only issue could end are given up, and matrix requests posted since the
checkpoint leave the table, to be posted again. -/
def State.startRollback (s : State) (b : Nat) (x : Block) (sh : Shadow) : State :=
  let drop := fun (e : MEntry) => e.blk == b && e.st == .posted && !sh.knows e.grp e.eid
  let gone : List (Nat × Nat) := (s.clusters.flatMap (fun p => (p.2.table.filter drop).map (fun (e : MEntry) => (e.grp, e.eid))))
  let t := { s.updBlk b (fun y => { y with halt := true, rolling := true }) with
    clusters := s.clusters.mapV (fun _ c => { c with table := c.table.filter (fun e => !drop e) }) }
  let u := gone.foldl (fun t p => t.updGrp p.1 (fun g => g.completeOp p.2 none)) t
  x.groups.foldl (fun t k => t.updGrp k (fun g =>
    (g.ops.filter (fun o => match o.kind with
      | .ldfe .. => !o.done
      | _ => false)).foldl (fun y o => y.completeOp o.id none) g)) u

/-- Every counter of every group of a block has retired. -/
def State.blockRetired (s : State) (x : Block) : Bool :=
  x.groups.all (fun k => match s.grp k with
    | some g => g.ops.all (fun o => o.ctr == .own)
    | none => true)

/-- A restored lane executes again: a stop is over, and a held word starts anew, but for waits that go on. `fe` says that the `LDFE`
in progress had completed it. -/
def Lane.restart (x : Lane) (fe : Bool) : Lane :=
  let done := match x.st with
    | .stopped _ => true
    | _ => false
  let h : Hold := match (if done then x.kept else x.hold) with
    | .sync b p => .sync b p
    | .nap u => .nap u
    | .yield u => .yield u
    | .handler => .handler
    | _ => .none
  { x with st := if done then .running else x.st, hold := h, kept := .none, feDone := x.feDone || fe }

/-- The loads and stores in flight at a checkpoint, which a rollback performs again (log entry 44). -/
def Group.inFlight (old : Group) : List PendOp :=
  old.ops.filter (fun o => !o.done && (match o.kind with
    | .load .. | .ldc .. | .store | .stfe | .ldp _ | .tbld .. | .flushH _ | .invalH _ => true
    | _ => false))

/-- The lanes that `LDFE` words in progress at a checkpoint had completed. -/
def Group.feLanes (old : Group) : Mask :=
  Mask.ofLanes ((old.ops.filter (fun o => match o.kind with
    | .ldfe .. => !o.done
    | _ => false)).flatMap (fun o => (o.lanes.filter (fun a => a.st == .done)).flatMap (fun a => Mask.lanes a.who)))

/-- Errors of operations that a rollback does not repeat: those issued before the checkpoint, and the operations of R212. -/
def Group.keptErrors (g : Group) (old : Group) : List Deferred :=
  g.errs.filter (fun e => !old.errs.contains e && !old.inFlight.any (fun o => o.ctr == e.ctr && o.num == e.num) &&
    (decide (e.num ≤ old.issued.get e.ctr) || e.cause == 0x1C || e.cause == 0x1D ||
    (e.cause == 0x1A && e.ctr == .st)))

/-- A group as the shadow holds it (R339 step 4), in its place; it enters PENDING, flagged as it is now (R88), but for one that had
ended. -/
def State.restored (s : State) (g old : Group) : Group :=
  let r : Group := { old with
    core := g.core, pos := g.pos, age := g.age, flagged := g.flagged, issued := g.issued, ops := old.inFlight, peal := g.peal,
    state := if old.state == .exiting || old.state == .exited then old.state else .pending, snaps := [], lanes := old.lanes.mapIdx (fun l x => x.restart (Mask.has old.feLanes l)),
    errs := old.errs ++ g.keptErrors old, withdrawn := g.withdrawn.filter (fun e => old.ops.any (fun o => o.id == e.eid)),
    readyClk := s.clk, idleClk := s.clk }
  r.parkCheck

/-- The end of a rollback: held stores are discarded, the groups, scratch and block barriers are the shadow's, and trap records
made since are dropped. -/
def State.finishRollback (s : State) (b : Nat) (x : Block) (sh : Shadow) : State :=
  let t := sh.groups.foldl (fun t p => match t.grp p.1 with
    | some g => t.setGrp p.1 (t.restored g p.2)
    | none => t) s
  let lost := fun (rid : Nat) (r : SvcRec) => x.groups.contains r.grp && !(sh.groups.any (fun p => p.1 == r.grp &&
    p.2.lanes.any (fun y => y.st == .service rid)))
  let u := { t with records := t.records.filter (fun p => !lost p.1 p.2) }
  let v := u.updBlk b (fun y => { y with
    scratch := sh.scratch, sfe := sh.sfe, bars := sh.bars, held := [], heldFe := [], rollbacks := y.rollbacks + 1, halt := false, rolling := false })
  (x.groups.foldl (fun w k => match w.grp k with
    | some g => if g.flagged && !(g.state == .exited) then w.setGrp k (w.stopNow k g) else w
    | none => w) v).trimCore x.core

/-! ## Uncorrectable errors (R338) -/

/-- The error poisons its 16-byte granule. -/
def State.poisonAt (s : State) (pa : Nat) : State :=
  if pa < Config.deviceBytes then { s with poison := insertNat s.poison (pa / 16) } else s

/-- A thread word meets the error: a recoverable one rolls its block back, any other faults the context. -/
def threadError (s : State) (pa gid : Nat) (recoverable : Bool) : Out :=
  let row := "UNCORRECTABLE_ERROR"
  match s.grp gid with
  | none => notNow row
  | some g =>
    match s.blkOf g with
    | none => notNow row
    | some x =>
      let s1 := if recoverable then s else s.poisonAt pa
      match x.shadow with
      | some sh =>
        if x.rolling then event row (s.blockRetired x) (s.finishRollback g.blk x sh)
        else if recoverable && s.slotsStill g.blk x && decide (x.rollbacks < 3) then event row (g.state != .exited) (s.startRollback g.blk x sh)
        else event row (g.state != .exited) (s1.faultCtx (s.ctxNum g) 1)
      | none => event row (g.state != .exited) (s1.faultCtx (s.ctxNum g) 1)

/-- A place lies in a poisoned granule, or in that of an error just met. -/
def State.badPlace (s : State) (pa : Nat) : Phys → Bool
  | .dev a => a / 16 == pa / 16 || s.poison.contains (a / 16)
  | _ => false

/-- A pass meets the error: it stops after the last whole block before it, with matrix error 1 (R278). -/
def passError (s : State) (pa cl : Nat) (e : MEntry) (p : PassCap) : Out :=
  let row := "UNCORRECTABLE_ERROR"
  let hs := s.halves e
  let op := passOp e.eid hs
  let ld := ((s.ctxs.find e.ctx).map (·.ld)).getD 0
  let nb := p.fmt.k / p.fmt.len
  let b0 := (s.slotOf e).progress / p.fmt.len
  let x := s.scan s ld e.ctx op p (nb - b0) b0 []
  let m := x.1.pages
  match ((List.range (nb - b0)).map (· + b0)).find? (fun b => (p.places m b (b + 1)).any (s.badPlace pa)) with
  | none => notNow row
  | some b => event row (s.running hs && hs.all (fun h => h.1.begun) && decide (cl < Config.numClusters) &&
        (p.places m b (b + 1)).any (fun q => match q with
          | .dev a => a / 16 == pa / 16
          | _ => false))
      ((((x.2.poisonAt pa).advancePass op p m b0 b hs).foldl (fun t r =>
        (t.updSlot r.1 true (fun _ => ⟨.halted, r.2.1, b * p.fmt.len, some p, r.2.2⟩)).dropEntry r.1 (r.1.error 0x16 1 (b * p.fmt.len)))
        (x.2.poisonAt pa).readsOver))

/-- A matrix operation meets the error (R272 reason 1): a pass, a load, an `MFMT`, or a drain while it reads its descriptor or, adding,
what its lines hold. -/
def matrixError (s : State) (pa cl eid : Nat) : Out :=
  let row := "UNCORRECTABLE_ERROR"
  match s.entry cl eid with
  | some e =>
    let y := s.slotOf e
    let busy := e.isGranted && y.st == .busy
    match e.kind with
    | .pass p => passError s pa cl e p
    | .drain _ _ => event row (busy && (e.claim.isNone || ((e.desc.map (·.mode)) == some 2 && !e.begun)))
        ((s.poisonAt pa).finishEntry e false y.data (e.error 0x16 1 y.progress))
    | .mlda _ => event row busy (((s.poisonAt pa).updSlot e false (fun q => { q with
        st := if y.halted.isSome then .halted else .idle })).dropEntry e (e.error 0x16 1 y.progress))
    | _ => notNow row
  | none =>
    match s.groups.find? (fun p => p.2.ops.any (fun o => o.id == eid && !o.done && (match o.kind with
      | .mfmt .. => true
      | _ => false))) with
    | some p => .next ((s.poisonAt pa).updGrp p.1 (fun g => g.completeOp eid (((g.op eid).map (fun (o : PendOp) => (0x16, 1, o.pc, 0))))))
    | none => notNow row

/-- An uncorrectable error is consumed (R338): at a thread word, at the resume of an image, in the copy engine, or in the matrix
engine. -/
def execUncorrectableError (pa : Nat) (site : ErrorSite) (s : State) : Out :=
  let row := "UNCORRECTABLE_ERROR"
  match site with
  | .thread gid rec => threadError s pa gid rec
  | .image b =>
    let ctx := ((s.blocks.find b).bind (fun x => (s.grids.find x.grid).map (·.ctx))).getD 0
    event row (((s.blocks.find b).map (·.saved)).getD false && ((s.ctxs.find ctx).map (·.st)) == some .running) (s.faultCtx ctx 2)
  | .transfer k =>
    match s.transfers.find k with
    | none => notNow row
    | some t => event row (t.st == .reading && t.srcPlaces.any (s.badPlace pa)) ((s.poisonAt pa).finishTransfer k t (some (2, t.first)))
  | .matrix cl eid => matrixError s pa cl eid

/-! ## Dies and cores -/

/-- Fault a list of contexts that an error reaches. -/
def State.faultAll (s : State) (cs : List Nat) (cause : Nat) : State := cs.foldl (fun t c => t.faultCtx c cause) s

/-- A compute die fails (R70, R384): every context that is RUNNING, DRAINING or SAVED is FAULTED, and the die takes no more
blocks. -/
def execComputeDieFailure (die : Nat) (s : State) : Out :=
  let cs := (s.ctxs.filter (fun p => p.2.st.exposed)).map (·.1)
  event "COMPUTE_DIE_FAILURE" (decide (die < Config.dies) && !s.mgmt.deadDies.contains die)
    (({ s with mgmt := { s.mgmt with deadDies := insertNat s.mgmt.deadDies die } }.faultAll cs 0).postMgmt 0x24 [die])

/-- A slot self-test (R391): a match changes nothing; on a mismatch the core takes no more blocks and every context with a block
on it is FAULTED. -/
def execSelfTestInject (core : Nat) (pass : Bool) (s : State) : Out :=
  let on := fun (ctx : Nat) => s.blocks.any (fun p => !p.2.saved && p.2.core == core && ((s.grids.find p.2.grid).map (·.ctx)) == some ctx)
  let cs := (s.ctxs.filter (fun p => p.2.st.live && on p.1)).map (·.1)
  event "SELF_TEST_INJECT" (decide (core < Config.numCores) && s.mgmt.stperiod != 0 && !s.mgmt.deadDies.contains (dieOf core))
    (if pass then s
      else ({ s with mgmt := { s.mgmt with badCores := insertNat s.mgmt.badCores core } }.faultAll cs 3).postMgmt 0x23 [core])

/-! ## Banks and regions (R318, R319) -/

/-- Firmware drops a bank: each further gibibyte lost announces the highest region not yet retired. -/
def execBankDrop (bank : Nat) (s : State) : Out :=
  let dropped := insertNat s.mgmt.dropped bank
  let s1 := { s with mgmt := { s.mgmt with dropped := dropped } }
  event "BANK_DROP" (decide (bank < 12288) && !s.mgmt.dropped.contains bank && decide (0 < s.mgmt.announced))
    (if dropped.length % 16 = 0 then
      { s1 with mgmt := { s1.mgmt with announced := s.mgmt.announced - 1 } }.postMgmt 0x22 [s.mgmt.announced - 1]
    else s1)

/-- The migration engine re-stripes the regions in ascending number for the regions vacated when it begins: the first step begins
with region 0, each later one ends the region that moves and begins the next. `MCAS` locks in the region break, and its lines are
claimed after every engine that owns one and recalled from the blocks that hold them (R221, R222). With the last, those regions are retired. -/
def execRegionMigrate (region : Nat) (s : State) : Out :=
  let row := "REGION_MIGRATE"
  let inside := fun (line : Nat) => line * 128 / Config.regionBytes == region
  match s.mgmt.moving with
  | none => event row (region == 0 && s.mgmt.vacated.any (fun r => !s.mgmt.retired.contains r))
      { s with mgmt := { s.mgmt with moving := some 0, sweeping := s.mgmt.vacated } }
  | some g =>
    match s.recallNow (s.holdersOf 0 inside) with
    | none => notNow row
    | some s1 =>
    let t := ((s1.locks.map (·.1)).filter inside).foldl State.breakLock s1
    event row (g == region && s.owned.all (fun o => !inside o.1))
      { t with mgmt := if region + 1 < 768 then { t.mgmt with moving := some (region + 1) }
        else { t.mgmt with
          moving := none, sweeping := [], sweeps := t.mgmt.sweeps + 1
          retired := t.mgmt.sweeping.foldl insertNat t.mgmt.retired } }

end Sys2Proof.Machine
end

