-- ==== Sys2Proof/Machine/Management.lean ====
section
/-! DEFINITION. The management command ring (R387 to R389) and the re-formation of the loop (R356): binding and reset of logical devices, partitions and topology by loop
records, and the copies to and from the safe tier. -/

namespace Sys2Proof.Machine

/-- A management command of the frame of R387. -/
def mgmtCommand (row : String) (code : Nat) (s : State) (body : Cmd → Nat × State) : Out :=
  command1 row 16 0 code 8 s body

def rangesOverlap (a n b m : Nat) : Bool := decide (0 < n) && decide (0 < m) && decide (a < b + m) && decide (b < a + n)

/-! ## Binding -/

/-- The operands of LDBIND that stand alone. -/
def bindFields (c : Cmd) : Bool :=
  c.op0 / 32 == 0 && c.op1 / 1024 % 64 == 0 && c.op1 / 2 ^ 26 == 0 && c.op2 / 2 ^ 32 == 0

def execLdbind (s : State) : Out :=
  mgmtCommand "LDBIND" 1 s (fun c =>
    let ld := c.op0 % 16
    let r0 := c.op1 % 1024
    let rn := c.op1 / 2 ^ 16 % 1024
    let t0 := c.op2 % 65536
    let tn := c.op2 / 65536 % 65536
    let clash := s.ldevs.any (fun p => p.2.bound && (rangesOverlap r0 rn p.2.regFirst p.2.regCount || rangesOverlap t0 tn p.2.tenFirst p.2.tenCount))
    if (s.ld ld).bound then (1, s)
    else if !bindFields c || decide (768 < r0 + rn) || decide (65535 < t0 + tn) || clash then (2, s)
    else (0, { s with ldevs := s.ldevs.set ld { emptyLDev with
      bound := true, port := c.op0 / 16 % 2, regFirst := r0, regCount := rn, tenFirst := t0, tenCount := tn } }))

/-! ## Reset of a logical device (R388) -/

/-- The record that advances a tenant's reset generation (R370); one that already waits for the loop counts. -/
def State.resetRecord (s : State) (t : Nat) : SendRec :=
  let addr := 0x80000 + t
  let ahead := (s.sendq.filter (fun x => x.r.tenant == 0xFFFF && x.r.addr == addr)).length
  ⟨0, 0, none, none, none, ⟨1, 1, 0xFFFF, addr, leBytes 1 (s.resetGen t + 1 + ahead) ++ leBytes 23 0⟩, false, false, 0⟩

/-- Write the events that wait for the event queue; what does not fit is dropped and counted (R383). -/
def State.flushEvents (s : State) (ld : Nat) : State :=
  let es := (s.ld ld).waiting.filter (fun e => e.ring == 6)
  es.foldl (fun t e =>
    let x := t.hostRing ld 6
    if x.tail - x.head < x.size then t.putEntry ld 6 e.bytes else t.setRing ld 6 { x with lost := Nat.min (x.lost + 1) (2 ^ 32 - 1) }) s

/-- LDRESET and a function-level reset, step by step (R388). -/
def State.resetLd (s : State) (ld : Nat) : State :=
  let cs := (s.ctxs.filter (fun p => p.2.ld == ld)).map (·.1)
  let tens := ((s.ctxs.filter (fun p => p.2.ld == ld)).map (·.2.tenant)).foldl insertNat []
  let s1 := ((s.ctxs.filter (fun p => p.2.ld == ld && p.2.st.live)).map (·.1)).foldl (fun t c => t.faultCtx c 4) s
  let s2 := s1.flushEvents ld
  let s3 := { s2 with
    faults := s2.faults.filter (fun p => p.2.ld != ld)
    records := s2.records.filter (fun p => p.2.ld != ld) }
  let s4 := tens.foldl (fun t n => { t with sendq := t.sendq ++ [t.resetRecord n] }) s3
  let s5 := cs.foldl (fun t c => (t.failGrids (t.openGrids c) none).dropCtx c) s4
  s5.updLd ld (fun d => { d with
    words := [], queues := [], retired := [], rings := [], waiting := [], feat := 0, enable := false, expert := false, num := [] })

/-- A command naming a bound device and nothing else. -/
def ldOperand (s : State) (c : Cmd) : Option Nat :=
  if 16 ≤ c.op0 || c.op1 != 0 || c.op2 != 0 then some 2 else if !(s.ld c.op0).bound then some 1 else none

def execLdreset (s : State) : Out :=
  mgmtCommand "LDRESET" 2 s (fun c =>
    match ldOperand s c with
    | some n => (n, s)
    | none => (0, s.resetLd c.op0))

def execUnbind (s : State) : Out :=
  mgmtCommand "UNBIND" 8 s (fun c =>
    match ldOperand s c with
    | some n => (n, s)
    | none => (0, { s.resetLd c.op0 with ldevs := (s.resetLd c.op0).ldevs.del c.op0 }))

/-- A function-level reset by the host. -/
def execFunctionLevelReset (ld : Nat) (s : State) : Out :=
  event "FUNCTION_LEVEL_RESET" (decide (ld < 16) && s.present ld) (s.resetLd ld)

/-! ## Records of the management function (R346, R371) -/

/-- Put a firmware record in the send queue; the command completes when it has RETURNED (R348). -/
def State.sendFirmware (s : State) (r : Record) : State :=
  { s with sendq := s.sendq ++ [⟨0, 0, none, none, some 0, r, false, false, 0⟩] }

/-- The tenants that have a partition, by the system area of the local store. -/
def State.partitioned (s : State) : List Nat :=
  ((s.store.filter (fun p => decide (p.1 < 0x80000))).map (fun p => p.1 / 8)).foldl insertNat []

/-- The operands of PARTITION (R346, R387). -/
def State.partitionOk (s : State) (c : Cmd) : Bool :=
  decide (c.op0 < 65535) && c.op1 % 4096 == 0 && c.op2 % 4096 == 0 && decide (0x100000 ≤ c.op1) && decide (c.op1 + c.op2 ≤ Config.storeBytes) &&
  s.partitioned.all (fun t => t == c.op0 || !rangesOverlap c.op1 c.op2 (s.partition t).1 (s.partition t).2)

def execPartition (s : State) : Out :=
  if Config.sendSlots ≤ s.sendq.length then notNow "PARTITION"
  else command "PARTITION" 16 0 3 8 s (fun c =>
    if !s.partitionOk c then .done 2 s
    else .later (s.sendFirmware ⟨1, 8, 0xFFFF, 8 * c.op0, leBytes 4 c.op1 ++ leBytes 4 c.op2 ++ leBytes 16 0⟩)) (fun _ => none)

def execTopology (s : State) : Out :=
  if Config.sendSlots ≤ s.sendq.length then notNow "TOPOLOGY"
  else command "TOPOLOGY" 16 0 4 8 s (fun c =>
    let version := c.op0 % 65536
    let bank := c.op0 / 65536 % 2
    if s.topen then .done 1 s
    else if c.op0 / 2 ^ 17 != 0 || c.op1 != 0 || c.op2 != 0 || bank == s.tbank || version == s.tver then .done 2 s
    else .later (s.sendFirmware ⟨6, 0, 0xFFFF, version, leBytes 2 bank ++ leBytes 22 0⟩)) (fun _ => none)

/-! ## The safe tier (R389) -/

/-- Size of an image: device memory, the store, the trailer. -/
def imageBytes : Nat := Config.deviceBytes + Config.storeBytes + 4096

/-- The operands of CHECKPOINT and RESTORE. -/
def tierOk (c : Cmd) : Bool := c.op0 % 4096 == 0 && decide (c.op0 < 2 ^ 52) && decide (imageBytes ≤ c.op1) && c.op2 == 0

/-- The states of a context that lets a checkpoint run. -/
def CtxSt.still : CtxSt → Bool
  | .running | .draining => false
  | _ => true

def State.startCopy (s : State) (out : Bool) : State := { s with mgmt := { s.mgmt with copy := some out } }

def execCheckpoint (s : State) : Out :=
  command "CHECKPOINT" 16 0 6 8 s (fun c =>
    if !(s.ctxs.all (fun p => p.2.st.still)) then .done 1 s
    else if !tierOk c then .done 2 s
    else .later (s.startCopy true)) (fun _ => none)

def execRestore (s : State) : Out :=
  command "RESTORE" 16 0 7 8 s (fun c =>
    if !s.ctxs.isEmpty then .done 1 s
    else if !tierOk c then .done 2 s
    else .later (s.startCopy false)) (fun _ => none)

/-- CRC-32C of n bytes of a memory from an address on (R285). -/
def crcRange (m : List Host.Cell) : Nat → Nat → Word → Word
  | 0, _, c => c
  | n + 1, a, c => crcRange m n (a + 1) (crcByte c (Memory.get m a))

def crcOf (m : List Host.Cell) (a n : Nat) : Nat := ((crcRange m n a 0xFFFFFFFF) ^^^ 0xFFFFFFFF).toNat

/-- The trailer of an image: one CRC for each region, then one for the store. -/
def trailer (m : List Host.Cell) (base : Nat) : List Byte :=
  (List.range 768).flatMap (fun r => leBytes 4 (crcOf m (base + r * Config.regionBytes) Config.regionBytes)) ++
  leBytes 4 (crcOf m (base + Config.deviceBytes) Config.storeBytes) ++ leBytes 1020 0

/-- Move cells by an offset. -/
def moveCells (m : List Host.Cell) (off : Nat) : List Host.Cell := m.map (fun c => (c.1 + off, c.2))

/-- Host memory with the image of this package at a base: retired regions are zero. -/
def State.withImage (s : State) (base : Nat) : List Host.Cell :=
  let dev := s.mem.filter (fun c => decide (c.1 < Config.deviceBytes) && !s.mgmt.retired.contains (c.1 / Config.regionBytes))
  let loop := s.store.filter (fun c => decide (c.1 < Config.storeBytes))
  let rest := s.hostMem.filter (fun c => decide (c.1 < base) || decide (base + imageBytes ≤ c.1))
  let body := Memory.writeAll rest (moveCells dev base ++ moveCells loop (base + Config.deviceBytes))
  Memory.write body (base + Config.deviceBytes + Config.storeBytes) (trailer body base)

/-- The cells of a range of host memory, moved to 0. -/
def cellsIn (m : List Host.Cell) (base n : Nat) : List Host.Cell :=
  (m.filter (fun c => decide (base ≤ c.1) && decide (c.1 < base + n))).map (fun c => (c.1 - base, c.2))

/-- Device memory and, on a package outside the loop, the store come back from an image (R389). -/
def State.restoreImage (s : State) (base : Nat) : State :=
  { s with
    mem := Memory.writeAll [] (cellsIn s.hostMem base Config.deviceBytes)
    poison := []
    store := if s.ring.contains s.pkg then s.store else cellsIn s.hostMem (base + Config.deviceBytes) Config.storeBytes }

/-- Device memory after a failed restore is undefined: any bytes at all. -/
def State.scrambled (s : State) : State :=
  { s with
    free := s.free + 1
    mem := Memory.writeAll [] ((Config.freeMemory s.free).filter (fun c => decide (c.1 < Config.deviceBytes))) }

/-- A copy to or from the safe tier ends, and its command completes. -/
def execSafeTierCopyComplete (s : State) : Out :=
  let row := "SAFE_TIER_COPY_COMPLETE"
  let c := s.headCmd 16 0
  let s1 := { s with mgmt := { s.mgmt with copy := none } }
  match s.mgmt.copy with
  | none => notNow row
  | some true => event row s.mgmt.cmd.busy ({ s1 with hostMem := s.withImage c.op0 }.finishCmd 16 0 0)
  | some false =>
    let tail := c.op0 + Config.deviceBytes + Config.storeBytes
    let good := trailer s.hostMem c.op0 == Memory.bytes s.hostMem tail 4096
    event row s.mgmt.cmd.busy (if good then (s1.restoreImage c.op0).finishCmd 16 0 0 else s1.scrambled.finishCmd 16 0 2)

/-! ## Re-formation (R356) -/

/-- The environment's part of a re-formation fits this package. A surviving member has applied no more than the source, and takes its
store where it has applied less; a joining package always takes it, but for the first formation of a pod, where no member has applied
a record; a package that the new ring leaves out takes nothing. -/
def State.reformOk (s : State) (r : Reform) : Bool :=
  (if !r.ring.contains s.pkg then r.image.isNone
    else if s.ring.contains s.pkg then decide (s.peal ≤ r.peal) && (r.image.isSome == decide (s.peal < r.peal))
    else r.image.isSome || (r.peal == 0 && s.peal == 0)) &&
  decide (1 ≤ r.ring.length) && decide (r.ring.length ≤ 256) && r.ring.eraseDups.length == r.ring.length

/-- Own records that came to nothing because their sender has left the loop (R356 step 4): their contexts are lost with them
(log entry 20). -/
def State.loseRecords (s : State) (xs : List SendRec) : State :=
  ((xs.filterMap (·.ctx)).eraseDups.filter (fun c => ((s.ctxs.find c).map (·.st.live)).getD false)).foldl (fun t c => t.faultCtx c 0) s

/-- Re-formation (R356): the store image replaces a store, own records up to the common peal complete, and the ring has its new
order. Later records return to the head of the send queue of a package that stays, and are lost with one that leaves. -/
def State.reform (s : State) (r : Reform) : State :=
  let stays := r.ring.contains s.pkg
  let s1 : State := match r.image with
    | some im => { s with store := im.foldl (fun m (b : Nat × Byte) => SMap.put m b.1 b.2 0) [], peal := r.peal }
    | none => s
  let back := s1.onLoop.filter (fun p => decide (p.1 ≤ r.peal))
  let again := (s1.onLoop.filter (fun p => decide (r.peal < p.1))).map (·.2)
  let s2 := back.foldl (fun t p => t.recordBack p.1 p.2) s1
  let s3 := { s2 with onLoop := [], sendq := (if stays then again else []) ++ s2.sendq, ring := r.ring, formed := stays, visit := 0 }
  if stays then s3 else s3.loseRecords again

/-- A break is detected, and the loop forms again with the members that are left. -/
def execLoopBreakDetect (r : Reform) (s : State) : Out :=
  event "LOOP_BREAK_DETECT" (!s.ring.isEmpty && s.reformOk r) (s.reform r)

/-- The management command that re-forms the loop (R387). -/
def execLoopform (r : Reform) (s : State) : Out :=
  if s.reformOk r then
    command1 "LOOPFORM" 16 0 5 8 s (fun c => if c.op0 != 0 || c.op1 != 0 || c.op2 != 0 then (2, s) else (0, s.reform r))
  else notNow "LOOPFORM"

end Sys2Proof.Machine
end

