-- ==== Sys2Proof/Machine/HostEvents.lean ====
section
/-! DEFINITION. What the host does to the machine besides ring commands: writes of registers (R3, R382, R385, R386, R391, R392),
CXL accesses and snoops (R223, R317, R335, R381), resets, SPDM and firmware images (R390). -/

namespace Sys2Proof.Machine

/-! ## Registers with a row of their own -/

/-- FEATACC: the offered bits, while the device is not enabled (R385). -/
def execFeataccWrite (ld : Nat) (v : BitVec 128) (s : State) : Out :=
  event "FEATACC_WRITE" (decide (ld < 16) && s.present ld)
    (if (s.ld ld).enable then s else s.updLd ld (fun d => { d with feat := v &&& 0x3FFF }))

/-- LDCTL: enable and expert; without expert control firmware holds the numeric settings at their reset values (R386). -/
def execLdctlWrite (ld : Nat) (v : Word) (s : State) : Out :=
  event "LDCTL_WRITE" (decide (ld < 16) && s.present ld)
    (s.updLd ld (fun d => { d with
      enable := v.getLsbD 0, expert := v.getLsbD 1,
      num := if d.expert && !v.getLsbD 1 then d.num.mapV (fun _ (c : NumClass) => { emptyNum with
        count := c.count, firedNow := c.firedNow, start := c.start }) else d.num }))

/-- PLIMIT: the limit is kept, and firmware sets every cluster's refill rate anew, for the refills still to come (R277, R392). -/
def execPlimitWrite (v : Word) (s : State) : Out :=
  let t := (List.range Config.numClusters).foldl (fun t cl =>
    t.setCluster cl { (t.cluster cl).refilled t.clk with refill := 16 + Config.freeNat (s.free + cl) % 49 }) s
  .next { t with free := s.free + Config.numClusters, mgmt := { t.mgmt with plimit := v &&& 0x1FFF, limitAt := s.clk } }

/-! ## The other registers (R3) -/

/-- Merge the bytes a write names into a value. -/
def merge (old v m : Word) : Word := (old &&& ~~~m) ||| (v &&& m)

/-- A word of a ring descriptor: order and vector; the counts have rows of their own. -/
def State.writeRingReg (s : State) (fn r k : Nat) (v m : Word) : Option State :=
  let x := s.hostRing fn r
  if k = 8 then
    let w := merge (BitVec.ofNat 32 (x.order + 256 * x.vector)) v m
    let o := w.toNat % 256
    let order := if x.head == x.tail && (o == 0 || (decide (4 ≤ o) && decide (o ≤ 12))) then o else x.order
    some (s.setRing fn r { x with order := order, vector := w.toNat / 256 % 256 / 128 * 128 + w.toNat / 256 % 64 })
  else if k = 12 || (16 ≤ k && decide (k < 24) && !hostProduced fn r) || (24 ≤ k && hostProduced fn r) then some s else none

/-- A word of a numeric class: the action, and `fired` cleared by 1 (R290). -/
def State.writeNumReg (s : State) (ld c k : Nat) (v m : Word) : Option State :=
  if k = 12 then
    let x := SMap.getD (s.ld ld).num c emptyNum
    let act := (merge (BitVec.ofNat 32 x.control) v m).toNat % 4
    let fired := x.control / 4 % 2 == 1 && !(v &&& m).getLsbD 2
    some (if (s.ld ld).expert then s.updLd ld (fun d => { d with
      num := SMap.set d.num c { x with control := act + (if fired then 4 else 0) } }) else s)
  else if k = 0 then some s else none

/-- A word of a logical device's BAR0 (R93, R94, R382). None where the register has a row of its own. -/
def State.writeLdReg (s : State) (ld off : Nat) (v m : Word) : Option State :=
  if off < 0x1000 then some s
  else if off < 0x3000 then
    some (s.updLd ld (fun d => (List.range 4).foldl (fun d i =>
      if m.getLsbD (8 * i) then bellWriteByte d (off + i) (BitVec.ofNat 8 (v.toNat / 2 ^ (8 * i))) else d) d))
  else if off < 0x30E0 then s.writeRingReg ld ((off - 0x3000) / 32) ((off - 0x3000) % 32) v m
  else if 0x4010 ≤ off && off ≤ 0x4020 then none
  else if 0x4100 ≤ off && off < 0x4140 then s.writeNumReg ld ((off - 0x4100) / 16) (off % 16) v m
  else some s

/-- `CCTL`: the tenant and the shareable bit, then enable, then retrain (R366). -/
def State.writeCctl (s : State) (k c : Nat) (v m : Word) : State :=
  let x := (s.link k).colour c
  let old : Word := BitVec.ofNat 32 (x.tenant + (if x.shareable then 65536 else 0) + (if x.enable then 131072 else 0))
  let w := merge old v m
  let s1 := s.updColour k c (fun y => { y with tenant := w.toNat % 65536, shareable := w.getLsbD 16 })
  let s2 := if m.getLsbD 17 then s1.enableColour k c (w.getLsbD 17) else s1
  if (v &&& m).getLsbD 18 && ((s2.link k).colour c).isUp then s2.updColour k c Colour.retrain else s2

/-- A word of a port or colour (R366). Thresholds, margins and requests ask for expert control (R386). -/
def State.writeLinkReg (s : State) (k off : Nat) (v m : Word) : State :=
  let l := s.link k
  let c := (off - 0x100) / 32
  let put := fun (f : Colour → Colour) => if s.mgmt.expert then s.updColour k c f else s
  if off = 4 then (if s.mgmt.expert then s.setLink k { l with preq := (merge (BitVec.ofNat 32 l.preq) v m).toNat % 256 } else s)
  else if off < 0x100 || 0x200 ≤ off then s
  else match off % 32 with
    | 0x04 => s.writeCctl k c v m
    | 0x10 => put (fun x => { x with cwarn := (merge (BitVec.ofNat 32 x.cwarn) v m).toNat })
    | 0x14 => put (fun x => { x with cretr := (merge (BitVec.ofNat 32 x.cretr) v m).toNat })
    | 0x1C => put (fun x => { x with marg := (merge x.marg v m) &&& 0x8000000F })
    | _ => s

/-- A word of the management BAR0 (R382). -/
def State.writeMgmtReg (s : State) (off : Nat) (v m : Word) : Option State :=
  let g := s.mgmt
  if off = 0x20 then some { s with mgmt := { g with expert := if m.getLsbD 0 then v.getLsbD 0 else g.expert } }
  else if off = 0x30 then some { s with mgmt := { g with stperiod := merge g.stperiod v m } }
  else if 0x10000 ≤ off && off < 0x10040 then s.writeRingReg 16 ((off - 0x10000) / 32) (off % 32) v m
  else if 0x20000 ≤ off && off < 0x20040 then
    let i := (off - 0x20000) / 4
    some (if g.expert then { s with mgmt := { g with
      sage := SMap.put g.sage i ((merge (SMap.getD g.sage i 0x100) v m) &&& 0xFFFF) 0x100 } } else s)
  else if off = 0x30000 then none
  else if 0x130400 ≤ off && off < 0x130C00 then none
  else if 0x100000 ≤ off && off < 0x130000 && validLink ((off - 0x100000) / 0x1000) then
    some (s.writeLinkReg ((off - 0x100000) / 0x1000) (off % 0x1000) v m)
  else some s

/-- One aligned word of a register write. -/
def State.writeReg (s : State) (fn off : Nat) (v m : Word) : Option State :=
  if m = 0 then some s else if fn = 16 then s.writeMgmtReg off v m else s.writeLdReg fn off v m

/-- The host writes a register that has no row of its own, under its access code (R3): RO fields and offsets not listed ignore
the write. A write of less than a word changes the bytes it names. -/
def execRegisterWrite (fn off size : Nat) (v : DWord) (s : State) : Out :=
  let row := "REGISTER_WRITE"
  let bytes := v.toNat % 2 ^ (8 * size) * 2 ^ (8 * (off % 4))
  let mask := (2 ^ (8 * size) - 1) * 2 ^ (8 * (off % 4))
  let tail := fn != 16 && decide (off < 0x1000) && off % 64 == 0 && size == 8
  match (s.writeReg fn (off / 4 * 4) (BitVec.ofNat 32 bytes) (BitVec.ofNat 32 mask)).bind (fun t =>
    t.writeReg fn (off / 4 * 4 + 4) (BitVec.ofNat 32 (bytes / 2 ^ 32)) (BitVec.ofNat 32 (mask / 2 ^ 32))) with
  | none => notNow row
  | some t => event row (decide (fn ≤ 16) && s.present fn && (size == 1 || size == 2 || size == 4 || size == 8) && off % size == 0 &&
      decide (off < (if fn = 16 then 0x1000000 else 0x10000)) && !tail) t

/-! ## What a register reads as (R3, R4) -/

/-- The offered feature word (R385). -/
def featOff : Nat := 0x3FFF

/-- A 32-bit word of some bytes. -/
def wordAt (bs : List Byte) (i : Nat) : Word := BitVec.ofNat 32 (field bs i 4)

def wordOf (n : Nat) : Word := BitVec.ofNat 32 n

def bitOf (b : Bool) : Nat := if b then 1 else 0

/-- A set of numbers below 8 as bits. -/
def bitsOf (l : List Nat) : Nat := sumNat (l.map (fun c => 2 ^ c))

/-- The numeric event block (R290): settings read as last written. -/
def NumClass.read (c : NumClass) (k : Nat) : Word :=
  match k with
  | 0 => wordOf c.count
  | 4 => wordOf c.nextThreshold
  | 8 => wordOf c.nextWindow
  | _ => wordOf c.control

/-- A word of a logical device's BAR0 (R93, R382). -/
def State.readLdReg (s : State) (ld off : Nat) : Word :=
  let d := s.ld ld
  if off < 0x4000 then wordAt ((List.range 4).map (fun i => bellByte d (off + i))) 0
  else if off < 0x4010 then wordAt (leBytes 16 featOff) (off - 0x4000)
  else if off < 0x4020 then wordAt (leBytes 16 d.feat.toNat) (off - 0x4010)
  else if off = 0x4020 then wordOf (bitOf d.enable + 2 * bitOf d.expert)
  else if 0x4100 ≤ off && off < 0x4140 then (SMap.getD d.num ((off - 0x4100) / 16) emptyNum).read (off % 16)
  else 0

def ColSt.code : ColSt → Nat
  | .dark => 0 | .training => 1 | .up => 2 | .watch => 3 | .retraining => 4 | .failed => 5

/-- A register of a colour (R366); `retrain` is write-only. -/
def Colour.read (c : Colour) (k : Nat) : Word :=
  match k with
  | 0x00 => wordOf (c.st.code + 8 * bitOf c.feed)
  | 0x04 => wordOf (c.tenant + 65536 * bitOf c.shareable + 131072 * bitOf c.enable)
  | 0x08 => wordOf c.ccorr
  | 0x0C => wordOf c.cunc
  | 0x10 => wordOf c.cwarn
  | 0x14 => wordOf c.cretr
  | 0x18 => wordOf (c.done + 65536 * c.fails)
  | 0x1C => c.marg &&& 0x8000000F
  | _ => 0

/-- A register of a port or colour (R366); a set of colours has one bit for each. -/
def Link.read (l : Link) (off : Nat) : Word :=
  if off = 0 then wordOf (bitsOf (l.pick Colour.isUp) + 256 * bitsOf (l.pick (fun c => c.st == .failed)) + 65536 * bitOf l.narrow)
  else if off = 4 then wordOf l.preq
  else if 0x100 ≤ off && off < 0x200 then (l.colour ((off - 0x100) / 32)).read (off % 32)
  else 0

/-- A register of the topology block (R371). -/
def State.readTopology (s : State) (off : Nat) : Word :=
  if off = 0 then wordOf (s.tver + 65536 * s.tbank)
  else if off = 4 then wordOf (s.tprev + 65536 * bitOf s.topen)
  else if 0x400 ≤ off && off < 0xC00 then wordOf (SMap.getD s.routes ((off - 0x400) / 0x400 * 256 + (off - 0x400) % 0x400 / 4) 0xFF)
  else 0

/-- A word of the management BAR0 (R337, R366, R371, R382, R391, R392); an RH1-P has no module block. -/
def State.readMgmtReg (s : State) (off : Nat) : Word :=
  let g := s.mgmt
  if off < 0x10 then wordAt (leBytes 16 featOff) off
  else if off = 0x20 then wordOf (bitOf g.expert)
  else if off = 0x30 then g.stperiod
  else if 0x40 ≤ off && off < 0x40 + 4 * Config.dies then wordOf (SMap.getD g.eccCnt ((off - 0x40) / 4) 0)
  else if 0x10000 ≤ off && off < 0x10040 then wordAt (ringBytes (s.hostRing 16 ((off - 0x10000) / 32))) (off % 32)
  else if 0x20000 ≤ off && off < 0x20040 then SMap.getD g.sage ((off - 0x20000) / 4) 0x100
  else if off = 0x30000 then g.plimit
  else if off = 0x30004 then wordOf (g.draw % 8192)
  else if 0x130000 ≤ off && off < 0x131000 then s.readTopology (off - 0x130000)
  else if 0x100000 ≤ off && off < 0x130000 && validLink ((off - 0x100000) / 0x1000) then
    (s.link ((off - 0x100000) / 0x1000)).read (off % 0x1000)
  else if off = 0x200000 && g.onModule then
    wordOf (g.modules % 64 + 64 * bitsOf ((List.range 6).filter (fun m => g.alarms.any (fun a => a.1 == m))))
  else 0

/-- What the host reads at an aligned word of a function's BAR0: registers not listed and reserved fields read zero. A read changes
nothing. -/
def State.readReg (s : State) (fn off : Nat) : Word := if fn = 16 then s.readMgmtReg off else s.readLdReg fn off

/-! ## CXL (R223, R317, R335, R381) -/

/-- A byte that the host of a device may reach: a region assigned and not retired, or an announced record. -/
def State.hostReach (s : State) (ld pa : Nat) : Bool :=
  let d := s.ld ld
  let r := pa / Config.regionBytes
  (decide (d.regFirst ≤ r) && decide (r < d.regFirst + d.regCount) && !s.mgmt.retired.contains r) ||
  s.records.any (fun p => p.2.ld == ld && p.2.announced && decide (p.2.addr ≤ pa) && decide (pa < p.2.addr + p.2.bytes.length))

/-- Registers of any values at all. -/
def freeWords (n k : Nat) : SMap Word :=
  (List.range n).filterMap (fun i =>
    let x : Word := BitVec.ofNat 32 (Config.freeNat (k + i))
    if x = 0 then none else some (i, x))

/-- A format record of any values at all. -/
def freeMFmt (k : Nat) : MFmt :=
  let f := fun (i n : Nat) => Config.freeNat (k + i) % 2 ^ n
  ⟨f 0 4, f 1 4, f 2 3, f 3 8, f 4 16, f 5 63, f 6 63, f 7 63, f 8 63, f 9 63, f 10 63, f 11 56, f 12 56⟩

/-- Any state of a lane; one in service stays there until its record ends. -/
def freeLaneSt (st : LaneSt) (k : Nat) : LaneSt :=
  match st with
  | .service r => .service r
  | _ => match Config.freeNat k % 4 with
    | 0 => .running
    | 1 => .exited
    | 2 => .helper
    | _ => .arrived (Config.freeNat (k + 1) % 8)

/-- Every value of a lane is undefined: PC, state, handler state, return stack, generator state, the PC of its stop, and what an `LDFE`
has done. -/
def Lane.spoiled (x : Lane) (n : Nat) : Lane :=
  { x with
    pc := BitVec.ofNat 56 (Config.freeNat n / 8 * 8)
    st := freeLaneSt x.st (n + 1)
    hnd := if Config.freeBit (n + 3) then some (BitVec.ofNat 56 (Config.freeNat (n + 4))) else none
    saved := x.saved.map (fun _ => (BitVec.ofNat 32 (Config.freeNat (n + 5)), BitVec.ofNat 32 (Config.freeNat (n + 6))))
    depth := Config.freeNat (n + 7) % (x.rs.length + 1)
    feDone := Config.freeBit (n + 9)
    stop := x.stop.map (fun _ => BitVec.ofNat 56 (Config.freeNat (n + 18) / 8 * 8))
    rs := x.rs.mapIdx (fun i _ => BitVec.ofNat 64 (Config.freeNat (n + 10 + i)))
    rng := BitVec.ofNat 32 (1 + Config.freeNat (n + 8) % (2 ^ 32 - 1)) }

/-- A pass with any operands at all. -/
def freePass (k : Nat) : PassCap :=
  let f := fun (i n : Nat) => Config.freeNat (k + i) % 2 ^ n
  ⟨Config.freeBit k, f 1 64, f 2 64, (BitVec.ofNat 32 (f 3 32)).toInt, (BitVec.ofNat 32 (f 4 32)).toInt, Config.freeBit (k + 5), freeMFmt (k + 6)⟩

/-- A withdrawn request of any contents at all. -/
def MEntry.spoiled (e : MEntry) (k : Nat) : MEntry :=
  let f := fun (i n : Nat) => Config.freeNat (k + i) % 2 ^ n
  { e with
    slot := Config.freeNat k % 6, pc := f 1 56 / 8 * 8
    kind := match Config.freeNat (k + 2) % 5 with
      | 0 => .pass (freePass (k + 32))
      | 1 => .zero
      | 2 => .drain (Config.freeBit (k + 3)) (f 4 64)
      | 3 => .mlda (f 4 64)
      | _ => .mvec (Config.freeBit (k + 3)) (Config.freeBit (k + 5)) (1 + f 6 3) (f 7 8) (f 8 32) (BitVec.ofNat 64 (f 9 64)) (freeWords 512 (k + 64)) }

/-- Every value of a group is undefined: registers, masks, format records, `fp.*`, `ctx.*`, the divergence state, its withdrawn
requests and its deferred errors. -/
def Group.spoiled (g : Group) (k : Nat) : Group :=
  let mask := fun i => (BitVec.ofNat 64 (Config.freeNat (k + i)) : Mask) &&& BitVec.ofNat 64 (2 ^ g.width - 1)
  { g with
    v := freeWords 16384 k
    shadow := if g.shadow.isEmpty then [] else freeWords 16384 (k + 2 ^ 18)
    s := freeWords 63 (k + 16384)
    p := (List.range 7).foldl (fun m i => SMap.put m i (mask (16448 + i)) 0) []
    j := (List.range 8).foldl (fun m i => SMap.put m i (mask (16456 + i), BitVec.ofNat 56 (Config.freeNat (k + 16464 + i))) (0, 0)) []
    mf := (List.range 8).filterMap (fun i => if Config.freeBit (k + 16476 + i) then some (i, freeMFmt (k + 2 ^ 19 + 16 * i)) else none)
    fpMode := BitVec.ofNat 4 (Config.freeNat (k + 16472)) |>.setWidth 32, fpFlags := BitVec.ofNat 32 (Config.freeNat (k + 16473)) &&& 0x7F
    fpSeed := BitVec.ofNat 32 (Config.freeNat (k + 16474))
    spCount := Config.freeNat (k + 16490) % 65536
    spLast := if Config.freeBit (k + 16491) then some (Config.freeNat (k + 16492) % 65536) else none
    withdrawn := (g.withdrawn.zip (List.range g.withdrawn.length)).filterMap (fun x =>
      if Config.freeBit (k + 2 ^ 19 + 1024 + x.2) then some (x.1.spoiled (k + 2 ^ 19 + 2048 + 1024 * x.2)) else none)
    errs := (g.errs.zip (List.range g.errs.length)).filterMap (fun x =>
      let f := fun (i n : Nat) => Config.freeNat (k + 2 ^ 18 + 2 ^ 17 + 8 * x.2 + i) % 2 ^ n
      if Config.freeBit (k + 2 ^ 18 + 2 ^ 17 + 8 * x.2) then some { x.1 with cause := f 1 6, reason := f 2 8, addr := f 3 56, info := f 4 64 } else none)
    lanes := g.lanes.mapIdx (fun l x => x.spoiled (k + 17000 + 1024 * l)) }

/-- Every value of a barrier is undefined. -/
def Barrier.spoiled (b : Barrier) (k : Nat) : Barrier :=
  { b with
    members := b.members.filter (fun m => Config.freeBit (k + 1024 + m)), count := Config.freeNat k, phase := BitVec.ofNat 16 (Config.freeNat (k + 1)), epoch := BitVec.ofNat 8 (Config.freeNat (k + 2))
    arrived := b.members.filter (fun m => Config.freeBit (k + 3 + m)) }

/-- Every value of a block is undefined: scratch with its full-empty bits, barriers, accumulator slots, and its shadow. -/
def Block.spoiled (b : Block) (k : Nat) : Block :=
  let scratch := fun (n : Nat) => (Config.freeMemory n).foldl (fun m c => if c.1 < Config.scratchMax then SMap.put m c.1 c.2 (0 : Byte) else m) []
  let sfe := fun (n : Nat) => (List.range (Config.scratchMax / 16)).filter (fun i => Config.freeBit (n + i))
  { b with
    scratch := scratch k, sfe := sfe k
    bars := b.bars.mapV (fun i (y : Barrier) => y.spoiled (k + 2 ^ 19 + 4096 * i))
    slots := b.slots.mapV (fun i (y : Slot) => { y with
      data := freeWords 65536 (k + 65536 * i), progress := Config.freeNat (k + 2 ^ 19 + i) % 1025 * 16
      halted := y.halted.map (fun _ => freePass (k + 2 ^ 19 + 64 + 32 * i)), seen := (freeWords 65536 (k + 65536 * i)).map (fun w => (w.1, w.2.toNat % 16)) })
    shadow := b.shadow.map (fun (sh : Shadow) =>
      { groups := sh.groups.map (fun p => (p.1, p.2.spoiled (k + 2 ^ 20 * p.1))), scratch := scratch (k + 1), sfe := sfe (k + 2 ^ 18)
        bars := sh.bars.mapV (fun i (y : Barrier) => y.spoiled (k + 2 ^ 19 + 2048 + 4096 * i)) }) }

/-- The contexts whose image pool a write reaches. -/
def State.poolsHit (s : State) (pa len : Nat) : List Nat :=
  (s.ctxs.filter (fun p => !(p.2.st == .destroyed) && decide (pa < p.2.poolBase + p.2.poolSize) && decide (p.2.poolBase < pa + len))).map (·.1)

/-- A write by another agent to the pool of a live context makes every value of that context undefined (R72). No program reaches
a pool, so the agent is the host. -/
def State.spoil (s : State) (ctxs : List Nat) : State :=
  if ctxs.isEmpty then s
  else
    let mine := fun (grid : Nat) => ((s.grids.find grid).map (fun g => ctxs.contains g.ctx)).getD false
    { s with
      free := s.free + 2 ^ 21 * (s.nextId + 4096)
      ctxs := s.ctxs.mapV (fun i (c : Ctx) => if ctxs.contains i then { c with sysfence := BitVec.ofNat 32 (Config.freeNat (s.free + i)) } else c)
      grids := s.grids.mapV (fun i (g : Grid) => if ctxs.contains g.ctx then { g with
        clsBars := g.clsBars.mapV (fun j (y : Barrier) => y.spoiled (s.free + 2 ^ 21 * i + 4096 * j))
        grdBar := g.grdBar.map (fun (y : Barrier) => y.spoiled (s.free + 2 ^ 21 * i)) } else g)
      groups := s.groups.mapV (fun i (g : Group) => if mine g.grid then g.spoiled (s.free + 2 ^ 21 * i) else g)
      blocks := s.blocks.mapV (fun i (b : Block) => if mine b.grid then b.spoiled (s.free + 2 ^ 21 * i) else b) }

/-- The port of a function (R381, R382): a logical device's own, and for the management function the one that MGSEL selects; on an
RH1-M that is port 0. -/
def State.portOf (s : State) (fn : Nat) : Nat :=
  if fn = 16 then (if s.mgmt.onModule then 0 else s.mgmt.mgsel) else (s.ld fn).port

/-- The host writes device memory; a write to a pool spoils its contexts (R72). -/
def State.cxlWrite (s : State) (pa : Nat) (bs : List Byte) : State :=
  (s.devWrite ((withOffsets bs).map (fun b => (pa + b.1, b.2))) []).spoil (s.poolsHit pa bs.length)

/-- A host access to device memory: a read is answered with its bytes, or poisoned where a granule of them is (R338); a write is
performed at the home slice; an access it may not make is answered poisoned and changes nothing (R381). It waits only for an `MCAS` lock, an engine's line, a move of the region, a visibility time and, a write, for a
copy to the safe tier (R317, R389): the blocks that hold its lines take their checkpoints at once, whatever they wait for, and a
block that rolls back is about to discard its lines (log entry 44). -/
def execHostCxlMemAccess (ld pa len : Nat) (write : Option (List Byte)) (s : State) : Out :=
  let row := "HOST_CXL_MEM_ACCESS"
  let lines := (List.range (len / 128 + 2)).map (fun i => pa / 128 + i) |>.filter (fun l => decide (l * 128 < pa + len))
  let ok := (List.range len).all (fun i => s.hostReach ld (pa + i))
  let fits := decide (1 ≤ len) && decide (len ≤ 64) && (match write with
    | some bs => bs.length == len
    | none => true)
  let t := ((s.holders 0 lines).filter (fun b => !((s.blocks.find b).map (·.rolling)).getD false)).foldl State.checkpoint s
  let free := s.unlocked pa len && lines.all (fun l => !s.isOwned l) && t.settled 0 0 pa len &&
    s.mgmt.moving != some (pa / Config.regionBytes) && (s.mgmt.copy != some true || write.isNone)
  let say := fun (u : State) bs => { u with answers := u.answers ++ [⟨s.portOf ld, ld, pa, bs⟩] }
  if !(decide (ld < 16) && s.present ld && fits) then notNow row
  else if !ok then .next (say s none)
  else event row free (match write with
    | none => say t (if t.clean pa len then some (Memory.bytes t.mem pa len) else none)
    | some bs => (say t (some [])).cxlWrite pa bs)

/-- A host snoop of a half: the bridge gives it up, and the host may write its memory. -/
def execHostSnoop (half : Nat) (write : Option (List (Nat × Byte))) (s : State) : Out :=
  let bs := write.getD []
  event "HOST_SNOOP" (decide (half < 2 ^ 46) && bs.all (fun b => b.1 / 64 == half))
    { s with hostMem := Memory.writeAll s.hostMem bs, bridge := SMap.del s.bridge half }

/-! ## Resets (R5, R177, R219) -/

/-- The machine after device reset or power loss: what is fused, wired or the host's stays. -/
def State.restart (s : State) : State :=
  { State.reset with
    agenda := s.agenda, turn := s.turn, free := s.free, nextId := s.nextId, pkg := s.pkg, hostMem := s.hostMem
    mgmt := { Mgmt.reset with rollback := s.mgmt.rollback, onModule := s.mgmt.onModule, mgsel := s.mgmt.mgsel, modules := s.mgmt.modules, alarms := s.mgmt.alarms } }

def execDeviceReset (s : State) : Out := .next s.restart

def execPowerLoss (s : State) : Out := .next s.restart

/-! ## Security (R390) -/

/-- The bound configuration that a measurement covers. -/
def State.configBytes (s : State) : List Byte :=
  s.ldevs.flatMap (fun p => leBytes 1 p.1 ++ leBytes 1 (if p.2.bound then 1 else 0) ++ leBytes 1 p.2.port ++ leBytes 2 p.2.regFirst ++
    leBytes 2 p.2.regCount ++ leBytes 2 p.2.tenFirst ++ leBytes 2 p.2.tenCount)

/-- What the measurements of a function cover: the boot ROM of each I/O die, the images accepted, FEATOFF and the configuration. -/
def State.measurements (s : State) : List Byte :=
  Config.measure (Config.bootRom 0) ++ Config.measure (Config.bootRom 1) ++ s.mgmt.images.flatMap (·.2) ++
  Config.measure (leBytes 16 featOff) ++ Config.measure s.configBytes

/-- A function answers an SPDM request with its signed measurements. -/
def execSpdmRequest (fn : Nat) (nonce : DWord) (s : State) : Out :=
  let m := s.measurements
  let answer := m ++ Config.signature (leBytes 8 nonce.toNat ++ m)
  event "SPDM_REQUEST" (decide (fn ≤ 16) && s.present fn) { s with mgmt := { s.mgmt with spdm := s.mgmt.spdm ++ [(fn, answer)] } }

/-- The boot ROM of an I/O die verifies a firmware or sage-core image: a good signature and a version not below the fused counter. The
image takes the place of the die's earlier one of its kind. -/
def execFirmwareImageLoad (iod : Nat) (image : List Byte) (version : DWord) (s : State) : Out :=
  event "FIRMWARE_IMAGE_LOAD" (decide (iod < 2))
    (if Config.imageSigned image && decide (s.mgmt.rollback ≤ version.toNat) then
      { s with mgmt := { s.mgmt with accepted := true, images := s.mgmt.images.set (2 * iod + bitOf (Config.imageSage image)) (Config.measure image) } }
    else s)

end Sys2Proof.Machine
end

