-- ==== Sys2Proof/Machine/LaneExchange.lean ====
section
/-! DEFINITION. The lane-exchange words (R143 to R152). -/

namespace Sys2Proof.Machine

/-- The scope of a lane (R145). -/
def Group.scope (g : Group) (sc : Option (BitVec 8)) (l : Nat) : Mask :=
  let all := g.mask (fun _ => true)
  match sc with
  | none => all
  | some k =>
    let m := g.rv64 k.toNat l &&& all
    if Mask.has m l then m else Mask.one l

/-- The lane whose scope serves lane l where helpers take their anchor's (R148). -/
def Group.scopeLane (g : Group) (l : Nat) : Nat := if g.isHelper l then (g.anchor l).getD l else l

/-- P(L): the participants of the word within the scope of a lane (R148). -/
def Group.party (g : Group) (ex : Mask) (sc : Option (BitVec 8)) (l : Nat) : Mask :=
  g.nonHelpers ex &&& g.scope sc (g.scopeLane l)

/-- The source rank of `XLANE` (R146). -/
def XRank (m : XMode) (r k : Nat) : Int :=
  match m with
  | .at => k
  | .back => (r : Int) - k
  | .fwd => (r : Int) + k
  | .flip => (r ^^^ k : Nat)

def effXlane (m : XMode) (wrap b64 : Bool) (d a : BitVec 8) (b : Src) (sc : Option (BitVec 8)) (frag : Mask) (g : Group)
    (ex : Mask) : Eff :=
  Eff.lanes (Mask.lanes ex) (fun l =>
    let ms := Mask.lanes (g.scope sc l)
    let r := (ms.filter (fun i => i < l)).length
    let t := XRank m r (b.get g l .zext).toNat
    let t := if wrap then t % (ms.length : Int) else t
    let from_ := if 0 ≤ t then (match ms[t.toNat]? with
        | some i => if Mask.has frag i then i else l
        | none => l) else l
    wNat b64 (.v d) l (Src.nat g from_ .sext b64 (.v a)))

def effQx (dir : QDir) (b64 : Bool) (d a : BitVec 8) (frag : Mask) (g : Group) (ex : Mask) : Eff :=
  Eff.lanes (Mask.lanes ex) (fun l =>
    let p := l ^^^ (match dir with | .h => 1 | .v => 2 | .d => 3)
    wNat b64 (.v d) l (Src.nat g (if Mask.has frag p then p else l) .sext b64 (.v a)))

def effVote (op : VoteOp) (d a : BitVec 3) (sc : Option (BitVec 8)) (g : Group) (ex : Mask) : Eff :=
  Eff.lanes (Mask.lanes ex) (fun l =>
    let vs := (Mask.lanes (g.party ex sc l)).map (g.rp a.toNat)
    wPred d l (match op with
      | .all => vs.all id
      | .any => vs.any id
      | .uni => vs.all id || vs.all not))

def effBallot (d : Reg) (a : BitVec 3) (sc : Option (BitVec 8)) (g : Group) (ex : Mask) : Eff :=
  runDst g ex d (fun l => wReg64 d l
    (maskFilter (if d.isS then g.nonHelpers ex else g.party ex sc l) (g.rp a.toNat)))

def effMatch (b64 : Bool) (d a : BitVec 8) (g : Group) (ex : Mask) : Eff :=
  Eff.lanes (Mask.lanes ex) (fun l => wReg64 (.v d) l
    (if g.isHelper l then 0
      else maskFilter (g.nonHelpers ex) (fun i => Src.nat g i .sext b64 (.v a) == Src.nat g l .sext b64 (.v a))))

/-- One level of the tree of R33: neighbours combine, an odd last value passes up. -/
def treeLevel (f : Nat → Nat → Nat × Flags) : List Nat → List Nat × Flags
  | a :: b :: r =>
    let x := f a b
    let y := treeLevel f r
    (x.1 :: y.1, x.2 ||| y.2)
  | l => (l, 0)

/-- The fixed reduction tree of R33, over at most 2^n values. -/
def treeReduce (f : Nat → Nat → Nat × Flags) : Nat → List Nat → Nat × Flags
  | 0, l => (l.headD 0, 0)
  | n + 1, l =>
    let x := treeLevel f l
    let y := treeReduce f n x.1
    (y.1, x.2 ||| y.2)

/-- One step of a reduction (R150). -/
def reduxStep (op : RedOp) (ty : RedTy) (r : RndSel) (g : Group) (a b : Nat) : Nat × Flags :=
  match ty with
  | .f32 =>
    let x := fp32.daz g.daz a
    let y := fp32.daz g.daz b
    let z := match op with
      | .min => fp32.minmax false x.1 y.1
      | .max => fp32.minmax true x.1 y.1
      | _ => fp32.fadd (rndOf g r false) x.1 y.1
    (z.1, z.2 ||| x.2 ||| y.2)
  | _ =>
    let sgn := ty == .s32
    (match op with
      | .add => (a + b) % 2 ^ 32
      | .min => if readInt sgn 32 b < readInt sgn 32 a then b else a
      | .max => if readInt sgn 32 a < readInt sgn 32 b then b else a
      | .and => a &&& b
      | .or => a ||| b
      | .xor => a ^^^ b, 0)

/-- A lane with no participant receives no result and raises no flag (R150). -/
def effRedux (op : RedOp) (ty : RedTy) (r : RndSel) (d : Reg) (a : BitVec 8) (sc : Option (BitVec 8)) (g : Group)
    (ex : Mask) : Eff :=
  runDst g ex d (fun l =>
    match (Mask.lanes (if d.isS then g.nonHelpers ex else g.party ex sc l)).map (fun i => (g.rv a.toNat i).toNat) with
    | [] => {}
    | vs =>
      let z := treeReduce (reduxStep op ty r g) 6 vs
      (wNat false d l z.1).append (wFlags z.2))

def effV2s (b64 : Bool) (d : BitVec 6) (a : BitVec 8) (idx : Option Src) (g : Group) (ex : Mask) : Eff :=
  runDst g ex (.s d) (fun l =>
    match idx with
    | none => wNat b64 (.s d) l (Src.nat g l .sext b64 (.v a))
    | some b =>
      let i := (b.get g l .zext).toNat
      wNat b64 (.s d) l (if i < g.width then Src.nat g i .sext b64 (.v a) else 0))

def effMask (k : MaskKind) (d : Reg) (j : BitVec 3) (frag : Mask) (g : Group) (ex : Mask) : Eff :=
  let x := g.j.getD j.toNat (0, 0)
  runDst g ex d (fun l => wReg64 d l (match k with
    | .frag => frag
    | .live => g.live
    | .helper => g.mask g.isHelper
    | .lt => BitVec.ofNat 64 (2 ^ l - 1)
    | .jmask => x.1
    | .jpc => x.2.setWidth 64))

/-! ## The words -/

def execXlane (m : XMode) (wrap b64 : Bool) (g : Guard) (d a : BitVec 8) (b : Src) (scope : Option (BitVec 8))
    (s : State) : Out :=
  regWord s (.xlane m wrap b64 g d a b scope) (fun _ c gr =>
    effXlane m wrap b64 d a b scope c.lanes gr (gr.guarded c.lanes g))
def execQx (dir : QDir) (b64 : Bool) (g : Guard) (d a : BitVec 8) (s : State) : Out :=
  regWord s (.qx dir b64 g d a) (fun _ c gr => effQx dir b64 d a c.lanes gr (gr.guarded c.lanes g))
def execVote (op : VoteOp) (g : Guard) (d a : BitVec 3) (scope : Option (BitVec 8)) (s : State) : Out :=
  laneWord s (.vote op g d a scope) g (effVote op d a scope)
def execBallot (g : Guard) (d : Reg) (a : BitVec 3) (scope : Option (BitVec 8)) (s : State) : Out :=
  laneWord s (.ballot g d a scope) g (effBallot d a scope)
def execMatchLanes (b64 : Bool) (g : Guard) (d a : BitVec 8) (s : State) : Out :=
  laneWord s (.matchLanes b64 g d a) g (effMatch b64 d a)
def execRedux (op : RedOp) (ty : RedTy) (r : RndSel) (g : Guard) (d : Reg) (a : BitVec 8) (scope : Option (BitVec 8))
    (s : State) : Out :=
  laneWord s (.redux op ty r g d a scope) g (effRedux op ty r d a scope)
def execV2s (b64 : Bool) (g : Guard) (d : BitVec 6) (a : BitVec 8) (idx : Option Src) (s : State) : Out :=
  laneWord s (.v2s b64 g d a idx) g (effV2s b64 d a idx)
def execMask (k : MaskKind) (g : Guard) (d : Reg) (j : BitVec 3) (s : State) : Out :=
  regWord s (.mask k g d j) (fun _ c gr => effMask k d j c.lanes gr (gr.guarded c.lanes g))

end Sys2Proof.Machine
end

