-- ==== Sys2Proof/Machine/Pair.lean ====
section
/-! DEFINITION. The P-form pair (R46 to R49, R178, R199, R253): both slots read before either writes, each has the effect
of its F-form word, and at most one accesses memory. -/

namespace Sys2Proof.Machine

end Sys2Proof.Machine

namespace Sys2Proof
open Machine

/-- A slot's guard has no complement (R46). -/
def PSlot.guard (p : PSlot) : Guard := ⟨p.pred, false⟩

/-- The register effect of a slot, as its F-form word's (R49); memory slots write when their data returns. -/
def PSlot.eff (p : PSlot) (s : State) (c : Issue) (g : Group) : Eff :=
  let ex := g.guarded c.lanes p.guard
  let d : Reg := .v p.d
  let o1 : Op1 := ⟨p.guard, d, p.a.src⟩
  let o2 : Op2 := ⟨p.guard, d, d.src, p.a.src⟩
  let t := fun n32 => if n32 then ITy.n32 else ITy.s32
  match p.op with
  | .nop => {}
  | .mov => effMov false o1 g ex
  | .add => effArith .s32 false (· + ·) o2 g ex
  | .sub => effArith .s32 false (· - ·) o2 g ex
  | .mul => effArith .s32 false (· * ·) o2 g ex
  | .min n => effArith (t n) false (fun a b => if b < a then b else a) o2 g ex
  | .max n => effArith (t n) false (fun a b => if a < b then b else a) o2 g ex
  | .and => effLogic false (· &&& ·) o2 g ex
  | .or => effLogic false (· ||| ·) o2 g ex
  | .xor => effLogic false (· ^^^ ·) o2 g ex
  | .shl => effShift shlNat false false o2 g ex
  | .shr => effShift shrNat false false o2 g ex
  | .sar => effShift sarNat false false o2 g ex
  | .abs => effAbs false false o1 g ex
  | .popc => effPopc false o1 g ex
  | .clz => effClz false o1 g ex
  | .brev => effBrev false o1 g ex
  | .fadd r => effFp2 (fun h => Machine.fp32.fadd (rndOf h r false)) o2 g ex
  | .fmul r => effFp2 (fun h => Machine.fp32.fmul (rndOf h r false)) o2 g ex
  | .fmin => effFp2 (fun _ => Machine.fp32.minmax false) o2 g ex
  | .fmax => effFp2 (fun _ => Machine.fp32.minmax true) o2 g ex
  | .pkadd bf r => effPk2 bf (fun h f => f.fadd (rndOf h r false)) o2 g ex
  | .pkmul bf r => effPk2 bf (fun h f => f.fmul (rndOf h r false)) o2 g ex
  | .pkmm bf mx => effPk2 bf (fun _ f => f.minmax mx) o2 g ex
  | .frcp => effFp1 (trans Machine.frcp) o1 g ex
  | .frsq => effFp1 (trans Machine.frsq) o1 g ex
  | .fsqrt r => effFp1 (fun h => Machine.fp32.fsqrt (rndOf h r false)) o1 g ex
  | .fex2 => effFp1 (trans Machine.fex2) o1 g ex
  | .flg2 => effFp1 (trans Machine.flg2) o1 g ex
  | .fsin => effFp1 (trans (ftrig false)) o1 g ex
  | .fcos => effFp1 (trans (ftrig true)) o1 g ex
  | .ftanh => effFp1 (trans Machine.ftanh) o1 g ex
  | .cvtF32Int n r => effCvt .f32 (if n then .n32 else .s32) 0 0 r false false d p.a g ex
  | .cvtIntF32 n r => effCvt (if n then .n32 else .s32) .f32 0 0 r false false d p.a g ex
  | .cvtF32Half bf hi => effCvt .f32 (if bf then .bf16 else .f16) (if hi then 1 else 0) 0 (.mode 0) false false d p.a g ex
  | .iset cc n => effIset cc (t n) (.r d) d.src p.a.src g ex
  | .fset cc =>
    let f : FCc := match cc with
      | .eq => .eq | .ne => .ne | .lt => .lt | .le => .le | .gt => .gt | .ge => .ge
    effFset f (.r d) d.src p.a.src g ex
  | .rds r => effRds false d r s c g ex
  | .add64 => effArith .s64 false (· + ·) o2 g ex
  | .ld | .st | .lds | .sts | .ldc _ => {}

/-- The memory access of a slot: its counter, operation and checked accesses (R253). -/
def PSlot.mem (p : PSlot) (s : State) (c : Issue) (g : Group) :
    Option (Ctr × OpKind × Except Trap (List LaneAcc × State)) :=
  let ex := g.guarded c.lanes p.guard
  let d : Reg := .v p.d
  let a : MAddr := ⟨p.a, .imm 0⟩
  match p.op with
  | .ld => some (.ld, .load d .b32, s.memTry g ex (loadReq a 4 (globalEa a)))
  | .st => some (.st, .store, s.memTry g ex (storeReq a.uniform d .b32 (globalEa a)))
  | .lds => some (.ld, .load d .b32, s.scratchTry g ex (loadReq a 4 (offsetEa a)))
  | .sts => some (.st, .store, s.scratchTry g ex (storeReq a.uniform d .b32 (offsetEa a)))
  | .ldc k => some (.ld, .ldc d .b32, s.constTry g ex k.toNat (loadReq a 4 (offsetEa a)))
  | _ => none

end Sys2Proof

namespace Sys2Proof.Machine

/-- A trap of a slot names it in detail bit 1 (R47, R326). -/
def slotTrap (slot : Nat) (t : Trap) : Trap := { t with detail := t.detail + 2 * slot }

/-- Issue the memory access of a slot, or trap with its number. -/
def slotMem (c : Issue) (g : Group) (slot : Nat)
    (m : Ctr × OpKind × Except Trap (List LaneAcc × State)) : WOut :=
  match m.2.2 with
  | .error t => .trap (slotTrap slot t)
  | x => issueOp c g m.1 noOrder m.2.1 x

/-- Both slots read their operands from the group as it is at issue; the union of their effects is then written. -/
def execPair (s0 s1 : PSlot) (s : State) : Out :=
  runWord s (.pair s0 s1) (fun t c g =>
    let t1 := t.setGrp c.grp (g.run (fun h => (s0.eff t c h).append (s1.eff t c h)))
    match s0.mem t1 c g, s1.mem t1 c g with
    | some m, _ => slotMem c g 0 m
    | none, some m => slotMem c g 1 m
    | none, none => .done t1)

end Sys2Proof.Machine
end

