-- ==== Sys2Proof/Machine/Ready.lean ====
section
/-! DEFINITION. Readiness of fragments and groups (R126), the moves between a slot's active and pending sets (R125, R129,
R130), register-cache fills (R161) and instruction fetch (R35, R312). -/

namespace Sys2Proof.Machine

/-! ## Readiness (R126) -/

/-- The hold under which a fragment's next word issues: a `YIELD` that only orders it (R157) holds nothing. -/
def Hold.atIssue : Hold → Hold
  | .yield _ => .none
  | h => h

/-- A block lets a fragment with this hold issue: not while a rollback runs (R339), nor while issue is stopped for a
checkpoint (R211) but for the words that take it. -/
def State.blockOpen (s : State) (g : Group) (h : Hold) : Bool :=
  match s.blkOf g with
  | none => true
  | some b => !b.rolling && !b.saved && (!b.halt || h == .ckpt || (s.ckptReady g.blk && b.groups.all (fun k => match s.grp k with
    | some x => x.laneIds.all (fun l => !((x.lane l).hold == .ckpt))
    | none => true)))

/-- The fragment that a lane leads as it would issue, when its word is there. -/
def State.issueOf (s : State) (gid : Nat) (g : Group) (l : Nat) : Option Issue :=
  (SMap.find g.fetched (g.lane l).pc.toNat).map (fun w => ⟨gid, g.fragment l, (g.lane l).pc, w, (g.lane l).hold.atIssue, s.clk⟩)

/-- The PC at which a fragment that goes on after pre-emption stopped, until it issues (R87). -/
def Group.resumeKey (g : Group) (l : Nat) : Option Nat :=
  leastBy id ((Mask.lanes (g.fragment l)).filterMap (fun i => (g.lane i).stop.map (·.toNat)))

/-- Stopped fragments proceed in ascending order of the PC at which they stopped (R87); one that still waits holds none back. -/
def Group.resumeTurn (g : Group) (l : Nat) : Bool :=
  match g.resumeKey l with
  | none => true
  | some p => g.leaders.all (fun i => match (g.lane i).hold, g.resumeKey i with
    | .none, some q => decide (p ≤ q)
    | _, _ => true)

/-- No request of a group that goes on after pre-emption has still to be posted again (R87). -/
def Group.reposted (g : Group) : Bool := g.withdrawn.all (fun e => e.st == .withdrawn)

/-- A fragment is ready (R126). A word that is not an instruction is ready: it traps when it issues (R53). -/
def State.fragReady (s : State) (gid : Nat) (g : Group) (l : Nat) : Bool :=
  s.holdDone gid g l && s.blockOpen g (g.lane l).hold && g.reposted && g.resumeTurn l && (match s.issueOf gid g l with
    | none => false
    | some c => match decodeWord c.word.toNat with
      | .ok i => s.illegalHere g i || s.wordReady c g i
      | .error _ => true)

/-- The lanes that lead ready fragments. -/
def State.readyLanes (s : State) (gid : Nat) (g : Group) : List Nat := g.leaders.filter (s.fragReady gid g)

/-- A group is ready when one of its fragments is. -/
def State.groupReady (s : State) (gid : Nat) (g : Group) : Bool := g.leaders.any (s.fragReady gid g)

/-! ## The active and pending sets (R125, R129, R130) -/

/-- The oldest outstanding operation of a counter. -/
def Group.oldest (g : Group) (k : Ctr) : Option PendOp := g.ops.find? (fun o => o.ctr == k)

def PendOp.inReplay (o : PendOp) : Bool := o.lanes.any (fun a => match a.st with
  | .fault _ => true
  | _ => false)

/-- An operation whose wait is long: a pod access, one in the replay buffer, host memory, a loop record, a collective. -/
def PendOp.isLong (o : PendOp) : Bool :=
  o.inReplay || o.onHost || (match o.kind with
    | .ldp _ | .stp | .record .. | .coll _ => true
    | _ => false)

def Group.longCounter (g : Group) (k : Ctr) (n : Nat) : Bool :=
  decide (n < g.counter k) && (match g.oldest k with
    | some o => o.isLong
    | none => false)

/-- The lane in turn of a blocking `LDFE` finds its granule empty. -/
def State.onEmpty (s : State) (g : Group) (id : Nat) : Bool :=
  match (g.op id).bind (fun (o : PendOp) => o.lanes.find? (fun a => a.isOpen)) with
  | some a => a.st == .ready && !s.granuleFull g a
  | none => false

/-- The fragment of a lane is at a long-latency wait (R129). -/
def State.longWait (s : State) (gid : Nat) (g : Group) (l : Nat) : Bool :=
  match (g.lane l).hold with
  | .wait ld st cp mx bc => g.longCounter .ld ld || g.longCounter .st st || g.longCounter .cp cp || g.longCounter .mx mx ||
      g.longCounter .bc bc
  | .barrier _ _ | .sync _ _ | .pfence _ | .exit => !s.holdDone gid g l
  | .op id => s.onEmpty g id
  | .push q id => s.pushWaits g q id
  | .nap _ => true
  | .busy id => (match (g.op id).map (fun (o : PendOp) => (o.kind, o)) with
    | some (.refill _, o) => o.inReplay
    | some (.record .., _) => !g.opOver id
    | _ => false)
  | _ => false

/-- The ready pending group that enters a slot's active set next: a flagged one first, else the oldest (R130, R82). -/
def State.nextPending (s : State) (core slot : Nat) : Option Nat :=
  let ps := s.groups.filter (fun p => p.2.core == core && p.2.idx % 4 == slot && p.2.state == .pending && s.groupReady p.1 p.2)
  let fl := ps.filter (fun p => p.2.flagged)
  (leastBy (fun p => p.2.age) (if fl.isEmpty then ps else fl)).map (·.1)

/-- An active group moves to the pending set when a pending position is free, or as a ready pending group takes its active
position in the same clock (R125). -/
def State.swapOut (s : State) (gid : Nat) (g : Group) : Option State :=
  if s.inSlot g.core (g.idx % 4) .pending < 24 then some (s.setGrp gid { g with state := .pending })
  else (s.nextPending g.core (g.idx % 4)).map (fun k =>
    (s.setGrp gid { g with state := .pending }).updGrp k (fun x => { x with state := .active }))

/-- A vacancy of the active set is filled from the ready pending groups (R130). -/
def execGroupEnterActive (grp : Nat) (s : State) : Out :=
  let row := "GROUP_ENTER_ACTIVE"
  match s.grp grp with
  | none => notNow row
  | some g => event row (g.state == .pending && decide (s.inSlot g.core (g.idx % 4) .active < 8) &&
      s.nextPending g.core (g.idx % 4) == some grp) (s.setGrp grp { g with state := .active })

/-- No fragment is ready and one is at a long-latency wait: the group leaves the active set (R129). -/
def execGroupSwapOut (grp : Nat) (s : State) : Out :=
  let row := "GROUP_SWAP_OUT"
  match s.grp grp with
  | none => notNow row
  | some g =>
    match s.swapOut grp g with
    | none => notNow row
    | some t => event row (g.state == .active && !s.groupReady grp g && g.leaders.any (s.longWait grp g)) t

/-- No fragment has been ready for 256 clocks: the group leaves the active set (R129). -/
def execNoReadyTimeout (grp : Nat) (s : State) : Out :=
  let row := "NO_READY_TIMEOUT"
  match s.grp grp with
  | none => notNow row
  | some g =>
    match s.swapOut grp g with
    | none => notNow row
    | some t => event row (g.state == .active && !s.groupReady grp g && decide (g.idleClk + 256 ≤ s.clk)) t

/-- A line that a word waiting to issue misses arrives in its slot's register cache, and a victim leaves a full one (R74, R161). -/
def execRegisterLineFill (grp line : Nat) (s : State) : Out :=
  let row := "REGISTER_LINE_FILL"
  match s.grp grp with
  | none => notNow row
  | some g => event row (g.missing.contains line && !(g.state == .saved) && (g.pinnedLines (s.descOf g).width).contains line)
      ((s.setGrp grp { g with missing := g.missing.erase line, lineUse := SMap.set g.lineUse line (s.clk, false) }).trimSlot g.core (g.idx % 4))

/-! ## Fetch (R34, R35, R312) -/

/-- The word at a place in memory. -/
def State.fetchFrom (s : State) (ld : Nat) : Phys → DWord
  | .dev pa => BitVec.ofNat 64 (Memory.read s.mem pa 8)
  | .host pa => BitVec.ofNat 64 (Memory.read s.hostMem pa 8)
  | .bell off => BitVec.ofNat 64 (leNat ((List.range 8).map (fun i => bellByte (s.ld ld) (off + i))))
  | _ => 0

/-- A fragment whose word may be fetched: none that waits for a page or for its handler. -/
def Hold.fetches : Hold → Bool
  | .fault _ | .handler => false
  | _ => true

/-- The word at a lane's PC arrives: it is kept until its fragment issues it. A page that is not there makes the fragment
wait for service; a page or place that cannot be fetched from traps at the PC. -/
def execWordFetchComplete (grp lane : Nat) (s : State) : Out :=
  let row := "WORD_FETCH_COMPLETE"
  match s.grp grp with
  | none => notNow row
  | some g =>
    let pc := (g.lane lane).pc
    let m := g.fragment lane
    let live := g.isRunning lane && (g.lane lane).hold.fetches && (SMap.find g.fetched pc.toNat).isNone &&
      (g.state == .active || g.state == .pending)
    let x := s.xlat (s.ctxNum g) pc.toNat .fetch
    let trap := fun cause info => x.2.takeTrap grp m pc 0 { cause := cause, addr := pc.toNat, info := info }
    match x.1 with
    | .ok ph => event row (live && (match ph with
        | .dev pa => s.clean pa 8
        | _ => true))
        (x.2.setGrp grp { g with fetched := SMap.set g.fetched pc.toNat (x.2.fetchFrom (s.ldOf g) ph) })
    | .fault k q =>
      let f := x.2.askFault (s.ldOf g) (s.ctxNum g) pc.toNat .fetch k q 0
      event row live (f.2.updGrp grp (fun y => y.updLanes m (fun z => if z.st == .running then z.awaitPage f.1 else z)))
    | .poisoned => event row live (trap 0x0A 0)
    | .remote _ _ => event row live (trap 7 0)
    | .bad => event row live (trap 0x0B m.toNat)

end Sys2Proof.Machine
end

