-- ==== Sys2Proof/Machine/Dispatch.lean ====
section
/-! DEFINITION. The dispatch of steps: one arm per constructor of `Instr`, each one call of that step's meaning. -/

namespace Sys2Proof.Machine

def exec (i : Instr) (s : State) : Host.Outcome State Fault Refusal :=
  match i with
  | .nop g => Sys2Proof.Machine.execNop g s
  | .mov b64 o => Sys2Proof.Machine.execMov b64 o s
  | .add ty sat o => Sys2Proof.Machine.execAdd ty sat o s
  | .sub ty sat o => Sys2Proof.Machine.execSub ty sat o s
  | .mul ty sat o => Sys2Proof.Machine.execMul ty sat o s
  | .mulh ty wide o => Sys2Proof.Machine.execMulh ty wide o s
  | .mad ty sat wide o => Sys2Proof.Machine.execMad ty sat wide o s
  | .div ty rem o => Sys2Proof.Machine.execDiv ty rem o s
  | .min ty o => Sys2Proof.Machine.execMin ty o s
  | .max ty o => Sys2Proof.Machine.execMax ty o s
  | .abs b64 sat o => Sys2Proof.Machine.execAbs b64 sat o s
  | .and b64 o => Sys2Proof.Machine.execAnd b64 o s
  | .or b64 o => Sys2Proof.Machine.execOr b64 o s
  | .xor b64 o => Sys2Proof.Machine.execXor b64 o s
  | .bool3 b64 lut o => Sys2Proof.Machine.execBool3 b64 lut o s
  | .shl wrap b64 o => Sys2Proof.Machine.execShl wrap b64 o s
  | .shr wrap b64 o => Sys2Proof.Machine.execShr wrap b64 o s
  | .sar wrap b64 o => Sys2Proof.Machine.execSar wrap b64 o s
  | .xtr sh o => Sys2Proof.Machine.execXtr sh o s
  | .popc b64 o => Sys2Proof.Machine.execPopc b64 o s
  | .clz b64 o => Sys2Proof.Machine.execClz b64 o s
  | .brev b64 o => Sys2Proof.Machine.execBrev b64 o s
  | .bfx signed b64 o => Sys2Proof.Machine.execBfx signed b64 o s
  | .bfi b64 o => Sys2Proof.Machine.execBfi b64 o s
  | .iset cc ty g d a b => Sys2Proof.Machine.execIset cc ty g d a b s
  | .sel b64 p compl o => Sys2Proof.Machine.execSel b64 p compl o s
  | .lea n32 sh o => Sys2Proof.Machine.execLea n32 sh o s
  | .bytsel o => Sys2Proof.Machine.execBytsel o s
  | .idp4 aS bS sat x2 o => Sys2Proof.Machine.execIdp4 aS bS sat x2 o s
  | .pmov g k => Sys2Proof.Machine.execPmov g k s
  | .rds b64 g d r => Sys2Proof.Machine.execRds b64 g d r s
  | .fadd r sat o => Sys2Proof.Machine.execFadd r sat o s
  | .fmul r sat o => Sys2Proof.Machine.execFmul r sat o s
  | .fma r sat o => Sys2Proof.Machine.execFma r sat o s
  | .fmin o => Sys2Proof.Machine.execFmin o s
  | .fmax o => Sys2Proof.Machine.execFmax o s
  | .fset cc g d a b => Sys2Proof.Machine.execFset cc g d a b s
  | .fclass f o => Sys2Proof.Machine.execFclass f o s
  | .frnd r o => Sys2Proof.Machine.execFrnd r o s
  | .pkadd bf r sat o => Sys2Proof.Machine.execPkadd bf r sat o s
  | .pkmul bf r sat o => Sys2Proof.Machine.execPkmul bf r sat o s
  | .pkfma bf r sat o => Sys2Proof.Machine.execPkfma bf r sat o s
  | .pkmm bf mx o => Sys2Proof.Machine.execPkmm bf mx o s
  | .fdp2 bf r sat o => Sys2Proof.Machine.execFdp2 bf r sat o s
  | .fscale r sat o => Sys2Proof.Machine.execFscale r sat o s
  | .frcp o => Sys2Proof.Machine.execFrcp o s
  | .frsq o => Sys2Proof.Machine.execFrsq o s
  | .fsqrt r o => Sys2Proof.Machine.execFsqrt r o s
  | .fex2 o => Sys2Proof.Machine.execFex2 o s
  | .flg2 o => Sys2Proof.Machine.execFlg2 o s
  | .fsin o => Sys2Proof.Machine.execFsin o s
  | .fcos o => Sys2Proof.Machine.execFcos o s
  | .ftanh o => Sys2Proof.Machine.execFtanh o s
  | .fdiv r sat o => Sys2Proof.Machine.execFdiv r sat o s
  | .tbl g d a b => Sys2Proof.Machine.execTbl g d a b s
  | .tbld g d a => Sys2Proof.Machine.execTbld g d a s
  | .cvt dst src sel pos r sr sat g d a => Sys2Proof.Machine.execCvt dst src sel pos r sr sat g d a s
  | .cvtq ty l32 scale sr r sat pos g d a => Sys2Proof.Machine.execCvtq ty l32 scale sr r sat pos g d a s
  | .cvtd f r sat elem half g d a b => Sys2Proof.Machine.execCvtd f r sat elem half g d a b s
  | .xlane m wrap b64 g d a b scope => Sys2Proof.Machine.execXlane m wrap b64 g d a b scope s
  | .qx dir b64 g d a => Sys2Proof.Machine.execQx dir b64 g d a s
  | .vote op g d a scope => Sys2Proof.Machine.execVote op g d a scope s
  | .ballot g d a scope => Sys2Proof.Machine.execBallot g d a scope s
  | .matchLanes b64 g d a => Sys2Proof.Machine.execMatchLanes b64 g d a s
  | .redux op ty r g d a scope => Sys2Proof.Machine.execRedux op ty r g d a scope s
  | .v2s b64 g d a idx => Sys2Proof.Machine.execV2s b64 g d a idx s
  | .mask k g d j => Sys2Proof.Machine.execMask k g d j s
  | .bra g off => Sys2Proof.Machine.execBra g off s
  | .brx g t => Sys2Proof.Machine.execBrx g t s
  | .call g off spill => Sys2Proof.Machine.execCall g off spill s
  | .callx g t spill => Sys2Proof.Machine.execCallx g t spill s
  | .ret g spill => Sys2Proof.Machine.execRet g spill s
  | .enrol g j off => Sys2Proof.Machine.execEnrol g j off s
  | .rejoin j => Sys2Proof.Machine.execRejoin j s
  | .strike g j => Sys2Proof.Machine.execStrike g j s
  | .exit g => Sys2Proof.Machine.execExit g s
  | .wait ld st cp mx bc => Sys2Proof.Machine.execWait ld st cp mx bc s
  | .yield imm n => Sys2Proof.Machine.execYield imm n s
  | .safept id => Sys2Proof.Machine.execSafept id s
  | .brk g code => Sys2Proof.Machine.execBrk g code s
  | .nap t => Sys2Proof.Machine.execNap t s
  | .trap g code => Sys2Proof.Machine.execTrap g code s
  | .eret keep m => Sys2Proof.Machine.execEret keep m s
  | .ld w o ev g d a => Sys2Proof.Machine.execLd w o ev g d a s
  | .st w o ev g d a => Sys2Proof.Machine.execSt w o ev g d a s
  | .lds w g d a => Sys2Proof.Machine.execLds w g d a s
  | .sts w g d a => Sys2Proof.Machine.execSts w g d a s
  | .ldc w bank g d a => Sys2Proof.Machine.execLdc w bank g d a s
  | .ldfe clr scr w o g d a => Sys2Proof.Machine.execLdfe clr scr w o g d a s
  | .stfe scr w o g d a => Sys2Proof.Machine.execStfe scr w o g d a s
  | .ldp g a line => Sys2Proof.Machine.execLdp g a line s
  | .stp g a line => Sys2Proof.Machine.execStp g a line s
  | .pref llc wr g a => Sys2Proof.Machine.execPref llc wr g a s
  | .flushH g a => Sys2Proof.Machine.execFlushH g a s
  | .invalH g a => Sys2Proof.Machine.execInvalH g a s
  | .atom op ty o g d a c => Sys2Proof.Machine.execAtom op ty o g d a c s
  | .atomc w o g d a b c => Sys2Proof.Machine.execAtomc w o g d a b c s
  | .red op ty o g d a => Sys2Proof.Machine.execRed op ty o g d a s
  | .mcas o g d a n => Sys2Proof.Machine.execMcas o g d a n s
  | .fence o g => Sys2Proof.Machine.execFence o g s
  | .binit d bar a => Sys2Proof.Machine.execBinit d bar a s
  | .arrive d bar => Sys2Proof.Machine.execArrive d bar s
  | .bwait a => Sys2Proof.Machine.execBwait a s
  | .bdrop bar => Sys2Proof.Machine.execBdrop bar s
  | .bsync bar => Sys2Proof.Machine.execBsync bar s
  | .btest d a => Sys2Proof.Machine.execBtest d a s
  | .mfmt d mf a => Sys2Proof.Machine.execMfmt d mf a s
  | .mzero slot => Sys2Proof.Machine.execMzero slot s
  | .mma p => Sys2Proof.Machine.execMma p s
  | .mmap p => Sys2Proof.Machine.execMmap p s
  | .mdrn z slot a => Sys2Proof.Machine.execMdrn z slot a s
  | .mlda slot a => Sys2Proof.Machine.execMlda slot a s
  | .mvec w t n d b slot => Sys2Proof.Machine.execMvec w t n d b slot s
  | .tcpy g a => Sys2Proof.Machine.execTcpy g a s
  | .gath g a => Sys2Proof.Machine.execGath g a s
  | .scat g a => Sys2Proof.Machine.execScat g a s
  | .fill g a => Sys2Proof.Machine.execFill g a s
  | .coll g a => Sys2Proof.Machine.execColl g a s
  | .cbw w rel g d a b => Sys2Proof.Machine.execCbw w rel g d a b s
  | .cbc b64 rel g d a b c => Sys2Proof.Machine.execCbc b64 rel g d a b c s
  | .cba b64 rel g d a b => Sys2Proof.Machine.execCba b64 rel g d a b s
  | .cld w g d a => Sys2Proof.Machine.execCld w g d a s
  | .peal ret g d => Sys2Proof.Machine.execPeal ret g d s
  | .pfence g a => Sys2Proof.Machine.execPfence g a s
  | .launch wait g d a b => Sys2Proof.Machine.execLaunch wait g d a b s
  | .qpush wait g d a b => Sys2Proof.Machine.execQpush wait g d a b s
  | .cont g a entry => Sys2Proof.Machine.execCont g a entry s
  | .cbpt lvl rel g d a b => Sys2Proof.Machine.execCbpt lvl rel g d a b s
  | .csrr g d r => Sys2Proof.Machine.execCsrr g d r s
  | .csrw g r a => Sys2Proof.Machine.execCsrw g r a s
  | .csrx g d r a => Sys2Proof.Machine.execCsrx g d r a s
  | .pair s0 s1 => Sys2Proof.Machine.execPair s0 s1 s
  | .movi g d x => Sys2Proof.Machine.execMovi g d x s
  | .movh g d x => Sys2Proof.Machine.execMovh g d x s
  | .addi b64 g d x => Sys2Proof.Machine.execAddi b64 g d x s
  | .fmovi g d x => Sys2Proof.Machine.execFmovi g d x s
  | .braL g off => Sys2Proof.Machine.execBraL g off s
  | .callL g off => Sys2Proof.Machine.execCallL g off s
  | .ldL w g d base off => Sys2Proof.Machine.execLdL w g d base off s
  | .stL w g d base off => Sys2Proof.Machine.execStL w g d base off s
  | .create ld => Sys2Proof.Machine.execCreate ld s
  | .bind ld => Sys2Proof.Machine.execBind ld s
  | .preempt ld => Sys2Proof.Machine.execPreempt ld s
  | .resume ld => Sys2Proof.Machine.execResume ld s
  | .destroy ld => Sys2Proof.Machine.execDestroy ld s
  | .setlimit ld => Sys2Proof.Machine.execSetlimit ld s
  | .qcreate ld => Sys2Proof.Machine.execQcreate ld s
  | .qsuspend ld => Sys2Proof.Machine.execQsuspend ld s
  | .qresume ld => Sys2Proof.Machine.execQresume ld s
  | .qreset ld => Sys2Proof.Machine.execQreset ld s
  | .qretire ld => Sys2Proof.Machine.execQretire ld s
  | .inval ld => Sys2Proof.Machine.execInval ld s
  | .faultdone ld => Sys2Proof.Machine.execFaultdone ld s
  | .pool ld => Sys2Proof.Machine.execPool ld s
  | .retireok ld => Sys2Proof.Machine.execRetireok ld s
  | .handler ld => Sys2Proof.Machine.execHandler ld s
  | .forward ld => Sys2Proof.Machine.execForward ld s
  | .trapdone ld => Sys2Proof.Machine.execTrapdone ld s
  | .ldbind => Sys2Proof.Machine.execLdbind s
  | .ldreset => Sys2Proof.Machine.execLdreset s
  | .partition => Sys2Proof.Machine.execPartition s
  | .topology => Sys2Proof.Machine.execTopology s
  | .loopform r => Sys2Proof.Machine.execLoopform r s
  | .checkpoint => Sys2Proof.Machine.execCheckpoint s
  | .restore => Sys2Proof.Machine.execRestore s
  | .unbind => Sys2Proof.Machine.execUnbind s
  | .bellTailWrite ld q t => Sys2Proof.Machine.execBellTailWrite ld q t s
  | .ringTailWrite fn r t => Sys2Proof.Machine.execRingTailWrite fn r t s
  | .ringHeadWrite fn r t => Sys2Proof.Machine.execRingHeadWrite fn r t s
  | .ringDescriptorWrite fn r base order => Sys2Proof.Machine.execRingDescriptorWrite fn r base order s
  | .feataccWrite ld v => Sys2Proof.Machine.execFeataccWrite ld v s
  | .ldctlWrite ld v => Sys2Proof.Machine.execLdctlWrite ld v s
  | .numericSettingWrite ld cls window v => Sys2Proof.Machine.execNumericSettingWrite ld cls window v s
  | .plimitWrite v => Sys2Proof.Machine.execPlimitWrite v s
  | .cctlRetrain link colour => Sys2Proof.Machine.execCctlRetrain link colour s
  | .cctlEnableWrite link colour en => Sys2Proof.Machine.execCctlEnableWrite link colour en s
  | .routeWrite bank dst v => Sys2Proof.Machine.execRouteWrite bank dst v s
  | .registerWrite fn off size v => Sys2Proof.Machine.execRegisterWrite fn off size v s
  | .deviceReset => Sys2Proof.Machine.execDeviceReset s
  | .powerLoss => Sys2Proof.Machine.execPowerLoss s
  | .functionLevelReset ld => Sys2Proof.Machine.execFunctionLevelReset ld s
  | .hostCxlMemAccess ld pa len write => Sys2Proof.Machine.execHostCxlMemAccess ld pa len write s
  | .hostSnoop half write => Sys2Proof.Machine.execHostSnoop half write s
  | .spdmRequest fn nonce => Sys2Proof.Machine.execSpdmRequest fn nonce s
  | .firmwareImageLoad iod image version => Sys2Proof.Machine.execFirmwareImageLoad iod image version s
  | .packetTake ld q => Sys2Proof.Machine.execPacketTake ld q s
  | .queueStarvationPromote ld q => Sys2Proof.Machine.execQueueStarvationPromote ld q s
  | .packetComplete ld q n => Sys2Proof.Machine.execPacketComplete ld q n s
  | .contDispatch ctx bin entry => Sys2Proof.Machine.execContDispatch ctx bin entry s
  | .blockPlace grid at_ => Sys2Proof.Machine.execBlockPlace grid at_ s
  | .gridComplete grid => Sys2Proof.Machine.execGridComplete grid s
  | .groupEnterActive grp => Sys2Proof.Machine.execGroupEnterActive grp s
  | .groupSwapOut grp => Sys2Proof.Machine.execGroupSwapOut grp s
  | .noReadyTimeout grp => Sys2Proof.Machine.execNoReadyTimeout grp s
  | .yieldExpiry grp lane => Sys2Proof.Machine.execYieldExpiry grp lane s
  | .napExpiry grp lane => Sys2Proof.Machine.execNapExpiry grp lane s
  | .registerLineFill grp line => Sys2Proof.Machine.execRegisterLineFill grp line s
  | .loadComplete grp op lanes => Sys2Proof.Machine.execLoadComplete grp op lanes s
  | .storeAck grp op lanes delay => Sys2Proof.Machine.execStoreAck grp op lanes delay s
  | .atomicPerform grp op lanes delay => Sys2Proof.Machine.execAtomicPerform grp op lanes delay s
  | .ldfeLaneComplete grp op lane => Sys2Proof.Machine.execLdfeLaneComplete grp op lane s
  | .mcasLockGrant grp op => Sys2Proof.Machine.execMcasLockGrant grp op s
  | .mcasCommit grp op delay => Sys2Proof.Machine.execMcasCommit grp op delay s
  | .mcasLockBreak grp op => Sys2Proof.Machine.execMcasLockBreak grp op s
  | .persistentRequest core line => Sys2Proof.Machine.execPersistentRequest core line s
  | .retRefillReturn grp op => Sys2Proof.Machine.execRetRefillReturn grp op s
  | .tbldLoadComplete grp op => Sys2Proof.Machine.execTbldLoadComplete grp op s
  | .sageAllocService ld fid => Sys2Proof.Machine.execSageAllocService ld fid s
  | .faultForward ld fid => Sys2Proof.Machine.execFaultForward ld fid s
  | .replayResolve grp op => Sys2Proof.Machine.execReplayResolve grp op s
  | .fetchFaultServed grp lane => Sys2Proof.Machine.execFetchFaultServed grp lane s
  | .ringEntryPost ld r => Sys2Proof.Machine.execRingEntryPost ld r s
  | .transferTake t => Sys2Proof.Machine.execTransferTake t s
  | .transferChunk t => Sys2Proof.Machine.execTransferChunk t s
  | .transferPageMapped t => Sys2Proof.Machine.execTransferPageMapped t s
  | .transferSignal t => Sys2Proof.Machine.execTransferSignal t s
  | .entryGrant cl eid => Sys2Proof.Machine.execEntryGrant cl eid s
  | .unitEstimate cl eid => Sys2Proof.Machine.execUnitEstimate cl eid s
  | .unitRefill cl => Sys2Proof.Machine.execUnitRefill cl s
  | .passWindowEnd die => Sys2Proof.Machine.execPassWindowEnd die s
  | .passComplete cl eid => Sys2Proof.Machine.execPassComplete cl eid s
  | .passFault cl eid => Sys2Proof.Machine.execPassFault cl eid s
  | .passResume cl eid => Sys2Proof.Machine.execPassResume cl eid s
  | .drainComplete cl eid => Sys2Proof.Machine.execDrainComplete cl eid s
  | .mldaComplete cl eid => Sys2Proof.Machine.execMldaComplete cl eid s
  | .mzeroComplete cl eid => Sys2Proof.Machine.execMzeroComplete cl eid s
  | .mvecComplete cl eid => Sys2Proof.Machine.execMvecComplete cl eid s
  | .mfmtComplete grp op => Sys2Proof.Machine.execMfmtComplete grp op s
  | .numericWindowStart ld cls => Sys2Proof.Machine.execNumericWindowStart ld cls s
  | .handlerEntry grp lane => Sys2Proof.Machine.execHandlerEntry grp lane s
  | .serviceComplete ld rid => Sys2Proof.Machine.execServiceComplete ld rid s
  | .groupPark grp => Sys2Proof.Machine.execGroupPark grp s
  | .contextSaved ctx => Sys2Proof.Machine.execContextSaved ctx s
  | .drainLimitReached ctx => Sys2Proof.Machine.execDrainLimitReached ctx s
  | .resumeBlockPlace ctx at_ => Sys2Proof.Machine.execResumeBlockPlace ctx at_ s
  | .uncorrectableError pa site => Sys2Proof.Machine.execUncorrectableError pa site s
  | .computeDieFailure die => Sys2Proof.Machine.execComputeDieFailure die s
  | .selfTestInject core pass => Sys2Proof.Machine.execSelfTestInject core pass s
  | .bankDrop bank => Sys2Proof.Machine.execBankDrop bank s
  | .regionMigrate region => Sys2Proof.Machine.execRegionMigrate region s
  | .recordEnterSendQueue grp op => Sys2Proof.Machine.execRecordEnterSendQueue grp op s
  | .tokenArrive peal => Sys2Proof.Machine.execTokenArrive peal s
  | .recordApply peal sender r => Sys2Proof.Machine.execRecordApply peal sender r s
  | .recordReturned peal => Sys2Proof.Machine.execRecordReturned peal s
  | .frameCrcRetransmit peal => Sys2Proof.Machine.execFrameCrcRetransmit peal s
  | .loopBreakDetect r => Sys2Proof.Machine.execLoopBreakDetect r s
  | .generationClose => Sys2Proof.Machine.execGenerationClose s
  | .ingressHoldExpiry xi => Sys2Proof.Machine.execIngressHoldExpiry xi s
  | .readRequest a => Sys2Proof.Machine.execReadRequest a s
  | .readResponse a => Sys2Proof.Machine.execReadResponse a s
  | .write a => Sys2Proof.Machine.execWrite a s
  | .writeAcknowledgement a => Sys2Proof.Machine.execWriteAcknowledgement a s
  | .collectiveData a => Sys2Proof.Machine.execCollectiveData a s
  | .collectiveControl a => Sys2Proof.Machine.execCollectiveControl a s
  | .errorResponse a => Sys2Proof.Machine.execErrorResponse a s
  | .flitRetry link tenant seq => Sys2Proof.Machine.execFlitRetry link tenant seq s
  | .collStart c => Sys2Proof.Machine.execCollStart c s
  | .collComplete c => Sys2Proof.Machine.execCollComplete c s
  | .trainingStart link colour => Sys2Proof.Machine.execTrainingStart link colour s
  | .trainingAttemptEnd link colour ok => Sys2Proof.Machine.execTrainingAttemptEnd link colour ok s
  | .colourWindowEnd link colour atPartner => Sys2Proof.Machine.execColourWindowEnd link colour atPartner s
  | .branchAlarm module branch => Sys2Proof.Machine.execBranchAlarm module branch s
  | .visibilityTimeReached grp lane => Sys2Proof.Machine.execVisibilityTimeReached grp lane s
  | .wordFetchComplete grp lane => Sys2Proof.Machine.execWordFetchComplete grp lane s
  | .flitAcknowledgement link tenant seq => Sys2Proof.Machine.execFlitAcknowledgement link tenant seq s
  | .freeSlotReturn link tenant resp n => Sys2Proof.Machine.execFreeSlotReturn link tenant resp n s
  | .branchPowerRestored module branch => Sys2Proof.Machine.execBranchPowerRestored module branch s
  | .safeTierCopyComplete => Sys2Proof.Machine.execSafeTierCopyComplete s

end Sys2Proof.Machine
end

