-- ==== Sys2Proof/Machine/Sched.lean ====
section
/-! DEFINITION. What can happen next: the words that the issue slots may issue (R127, R128), and the events that the machine
brings about by itself. Where the spec leaves the order of two of them open, the order is free (log entry 4). -/

namespace Sys2Proof.Machine

/-! ## The issue slots (R127, R128) -/

/-- Bring to the front what a test selects. -/
def firstBy {α : Type} (f : α → Bool) (l : List α) : List α := l.filter f ++ l.filter (fun x => !f x)

/-- The words of a group since a fragment last issued: the smallest over its lanes. -/
def Group.since (g : Group) (l : Nat) : Nat := g.words - maxNat ((Mask.lanes (g.fragment l)).map (fun i => (g.lane i).issued))

/-- Every running lane of a fragment has yielded (R128, R157). -/
def Group.yielded (g : Group) (l : Nat) : Bool :=
  (Mask.lanes (g.fragment l)).all (fun i => match (g.lane i).hold with
    | .yield _ => true
    | _ => !g.isRunning i)

/-- The ready fragments of a group in the order of R128: one that has waited for 1,024 words, the longest first; then those that go
on after pre-emption, by the PC at which they stopped (R87); then, after a `YIELD` only once every other has had its turn,
ascending PC, and at one PC the one that waited longest. -/
def Group.order (g : Group) (ls : List Nat) : List Nat :=
  let late := ls.filter (fun l => decide (1024 ≤ g.since l))
  let rest := ls.filter (fun l => !decide (1024 ≤ g.since l))
  let back := sortBy (fun l => (g.resumeKey l).getD 0) (rest.filter (fun l => (g.resumeKey l).isSome))
  let byPc := sortBy (fun l => (g.lane l).pc.toNat * 2 ^ 32 + (2 ^ 32 - 1 - Nat.min (g.since l) (2 ^ 32 - 1)))
    (rest.filter (fun l => (g.resumeKey l).isNone))
  sortBy (fun l => g.words - g.since l) late ++ back ++ firstBy (fun l => !g.yielded l) byPc

/-- The groups of a slot's active set in the order of R127: the oldest that has been ready for 64 clocks, then by age. -/
def State.slotOrder (s : State) (gs : List (Nat × Group)) : List (Nat × Group) :=
  firstBy (fun p => decide (p.2.readyClk + 64 ≤ s.clk)) (sortBy (fun p => p.2.age) gs)

/-- Rotate a list. -/
def rotate {α : Type} (n : Nat) (l : List α) : List α := l.drop n ++ l.take n

/-- An element of a list, freely chosen; of one element there is no choice. -/
def pick {α : Type} (free : Nat) (l : List α) : List α :=
  match l with
  | [] => []
  | [x] => [x]
  | x :: y :: r => rotate (Config.order free % (r.length + 2)) (x :: y :: r)

/-- Every word that could issue, best first: the slots in a free order, in a slot its groups and fragments in theirs. -/
def State.issues (s : State) : List Issue :=
  let act := s.groups.filter (fun p => p.2.state == .active)
  let slots := (act.map (fun p => p.2.core * 4 + p.2.idx % 4)).eraseDups
  (pick (8 * s.free + 1) slots).flatMap (fun k =>
    (s.slotOrder (act.filter (fun p => p.2.core * 4 + p.2.idx % 4 == k))).flatMap (fun p =>
      (p.2.order (s.readyLanes p.1 p.2)).filterMap (fun l => s.issueOf p.1 p.2 l)))

/-- The state in which a fragment issues: the fragment that yielded has been passed over (R157). -/
def State.issuing (s : State) (c : Issue) : State :=
  { s.updGrp c.grp (fun g => { g with lanes := g.lanes.map (fun (x : Lane) => if x.hold == .yield 0 then { x with hold := .none } else x) }) with
    cur := some c }

/-- A word that is no instruction traps at its fragment (R53, R54). -/
def illegalWord (c : Issue) (e : DecodeError) (s : State) : Out :=
  match s.grp c.grp with
  | none => .fault .noIssuer
  | some g => .next (s.illegalTraps c g (wordTrap (s.descOf g).regs c.word e))

/-- The word of an issuing fragment runs. -/
def runIssue (c : Issue) (s : State) : Out :=
  match decodeWord c.word.toNat with
  | .ok i => exec i (s.issuing c)
  | .error e => illegalWord c e (s.issuing c)

/-- The word goes ahead: a word that finds itself not ready changes nothing of its group (R126). -/
def State.goesAhead (s : State) (c : Issue) : Bool :=
  match runIssue c s with
  | .next t => !(t.grp c.grp == (s.issuing c).grp c.grp)
  | _ => false

/-- The word that issues next. -/
def State.nextIssue (s : State) : Option Issue :=
  match s.issues with
  | [] => none
  | [c] => some c
  | c :: d :: r => (c :: d :: r).find? s.goesAhead

/-- The register lines a word has used (R161); the control record changes with every word. -/
def Group.usedLines (g : Group) (c : Issue) (width : Nat) : SMap (Nat × Bool) :=
  match decodeWord c.word.toNat with
  | .ok i => (needLines i width).foldl (fun m n => SMap.set m n (c.clk, decide (ctlLine 0 ≤ n) || (SMap.getD m n (0, false)).2)) g.lineUse
  | .error _ => g.lineUse

/-- After a word: it has used its lines, its group waits anew for its turn (R127), and the word is fetched again unless some lane
still waits at it. -/
def State.dropWord (s : State) (c : Issue) : State :=
  s.updGrp c.grp (fun g =>
    let used := g.usedLines c (s.descOf g).width
    if g.laneIds.any (fun l => g.isRunning l && (g.lane l).pc == c.pc && !((g.lane l).hold.atIssue == .none)) then
      { g with readyClk := s.clk, lineUse := used }
    else { g with fetched := g.fetched.filter (fun p => p.1 != c.pc.toNat), readyClk := s.clk, lineUse := used })

/-! ## What each object may do -/

/-- Whether a step happens in a state. -/
def State.may (s : State) (i : Instr) : Bool :=
  match exec i s with
  | .next _ => true
  | _ => false

def State.ofGroup (s : State) (gid : Nat) (g : Group) : List Instr :=
  [.groupEnterActive gid, .groupSwapOut gid, .noReadyTimeout gid, .groupPark gid] ++
  g.missing.map (.registerLineFill gid) ++
  g.leaders.flatMap (fun l => [.wordFetchComplete gid l, .yieldExpiry gid l, .napExpiry gid l, .handlerEntry gid l,
    .fetchFaultServed gid l, .visibilityTimeReached gid l]) ++
  g.withdrawn.map (fun (e : MEntry) => .entryGrant (clusterOf g.core) e.eid) ++
  g.ops.flatMap (fun o =>
    let ms := (BitVec.allOnes 64) :: o.lanes.map (·.who)
    let delay := Config.order (8 * s.free + 2)
    [.mcasLockGrant gid o.id, .mcasCommit gid o.id delay,
      .mcasLockBreak gid o.id, .retRefillReturn gid o.id, .tbldLoadComplete gid o.id, .replayResolve gid o.id, .mfmtComplete gid o.id,
      .recordEnterSendQueue gid o.id] ++
    g.laneIds.map (.ldfeLaneComplete gid o.id) ++
    ms.flatMap (fun m => [.loadComplete gid o.id m, .storeAck gid o.id m delay, .atomicPerform gid o.id m delay]) ++
    o.lanes.filterMap (fun a => match a.phys with
      | .dev pa => some (.persistentRequest g.core (pa / 128))
      | _ => none))

def ringCommands (fn : Nat) : List Instr :=
  [.create fn, .bind fn, .preempt fn, .resume fn, .destroy fn, .setlimit fn, .qcreate fn, .qsuspend fn, .qresume fn, .qreset fn,
   .qretire fn, .inval fn, .faultdone fn, .pool fn, .retireok fn, .handler fn, .forward fn, .trapdone fn]

def mgmtCommands : List Instr := [.ldbind, .ldreset, .partition, .topology, .checkpoint, .restore, .unbind]

def State.ofDevice (s : State) (ld : Nat) (d : LDev) : List Instr :=
  ringCommands ld ++ [.ringEntryPost ld 4, .ringEntryPost ld 5, .ringEntryPost ld 6] ++
  d.queues.flatMap (fun p => [.packetTake ld p.1, .queueStarvationPromote ld p.1] ++
    p.2.started.map (fun (x : Started) => .packetComplete ld p.1 x.n) ++
    p.2.conts.map (fun (r : ContRec) => .contDispatch p.2.ctx (s.binOf p.2.ctx r) r.entry)) ++
  (List.range 4).map (.numericWindowStart ld)

def ofEntry (cl : Nat) (e : MEntry) : List Instr :=
  [.entryGrant cl e.eid, .unitEstimate cl e.eid, .passComplete cl e.eid, .passFault cl e.eid, .passResume cl e.eid,
   .drainComplete cl e.eid, .mldaComplete cl e.eid, .mzeroComplete cl e.eid, .mvecComplete cl e.eid]

/-- Free places, one after another, for the units that a grid places together. -/
def State.freePlaces (s : State) (gid : Nat) : Nat → List Nat
  | 0 => []
  | n + 1 =>
    match (pick (8 * s.free + 3) (List.range Config.numCores)).find? (fun a => (s.placeUnit gid a).isSome) with
    | none => []
    | some a => match s.placeUnit gid a with
      | some t => a :: t.freePlaces gid n
      | none => [a]

/-- Free places for saved units that return. -/
def State.returnPlaces (s : State) : List (List Nat) → List Nat
  | [] => []
  | u :: r =>
    match (pick (8 * s.free + 3) (List.range Config.numCores)).find? (fun a => (s.returnUnit u a).isSome) with
    | none => []
    | some a => match s.returnUnit u a with
      | some t => a :: t.returnPlaces r
      | none => [a]

def State.ofGrid (s : State) (gid : Nat) (g : Grid) : List Instr :=
  [.gridComplete gid, .blockPlace gid (s.freePlaces gid (if g.desc.gridbar then g.total / Nat.max 1 g.desc.unit else 1))]

def State.ofCtx (s : State) (n : Nat) (c : Ctx) : List Instr :=
  let us := (s.nextReturn c).map (fun u => u.filter (fun b => ((s.blocks.find b).map (·.saved)).getD false))
  [.contextSaved n, .drainLimitReached n, .resumeBlockPlace n (s.returnPlaces us)]

/-! ## Poisoned granules (R338) -/

/-- The poisoned granule that alone keeps an event from happening. -/
def State.poisoned (s : State) (i : Instr) : Option Nat :=
  if !s.may i && { s with poison := [] }.may i then s.poison.find? (fun p => !({ s with poison := [p] }.may i)) else none

/-- Steps that consume bytes, with the site at which a poisoned one is met. -/
def State.consumers (s : State) : List (Instr × ErrorSite) :=
  s.groups.flatMap (fun p =>
    p.2.leaders.flatMap (fun l => [(Instr.wordFetchComplete p.1 l, ErrorSite.thread p.1 false),
      (.fetchFaultServed p.1 l, .thread p.1 false), (.handlerEntry p.1 l, .thread p.1 false)]) ++
    p.2.ops.flatMap (fun o => [(.replayResolve p.1 o.id, .thread p.1 false), (.loadComplete p.1 o.id (BitVec.allOnes 64), .thread p.1 false),
      (.atomicPerform p.1 o.id (BitVec.allOnes 64) 0, .thread p.1 false), (.retRefillReturn p.1 o.id, .thread p.1 false),
      (.tbldLoadComplete p.1 o.id, .thread p.1 false), (.mcasCommit p.1 o.id 0, .thread p.1 false),
      (.mfmtComplete p.1 o.id, .matrix 0 o.id)] ++
      p.2.laneIds.map (fun l => (Instr.ldfeLaneComplete p.1 o.id l, ErrorSite.thread p.1 false)))) ++
  s.transfers.map (fun p => (Instr.transferChunk p.1, ErrorSite.transfer p.1)) ++
  s.clusters.flatMap (fun p => p.2.table.flatMap (fun (e : MEntry) =>
    [(Instr.passComplete p.1 e.eid, ErrorSite.matrix p.1 e.eid), (.drainComplete p.1 e.eid, .matrix p.1 e.eid),
     (.mldaComplete p.1 e.eid, .matrix p.1 e.eid)]))

/-- The poisoned granule that alone keeps a word from going ahead: one that it reads as it issues. -/
def State.poisonedWord (s : State) (c : Issue) : Option Nat :=
  if !s.goesAhead c && { s with poison := [] }.goesAhead c then s.poison.find? (fun p => !({ s with poison := [p] }.goesAhead c)) else none

/-- Errors that stop a consumer or a word, and the end of each rollback (R339). -/
def State.errorEvents (s : State) : List Instr :=
  (if s.poison.isEmpty then [] else
    s.consumers.filterMap (fun c => (s.poisoned c.1).map (fun p => .uncorrectableError (16 * p) c.2)) ++
    s.issues.filterMap (fun c => (s.poisonedWord c).map (fun p => .uncorrectableError (16 * p) (.thread c.grp false)))) ++
  s.blocks.flatMap (fun p => if p.2.rolling then p.2.groups.map (fun g => .uncorrectableError 0 (.thread g true)) else [])

/-! ## Every event of the machine's own -/

/-- The events that may happen, enabled or not. Inputs of the outside world come from `agenda` alone: host register writes and
accesses, what other packages and their links send, lasers, errors of the hardware, and firmware's decisions. -/
def State.candidates (s : State) : List Instr :=
  s.groups.flatMap (fun p => s.ofGroup p.1 p.2) ++
  s.ldevs.flatMap (fun p => s.ofDevice p.1 p.2) ++
  s.grids.flatMap (fun p => s.ofGrid p.1 p.2) ++
  s.ctxs.flatMap (fun p => s.ofCtx p.1 p.2) ++
  s.faults.flatMap (fun p => [.sageAllocService p.2.ld p.1, .faultForward p.2.ld p.1]) ++
  s.records.map (fun p => .serviceComplete p.2.ld p.1) ++
  s.transfers.flatMap (fun p => [.transferTake p.1, .transferChunk p.1, .transferPageMapped p.1, .transferSignal p.1]) ++
  s.colls.flatMap (fun p => [.collStart p.1, .collComplete p.1]) ++
  s.clusters.flatMap (fun p => .unitRefill p.1 :: p.2.table.flatMap (ofEntry p.1)) ++
  (List.range Config.dies).map .passWindowEnd ++
  s.onLoop.map (fun p => .recordReturned p.1) ++
  s.links.flatMap (fun p => p.2.unacked.map (fun (u : Unacked) => .flitRetry p.1 u.tenant u.seq)) ++
  (List.range s.ingress.length).map .ingressHoldExpiry ++
  mgmtCommands ++
  [.ringEntryPost 16 1, .generationClose, .regionMigrate (s.mgmt.moving.getD 0), .safeTierCopyComplete] ++
  s.errorEvents

/-- The enabled events of the machine's own, in a free order. -/
def State.events (s : State) : List Instr := pick (8 * s.free + 1) (s.candidates.filter s.may)

/-! ## One step -/

/-- Whether each group has a ready fragment is noted, for R127 and R129. -/
def State.noteReady (s : State) : State :=
  { s with groups := s.groups.mapV (fun gid (g : Group) =>
      if s.groupReady gid g then { g with idleClk := s.clk } else { g with readyClk := s.clk }) }

/-- A flagged group stops where it stands at a stop (R83). -/
def State.stopFlagged (s : State) : State :=
  if s.groups.all (fun p => !p.2.flagged) then s
  else { s with groups := s.groups.mapV (fun gid (g : Group) =>
    if g.flagged && !(g.state == .saved) && !(g.state == .exited) then s.stopNow gid g else g) }

/-- The register lines in which a group differs from what it was are dirty (R161). -/
def Group.dirtied (old g : Group) (width clk : Nat) : Group :=
  if g.v == old.v then g
  else
    let ks := (g.v.filter (fun p => !old.v.contains p) ++ old.v.filter (fun p => !g.v.contains p)).map (fun p => p.1 / 64)
    { g with lineUse := (ks.flatMap (regLines width)).foldl (fun m n =>
        if g.missing.contains n then m else SMap.set m n ((SMap.getD m n (clk, false)).1, true)) g.lineUse }

/-- Results that have landed since a state before make their lines dirty. -/
def State.noteDirty (s old : State) : State :=
  { s with groups := s.groups.mapV (fun gid (g : Group) => match old.grp gid with
    | some o => o.dirtied g (s.descOf g).width s.clk
    | none => g) }

/-- What follows every step from a state `old`: the fabric's own work, an eviction if there is one, stops of flagged groups, the end of
groups that are gone, and time. Whether a word or an event comes next is free. -/
def State.after (s old : State) : State :=
  let t := ((((s.noteDirty old).endWindows.fabricWork.evictWork.stopFlagged).reapGroups).tick.noteReady).noteHeads
  { t with turn := decide (Config.order (8 * t.free + 2) % 2 = 1) }

/-- Go on from a next state. -/
def onNext (o : Out) (f : State → State) : Out :=
  match o with
  | .next s => .next (f s)
  | .fault r => .fault r
  | .refused r => .refused r

/-- A word issues and runs. -/
def State.wordStep (s : State) (c : Issue) : Out := onNext (runIssue c s) (fun t => (t.dropWord c).after s)

/-- The ways by which inputs come, each in an order of its own: the frames of the loop, its forming, the flits of each link, the states
of the links, the rest. -/
def inputWay : Instr → Nat
  | .tokenArrive _ | .recordApply .. | .frameCrcRetransmit _ => 1
  | .loopBreakDetect _ | .loopform _ => 2
  | .trainingStart .. | .trainingAttemptEnd .. | .colourWindowEnd .. | .branchAlarm .. | .branchPowerRestored .. => 3
  | .readRequest a | .readResponse a | .write a | .writeAcknowledgement a | .collectiveData a | .collectiveControl a | .errorResponse a =>
    a.link + 4
  | .flitAcknowledgement k .. | .freeSlotReturn k .. => k + 4
  | _ => 0

/-- An access or snoop of the host, which travels in a class of its own (R317): it waits behind no other input, and none behind it. -/
def isHostAccess : Instr → Bool
  | .hostCxlMemAccess .. | .hostSnoop .. => true
  | _ => false

/-- The input that may happen next, and the inputs that wait on: one that no older input of its way holds up, or a host access. The
forming of a loop ends the frames that waited before it (R356 step 1). `held` lists the ways on which an older input waits. -/
def State.nextInput (s : State) (held : List Nat) : List Instr → Option (Instr × List Instr)
  | [] => none
  | a :: r =>
    if (isHostAccess a || !held.contains (inputWay a)) && s.may a then some (a, r)
    else (s.nextInput (if isHostAccess a then held else insertNat held (inputWay a)) r).map (fun x =>
      (x.1, if inputWay a == 1 && inputWay x.1 == 2 then x.2 else a :: x.2))

/-- An event happens: one of the machine's own, or an input that waits, in a free order. -/
def State.nextEvent (s : State) : Option (Instr × State) :=
  let own := s.events.head?.map (fun e => (e, s))
  match s.nextInput [] s.agenda with
  | some x => if own.isNone || decide (Config.order (8 * s.free + 3) % 2 = 1) then some (x.1, { s with agenda := x.2 }) else own
  | none => own

/-- An input that is not over stays the first to wait. -/
def State.keepInput (s : State) (e : Instr) : State := if s.stays then { s with agenda := e :: s.agenda, stays := false } else s

/-- A step that is no word's; with nothing to do, a word or the passing of time. -/
def State.eventStep (s : State) : Out :=
  match s.nextEvent with
  | some (e, t) => onNext (exec e t) (fun u => (u.keepInput e).after s)
  | none => match s.nextIssue with
    | some c => s.wordStep c
    | none => .next (s.after s)

end Sys2Proof.Machine
end

