-- ==== Sys2Proof/Machine/Step.lean ====
section
/-! DEFINITION. One step of the package, and the state in which a given word is the next to run. -/

namespace Sys2Proof.Machine

/-- A step: when it is the words' turn, the word that issues next; else an event. -/
def step (s : State) : Host.Outcome State Fault Refusal :=
  match (if s.turn then s.nextIssue else none) with
  | some c => s.wordStep c
  | none => s.eventStep

end Sys2Proof.Machine

namespace Sys2Proof.Machine

/-- A word placed as the first of a kernel that runs: firmware is accepted, logical device 0 is bound and enabled with every
offered feature, context 0 is RUNNING with a table that maps its first gibibyte to device memory, and one group of 32 lanes is
ACTIVE at the word, which has been fetched (log entry 15). -/
def State.withFetchWord (s : State) (nbits w : Nat) : State :=
  let word : DWord := BitVec.ofNat 64 (w % 2 ^ nbits)
  let desc : Desc := { emptyDesc with entry := 0x1000, text := 0x1000, width := 32, regs := 255, accmask := 63, scratch := 4096 }
  let grid : Grid := { newGrid 0 0 none desc 1 1 1 0 none 0 (List.replicate 8 0) with st := .running, next := 1 }
  let n := s.nextId
  let blk : Block :=
    { grid := n, b := 0, core := 0, saved := false, groups := [n + 2], line0 := 0, scratch := [], sfe := [], bars := [],
      slots := desc.slots.map (fun k => (k, ⟨.idle, [], 0, none, []⟩)), shadow := none, held := [], heldFe := [],
      slotWritten := false, rollbacks := 0, halt := false, rolling := false, liveSlots := [] }
  let g : Group := { freshGroup grid n (n + 1) 0 0 0 s.clk .active with fetched := [(0x1000, word)] }
  let ctx : Ctx :=
    { st := .running, ld := 0, ldev := 0, bound := true, tenant := 0, poolBase := 0x40000000, poolSize := 0x40000000,
      spLimit := 65535, tenantScope := false, root := 0x10000, sysfence := 0, handler := 0, hmask := 0, report := 0,
      fmask := 0, drain := none, order := [] }
  let tables := withOffsets (leBytes 8 0x11005) |>.map (fun b => (0x10000 + b.1, b.2))
  let tables1 := withOffsets (leBytes 8 0x12005) |>.map (fun b => (0x11000 + b.1, b.2))
  let leaf := withOffsets (leBytes 8 25) |>.map (fun b => (0x12000 + b.1, b.2))
  let code := withOffsets (leBytes 8 word.toNat) |>.map (fun b => (0x1000 + b.1, b.2))
  { s with
    cur := none, agenda := [], stays := false, turn := true, nextId := n + 3
    mem := Memory.writeAll s.mem (tables ++ tables1 ++ leaf ++ code)
    mgmt := { s.mgmt with accepted := true }
    ldevs := s.ldevs.set 0 { s.ld 0 with bound := true, regFirst := 0, regCount := 2, enable := true, feat := 0x3FFF }
    ctxs := s.ctxs.set 0 ctx
    grids := s.grids.set n grid
    blocks := s.blocks.set (n + 1) blk
    groups := [(n + 2, g)] }

end Sys2Proof.Machine
end

