-- ==== Sys2Proof/Safety.lean ====
section
/-! DEFINITION. What counts as a safe run, and the terms in which the claims speak of a word that issues: one that never stops,
over states whose memories are in canonical form; a word with nothing in its way. -/

namespace Sys2Proof.Safety
open Sys2Proof.Machine

/-- Both byte memories are in their one canonical form. -/
def MemOk (s : State) : Prop := Memory.wf s.mem = true ∧ Memory.wf s.hostMem = true

/-- A step answers a next state. -/
def Runs (o : Out) : Prop := ∃ t, o = .next t

/-- A run of n steps that meets neither a fault nor a refusal. -/
def SafeRun (s : State) (n : Nat) : Prop := Runs (Host.Core.run Sys2Proof.core n s)

/-- Word `i` issues for the fragment of `c` in group `g`, with nothing in its way: it is legal for the kernel (R44, R116, R385)
and ready (R126), the group is not overdue for a safe point (R81), no implicit checkpoint comes first (R212), and the word does not go on
with sources kept from an earlier issue (R134). -/
structure Ready (i : Instr) (s : State) (c : Issue) (g : Group) : Prop where
  cur : s.cur = some c
  grp : s.grp c.grp = some g
  legal : s.illegalHere g i = false
  ready : s.wordReady c g i = true
  point : c.hold ≠ .none ∨ g.inHandler c.lanes = true ∨ i.isSafept = true ∨ g.spCount < s.spLimit g
  open_ : s.seals c g i = false
  fresh : c.hold.key = none

/-- The group once the word is counted, at its first issue only (R55, R81). -/
def counted (i : Instr) (c : Issue) (g : Group) : Group :=
  if c.hold == .none then g.count c (g.counts c i.isSafept) else g

/-- The state in which the word's own effect is made. -/
def began (i : Instr) (s : State) (c : Issue) (g : Group) : State := { s.setGrp c.grp (counted i c g) with cur := none }

/-- Every running lane of a fragment is at the next word; no other lane has moved (R55). -/
def Advanced (c : Issue) (g h : Group) : Prop :=
  ∀ l, (h.lane l).pc = if Mask.has c.lanes l ∧ (g.lane l).st = .running then (g.lane l).pc + 8 else (g.lane l).pc

/-- Nothing but the group itself has changed: no byte of any memory, no other group, no other part of the package. -/
def OnlyGroup (k : Nat) (s t : State) : Prop :=
  { t with groups := s.groups, cur := s.cur } = s ∧ ∀ j, j ≠ k → t.grp j = s.grp j

end Sys2Proof.Safety
end

