-- ==== Sys2Proof/Certificates/Slice0/Obligations.lean ====
section
/-! DEFINITION. The statements for the provers, with the terms they are written in. -/

namespace Sys2Proof.Claims
open Sys2Proof.Machine Sys2Proof.Safety

/-! ## The terms of the statements about words -/

/-- Lane `l`'s copy of register `d`, or the scalar register, holds `x`; a pair holds its two halves, the low one in the register
named. vz and sz hold nothing (R16, R38). -/
def Result (h : Group) (d : Reg) (wide : Bool) (l x : Nat) : Prop :=
  match d with
  | .v n => n.toNat = 255 ∨ (h.rv n.toNat l = BitVec.ofNat 32 x ∧
      (wide = true → n.toNat + 1 < 255 → h.rv (n.toNat + 1) l = BitVec.ofNat 32 (x / 2 ^ 32)))
  | .s n => n.toNat = 63 ∨ (h.rs n.toNat = BitVec.ofNat 32 x ∧
      (wide = true → n.toNat + 1 < 63 → h.rs (n.toNat + 1) = BitVec.ofNat 32 (x / 2 ^ 32)))

/-- The lanes for which a word with destination `d` runs: every executing lane, or for a scalar destination the lowest one that
is no helper (R39). -/
def runs (c : Issue) (g : Group) (gd : Guard) (d : Reg) : List Nat :=
  match d with
  | .v _ => Mask.lanes (g.guarded c.lanes gd)
  | .s _ => (Mask.lanes (g.nonHelpers (g.guarded c.lanes gd))).take 1

/-- In every state in which word `i` has nothing in its way it completes, and leaves `f` in its destination. -/
def Computes (i : Instr) (gd : Guard) (d : Reg) (wide : Bool) (f : State → Issue → Group → Nat → Nat) : Prop :=
  ∀ s c g, Ready i s c g → ∃ t h, exec i s = .next t ∧ t.grp c.grp = some h ∧
    ∀ l ∈ runs c g gd d, Result h d wide l (f s c (counted i c g) l)

/-- As `Computes`, for a word that raises flags: each flag is set afterwards if it was set before or some lane raises it
(R26, R179). -/
def ComputesFp (i : Instr) (gd : Guard) (d : Reg) (f : Group → Nat → Nat × Flags) : Prop :=
  ∀ s c g, Ready i s c g → ∃ t h, exec i s = .next t ∧ t.grp c.grp = some h ∧
    (∀ l ∈ runs c g gd d, Result h d false l (f (counted i c g) l).1) ∧
    ∀ k, h.fpFlags.getLsbD k = true ↔
      (g.fpFlags.getLsbD k = true ∨ ∃ l ∈ runs c g gd d, (f (counted i c g) l).2.getLsbD k = true)

/-- As `Computes`, for a predicate destination: the bit of each executing lane; pt holds nothing (R38, R160). -/
def ComputesPred (i : Instr) (gd : Guard) (d : BitVec 3) (f : Group → Mask → Nat → Bool) : Prop :=
  ∀ s c g, Ready i s c g → ∃ t h, exec i s = .next t ∧ t.grp c.grp = some h ∧
    ∀ l ∈ Mask.lanes (g.guarded c.lanes gd), d = 7 ∨ h.rp d.toNat l = f g (g.guarded c.lanes gd) l

/-- What a word may write: vector registers, scalar registers, predicates, the sticky flags, generator states. -/
structure Writes where
  v : List Nat := []
  s : List Nat := []
  p : List Nat := []
  flags : Bool := false
  rng : Bool := false

/-- The registers a destination names: one, or a pair. -/
def toReg (d : Reg) (wide : Bool) : Writes :=
  match d with
  | .v n => { v := if wide then [n.toNat, n.toNat + 1] else [n.toNat] }
  | .s n => { s := if wide then [n.toNat, n.toNat + 1] else [n.toNat] }

def toCmp (d : CmpDst) : Writes :=
  match d with
  | .r r => toReg r false
  | .p n => { p := [n.toNat] }

/-- What each computing word may write (R164, R181); none for a word that does more than compute. -/
def writes : Instr → Option Writes
  | .nop _ => some {}
  | .mov b o | .abs b _ o | .brev b o => some (toReg o.d b)
  | .add t _ o | .sub t _ o | .mul t _ o | .div t _ o | .min t o | .max t o => some (toReg o.d t.wide)
  | .mulh t w o => some (toReg o.d (t.wide || w))
  | .mad t _ w o => some (toReg o.d (t.wide || w))
  | .and b o | .or b o | .xor b o | .shl _ b o | .shr _ b o | .sar _ b o | .bfx _ b o | .bfi b o | .sel b _ _ o =>
    some (toReg o.d b)
  | .bool3 b _ o => some (toReg o.d b)
  | .xtr _ o | .bytsel o | .idp4 _ _ _ _ o => some (toReg o.d false)
  | .popc _ o | .clz _ o => some (toReg o.d false)
  | .lea _ _ o => some (toReg o.d true)
  | .iset _ _ _ d _ _ => some (toCmp d)
  | .pmov _ (.tov d _) => some (toReg (.v d) false)
  | .pmov _ (.fromv p _) => some { p := [p.toNat] }
  | .pmov _ (.tos d _) => some (toReg (.s d) true)
  | .pmov _ (.froms p _) => some { p := [p.toNat] }
  | .pmov _ (.lop d _ _ _ _) => some { p := [d.toNat] }
  | .rds b _ d _ => some (toReg d b)
  | .movi _ d _ | .fmovi _ d _ => some (toReg d false)
  | .movh _ d _ => some (toReg (d.plus 1) false)
  | .addi b _ d _ => some (toReg d b)
  | .fadd _ _ o | .fmul _ _ o | .fscale _ _ o | .fmin o | .fmax o | .fdiv _ _ o | .pkadd _ _ _ o | .pkmul _ _ _ o | .pkmm _ _ o =>
    some { toReg o.d false with flags := true }
  | .fma _ _ o | .pkfma _ _ _ o | .fdp2 _ _ _ o => some { toReg o.d false with flags := true }
  | .frnd _ o | .frcp o | .frsq o | .fsqrt _ o | .fex2 o | .flg2 o | .fsin o | .fcos o | .ftanh o =>
    some { toReg o.d false with flags := true }
  | .fclass _ o => some (toReg o.d false)
  | .fset _ _ d _ _ => some { toCmp d with flags := true }
  | .cvt dst _ _ _ _ _ _ _ d _ => some { toReg d (dst.bits == 64) with flags := true, rng := true }
  | .cvtq _ _ _ _ _ _ _ _ d _ => some { toReg (.v d) false with flags := true, rng := true }
  | .cvtd _ _ _ _ _ _ d _ _ => some { toReg (.v d) false with flags := true }
  | .xlane _ _ b _ d _ _ _ => some (toReg (.v d) b)
  | .qx _ b _ d _ => some (toReg (.v d) b)
  | .vote _ _ d _ _ => some { p := [d.toNat] }
  | .ballot _ d _ _ | .mask _ _ d _ => some (toReg d true)
  | .matchLanes _ _ d _ => some (toReg (.v d) true)
  | .redux _ _ _ _ d _ _ => some { toReg d false with flags := true }
  | .v2s b _ d _ _ => some (toReg (.s d) b)
  | .csrr _ d _ => some (toReg d false)
  | _ => none

/-- Nothing of a group has changed but what a word may write and how far its lanes have come: vector and scalar registers,
predicates, mode, flags, seed and generator states, return stacks, rejoin masks, outstanding operations and deferred errors. -/
def Unwritten (w : Writes) (g h : Group) : Prop :=
  (∀ n l, l < 64 → n ∉ w.v → h.rv n l = g.rv n l) ∧ (∀ n, n ∉ w.s → h.rs n = g.rs n) ∧
  (∀ n l, n ∉ w.p → h.rp n l = g.rp n l) ∧ (w.flags = false → h.fpFlags = g.fpFlags) ∧
  h.fpMode = g.fpMode ∧ h.fpSeed = g.fpSeed ∧ h.j = g.j ∧ h.ops = g.ops ∧ h.errs = g.errs ∧ h.state = g.state ∧
  ∀ l, (h.lane l).st = (g.lane l).st ∧ (h.lane l).rs = (g.lane l).rs ∧ (h.lane l).depth = (g.lane l).depth ∧
    (h.lane l).hnd = (g.lane l).hnd ∧ (w.rng = false → (h.lane l).rng = (g.lane l).rng)

end Sys2Proof.Claims

open Sys2Proof Sys2Proof.Machine Sys2Proof.Safety Sys2Proof.Claims

/-! ## Words that compute -/

/-- Every computing word completes, moves its fragment to the next word, and changes nothing but what it may write: no byte of
any memory, no other group, no register but its destination (R41, R55, R164, R181). -/
def Obligations.ComputingWordsFrame : Prop :=
  ∀ i w, Claims.writes i = some w → ∀ s c g, Ready i s c g → ∃ t h, exec i s = .next t ∧ t.grp c.grp = some h ∧
    OnlyGroup c.grp s t ∧ Advanced c g h ∧ Claims.Unwritten w g h

/-- Integer arithmetic (R163, R166, R167). The rounding, remainder and special cases of DIV are those of R167. -/
def Obligations.IntegerArithmetic : Prop :=
  (∀ t sat o, Computes (.add t sat o) o.g o.d t.wide (fun _ _ g l =>
    fitInt t.signed sat t.bits (o.a.int g l t + o.b.int g l t))) ∧
  (∀ t sat o, Computes (.sub t sat o) o.g o.d t.wide (fun _ _ g l =>
    fitInt t.signed sat t.bits (o.a.int g l t - o.b.int g l t))) ∧
  (∀ t sat o, Computes (.mul t sat o) o.g o.d t.wide (fun _ _ g l =>
    fitInt t.signed sat t.bits (o.a.int g l t * o.b.int g l t))) ∧
  (∀ t o, t.wide = false → Computes (.mulh t true o) o.g o.d true (fun _ _ g l =>
    wrapInt 64 (o.a.int g l t * o.b.int g l t))) ∧
  (∀ t o, Computes (.mulh t false o) o.g o.d t.wide (fun _ _ g l =>
    wrapInt t.bits (o.a.int g l t * o.b.int g l t / (2 ^ t.bits : Nat)))) ∧
  (∀ t sat o, Computes (.mad t sat false o) o.g o.d t.wide (fun _ _ g l =>
    fitInt t.signed sat t.bits (o.a.int g l t * o.b.int g l t + o.c.int g l t))) ∧
  (∀ t sat o, t.wide = false → Computes (.mad t sat true o) o.g o.d true (fun _ _ g l =>
    fitInt t.signed sat 64 (o.a.int g l t * o.b.int g l t + readInt t.signed 64 (o.c.get64 g l .sext).toNat))) ∧
  (∀ t rem o, Computes (.div t rem o) o.g o.d t.wide (fun _ _ g l =>
    if o.b.int g l t = 0 then (if rem then wrapInt t.bits (o.a.int g l t) else 2 ^ t.bits - 1)
    else if t.signed = true ∧ o.a.int g l t = intMin true t.bits ∧ o.b.int g l t = -1 then
      (if rem then 0 else wrapInt t.bits (o.a.int g l t))
    else wrapInt t.bits (if rem then (o.a.int g l t).tmod (o.b.int g l t) else (o.a.int g l t).tdiv (o.b.int g l t)))) ∧
  (∀ t o, Computes (.min t o) o.g o.d t.wide (fun _ _ g l => wrapInt t.bits (min (o.a.int g l t) (o.b.int g l t)))) ∧
  (∀ t o, Computes (.max t o) o.g o.d t.wide (fun _ _ g l => wrapInt t.bits (max (o.a.int g l t) (o.b.int g l t)))) ∧
  (∀ sat o, Computes (.abs false sat o) o.g o.d false (fun _ _ g l =>
    fitInt true sat 32 ((o.a.int g l .s32).natAbs : Int))) ∧
  (∀ sat o, Computes (.abs true sat o) o.g o.d true (fun _ _ g l =>
    fitInt true sat 64 ((o.a.int g l .s64).natAbs : Int)))

/-- Logic, shifts and counts of 32-bit registers and of pairs (R168, R169). A plain shift by the width or more gives 0, or the
sign; `.wrap` takes the count modulo the width. -/
def Obligations.LogicAndShifts : Prop :=
  (∀ b o, Computes (.and b o) o.g o.d b (fun _ _ g l => o.a.nat g l .zext b &&& o.b.nat g l .zext b)) ∧
  (∀ b o, Computes (.or b o) o.g o.d b (fun _ _ g l => o.a.nat g l .zext b ||| o.b.nat g l .zext b)) ∧
  (∀ b o, Computes (.xor b o) o.g o.d b (fun _ _ g l => o.a.nat g l .zext b ^^^ o.b.nat g l .zext b)) ∧
  (∀ b lut o, Computes (.bool3 b lut o) o.g o.d b (fun _ _ g l => bool3 lut.toNat (if b then 64 else 32)
    (o.a.nat g l .zext b) (o.b.nat g l .zext b) (o.c.nat g l .zext b))) ∧
  (∀ b o, Computes (.shl false b o) o.g o.d b (fun _ _ g l =>
    if (if b then 64 else 32) ≤ (o.b.get g l .sext).toNat then 0
    else o.a.nat g l .sext b * 2 ^ (o.b.get g l .sext).toNat)) ∧
  (∀ b o, Computes (.shl true b o) o.g o.d b (fun _ _ g l =>
    o.a.nat g l .sext b * 2 ^ ((o.b.get g l .sext).toNat % (if b then 64 else 32)))) ∧
  (∀ b o, Computes (.shr false b o) o.g o.d b (fun _ _ g l => o.a.nat g l .sext b / 2 ^ (o.b.get g l .sext).toNat)) ∧
  (∀ b o, Computes (.shr true b o) o.g o.d b (fun _ _ g l =>
    o.a.nat g l .sext b / 2 ^ ((o.b.get g l .sext).toNat % (if b then 64 else 32)))) ∧
  (∀ w b o, Computes (.sar w b o) o.g o.d b (fun _ _ g l =>
    sarNat (if b then 64 else 32) (o.a.nat g l .sext b)
      (if w then (o.b.get g l .sext).toNat % (if b then 64 else 32) else (o.b.get g l .sext).toNat))) ∧
  (∀ o, Computes (.xtr true o) o.g o.d false (fun _ _ g l =>
    ((o.b.get g l .sext).toNat * 2 ^ 32 + (o.a.get g l .sext).toNat) / 2 ^ (o.c.get g l .sext).toNat % 2 ^ 32)) ∧
  (∀ o, Computes (.xtr false o) o.g o.d false (fun _ _ g l =>
    (BitVec.ofNat 64 ((o.b.get g l .sext).toNat * 2 ^ 32 + (o.a.get g l .sext).toNat)).rotateRight
      ((o.c.get g l .sext).toNat % 64) |>.toNat)) ∧
  (∀ b o, Computes (.popc b o) o.g o.d false (fun _ _ g l => popcNat (o.a.nat g l .zext b))) ∧
  (∀ b o, Computes (.clz b o) o.g o.d false (fun _ _ g l => clzNat (if b then 64 else 32) (o.a.nat g l .zext b))) ∧
  (∀ b o, Computes (.brev b o) o.g o.d b (fun _ _ g l => brevNat (if b then 64 else 32) (o.a.nat g l .zext b)))

/-- Bit fields, byte permutes, addresses, dot products, moves and selection (R165, R170, R171, R172, R174, R175, R51). The
clauses for MOV, SEL, RDS, MOVI, FMOVI, MOVH and ADDI state the results of R165, R172, R176 and R51. -/
def Obligations.FieldsAndMoves : Prop :=
  (∀ b o, Computes (.mov b o) o.g o.d b (fun _ _ g l => o.a.nat g l .sext b)) ∧
  (∀ sg b o, Computes (.bfx sg b o) o.g o.d b (fun _ _ g l =>
    bfxNat sg (if b then 64 else 32) (o.a.nat g l .zext b) (o.b.get g l .zext).toNat)) ∧
  (∀ b o, Computes (.bfi b o) o.g o.d b (fun _ _ g l =>
    bfiNat (if b then 64 else 32) (if b then (o.d.get64 g l).toNat else (o.d.get g l).toNat) (o.a.nat g l .zext b)
      (o.b.get g l .zext).toNat)) ∧
  (∀ o, Computes (.bytsel o) o.g o.d false (fun _ _ g l =>
    bytsel (o.a.get g l .zext).toNat (o.c.get g l .zext).toNat (o.b.get g l .zext).toNat)) ∧
  (∀ b p n o, Computes (.sel b p n o) o.g o.d b (fun _ _ g l =>
    if g.rp p.toNat l != n then o.a.nat g l .sext b else o.b.nat g l .sext b)) ∧
  (∀ n sh o, Computes (.lea n sh o) o.g o.d true (fun _ _ g l =>
    wrapInt 64 ((o.a.get64 g l .sext).toNat + readInt (!n) 32 (o.b.get g l .sext).toNat * (2 ^ sh.toNat : Nat)))) ∧
  (∀ aS bS sat o, Computes (.idp4 aS bS sat true o) o.g o.d false (fun _ _ g l =>
    fitInt true sat 32 ((List.range 2).foldl (fun acc i => acc +
      readInt aS 16 ((o.a.get g l .sext).toNat / 2 ^ (16 * i) % 2 ^ 16) *
      readInt bS 16 ((o.b.get g l .sext).toNat / 2 ^ (16 * i) % 2 ^ 16)) (readInt true 32 (o.c.get g l .sext).toNat)))) ∧
  (∀ aS bS sat o, Computes (.idp4 aS bS sat false o) o.g o.d false (fun _ _ g l =>
    fitInt true sat 32 ((List.range 4).foldl (fun acc i => acc +
      readInt aS 8 ((o.a.get g l .sext).toNat / 2 ^ (8 * i) % 2 ^ 8) *
      readInt bS 8 ((o.b.get g l .sext).toNat / 2 ^ (8 * i) % 2 ^ 8)) (readInt true 32 (o.c.get g l .sext).toNat)))) ∧
  (∀ b gd d r, Computes (.rds b gd d r) gd d b (fun s c g l => sregValue s c g l r)) ∧
  (∀ gd d x, Computes (.movi gd d x) gd d false (fun _ _ _ _ => x.toNat)) ∧
  (∀ gd d x, Computes (.fmovi gd d x) gd d false (fun _ _ _ _ => x.toNat)) ∧
  (∀ gd d x, Computes (.movh gd d x) gd (d.plus 1) false (fun _ _ _ _ => x.toNat)) ∧
  (∀ gd d x, Computes (.addi false gd d x) gd d false (fun _ _ g l => (d.get g l).toNat + x.toNat)) ∧
  (∀ gd d x, Computes (.addi true gd d x) gd d true (fun _ _ g l => (d.get64 g l + x.signExtend 64).toNat))

/-- Comparisons and predicates (R160, R172, R173). -/
def Obligations.ComparesAndPredicates : Prop :=
  (∀ cc t gd d a b, Computes (.iset cc t gd (.r d) a b) gd d false (fun _ _ g l =>
    if ccHolds cc (a.int g l t) (b.int g l t) then 1 else 0)) ∧
  (∀ cc t gd d a b, ComputesPred (.iset cc t gd (.p d) a b) gd d (fun g _ l => ccHolds cc (a.int g l t) (b.int g l t))) ∧
  (∀ gd d p, Computes (.pmov gd (.tov d p)) gd (.v d) false (fun _ _ g l => if g.rp p.toNat l then 1 else 0)) ∧
  (∀ gd p a, ComputesPred (.pmov gd (.fromv p a)) gd p (fun g _ l => g.rv a.toNat l != 0)) ∧
  (∀ gd d p, Computes (.pmov gd (.tos d p)) gd (.s d) true (fun _ _ g _ =>
    (if p.toNat = 7 then g.mask (fun _ => true) else SMap.getD g.p p.toNat 0).toNat)) ∧
  (∀ gd p a, ComputesPred (.pmov gd (.froms p a)) gd p (fun g _ l => Mask.has (g.rs64 a.toNat) l)) ∧
  (∀ gd d a b c lut, ComputesPred (.pmov gd (.lop d a b c lut)) gd d (fun g _ l =>
    lut.getLsbD ((g.rp a.toNat l).toNat + 2 * (g.rp b.toNat l).toNat + 4 * (g.rp c.toNat l).toNat)))

/-- The FP32 words (R179 to R186, R189): operands after `daz`, one rounding in the word's mode, flags of every lane, those of
`FSET` to a predicate among them. That `FMA` of an infinity, a zero and a quiet NaN gives the NaN and sets invalid is the model's
reading (log entry 32). -/
def Obligations.FloatWords : Prop :=
  (∀ r sat o, ComputesFp (.fadd r sat o) o.g o.d (fun g l =>
    let z := fp32.fadd (rndOf g r sat) (o.a.fp g l).1 (o.b.fp g l).1
    (z.1, z.2 ||| (o.a.fp g l).2 ||| (o.b.fp g l).2))) ∧
  (∀ r sat o, ComputesFp (.fmul r sat o) o.g o.d (fun g l =>
    let z := fp32.fmul (rndOf g r sat) (o.a.fp g l).1 (o.b.fp g l).1
    (z.1, z.2 ||| (o.a.fp g l).2 ||| (o.b.fp g l).2))) ∧
  (∀ r sat o, ComputesFp (.fma r sat o) o.g o.d (fun g l =>
    let z := fp32.fma (rndOf g r sat) (o.a.fp g l).1 (o.b.fp g l).1 (o.c.fp g l).1
    (z.1, z.2 ||| (o.a.fp g l).2 ||| (o.b.fp g l).2 ||| (o.c.fp g l).2))) ∧
  (∀ o, ComputesFp (.fmin o) o.g o.d (fun g l =>
    let z := fp32.minmax false (o.a.fp g l).1 (o.b.fp g l).1
    (z.1, z.2 ||| (o.a.fp g l).2 ||| (o.b.fp g l).2))) ∧
  (∀ o, ComputesFp (.fmax o) o.g o.d (fun g l =>
    let z := fp32.minmax true (o.a.fp g l).1 (o.b.fp g l).1
    (z.1, z.2 ||| (o.a.fp g l).2 ||| (o.b.fp g l).2))) ∧
  (∀ r sat o, ComputesFp (.fdiv r sat o) o.g o.d (fun g l =>
    let z := fp32.fdiv (rndOf g r sat) (o.a.fp g l).1 (o.b.fp g l).1
    (z.1, z.2 ||| (o.a.fp g l).2 ||| (o.b.fp g l).2))) ∧
  (∀ r o, ComputesFp (.fsqrt r o) o.g o.d (fun g l =>
    let z := fp32.fsqrt (rndOf g r false) (o.a.fp g l).1
    (z.1, z.2 ||| (o.a.fp g l).2))) ∧
  (∀ r sat o, ComputesFp (.fscale r sat o) o.g o.d (fun g l =>
    let z := fp32.fscale (rndOf g r sat) (o.a.fp g l).1 (readInt true 32 (o.b.get g l .sext).toNat)
    (z.1, z.2 ||| (o.a.fp g l).2))) ∧
  (∀ r o, ComputesFp (.frnd r o) o.g o.d (fun g l =>
    let z := fp32.frnd (r.rmode g) (o.a.fp g l).1
    (z.1, z.2 ||| (o.a.fp g l).2))) ∧
  (∀ cc gd d a b, ComputesFp (.fset cc gd (.r d) a b) gd d (fun g l =>
    (if fsetHolds cc (fp32.value (a.fp g l).1) (fp32.value (b.fp g l).1) then 1 else 0,
     sigFlag [fp32.value (a.fp g l).1, fp32.value (b.fp g l).1] ||| (a.fp g l).2 ||| (b.fp g l).2))) ∧
  (∀ cc gd d a b, ComputesPred (.fset cc gd (.p d) a b) gd d (fun g _ l =>
    fsetHolds cc (fp32.value (a.fp g l).1) (fp32.value (b.fp g l).1))) ∧
  (∀ cc gd d a b, ∀ s c g, Ready (.fset cc gd (.p d) a b) s c g →
    ∃ t h, exec (.fset cc gd (.p d) a b) s = .next t ∧ t.grp c.grp = some h ∧
      ∀ k, h.fpFlags.getLsbD k = true ↔ (g.fpFlags.getLsbD k = true ∨ ∃ l ∈ Mask.lanes (g.guarded c.lanes gd),
        (sigFlag [fp32.value (a.fp g l).1, fp32.value (b.fp g l).1] ||| (a.fp g l).2 ||| (b.fp g l).2).getLsbD k = true)) ∧
  (∀ f o, Computes (.fclass f o) o.g o.d false (fun _ _ g l =>
    (F3.fmt f).fclass ((o.a.get g l .fp).toNat % 2 ^ (F3.fmt f).width)))

/-- The transcendentals (R188, R189): the operand after `daz`, the unit's value and flags. Within the bounds of R188 the value is
the model's free choice (log entry 7), so this holds for every unit that meets them. -/
def Obligations.TranscendentalWords : Prop :=
  ∀ f : Word → Bool → Bool → Nat × Flags, ∀ mk : Op1 → Instr,
    ((mk, f) = (Instr.frcp, frcp) ∨ (mk, f) = (Instr.frsq, frsq) ∨ (mk, f) = (Instr.fex2, fex2) ∨ (mk, f) = (Instr.flg2, flg2) ∨
     (mk, f) = (Instr.fsin, ftrig false) ∨ (mk, f) = (Instr.fcos, ftrig true) ∨ (mk, f) = (Instr.ftanh, ftanh)) →
    ∀ o, ComputesFp (mk o) o.g o.d (fun g l =>
      let z := f (BitVec.ofNat 32 (o.a.fp g l).1) g.daz g.ftz
      (z.1, z.2 ||| (o.a.fp g l).2))

/-- The packed words (R187): each half on its own in the packed format, the flags of both; `FDP2` sums two products and the
addend exactly and rounds once. -/
def Obligations.PackedWords : Prop :=
  (∀ bf r sat o, ComputesFp (.pkadd bf r sat o) o.g o.d (fun g l =>
    packed g bf [(o.a.get g l .pk).toNat, (o.b.get g l .pk).toNat]
      (fun xs => (pkFmt bf).fadd (rndOf g r sat) (xs.getD 0 0) (xs.getD 1 0)))) ∧
  (∀ bf r sat o, ComputesFp (.pkmul bf r sat o) o.g o.d (fun g l =>
    packed g bf [(o.a.get g l .pk).toNat, (o.b.get g l .pk).toNat]
      (fun xs => (pkFmt bf).fmul (rndOf g r sat) (xs.getD 0 0) (xs.getD 1 0)))) ∧
  (∀ bf r sat o, ComputesFp (.pkfma bf r sat o) o.g o.d (fun g l =>
    packed g bf [(o.a.get g l .pk).toNat, (o.b.get g l .pk).toNat, (o.c.get g l .pk).toNat]
      (fun xs => (pkFmt bf).fma (rndOf g r sat) (xs.getD 0 0) (xs.getD 1 0) (xs.getD 2 0)))) ∧
  (∀ bf mx o, ComputesFp (.pkmm bf mx o) o.g o.d (fun g l =>
    packed g bf [(o.a.get g l .pk).toNat, (o.b.get g l .pk).toNat]
      (fun xs => (pkFmt bf).minmax mx (xs.getD 0 0) (xs.getD 1 0)))) ∧
  (∀ bf r sat o, ComputesFp (.fdp2 bf r sat o) o.g o.d (fun g l =>
    fdp2 g bf (rndOf g r sat) (o.a.get g l .pk).toNat (o.b.get g l .pk).toNat (o.c.get g l .fp).toNat))

/-- The conversions (R190 to R193): an element of the source, converted, into its place of the destination; `CVTQ` quantises
across the lanes of a block, or gives its scale; `CVTD` dequantises one code. With `.sr` the generator of each lane that converts
an element advances once (R23), and no other. Each word leaves the flags it found and those of the lanes that run. A conversion
between equal formats rounds nothing (log entry 9), and an infinite element that `.sat` replaces sets inexact too (log entry 51):
the model's readings. -/
def Obligations.ConversionWords : Prop :=
  (∀ dst src sel pos r sr sat gd d a, ∀ s c g, Ready (.cvt dst src sel pos r sr sat gd d a) s c g →
    ∃ t h, exec (.cvt dst src sel pos r sr sat gd d a) s = .next t ∧ t.grp c.grp = some h ∧
      ∀ l ∈ runs c g gd d,
        let bits := if src.bits = 64 then (a.get64 g l).toNat else elemOf src.bits sel.toNat (a.get g l).toNat
        let y := (cvtElem g dst src (srMode g l sr (r.rmode g)) sat bits).1
        Result h d (dst.bits == 64) l
          (if dst.bits = 64 ∨ dst.bits = 32 then y else putElem dst.bits pos.toNat (d.get g l).toNat y)) ∧
  (∀ dst src sel pos r sr sat gd d a, ∀ s c g, Ready (.cvt dst src sel pos r sr sat gd d a) s c g →
    ∃ t h, exec (.cvt dst src sel pos r sr sat gd d a) s = .next t ∧ t.grp c.grp = some h ∧
      (∀ l, (h.lane l).rng =
        if sr = true ∧ l ∈ runs c g gd d ∧ l < g.lanes.length then rngStep (g.lane l).rng else (g.lane l).rng) ∧
      ∀ k, h.fpFlags.getLsbD k = true ↔ (g.fpFlags.getLsbD k = true ∨ ∃ l ∈ runs c g gd d,
        (cvtElem g dst src (srMode g l sr (r.rmode g)) sat (if src.bits = 64 then (a.get64 g l).toNat
          else elemOf src.bits sel.toNat (a.get g l).toNat)).2.getLsbD k = true)) ∧
  (∀ ty l32 scale sr r sat pos gd d a, ∀ s c g, Ready (.cvtq ty l32 scale sr r sat pos gd d a) s c g →
    ∃ t h, exec (.cvtq ty l32 scale sr r sat pos gd d a) s = .next t ∧ t.grp c.grp = some h ∧
      ∀ b ∈ quantBlocks ty (if l32 then 32 else 16) sr (r.rmode g) sat a g (g.guarded c.lanes gd),
        ∀ l ∈ Mask.lanes (g.guarded c.lanes gd), l / (if l32 then 32 else 16) = b.1 →
          Result h (.v d) false l (if scale then b.2.1.1
            else putElem 4 pos.toNat (g.rv d.toNat l).toNat (b.2.1.2.1.getD (l % (if l32 then 32 else 16)) 0))) ∧
  (∀ ty l32 scale sr r sat pos gd d a, ∀ s c g, Ready (.cvtq ty l32 scale sr r sat pos gd d a) s c g →
    ∃ t h, exec (.cvtq ty l32 scale sr r sat pos gd d a) s = .next t ∧ t.grp c.grp = some h ∧
      (∀ l, (h.lane l).rng =
        if sr = true ∧ scale = false ∧ l ∈ Mask.lanes (g.guarded c.lanes gd) ∧
            l / (if l32 then 32 else 16) < g.width / (if l32 then 32 else 16) ∧ l < g.lanes.length
          then rngStep (g.lane l).rng else (g.lane l).rng) ∧
      ∀ k, h.fpFlags.getLsbD k = true ↔ (g.fpFlags.getLsbD k = true ∨
        ∃ b ∈ quantBlocks ty (if l32 then 32 else 16) sr (r.rmode g) sat a g (g.guarded c.lanes gd),
          (∃ l ∈ Mask.lanes (g.guarded c.lanes gd), l / (if l32 then 32 else 16) = b.1) ∧
          (if scale then (b.2.1.2.2 ||| b.2.2) &&& fInvalid else b.2.1.2.2 ||| b.2.2).getLsbD k = true)) ∧
  (∀ f r sat elem hi gd d a b, ∀ s c g, Ready (.cvtd f r sat elem hi gd d a b) s c g →
    ∃ t h, exec (.cvtd f r sat elem hi gd d a b) s = .next t ∧ t.grp c.grp = some h ∧
      ∀ l ∈ Mask.lanes (g.guarded c.lanes gd),
        let v := blockElem ((b.get g l).toNat % 256) (elemOf 4 elem.toNat (g.rv a.toNat l).toNat)
        let y := (v.roundTo (F3.fmt f) (if f == .f32 then ⟨.rn, false, false⟩ else rndOf g r sat)).1
        Result h (.v d) false l (if f = .f32 then y else putElem 16 hi.toNat (g.rv d.toNat l).toNat y)) ∧
  (∀ f r sat elem hi gd d a b, ∀ s c g, Ready (.cvtd f r sat elem hi gd d a b) s c g →
    ∃ t h, exec (.cvtd f r sat elem hi gd d a b) s = .next t ∧ t.grp c.grp = some h ∧
      ∀ k, h.fpFlags.getLsbD k = true ↔ (g.fpFlags.getLsbD k = true ∨ ∃ l ∈ Mask.lanes (g.guarded c.lanes gd),
        ((blockElem ((b.get g l).toNat % 256) (elemOf 4 elem.toNat (g.rv a.toNat l).toNat)).roundTo (F3.fmt f)
          (if f == .f32 then ⟨.rn, false, false⟩ else rndOf g r sat)).2.getLsbD k = true))

/-- Exchange between lanes (R145 to R152): every value comes from the lanes of the fragment alone, and a partner outside it
is the lane itself. The clauses for XLANE, VOTE, BALLOT, REDUX and MASK state the results of R145, R146, R148, R150 and R152.
-/
def Obligations.LaneExchangeWords : Prop :=
  (∀ dir b gd d a, Computes (.qx dir b gd d a) gd (.v d) b (fun _ c g l =>
    let p := l ^^^ (match dir with | .h => 1 | .v => 2 | .d => 3)
    Src.nat g (if Mask.has c.lanes p then p else l) .sext b (.v a))) ∧
  (∀ m w b gd d a x sc, Computes (.xlane m w b gd d a x sc) gd (.v d) b (fun _ c g l =>
    let ms := Mask.lanes (g.scope sc l)
    let u := XRank m (ms.filter (fun i => i < l)).length (x.get g l .zext).toNat
    let u := if w then u % (ms.length : Int) else u
    let from_ := match (if 0 ≤ u then ms[u.toNat]? else none) with
      | some i => if Mask.has c.lanes i then i else l
      | none => l
    Src.nat g from_ .sext b (.v a))) ∧
  (∀ gd d a sc, ComputesPred (.vote .all gd d a sc) gd d (fun g ex l =>
    (Mask.lanes (g.party ex sc l)).all (fun i => g.rp a.toNat i))) ∧
  (∀ gd d a sc, ComputesPred (.vote .any gd d a sc) gd d (fun g ex l =>
    (Mask.lanes (g.party ex sc l)).any (fun i => g.rp a.toNat i))) ∧
  (∀ gd d a sc, ComputesPred (.vote .uni gd d a sc) gd d (fun g ex l =>
    (Mask.lanes (g.party ex sc l)).all (fun i => g.rp a.toNat i) ||
    (Mask.lanes (g.party ex sc l)).all (fun i => !g.rp a.toNat i))) ∧
  (∀ gd d a sc, Computes (.ballot gd d a sc) gd d true (fun _ c g l =>
    (maskFilter (if d.isS then g.nonHelpers (g.guarded c.lanes gd) else g.party (g.guarded c.lanes gd) sc l)
      (g.rp a.toNat)).toNat)) ∧
  (∀ b gd d a, Computes (.matchLanes b gd d a) gd (.v d) true (fun _ c g l =>
    if g.isHelper l then 0 else (maskFilter (g.nonHelpers (g.guarded c.lanes gd)) (fun i =>
      Src.nat g i .sext b (.v a) == Src.nat g l .sext b (.v a))).toNat)) ∧
  (∀ op ty r gd d a sc, ∀ s c g, Ready (.redux op ty r gd d a sc) s c g →
    ∃ t h, exec (.redux op ty r gd d a sc) s = .next t ∧ t.grp c.grp = some h ∧
      ∀ l ∈ runs c g gd d, ∀ x xs,
        (Mask.lanes (if d.isS then g.nonHelpers (g.guarded c.lanes gd) else g.party (g.guarded c.lanes gd) sc l)).map
          (fun i => (g.rv a.toNat i).toNat) = x :: xs →
        Result h d false l (treeReduce (reduxStep op ty r g) 6 (x :: xs)).1) ∧
  (∀ b gd d a, Computes (.v2s b gd d a none) gd (.s d) b (fun _ _ g l => Src.nat g l .sext b (.v a))) ∧
  (∀ b gd d a x, Computes (.v2s b gd d a (some x)) gd (.s d) b (fun _ _ g l =>
    if (x.get g l .zext).toNat < g.width then Src.nat g (x.get g l .zext).toNat .sext b (.v a) else 0)) ∧
  (∀ gd d j, Computes (.mask .frag gd d j) gd d true (fun _ c _ _ => c.lanes.toNat)) ∧
  (∀ gd d j, Computes (.mask .live gd d j) gd d true (fun _ _ g _ => g.live.toNat)) ∧
  (∀ gd d j, Computes (.mask .helper gd d j) gd d true (fun _ _ g _ => (g.mask g.isHelper).toNat)) ∧
  (∀ gd d j, Computes (.mask .lt gd d j) gd d true (fun _ _ _ l => 2 ^ l - 1)) ∧
  (∀ gd d j, Computes (.mask .jmask gd d j) gd d true (fun _ _ g _ => (SMap.getD g.j j.toNat (0, 0)).1.toNat)) ∧
  (∀ gd d j, Computes (.mask .jpc gd d j) gd d true (fun _ _ g _ => (SMap.getD g.j j.toNat (0, 0)).2.toNat))

/-- The context registers (R24 to R26, R75 to R80, R91, R92): a read gives the register as it stands when the word executes, the
word itself being counted in `ctx.sp_count` (R78, R91); a write keeps the
reserved bits of `fp.mode` 0, clears the flags written 1, sets the seed of every lane with `fp.seed`, and leaves a read-only
register alone; no other register changes. -/
def Obligations.ContextRegisterWords : Prop :=
  (∀ gd d r, Computes (.csrr gd d r) gd d false (fun s _ g _ => (s.csr g r).toNat)) ∧
  (∀ gd r a, ∀ s c g, Ready (.csrw gd r a) s c g → g.nonHelpers (g.guarded c.lanes gd) ≠ 0 →
    ∃ t h, exec (.csrw gd r a) s = .next t ∧ t.grp c.grp = some h ∧ OnlyGroup c.grp s t ∧ Advanced c g h ∧
      h.v = g.v ∧ h.s = g.s ∧ h.p = g.p ∧
      h.fpMode = (if r = .fpMode then g.rs a.toNat &&& 15 else g.fpMode) ∧
      h.fpFlags = (if r = .fpFlags then g.fpFlags &&& ~~~(g.rs a.toNat) else g.fpFlags) ∧
      h.fpSeed = (if r = .fpSeed then g.rs a.toNat else g.fpSeed) ∧
      (r = .fpSeed → ∀ l, l < g.lanes.length → (h.lane l).rng = seedLane (g.rs a.toNat) l)) ∧
  (∀ gd d r a, ∀ s c g, Ready (.csrx gd d r a) s c g → g.nonHelpers (g.guarded c.lanes gd) ≠ 0 →
    ∃ t h, exec (.csrx gd d r a) s = .next t ∧ t.grp c.grp = some h ∧ OnlyGroup c.grp s t ∧ Advanced c g h ∧
      h.v = g.v ∧ h.p = g.p ∧ (∀ n, n ≠ d.toNat → h.rs n = g.rs n) ∧
      (d.toNat = 63 ∨ h.rs d.toNat = s.csr (counted (.csrx gd d r a) c g) r) ∧
      h.fpMode = (if r = .fpMode then g.rs a.toNat &&& 15 else g.fpMode) ∧
      h.fpFlags = (if r = .fpFlags then g.fpFlags &&& ~~~(g.rs a.toNat) else g.fpFlags) ∧
      h.fpSeed = (if r = .fpSeed then g.rs a.toNat else g.fpSeed))

/-- `TBL` (R196): with the current bank tagged for this context and the named table, each executing lane gets its interpolation;
with another tag the word traps (R197), if some lane that is no helper executes (R41); with none it only goes on. -/
def Obligations.TableWords : Prop :=
  ∀ gd d a b, ∀ s c g, Ready (.tbl gd d a b) s c g →
    ((s.core g.core).tag (s.core g.core).bank = some (s.ctxNum g, (g.rs64 b.toNat).toNat) →
      ∃ t h, exec (.tbl gd d a b) s = .next t ∧ t.grp c.grp = some h ∧ OnlyGroup c.grp s t ∧ Advanced c g h ∧
        ∀ l ∈ Mask.lanes (g.guarded c.lanes gd),
          Result h (.v d) false l (tblValue ((s.core g.core).table (s.core g.core).bank) g.daz g.ftz (g.rv a.toNat l).toNat).1) ∧
    ((s.core g.core).tag (s.core g.core).bank ≠ some (s.ctxNum g, (g.rs64 b.toNat).toNat) →
      g.nonHelpers (g.guarded c.lanes gd) ≠ 0 → g.nonHelpers c.lanes ≠ 0 →
      exec (.tbl gd d a b) s = .next ((began (.tbl gd d a b) s c g).trapAt c { cause := 0x13, info := (g.rs64 b.toNat).toNat })) ∧
    ((s.core g.core).tag (s.core g.core).bank ≠ some (s.ctxNum g, (g.rs64 b.toNat).toNat) →
      g.nonHelpers (g.guarded c.lanes gd) = 0 →
      ∃ t h, exec (.tbl gd d a b) s = .next t ∧ t.grp c.grp = some h ∧ OnlyGroup c.grp s t ∧ Advanced c g h ∧ Unwritten {} g h)

/-! ## Control flow -/

namespace Sys2Proof.Claims
open Sys2Proof.Machine Sys2Proof.Safety

/-- The executing lanes of a control-flow word: guard true, helpers left out (R138, R153). -/
def goes (c : Issue) (g : Group) (gd : Guard) : Mask := g.nonHelpers (g.guarded c.lanes gd)

/-- Where each lane goes: the executing lanes of the fragment to their targets, its other running lanes to the next word, every
other lane nowhere (R153). -/
def Jumped (c : Issue) (g h : Group) (ex : Mask) (t : Nat → BitVec 56) : Prop :=
  ∀ l, (h.lane l).pc = if Mask.has c.lanes l ∧ (g.lane l).st = .running then
      (if Mask.has ex l then t l else (g.lane l).pc + 8) else (g.lane l).pc

/-- Registers, predicates, mode, flags and seed are as they were. -/
def SameRegs (g h : Group) : Prop :=
  h.v = g.v ∧ h.s = g.s ∧ h.p = g.p ∧ h.fpMode = g.fpMode ∧ h.fpFlags = g.fpFlags ∧ h.fpSeed = g.fpSeed

/-- The bytes of both memories are as they were. -/
def SameMem (s t : State) : Prop := t.mem = s.mem ∧ t.hostMem = s.hostMem

/-- A branch: lanes go to `t`, and nothing else changes. -/
def Branches (i : Instr) (gd : Guard) (t : Issue → Group → Nat → BitVec 56) (ok : Issue → Group → Prop) : Prop :=
  ∀ s c g, Ready i s c g → ok c g → ∃ u h, exec i s = .next u ∧ u.grp c.grp = some h ∧ OnlyGroup c.grp s u ∧
    Jumped c g h (goes c g gd) (t c g) ∧ Unwritten {} g h

/-- The indirect targets of a word all lie in the address space and on word boundaries (R36, R153). -/
def goodTargets (r : Reg) (gd : Guard) (c : Issue) (g : Group) : Prop :=
  ∀ l ∈ Mask.lanes (goes c g gd), (r.get64 g l).toNat < 2 ^ 56 ∧ (r.get64 g l).toNat % 8 = 0

/-- The trap of an indirect target (R36, R153): the lowest executing lane whose target is outside the address space, or with none
the lowest whose target is misaligned. -/
def targetFault (r : Reg) (gd : Guard) (c : Issue) (g : Group) (tr : Trap) : Prop :=
  (∃ l ls, (Mask.lanes (goes c g gd)).filter (fun l => decide (2 ^ 56 ≤ (r.get64 g l).toNat)) = l :: ls ∧
      tr = { cause := 4, addr := (r.get64 g l).toNat }) ∨
  ((Mask.lanes (goes c g gd)).filter (fun l => decide (2 ^ 56 ≤ (r.get64 g l).toNat)) = [] ∧
    ∃ l ls, (Mask.lanes (goes c g gd)).filter (fun l => (r.get64 g l).toNat % 8 != 0) = l :: ls ∧
      tr = { cause := 3, addr := (r.get64 g l).toNat })

/-- A call on chip (R154): every executing lane has room for its return address, which goes on top of its stack. -/
def Calls (i : Instr) (gd : Guard) (t : Issue → Group → Nat → BitVec 56) (ok : Issue → Group → Prop) : Prop :=
  ∀ s c g, Ready i s c g → ok c g →
    (∀ l ∈ Mask.lanes (goes c g gd), (g.lane l).depth ≠ 65535 ∧ (g.lane l).rs.length < 4) →
    ∃ u h, exec i s = .next u ∧ u.grp c.grp = some h ∧ OnlyGroup c.grp s u ∧ SameRegs g h ∧ h.ops = g.ops ∧
      Jumped c g h (goes c g gd) (t c g) ∧
      ∀ l, l < g.lanes.length → Mask.has (goes c g gd) l = true →
        (h.lane l).rs = (c.pc + 8).setWidth 64 :: (g.lane l).rs ∧ (h.lane l).depth = (g.lane l).depth + 1

/-- A call or return that goes past the depth limit, or past four entries with no spill area, traps with the mask of those lanes
and moves no lane (R154). -/
def TooDeep (i : Instr) (gd : Guard) (ok : Issue → Group → Prop) (cause : Nat) (bad : Group → Nat → Bool) : Prop :=
  ∀ s c g, Ready i s c g → ok c g → g.nonHelpers c.lanes ≠ 0 →
    (Mask.lanes (goes c g gd)).filter (bad g) ≠ [] →
    exec i s = .next ((began i s c g).trapAt c
      { cause := cause, info := (Mask.ofLanes ((Mask.lanes (goes c g gd)).filter (bad g))).toNat })

/-- The address of the entry of a lane at a depth of its stack in memory (R154). -/
def spillPlace (g : Group) (spill : BitVec 6) (depth l : Nat) : DWord :=
  g.rs64 spill.toNat + BitVec.ofNat 64 (8 * (depth * g.width + l))

/-- A call of which some lanes have a full stack (R154): the oldest entry of each of them is stored at its place of the spill area,
as one counted store; the call is made at once. -/
def Spills (i : Instr) (gd : Guard) (spill : BitVec 6) (t : Issue → Group → Nat → BitVec 56) (ok : Issue → Group → Prop) : Prop :=
  ∀ s c g x s1, Ready i s c g → ok c g → spill.toNat ≠ 63 → (g.rs64 spill.toNat).toNat % 8 = 0 →
    (∀ l ∈ Mask.lanes (goes c g gd), (g.lane l).depth ≠ 65535) →
    (began i s c g).tryAll (s.ldOf g) (s.ctxNum g) .write (((Mask.lanes (goes c g gd)).filter (fun l => (g.lane l).rs.length == 4)).map
      (fun l => (l, spillPlace g spill ((g.lane l).depth - 4) l))) = (x, s1) →
    (∃ l ∈ Mask.lanes (goes c g gd), (g.lane l).rs.length = 4) → (∀ y ∈ x, y.cause = 0) →
    ∃ u h o, exec i s = .next u ∧ u.grp c.grp = some h ∧ SameRegs g h ∧ h.ops = g.ops ++ [o] ∧ o.ctr = .st ∧ o.kind = .store ∧
      o.done = false ∧ o.lanes = (okAccs x).map (fun a => { a with n := 8, data := withOffsets (leBytes 8
        ((g.lane a.lane).rs.getLastD 0).toNat) }) ∧
      Jumped c g h (goes c g gd) (t c g) ∧
      ∀ l, l < g.lanes.length → Mask.has (goes c g gd) l = true →
        (h.lane l).rs = (c.pc + 8).setWidth 64 :: (g.lane l).rs.take 3 ∧ (h.lane l).depth = (g.lane l).depth + 1

end Sys2Proof.Claims

/-- Branches (R34, R36, R42, R153): the executing lanes go to the PC plus 8 times the offset, modulo 2^56, or to their own
targets; the other lanes of the fragment go on; no register changes. An indirect target that is no word of the address space
traps. -/
def Obligations.BranchWords : Prop :=
  (∀ gd off, Branches (.bra gd off) gd (fun c _ _ => c.pc + off.signExtend 56 * 8) (fun _ _ => True)) ∧
  (∀ gd off, Branches (.braL gd off) gd (fun c _ _ => c.pc + off.signExtend 56 * 8) (fun _ _ => True)) ∧
  (∀ gd r, Branches (.brx gd r) gd (fun _ g l => (r.get64 g l).setWidth 56) (goodTargets r gd)) ∧
  (∀ gd r s c g tr, Ready (.brx gd r) s c g → targetFault r gd c g tr → g.nonHelpers c.lanes ≠ 0 →
    exec (.brx gd r) s = .next ((began (.brx gd r) s c g).trapAt c tr))

/-- Calls and returns (R154): a call puts the next word's address on each executing lane's stack and goes to its target; a
return takes it off and goes there; a call with no room, and a return with no entry, trap with the mask of those lanes. Where a
stack is full the call stores its oldest entry in the spill area; where one is empty the return loads its entry from there and
holds its fragment until the entry is back. -/
def Obligations.CallsAndReturns : Prop :=
  (∀ gd off sp, Calls (.call gd off sp) gd (fun c _ _ => c.pc + off.signExtend 56 * 8) (fun _ _ => True)) ∧
  (∀ gd off, Calls (.callL gd off) gd (fun c _ _ => c.pc + off.signExtend 56 * 8) (fun _ _ => True)) ∧
  (∀ gd r sp, Calls (.callx gd r sp) gd (fun _ g l => (r.get64 g l).setWidth 56) (goodTargets r gd)) ∧
  (∀ gd off sp, TooDeep (.call gd off sp) gd (fun _ _ => True) 0x0E (fun g l =>
    (g.lane l).depth == 65535 || ((g.lane l).rs.length == 4 && sp.toNat == 63))) ∧
  (∀ gd off, TooDeep (.callL gd off) gd (fun _ _ => True) 0x0E (fun g l =>
    (g.lane l).depth == 65535 || (g.lane l).rs.length == 4)) ∧
  (∀ gd r sp, TooDeep (.callx gd r sp) gd (goodTargets r gd) 0x0E (fun g l =>
    (g.lane l).depth == 65535 || ((g.lane l).rs.length == 4 && sp.toNat == 63))) ∧
  (∀ gd sp, TooDeep (.ret gd sp) gd (fun _ _ => True) 0x0F (fun g l =>
    (g.lane l).depth == 0 || ((g.lane l).rs.length == 0 && sp.toNat == 63))) ∧
  (∀ gd sp s c g, Ready (.ret gd sp) s c g →
    (∀ l ∈ Mask.lanes (goes c g gd), (g.lane l).depth ≠ 0 ∧ ∃ a r, (g.lane l).rs = a :: r ∧ a.toNat < 2 ^ 56 ∧ a.toNat % 8 = 0) →
    ∃ u h, exec (.ret gd sp) s = .next u ∧ u.grp c.grp = some h ∧ OnlyGroup c.grp s u ∧ SameRegs g h ∧ h.ops = g.ops ∧
      Jumped c g h (goes c g gd) (fun l => BitVec.ofNat 56 (((g.lane l).rs.headD 0).toNat)) ∧
      ∀ l, l < g.lanes.length → Mask.has (goes c g gd) l = true →
        (h.lane l).rs = (g.lane l).rs.drop 1 ∧ (h.lane l).depth = (g.lane l).depth - 1) ∧
  (∀ gd off sp, Spills (.call gd off sp) gd sp (fun c _ _ => c.pc + off.signExtend 56 * 8) (fun _ _ => True)) ∧
  (∀ gd r sp, Spills (.callx gd r sp) gd sp (fun _ g l => (r.get64 g l).setWidth 56) (goodTargets r gd)) ∧
  (∀ gd sp s c g x s1, Ready (.ret gd sp) s c g → sp.toNat ≠ 63 → (g.rs64 sp.toNat).toNat % 8 = 0 →
    (∀ l ∈ Mask.lanes (goes c g gd), (g.lane l).depth ≠ 0) →
    (began (.ret gd sp) s c g).tryAll (s.ldOf g) (s.ctxNum g) .read (((Mask.lanes (goes c g gd)).filter (fun l =>
      (g.lane l).rs.length == 0)).map (fun l => (l, spillPlace g sp ((g.lane l).depth - 1) l))) = (x, s1) →
    (∃ l ∈ Mask.lanes (goes c g gd), (g.lane l).rs.length = 0) → (∀ y ∈ x, y.cause = 0) →
    ∃ u h o, exec (.ret gd sp) s = .next u ∧ u.grp c.grp = some h ∧ SameRegs g h ∧ h.ops = g.ops ++ [o] ∧
      o.kind = .refill (goes c g gd) ∧ o.done = false ∧ o.lanes = (okAccs x).map (fun a => { a with n := 8 }) ∧
      ∀ l, (h.lane l).pc = (g.lane l).pc ∧ (h.lane l).rs = (g.lane l).rs ∧ (h.lane l).depth = (g.lane l).depth ∧
        (Mask.has c.lanes l = true → (g.lane l).st = .running → (h.lane l).hold = .busy o.id))

/-- Rejoin masks (R137 to R139). `ENROL` adds the executing lanes to a mask and sets its PC; `REJOIN` makes the enrolled lanes of
the fragment ARRIVED while some enrolled lane has not, and lets every one run on past the mask's word once all have, which empties
the mask; `STRIKE` takes lanes out. A mask that is not empty traps when it is used with another PC. -/
def Obligations.RejoinWords : Prop :=
  (∀ gd j off s c g, Ready (.enrol gd j off) s c g → (∃ l, Mask.has (goes c g gd) l = true ∧ (g.lane l).st = .running) →
    (SMap.getD g.j j.toNat (0, 0)).1 = 0 ∨ (SMap.getD g.j j.toNat (0, 0)).2 = c.pc + off.signExtend 56 * 8 →
    ∃ u h, exec (.enrol gd j off) s = .next u ∧ u.grp c.grp = some h ∧ OnlyGroup c.grp s u ∧ Advanced c g h ∧ SameRegs g h ∧
      SMap.getD h.j j.toNat (0, 0) =
        ((SMap.getD g.j j.toNat (0, 0)).1 ||| goes c g gd, c.pc + off.signExtend 56 * 8)) ∧
  (∀ gd j off s c g, Ready (.enrol gd j off) s c g → goes c g gd ≠ 0 → g.nonHelpers c.lanes ≠ 0 →
    (SMap.getD g.j j.toNat (0, 0)).1 ≠ 0 → (SMap.getD g.j j.toNat (0, 0)).2 ≠ c.pc + off.signExtend 56 * 8 →
    exec (.enrol gd j off) s = .next ((began (.enrol gd j off) s c g).trapAt c { cause := 0x0D, info := j.toNat })) ∧
  (∀ j s c g l k, Ready (.rejoin j) s c g → (SMap.getD g.j j.toNat (0, 0)).2 = c.pc →
    Mask.has (g.nonHelpers c.lanes &&& (SMap.getD g.j j.toNat (0, 0)).1) l = true → l < g.lanes.length →
    Mask.has (SMap.getD g.j j.toNat (0, 0)).1 k = true → Mask.has c.lanes k = false → (g.lane k).st ≠ .arrived j.toNat → k < 64 →
    ∃ u h, exec (.rejoin j) s = .next u ∧ u.grp c.grp = some h ∧ OnlyGroup c.grp s u ∧ SameRegs g h ∧ h.j = g.j ∧
      (h.lane l).st = .arrived j.toNat ∧ (h.lane l).pc = (g.lane l).pc) ∧
  (∀ j s c g l, Ready (.rejoin j) s c g → (SMap.getD g.j j.toNat (0, 0)).2 = c.pc →
    (∀ k, k < 64 → Mask.has (SMap.getD g.j j.toNat (0, 0)).1 k = true → k < g.lanes.length ∧
      (Mask.has (g.nonHelpers c.lanes) k = true ∨ (g.lane k).st = .arrived j.toNat)) →
    l < 64 → Mask.has (SMap.getD g.j j.toNat (0, 0)).1 l = true →
    ∃ u h, exec (.rejoin j) s = .next u ∧ u.grp c.grp = some h ∧ OnlyGroup c.grp s u ∧ SameRegs g h ∧
      SMap.find h.j j.toNat = none ∧ (h.lane l).st = .running ∧ (h.lane l).pc = c.pc + 8) ∧
  (∀ gd j s c g k, Ready (.strike gd j) s c g → k < 64 → Mask.has (SMap.getD g.j j.toNat (0, 0)).1 k = true →
    Mask.has (goes c g gd) k = false → (g.lane k).st ≠ .arrived j.toNat →
    ∃ u h, exec (.strike gd j) s = .next u ∧ u.grp c.grp = some h ∧ OnlyGroup c.grp s u ∧ Advanced c g h ∧ SameRegs g h ∧
      (SMap.getD h.j j.toNat (0, 0)).1 = (SMap.getD g.j j.toNat (0, 0)).1 &&& ~~~(goes c g gd))

/-- Waiting words (R133, R156, R157). `WAIT` goes on when no more than the named operations are outstanding and it need raise no
error, and holds its fragment otherwise; `YIELD` and `NAP` move to the next word and hold the fragment there, `NAP` of 0 not; the
expiry of the time lets it issue again. -/
def Obligations.WaitingWords : Prop :=
  (∀ ld st cp mx bc s c g, Ready (.wait ld st cp mx bc) s c g →
    g.waited ld.toNat st.toNat cp.toNat mx.toNat bc.toNat = true →
    g.requiredError ld.toNat st.toNat cp.toNat mx.toNat bc.toNat = none →
    ∃ u h, exec (.wait ld st cp mx bc) s = .next u ∧ u.grp c.grp = some h ∧ OnlyGroup c.grp s u ∧ Advanced c g h ∧
      Unwritten {} g h) ∧
  (∀ ld st cp mx bc s c g, Ready (.wait ld st cp mx bc) s c g →
    g.waited ld.toNat st.toNat cp.toNat mx.toNat bc.toNat = false →
    ∃ u h, exec (.wait ld st cp mx bc) s = .next u ∧ u.grp c.grp = some h ∧ OnlyGroup c.grp s u ∧ Unwritten {} g h ∧
      ∀ l, (h.lane l).pc = (g.lane l).pc ∧ (Mask.has c.lanes l = true → (g.lane l).st = .running →
        (h.lane l).hold = .wait ld.toNat st.toNat cp.toNat mx.toNat bc.toNat)) ∧
  (∀ imm n s c g, Ready (.yield imm n) s c g →
    ∃ u h, exec (.yield imm n) s = .next u ∧ u.grp c.grp = some h ∧ OnlyGroup c.grp s u ∧ Advanced c g h ∧ Unwritten {} g h ∧
      ∀ l, Mask.has c.lanes l = true → (g.lane l).st = .running →
        (h.lane l).hold = .yield (if n = 0 then 0 else c.clk + n.toNat)) ∧
  (∀ x s c g, Ready (.nap x) s c g →
    ∃ u h, exec (.nap x) s = .next u ∧ u.grp c.grp = some h ∧ OnlyGroup c.grp s u ∧ Advanced c g h ∧ Unwritten {} g h ∧
      ((x.get g 0 .zext).toNat ≠ 0 → ∀ l, Mask.has c.lanes l = true → (g.lane l).st = .running →
        (h.lane l).hold = .nap (timebaseOf c.clk + (x.get g 0 .zext).toNat))) ∧
  (∀ k l s g u, s.grp k = some g → (g.lane l).hold = .yield (u + 1) → (g.lane l).st = .running → u + 1 ≤ s.clk →
    exec (.yieldExpiry k l) s = .next (s.setGrp k (g.holdLanes (g.fragment l) (.yield 0)))) ∧
  (∀ k l s g u, s.grp k = some g → (g.lane l).hold = .nap u → (g.lane l).st = .running → u ≤ s.timebase →
    exec (.napExpiry k l) s = .next (s.setGrp k (g.holdLanes (g.fragment l) .none)))

/-- `EXIT` (R142, R155, R205): executing lanes leave, helpers for lanes of their quad that stay; the last exit of a group with nothing
outstanding, its writes released and no error ends the group, and the last group's end ends the block; with an operation
outstanding it waits. -/
def Obligations.ExitWords : Prop :=
  (∀ gd s c g k, Ready (.exit gd) s c g → goes c g gd ≠ 0 → k < g.lanes.length → Mask.has (goes c g gd) k = false →
    (g.lane k).st = .running →
    ∃ u h, exec (.exit gd) s = .next u ∧ u.grp c.grp = some h ∧ SameRegs g h ∧ SameMem s u ∧
      (∀ l, l < g.lanes.length → Mask.has (goes c g gd) l = true → (h.lane l).st = .exited ∨ (h.lane l).st = .helper) ∧
      (h.lane k).pc = (if Mask.has c.lanes k then (g.lane k).pc + 8 else (g.lane k).pc)) ∧
  (∀ gd s c g b, Ready (.exit gd) s c g → (∀ l, l < g.lanes.length → (g.lane l).st = .exited ∨ Mask.has (goes c g gd) l = true) →
    goes c g gd ≠ 0 → (began (.exit gd) s c g).exitReady c.grp (counted (.exit gd) c g) = true → g.errs = [] →
    (began (.exit gd) s c g).exitCkpt c.grp (counted (.exit gd) c g) = false → s.blocks.find g.blk = some b →
    b.held = [] → b.heldFe = [] → (∀ x ∈ b.groups, x = c.grp) →
    ∃ u, exec (.exit gd) s = .next u ∧ SameMem s u ∧ u.blocks.find g.blk = none) ∧
  (∀ gd s c g, Ready (.exit gd) s c g → (∀ l, l < g.lanes.length → (g.lane l).st = .exited ∨ Mask.has (goes c g gd) l = true) →
    goes c g gd ≠ 0 → g.ops ≠ [] →
    ∃ u h, exec (.exit gd) s = .next u ∧ u.grp c.grp = some h ∧ OnlyGroup c.grp s u ∧ Unwritten {} g h ∧
      ∀ l, (h.lane l).pc = (g.lane l).pc)

/-! ## Traps, service calls and handlers -/

namespace Sys2Proof.Claims
open Sys2Proof.Machine Sys2Proof.Safety

/-- Nothing of a grid issues again: it has no block, and its groups have left, with only what outlives them in flight. -/
def GridGone (u : State) (k : Nat) : Prop :=
  (∀ p ∈ u.blocks, p.2.grid ≠ k) ∧
  ∀ p ∈ u.groups, p.2.grid = k → p.2.state = .exited ∧ (∀ x ∈ p.2.lanes, x.st = .exited) ∧ ∀ o ∈ p.2.ops, o.kind.outlives = true

/-- An event of a code stands among those that wait for a device's event ring, with these first words and this report (R384). -/
def Posted (u : State) (ld code ctx : Nat) (info : List Nat) (rep : List Byte) : Prop :=
  ∃ w ∈ (u.ld ld).waiting, w.ring = 6 ∧ w.bytes = eventBytes u code ctx info rep

/-- Lanes that a trap or a service call parks: the lanes of a mask that are no helpers. -/
def Parked (g h : Group) (m : Mask) (rid : Nat) : Prop :=
  ∀ l, l < g.lanes.length → (h.lane l).pc = (g.lane l).pc ∧
    (h.lane l).st = if Mask.has (g.nonHelpers m) l then .service rid else (g.lane l).st

/-- `TRAP` has made its service record, of the registers that `v` holds, and parked its lanes (R333, R334). -/
def ServiceCalled (gd : Guard) (code : BitVec 16) (s : State) (c : Issue) (g v : Group) : Prop :=
  ∃ u h r rep, exec (.trap gd code) s = .next u ∧ u.grp c.grp = some h ∧ SameRegs g h ∧ SameMem s u ∧
    u.records.find s.newRecord = some r ∧ r.code = some code.toNat ∧ r.pc = c.pc ∧ r.grp = c.grp ∧
    r.lanes = g.trapping c.lanes (goes c v gd) ∧ r.bytes = recordBytes v (s.descOf g).regs rep r.lanes ∧
    rep.cause = 0x21 ∧ rep.info = code.toNat ∧ r.addr = s.recordPlace r.bytes.length ∧
    ∀ l, Mask.has (goes c v gd) l = true → l < g.lanes.length → (g.lane l).st = .running →
      (h.lane l).st = .service s.newRecord ∧ (h.lane l).pc = (g.lane l).pc

/-- A thread's store of bytes has been made (R233, R255): by an operation, in whatever space the place lies, visible some ticks
ahead. -/
def Stored (k op : Nat) (g : Group) (who : Mask) (ph : Phys) (bs : List (Nat × Byte)) (delay : Nat) (s u : State) : Prop :=
  u.mem = (s.storePhys k op g who ph bs false delay).mem ∧ u.invis = (s.storePhys k op g who ph bs false delay).invis ∧
  u.blocks = (s.storePhys k op g who ph bs false delay).blocks

/-- The paired requests of a twin that a trapping group has not matched (R281). -/
def unmatched (s : State) (gid x : Nat) : List MEntry :=
  ((s.pairedOf x).drop (s.pairedOf gid).length).filter (fun e => e.st == .posted)

/-- They stand in the twin's control record, and in no table of a cluster; the twin is as it was otherwise. -/
def TwinWithdrawn (s : State) (gid x : Nat) (k : Group) (u : State) : Prop :=
  (∃ h, u.grp x = some h ∧ SameRegs k h ∧ h.lanes = k.lanes ∧ h.ops = k.ops ∧
    ∀ e ∈ unmatched s gid x, { e with st := EntSt.withdrawn } ∈ h.withdrawn) ∧
  ∀ q cl, u.clusters.find q = some cl → ∀ e ∈ cl.table, ∀ o ∈ unmatched s gid x, e.eid ≠ o.eid

/-- The trap of some lanes is taken by no handler and no forward mask, or is a double trap (R327). -/
def Unhandled (s : State) (g : Group) (m : Mask) (c : Ctx) (cause : Nat) : Prop :=
  g.inHandler m = true ∨
  ((c.handler = 0 ∨ c.hmask.getLsbD cause = false ∨ (s.descOf g).regs < 2) ∧ c.fmask.getLsbD cause = false)

end Sys2Proof.Claims

/-- Taking a trap (R324, R326, R327). A trap in a handler fails the grid as a double trap. A
cause of the handler mask, with two registers, leaves every lane at the word, waiting for the handler and the report area set
when it was raised, with the report kept; in a flagged group in which another fragment runs a handler the lanes stop there.
Another cause of the forward mask parks the lanes with a record, at a place that log entry 13 leaves free. Any other fails the grid
with its parents and all that descends from them: no lane of theirs runs again, and none has a child left unfinished (R118, R119).
A trap of a group of a pair grid that is not failed withdraws the requests of the twin that it has not matched (R281). -/
def Obligations.TakingATrap : Prop :=
  (∀ s gid m pc word t g c, s.grp gid = some g → s.twinOf g = none → s.ctxOf g = some c →
    (mkReport s g t pc word m).cause = t.cause ∧ (mkReport s g t pc word m).reason = t.reason ∧
    (mkReport s g t pc word m).addr = t.addr ∧ (mkReport s g t pc word m).info = t.info ∧
    (mkReport s g t pc word m).pc = pc.toNat ∧ (mkReport s g t pc word m).word = word ∧
    (mkReport s g t pc word m).lanes = m ∧ (mkReport s g t pc word m).siblings = g.live &&& ~~~m ∧
    (mkReport s g t pc word m).ctx = s.ctxNum g ∧ (mkReport s g t pc word m).group = g.idx ∧
    (∀ gr, g.inHandler m = true → s.grids.find g.grid = some gr → gr.parent = none → gr.st = .running →
      GridGone (s.takeTrap gid m pc word t) g.grid ∧
      ((s.takeTrap gid m pc word t).grids.find g.grid).map (·.st) = some .failed) ∧
    (g.inHandler m = false → c.handler ≠ 0 → c.hmask.getLsbD t.cause = true → 2 ≤ (s.descOf g).regs →
      (g.flagged && g.handlerOpen) = false →
      ∃ h, (s.takeTrap gid m pc word t).grp gid = some h ∧ OnlyGroup gid s (s.takeTrap gid m pc word t) ∧
        h.traps = g.traps ++ [⟨mkReport s g t pc word m, c.handler, c.report, t.src⟩] ∧ SameRegs g h ∧ h.ops = g.ops ∧
        ∀ l, (h.lane l).pc = (g.lane l).pc ∧ (h.lane l).st = (g.lane l).st ∧
          (Mask.has m l = true → (g.lane l).st = .running → (h.lane l).hold = .handler)) ∧
    (g.inHandler m = false → c.handler ≠ 0 → c.hmask.getLsbD t.cause = true → 2 ≤ (s.descOf g).regs →
      g.flagged = true → g.handlerOpen = true →
      ∃ h, (s.takeTrap gid m pc word t).grp gid = some h ∧ OnlyGroup gid s (s.takeTrap gid m pc word t) ∧ SameRegs g h ∧
        h.traps = g.traps ++ [⟨mkReport s g t pc word m, c.handler, c.report, t.src⟩] ∧
        ∀ l, (h.lane l).pc = (g.lane l).pc ∧
          (Mask.has m l = true → (g.lane l).st = .running → (h.lane l).st = .stopped .waitPoint)) ∧
    (g.inHandler m = false → (c.handler = 0 ∨ c.hmask.getLsbD t.cause = false ∨ (s.descOf g).regs < 2) →
      c.fmask.getLsbD t.cause = true →
      ∃ h, (s.takeTrap gid m pc word t).grp gid = some h ∧ SameRegs g h ∧ Parked g h m s.newRecord ∧
        SameMem s (s.takeTrap gid m pc word t) ∧
        (s.takeTrap gid m pc word t).records.find s.newRecord =
          some ⟨s.ldOf g, gid, m, pc, none, (mkReport s g t pc word m).bytes, false, s.recordPlace 64⟩) ∧
    (∀ gr, g.inHandler m = false → (c.handler = 0 ∨ c.hmask.getLsbD t.cause = false ∨ (s.descOf g).regs < 2) →
      c.fmask.getLsbD t.cause = false →
      s.grids.find g.grid = some gr → gr.parent = none → gr.st = .running →
      GridGone (s.takeTrap gid m pc word t) g.grid ∧
      ((s.takeTrap gid m pc word t).grids.find g.grid).map (·.st) = some .failed)) ∧
  (∀ s gid m pc word t g c, s.grp gid = some g → s.twinOf g ≠ some gid → s.ctxOf g = some c → Unhandled s g m c t.cause →
    (∀ q x, q ∈ descendants s 16 [ancestor s 16 g.grid] → s.grids.find q = some x → x.st ≠ .complete →
      GridGone (s.takeTrap gid m pc word t) q ∧
      ((s.takeTrap gid m pc word t).grids.find q).map (fun y => (y.st, y.children)) = some (.failed, 0)) ∧
    (∀ gr p pr, s.grids.find g.grid = some gr → gr.parent = some p → gr.st = .running → s.grids.find p = some pr →
      pr.parent = none → pr.st = .running →
      ((s.takeTrap gid m pc word t).grids.find g.grid).map (·.st) = some .failed ∧
      ((s.takeTrap gid m pc word t).grids.find p).map (fun y => (y.st, y.children)) = some (.failed, 0))) ∧
  (∀ s gid m pc word t g c x k, s.grp gid = some g → s.twinOf g = some x → x ≠ gid → s.grp x = some k → s.ctxOf g = some c →
    ¬ Unhandled s g m c t.cause →
    TwinWithdrawn s gid x k (s.takeTrap gid m pc word t) ∧
    ∃ h, (s.takeTrap gid m pc word t).grp gid = some h ∧ SameRegs g h ∧ h.ops = g.ops ∧
      ∀ l, (h.lane l).pc = (g.lane l).pc)

/-- A word that is illegal for the kernel counts and traps (R44, R53, R55, R116, R385); with its safe point overdue any other word
traps with the number of words since the last (R81). A fragment of helper lanes alone ends instead (R54). Which bit of the feature word
each word needs is the model's reading (log entry 10). -/
def Obligations.TrapsBeforeAWord : Prop :=
  ∀ i s c g, (encode i).isSome = true → s.cur = some c → s.grp c.grp = some g → g.nonHelpers c.lanes ≠ 0 →
    (s.illegalHere g i = true →
      ∃ d, exec i s = .next ((s.setGrp c.grp (g.count c (g.counts c false && decide (g.spCount < s.spLimit g)))).trapAt c
        { cause := 1, detail := d }) ∧ (d = 0 ∨ d = 2)) ∧
    (s.illegalHere g i = false → s.wordReady c g i = true → c.hold = .none → g.inHandler c.lanes = false → i.isSafept = false →
      s.spLimit g ≤ g.spCount → exec i s = .next (s.trapAt c { cause := 0x10, info := g.spCount }))

/-- `BRK`, `TRAP` and `SAFEPT` (R90, R333, R334). `BRK` and `TRAP` act on the executing lanes and the helpers anchored in them,
and the rest of the fragment goes on; `BRK` traps with its code, `TRAP` waits for a release at system scope and parks its lanes
with a service record that holds its registers as the word issued; one that waited goes on once its release is complete.
`SAFEPT` in a group that is not to stop only clears the distance and notes its number. -/
def Obligations.TrapWords : Prop :=
  (∀ gd code s c g, Ready (.brk gd code) s c g → goes c (counted (.brk gd code) c g) gd ≠ 0 →
    exec (.brk gd code) s = .next (((began (.brk gd code) s c g).setGrp c.grp ((counted (.brk gd code) c g).advance
      (c.lanes &&& ~~~((counted (.brk gd code) c g).trapping c.lanes (goes c (counted (.brk gd code) c g) gd))))).takeTrap c.grp
      ((counted (.brk gd code) c g).trapping c.lanes (goes c (counted (.brk gd code) c g) gd)) c.pc c.word
      { cause := 0x20, info := code.toNat })) ∧
  (∀ gd code s c g, Ready (.trap gd code) s c g → goes c g gd ≠ 0 → s.ckpt g = false →
    (began (.trap gd code) s c g).released c.grp (counted (.trap gd code) c g) s.nextId
      (g.trapping c.lanes (goes c g gd)) .sys (s.tenantScope g) = true →
    ServiceCalled gd code s c g g) ∧
  (∀ gd code s c g n all sc, s.cur = some c → s.grp c.grp = some g → s.illegalHere g (.trap gd code) = false →
    s.wordReady c g (.trap gd code) = true → s.ckpt g = false → c.hold = .gate n all sc →
    goes c (g.asIssued c.hold) gd ≠ 0 → ServiceCalled gd code s c g (g.asIssued c.hold)) ∧
  (∀ gd code s c g, Ready (.trap gd code) s c g → goes c g gd ≠ 0 → s.ckpt g = false → c.hold = .none →
    (began (.trap gd code) s c g).released c.grp (counted (.trap gd code) c g) s.nextId
      (g.trapping c.lanes (goes c g gd)) .sys (s.tenantScope g) = false →
    ∃ u h, exec (.trap gd code) s = .next u ∧ u.grp c.grp = some h ∧ SameMem s u ∧ SameRegs g h ∧
      SMap.find h.snaps s.nextId = some ⟨g.v, g.shadow, g.s, g.p⟩ ∧ (∀ j, j ≠ c.grp → u.grp j = s.grp j) ∧
      ∀ l, Mask.has (goes c g gd) l = true → (g.lane l).st = .running →
        (h.lane l).hold = .gate s.nextId false .sys ∧ (h.lane l).pc = (g.lane l).pc) ∧
  (∀ id s c g, Ready (.safept id) s c g → g.flagged = false →
    ∃ u h, exec (.safept id) s = .next u ∧ u.grp c.grp = some h ∧ OnlyGroup c.grp s u ∧ Advanced c g h ∧ Unwritten {} g h ∧
      h.spCount = 0 ∧ h.spLast = some id.toNat)

/-- Entering a handler and leaving it (R329, R331). The report is stored at the group's slot of the report area and the fragment
stands at the handler with the slot's address in v0:v1 and its own v0:v1 and PC kept; its lanes read the report's 64 bytes back. `ERET` goes back to the word, behind it, or to the PCs
of a register pair, and gives v0:v1 back unless told to keep them; outside a handler it traps. -/
def Obligations.HandlerEntryAndReturn : Prop :=
  (∀ k l s g tw pa s1, s.grp k = some g → g.entersNext l = true →
    g.traps.find? (fun w => Mask.has w.rep.lanes l) = some tw → g.reportOp = none →
    s.released k g s.nextId (g.trapLanes tw.rep) .grp false = true → g.reportSlot tw.area < 2 ^ 56 →
    (s.setGrp k g.endReport).xlat (s.ctxNum g) (g.reportSlot tw.area) .write = (.ok (.dev pa), s1) →
    s.accessFree g ⟨l, g.trapLanes tw.rep, g.reportSlot tw.area, 64, .dev pa, [], .ready⟩ false = true →
    s.holders g.blk [pa / 128] = [] →
    ∃ u h, exec (.handlerEntry k l) s = .next u ∧ u.grp k = some h ∧
      (∃ d, Stored k s1.nextId g (g.trapLanes tw.rep) (.dev pa) (withOffsets tw.rep.bytes) d s1 u) ∧
      (s1.ckpt g = false → s1.invis = [] → ∀ i b, tw.rep.bytes[i]? = some b →
        ∀ j, Mask.has (g.trapLanes tw.rep) j = true → u.devByte k j (pa + i) = b) ∧
      ∀ i, i < 64 → Mask.has (g.trapLanes tw.rep) i = true → (g.lane i).st = .running →
        h.rv 0 i = BitVec.ofNat 32 (g.reportSlot tw.area) ∧ h.rv 1 i = BitVec.ofNat 32 (g.reportSlot tw.area / 2 ^ 32) ∧
        (h.lane i).pc = BitVec.ofNat 56 tw.handler ∧ (h.lane i).hnd = some (g.lane i).pc ∧
        (h.lane i).saved = some (g.rv 0 i, g.rv 1 i) ∧ (∀ n, 2 ≤ n → h.rv n i = g.rv n i)) ∧
  (∀ keep m s c g, Ready (.eret keep m) s c g → g.inHandler (g.nonHelpers c.lanes) = false → g.nonHelpers c.lanes ≠ 0 →
    exec (.eret keep m) s = .next ((began (.eret keep m) s c g).trapAt c { cause := 0x1E })) ∧
  (∀ keep (nx : Bool) s c g, Ready (.eret keep (if nx then .next else .retry)) s c g → g.inHandler (g.nonHelpers c.lanes) = true →
    ∃ u h, exec (.eret keep (if nx then .next else .retry)) s = .next u ∧ u.grp c.grp = some h ∧ OnlyGroup c.grp s u ∧
      ∀ l, l < 64 → Mask.has (g.nonHelpers c.lanes) l = true → (g.lane l).st = .running →
        (h.lane l).pc = (((g.lane l).hnd).getD 0) + (if nx then 8 else 0) ∧ (h.lane l).hnd = none ∧ (h.lane l).st = .running ∧
        h.rv 0 l = (if keep then g.rv 0 l else ((g.lane l).saved.map (·.1)).getD (g.rv 0 l)) ∧
        h.rv 1 l = (if keep then g.rv 1 l else ((g.lane l).saved.map (·.2)).getD (g.rv 1 l)) ∧ (∀ n, 2 ≤ n → h.rv n l = g.rv n l)) ∧
  (∀ keep va sm st s c g k, Ready (.eret keep (.x va sm st)) s c g → g.inHandler (g.nonHelpers c.lanes) = true →
    (∀ l ∈ Mask.lanes (g.nonHelpers c.lanes &&& g.rs64 sm.toNat),
      (g.rv64 va.toNat l).toNat % 8 = 0 ∧ (g.rv64 va.toNat l).toNat < 2 ^ 56) →
    (∀ l j, Mask.has (g.rs64 sm.toNat) l = true → (g.lane l).st = .arrived j →
      (g.rs64 st.toNat).toNat % 8 = 0 ∧ (g.rs64 st.toNat).toNat < 2 ^ 56) →
    k < 64 → Mask.has (g.nonHelpers c.lanes) k = true → Mask.has (g.rs64 sm.toNat) k = true → (g.lane k).st = .running →
    ∃ u h, exec (.eret keep (.x va sm st)) s = .next u ∧ u.grp c.grp = some h ∧ OnlyGroup c.grp s u ∧
      ∀ l, l < 64 → Mask.has (g.nonHelpers c.lanes) l = true → (g.lane l).st = .running →
        (h.lane l).hnd = none ∧
        (Mask.has (g.rs64 sm.toNat) l = true → (h.lane l).st = .running ∧ (h.lane l).pc = (g.rv64 va.toNat l).setWidth 56) ∧
        (Mask.has (g.rs64 sm.toNat) l = false → (h.lane l).st = .exited ∨ (h.lane l).st = .helper))

/-! ## Memory words -/

namespace Sys2Proof.Claims
open Sys2Proof.Machine Sys2Proof.Safety

/-- Checkpointed blocks hold nothing of the tables that a context's translations walk (R213, R309). -/
def Unheld (s : State) (ctx : Nat) : Prop := ∀ va, s.holders 0 (s.walkLines ctx va) = []

/-- No checkpointed block holds anything (R213). -/
def NoneHeld (s : State) : Prop := ∀ q ∈ s.blocks, q.2.holdsNone = true

/-- What a memory word asks for: its counter, operation, order field, executing lanes, and its accesses or the trap of its
checks. -/
structure MemWord where
  ctr : Ctr
  kind : OpKind
  order : Order
  ex : Mask
  accs : Except Trap (List LaneAcc × State)

/-- The requests of the memory words that issue one operation and go on (R226 to R246). -/
def memWord (s : State) (c : Issue) (g : Group) : Instr → Option MemWord
  | .ld w o _ gd d a => some ⟨.ld, .load d w, o, exFor g c.lanes gd d, s.memTry g (exFor g c.lanes gd d) (loadReq a w.bytes (globalEa a))⟩
  | .st w o _ gd d a =>
    some ⟨.st, .store, o, g.guarded c.lanes gd, s.memTry g (g.guarded c.lanes gd) (storeReq a.uniform (.v d) w (globalEa a))⟩
  | .lds w gd d a => some ⟨.ld, .load d w, noOrder, exFor g c.lanes gd d,
      s.scratchTry g (exFor g c.lanes gd d) (loadReq a w.bytes (offsetEa a))⟩
  | .sts w gd d a => some ⟨.st, .store, noOrder, g.guarded c.lanes gd,
      s.scratchTry g (g.guarded c.lanes gd) (storeReq a.uniform (.v d) w (offsetEa a))⟩
  | .ldc w bank gd d a => some ⟨.ld, .ldc d w, noOrder, exFor g c.lanes gd d,
      s.constTry g (exFor g c.lanes gd d) bank.toNat (loadReq a w.bytes (offsetEa a))⟩
  | .stfe true w o gd d a => some ⟨.st, .stfe, o, g.guarded c.lanes gd,
      s.scratchTry g (g.guarded c.lanes gd) { storeReq a.uniform (.v d) w (offsetEa a) with store := false }⟩
  | .stfe false w o gd d a => some ⟨.st, .stfe, o, g.guarded c.lanes gd,
      s.memTry g (g.guarded c.lanes gd) { storeReq a.uniform (.v d) w (globalEa a) with store := false, fe := true }⟩
  | .ldL w gd d base off => some ⟨.ld, .load d w, noOrder, exFor g c.lanes gd d,
      s.memTry g (exFor g c.lanes gd d) { loadReq ⟨.s base, .imm 0⟩ w.bytes (longEa base off) with uni := true }⟩
  | .stL w gd d base off => some ⟨.st, .store, noOrder, exFor g c.lanes gd d,
      s.memTry g (exFor g c.lanes gd d) (storeReq true d w (longEa base off))⟩
  | .atom op ty o gd d a x => some ⟨.ld, .atom op ty d (operands g (exFor g c.lanes gd d) (a.uniform && x.isS) (atomVal ty x g)), o, exFor g c.lanes gd d,
      s.memTry g (exFor g c.lanes gd d) (atomReq a.uniform (atyBytes ty) (globalEa a)
        (fun h l => leBytes 8 (atomVal ty x h l).toNat))⟩
  | .red op ty o gd d a => some ⟨.st, .red op ty (operands g (g.guarded c.lanes gd) false (atomVal ty (.v d) g)), o, g.guarded c.lanes gd,
      s.memTry g (g.guarded c.lanes gd) (atomReq a.uniform (atyBytes ty) (globalEa a)
        (fun h l => leBytes 8 (atomVal ty (.v d) h l).toNat))⟩
  | .atomc w o gd d a x y => some ⟨.ld, .atomc w d (operands g (exFor g c.lanes gd d) (a.isS && x.isS && y.isS) (fun l => leNat (Machine.valBytes w.bytes x g l)))
      (operands g (exFor g c.lanes gd d) (a.isS && x.isS && y.isS)
        (fun l => leNat (Machine.valBytes w.bytes y g l))), o, exFor g c.lanes gd d,
      s.memTry g (exFor g c.lanes gd d) (atomReq a.isS w.bytes (fun h l => a.get64 h l)
        (fun h l => Machine.valBytes w.bytes x h l ++ Machine.valBytes w.bytes y h l))⟩
  | .flushH gd (some m) => some ⟨.st, .flushH false, noOrder, g.guarded c.lanes gd, s.cacheTry g (g.guarded c.lanes gd) m⟩
  | .invalH gd (some m) => some ⟨.st, .invalH false, noOrder, g.guarded c.lanes gd, s.cacheTry g (g.guarded c.lanes gd) m⟩
  | _ => none

/-- No byte of memory and no group but one has changed. -/
def Quiet (k : Nat) (s t : State) : Prop := SameMem s t ∧ ∀ j, j ≠ k → t.grp j = s.grp j

/-- An operation stands among those outstanding: the newest of its counter, still to be performed (R132). -/
def Outstanding (c : Issue) (g h : Group) (k : Ctr) (kind : OpKind) (o : Order) (as : List LaneAcc) : Prop :=
  h.issued = g.issued.inc k ∧ ∃ x ∈ h.ops, x.ctr = k ∧ x.num = g.issued.get k + 1 ∧ x.kind = kind ∧ x.order = o ∧ x.lanes = as ∧
    x.done = false ∧ x.pc = c.pc.toNat ∧ x.word = c.word

end Sys2Proof.Claims

/-- Loads, stores, atomics and cache control issue (R55, R132, R215, R227). The accesses that the word's checks give stand as the
newest operation of its counter, a 16-byte access to host memory as its two halves; the fragment is at the next word, and no
register and no byte of memory has changed, a word with a release included: its accesses are performed once the release is met.
A failed check traps, and the word has no effect. A word whose base and offset are scalar makes one access for its lanes: the
model's reading (log entry 12); one that no lane executes counts and completes at once (log entry 53). -/
def Obligations.MemoryWordsIssue : Prop :=
  ∀ i s c g w, Ready i s c g → Claims.Unheld s (s.ctxNum g) →
    Claims.memWord (began i s c g) c (counted i c g) i = some w →
    (∀ as s1, w.accs = .ok (as, s1) →
      ∃ t h, exec i s = .next t ∧ t.grp c.grp = some h ∧ Quiet c.grp s t ∧ Advanced c g h ∧ SameRegs g h ∧
        (as ≠ [] → Outstanding c g h w.ctr w.kind w.order (if w.kind.splits then as.flatMap LaneAcc.halves else as))) ∧
    (∀ tr, w.accs = .error tr → g.nonHelpers c.lanes ≠ 0 → exec i s = .next ((began i s c g).trapAt c tr))

/-- The checks of a memory word (R226, R227). A word that passes them has an access for every lane taking part that is no
helper, each aligned, in the 56-bit space and at its own lane's address; of several lanes of a store that name one place the
highest makes the store, and no two of the accesses of a store name one place. A misaligned lane fails first, and with it, for
more than 8 bytes, a lane of the bell window (R224); then a lane outside the space. Checking changes no memory, group or block.
One access for the lanes of a word whose base and offset are scalar is the model's reading (log entry 12). -/
def Obligations.MemoryChecks : Prop :=
  ∀ s g ex r, Claims.Unheld s (s.ctxNum g) →
    (∀ as s1, s.memTry g ex r = .ok (as, s1) →
      SameMem s s1 ∧ s1.groups = s.groups ∧ s1.blocks = s.blocks ∧
      (∀ a ∈ as, a.n = r.n ∧ a.lane ∈ r.lanes g ex ∧ a.va = (r.ea g a.lane).toNat ∧ a.va % r.n = 0 ∧ a.va < 2 ^ 56 ∧
        a.data = withOffsets (r.data g a.lane) ∧ (r.store = false → a.who = r.who g ex a.lane)) ∧
      (∀ l ∈ r.lanes g ex, g.isHelper l = false →
        ∃ a ∈ as, r.who g ex l &&& ~~~a.who = 0 ∧ l ≤ a.lane ∧ (r.store = false → a.va = (r.ea g l).toNat)) ∧
      (r.store = true → as.Pairwise (fun a b => b.same a = false))) ∧
    (∀ l ls, (r.lanes g ex).filter (fun l => !g.isHelper l && (r.ea g l).toNat % r.n != 0) = l :: ls →
      ∃ k ∈ r.lanes g ex, k ≤ l ∧ (r.n ≤ 8 → k = l) ∧ s.memTry g ex r = .error { cause := 3, addr := (r.ea g k).toNat }) ∧
    (∀ l ls, (r.lanes g ex).filter (fun l => !g.isHelper l && (r.ea g l).toNat % r.n != 0) = [] → r.n ≤ 8 →
      (r.lanes g ex).filter (fun l => !g.isHelper l && decide (2 ^ 56 ≤ (r.ea g l).toNat)) = l :: ls →
      s.memTry g ex r = .error { cause := 4, addr := (r.ea g l).toNat })

/-- Translation with nothing cached (R305 to R311). A walk of four tables ends in the leaf of the last; a PRESENT leaf gives
the byte of its page in its space where it permits the access; a NOT-PRESENT, forbidden or MIGRATING one a page fault; a
POISONED one its trap, and a REMOTE one its package. Stated with no cached translation; which cached translation serves is
free (log entry 11); with no region of device memory moving or retired, no poisoned table, and nothing of the tables held by a
checkpointed block. -/
def Obligations.AddressTranslation : Prop :=
  (∀ (s : State) n (c : Ctx) va e4 e3 e2 e1 e0, s.ctxs.find n = some c → va < 2 ^ 55 →
    s.mgmt.moving = none → s.mgmt.retired = [] → s.poison = [] →
    Memory.read s.mem (c.root + 8 * (va / 2 ^ 48 % 512)) 8 = BitVec.toNat e4 →
    Memory.read s.mem (pteFrame e4 + 8 * (va / 2 ^ 39 % 512)) 8 = BitVec.toNat e3 →
    Memory.read s.mem (pteFrame e3 + 8 * (va / 2 ^ 30 % 512)) 8 = BitVec.toNat e2 →
    Memory.read s.mem (pteFrame e2 + 8 * (va / 2 ^ 21 % 512)) 8 = BitVec.toNat e1 →
    Memory.read s.mem (pteFrame e1 + 8 * (va / 2 ^ 12 % 512)) 8 = BitVec.toNat e0 →
    (∀ e ∈ [e4, e3, e2, e1], pteKind e = 5 ∧ pteReserved e = 0 ∧ pteSpace e = 0 ∧ ptePkg e = 0 ∧ pteC64 e = false ∧
      pteFrame e + 4096 ≤ Config.deviceBytes) →
    pteC64 e0 = false → leafOk e0 0 va = true → s.walk n va = .leaf e0 0) ∧
  (∀ (s : State) n va (a : Access) e lv, s.tlb = [] → Claims.Unheld s n → s.walkFor a.ofEngine n va = .leaf e lv →
    (pteKind e = 0 → (s.xlat n va a).1 = .fault 0 false) ∧
    (pteKind e = 1 → ((a.writes = true ∧ pteWrite e = false) ∨ (a = .fetch ∧ pteExec e = false)) →
      (s.xlat n va a).1 = .fault 1 false) ∧
    (pteKind e = 1 → (a.writes = true → pteWrite e = true) → (a = .fetch → pteExec e = true) →
      s.mgmt.moving = none → s.mgmt.retired = [] →
      (s.xlat n va a).1 = .ok (if pteSpace e = 0 then .dev (pteFrame e + va % pageSize lv false)
        else if pteSpace e = 1 then .host (pteFrame e + va % pageSize lv false)
        else .bell (pteFrame e + va % pageSize lv false))) ∧
    (pteKind e = 2 → a = .pod → pteWrite e = false → (s.xlat n va a).1 = .fault 2 false) ∧
    (pteKind e = 2 → (a = .pod → pteWrite e = true) →
      (s.xlat n va a).1 = .remote (ptePkg e) (pteFrame e + va % pageSize lv false)) ∧
    (pteKind e = 3 → (s.xlat n va a).1 = .fault 3 true) ∧ (pteKind e = 4 → (s.xlat n va a).1 = .poisoned)) ∧
  (∀ (s : State) n va (a : Access), s.tlb = [] → Claims.Unheld s n → s.walkFor a.ofEngine n va = .malformed → (s.xlat n va a).1 = .bad)

/-- Words that act on memory in their own way (R195, R237, R240, R242, R243, R248, R264). `LDFE` holds its fragment until its
accesses are done and then goes on; `MCAS` goes on with its accesses outstanding; `LDP` and `STP` name one remote line; a fence
with its conditions met goes on, and otherwise waits; `PREF` only goes on; `.all` cache control acts for the group. -/
def Obligations.OtherMemoryWords : Prop :=
  (∀ clr scr w o gd d a s c g as s1 r, Ready (.ldfe clr scr w o gd d a) s c g → Claims.Unheld s (s.ctxNum g) → c.hold = .none → g.flagged = false →
    r = loadReq a w.bytes (if scr then offsetEa a else globalEa a) →
    (if scr then (began (.ldfe clr scr w o gd d a) s c g).scratchTry (counted (.ldfe clr scr w o gd d a) c g)
        (maskFilter (exFor g c.lanes gd d) (fun l => !(g.lane l).feDone)) r
      else (began (.ldfe clr scr w o gd d a) s c g).memTry (counted (.ldfe clr scr w o gd d a) c g)
        (maskFilter (exFor g c.lanes gd d) (fun l => !(g.lane l).feDone)) { r with fe := true }) = .ok (as, s1) →
    ∃ t h, exec (.ldfe clr scr w o gd d a) s = .next t ∧ t.grp c.grp = some h ∧ Quiet c.grp s t ∧ SameRegs g h ∧
      (as = [] → Advanced c g h) ∧
      (as ≠ [] → Outstanding c g h .ld (.ldfe d w clr) o as ∧ ∀ l, (h.lane l).pc = (g.lane l).pc)) ∧
  (∀ clr scr w o gd d a s c g id, Ready (.ldfe clr scr w o gd d a) s c g → c.hold = .op id →
    ∃ t h, exec (.ldfe clr scr w o gd d a) s = .next t ∧ t.grp c.grp = some h ∧ OnlyGroup c.grp s t ∧ Advanced c g h ∧ Unwritten {} g h) ∧
  (∀ llc wr gd a s c g, Ready (.pref llc wr gd a) s c g →
    ∃ t h, exec (.pref llc wr gd a) s = .next t ∧ t.grp c.grp = some h ∧ OnlyGroup c.grp s t ∧ Advanced c g h ∧ Unwritten {} g h) ∧
  (∀ o gd s c g, Ready (.fence o gd) s c g →
    (g.guarded c.lanes gd = 0 ∨ c.hold = .ready ∨ ((o.acq = true → g.acquired (g.guarded c.lanes gd) = true) ∧
      (o.rel = true → (began (.fence o gd) s c g).released c.grp (counted (.fence o gd) c g) s.nextId (g.guarded c.lanes gd) o.scope
        (s.tenantScope g) = true))) →
    ∃ t h, exec (.fence o gd) s = .next t ∧ t.grp c.grp = some h ∧ Quiet c.grp s t ∧ Advanced c g h ∧ Unwritten {} g h) ∧
  (∀ o gd s c g, Ready (.fence o gd) s c g → g.guarded c.lanes gd ≠ 0 → c.hold = .none → o.acq = true →
    g.acquired (g.guarded c.lanes gd) = false →
    ∃ t h, exec (.fence o gd) s = .next t ∧ t.grp c.grp = some h ∧ Quiet c.grp s t ∧ Unwritten {} g h ∧
      ∀ l, (h.lane l).pc = (g.lane l).pc ∧
        (Mask.has c.lanes l = true → (g.lane l).st = .running → (h.lane l).hold = .release true o.rel o.scope)) ∧
  (∀ i k gd s c g, (i = .flushH gd none ∧ k = .flushH true ∨ i = .invalH gd none ∧ k = .invalH true) → Ready i s c g →
    g.nonHelpers (g.guarded c.lanes gd) ≠ 0 →
    ∃ t h, exec i s = .next t ∧ t.grp c.grp = some h ∧ Quiet c.grp s t ∧ Advanced c g h ∧ SameRegs g h ∧
      Outstanding c g h .st k noOrder []) ∧
  (∀ gd a ln (st : Bool) i s c g p pa s1, i = (if st then .stp gd a ln else .ldp gd a ln) → Ready i s c g → Claims.Unheld s (s.ctxNum g) →
    g.nonHelpers (g.guarded c.lanes gd) ≠ 0 → (g.rs64 a.toNat).toNat % 128 = 0 → (g.rs64 a.toNat).toNat < 2 ^ 56 →
    128 * (ln.get g 0 .zext).toNat + 128 ≤ (s.descOf g).scratch → s.owned = [] →
    (began i s c g).xlat (s.ctxNum g) (g.rs64 a.toNat).toNat (if st then .pod else .read) = (.remote p pa, s1) →
    ∃ t h x, exec i s = .next t ∧ t.grp c.grp = some h ∧ Quiet c.grp s t ∧ Advanced c g h ∧ SameRegs g h ∧
      Outstanding c g h (if st then .st else .ld) (if st then .stp else .ldp (ln.get g 0 .zext).toNat) noOrder [x] ∧
      x.phys = .remote p pa ∧ x.n = 128 ∧ x.data = (if st then (List.range 128).map (fun i =>
        (i, SMap.getD (((s.blkOf g).map (·.scratch)).getD []) (128 * (ln.get g 0 .zext).toNat + i) (0 : Byte))) else [])) ∧
  (∀ gd d a s c g s1 as, Ready (.tbld gd d a) s c g → Claims.Unheld s (s.ctxNum g) → g.nonHelpers (g.guarded c.lanes gd) ≠ 0 →
    (g.rs64 a.toNat).toNat % 64 = 0 →
    (began (.tbld gd d a) s c g).tryAll (s.ldOf g) (s.ctxNum g) .read ((List.range 33).map (fun i =>
      ((Mask.lanes (g.nonHelpers (g.guarded c.lanes gd))).headD 0, g.rs64 a.toNat + BitVec.ofNat 64 (64 * i)))) = (as, s1) →
    (∀ x ∈ as, x.cause = 0 ∧ ∃ b, x.acc = some b ∧ b.st ≠ .failed) →
    ∃ t h, exec (.tbld gd d a) s = .next t ∧ t.grp c.grp = some h ∧ Quiet c.grp s t ∧ SameRegs g h ∧
      Outstanding c g h .ld (.tbld d.toNat (g.rs64 a.toNat).toNat) noOrder ((okAccs as).map (fun x =>
        { x with n := 64, who := g.nonHelpers (g.guarded c.lanes gd) })) ∧
      ((∀ b ∈ okAccs as, b.waiting = false) → Advanced c g h) ∧
      ((∃ b ∈ okAccs as, b.waiting = true) → ∀ l, (h.lane l).pc = (g.lane l).pc ∧
        (Mask.has c.lanes l = true → (g.lane l).st = .running → ∃ id, (h.lane l).hold = .busy id))) ∧
  (∀ o gd d (a : Reg) n s c g G l b s1 e s2 v, Ready (.mcas o gd d a n) s c g → Claims.Unheld s (s.ctxNum g) → G = counted (.mcas o gd d a n) c g →
    g.shadow = [] → Mask.lanes (g.nonHelpers (exFor g c.lanes gd d)) = [l] → G.lanesClear (G.nonHelpers (exFor g c.lanes gd d)) = true →
    (a.get64 g l).toNat % 8 = 0 → 1 ≤ mcasCount n g l → mcasCount n g l ≤ 8 →
    (began (.mcas o gd d a n) s c g).tryAll (s.ldOf g) (s.ctxNum g) .write ((List.range (3 * mcasCount n g l)).map (fun i =>
      (l, a.get64 g l + BitVec.ofNat 64 (8 * i)))) = (b, s1) →
    s1.holders g.blk (b.filterMap (fun x => x.devAddr.map (· / 128))) = [] →
    (∀ x ∈ b, x.cause = 0 ∧ (x.acc.map (·.st)) = some .ready ∧ s1.accessFree G ⟨l, 0, 0, 8, x.phys, [], .ready⟩ true = true) →
    v = s1.readBlock c.grp 0 G l (b.map (·.phys)) → (∀ i, i < mcasCount n g l → v.getD (3 * i) 0 % 8 = 0) →
    s1.tryAll (s.ldOf g) (s.ctxNum g) .write ((List.range (mcasCount n g l)).map (fun i =>
      (l, BitVec.ofNat 64 (v.getD (3 * i) 0)))) = (e, s2) →
    (∀ x ∈ e, x.cause = 0 ∧ (x.acc.map (·.st)) = some .ready ∧ ∃ pa, x.phys = .dev pa) → (e.map (·.phys)).Nodup →
    ∃ t h as, exec (.mcas o gd d a n) s = .next t ∧ t.grp c.grp = some h ∧ Quiet c.grp s t ∧ Advanced c g h ∧ SameRegs g h ∧
      Outstanding c g h .ld (.mcas d [(l, (a.get64 g l).toNat, b.map (·.phys))] [(l, e.filterMap (fun t => t.devAddr.map (fun pa => (t.va, pa))))]
        ⟨[l], [], 0, false, [], [], none⟩) o as)

/-! ## Accesses performed -/

namespace Sys2Proof.Claims
open Sys2Proof.Machine Sys2Proof.Safety

/-- An outstanding operation of a group, on none of whose lines another block holds stores back (R213), and whose lines find a way
in the local array (R216). -/
structure Pending (s : State) (k id : Nat) (g : Group) (o : PendOp) : Prop where
  grp : s.grp k = some g
  op : g.op id = some o
  live : o.done = false
  held : s.holders g.blk (o.devLines s.pkg) = []
  room : s.crowders g o = []

/-- One access may be performed: it is translated, the order of R256 and R257 allows it, and nothing owns, locks or poisons its
line. -/
structure Performable (s : State) (k : Nat) (g : Group) (o : PendOp) (a : LaneAcc) (wr rd : Bool) : Prop where
  ready : a.st = .ready
  order : s.mayPerform k g o a wr = true
  free : s.accessFree g a rd = true
  share : s.shareOk k a = true

/-- A register run of every lane of a mask holds these words; other registers and lanes are as they were. vz and sz hold nothing
(R38). -/
def Loaded (g h : Group) (d : Reg) (who : Mask) (ws : List Word) : Prop :=
  match d with
  | .v n => (∀ m, h.rs m = g.rs m) ∧ (n.toNat = 255 → ∀ m l, l < 64 → h.rv m l = g.rv m l) ∧ (n.toNat + ws.length ≤ 255 →
      ∀ m l, l < 64 → h.rv m l = if Mask.has who l ∧ n.toNat ≤ m ∧ m < n.toNat + ws.length then ws.getD (m - n.toNat) 0 else g.rv m l)
  | .s n => (∀ m l, h.rv m l = g.rv m l) ∧ (n.toNat = 63 → ∀ m, h.rs m = g.rs m) ∧ (n.toNat + ws.length ≤ 63 → who ≠ 0 →
      ∀ m, h.rs m = if n.toNat ≤ m ∧ m < n.toNat + ws.length then ws.getD (m - n.toNat) 0 else g.rs m)

/-- Exactly these bytes of a memory have changed, to these values. -/
def BytesSet (m m' : List Host.Cell) (a : Nat) (bs : List Byte) : Prop :=
  ∀ x, Memory.get m' x = if a ≤ x ∧ x < a + bs.length then bs.getD (x - a) 0 else Memory.get m x

/-- What an atomic has written: in device memory exactly its bytes; in host memory exactly its bytes, a dirty copy of the line having
been written back first (R223). -/
def AtomWritten (s t : State) (k : Nat) (g : Group) (a : LaneAcc) (v : Nat) : Prop :=
  (∀ pa, a.phys = .dev pa → t.hostMem = s.hostMem ∧ BytesSet s.mem t.mem pa (leBytes a.n v)) ∧
  (∀ pa, a.phys = .host pa → t.mem = s.mem ∧ BytesSet (s.atomRead k g a).2.hostMem t.hostMem pa (leBytes a.n v))

/-- The dirty bytes of some halves of a core's host lines have reached host memory, and no other byte of it has changed; the bridge
holds those halves Modified (R223, R243). -/
def FlushedTo (c : Core) (halves : List Nat) (s t : State) : Prop :=
  (∀ x, Memory.get t.hostMem x =
    if x ∈ c.hdirty ∧ x / 64 ∈ halves then SMap.getD c.hdata x 0 else Memory.get s.hostMem x) ∧
  ∀ x ∈ c.hdirty, x / 64 ∈ halves → t.bridge.find (x / 64) = some .modified

/-- A word of memory, no write to which waits to become visible. -/
def plainRead (s : State) (pa n : Nat) : List Byte := (List.range n).map (fun i => Memory.get s.mem (pa + i))

end Sys2Proof.Claims

/-- The returns of loads (R195, R231, R233, R236, R237, R240, R154): the bytes the access reads go to the destination run of the
lanes it stands for, and no other register and no byte of memory changes; device memory is read as it stands. `LDFE` returns when
its granule is full and `.clr` empties that granule; an image loaded by `TBLD` becomes the current table; a refilled `RET` goes on
at the address read; a pod line of this package goes to scratch with its eight bits. -/
def Obligations.LoadReturns : Prop :=
  (∀ s k id m g o d w a, Claims.Pending s k id g o → o.kind = .load d w → o.named m (Config.freeBit s.free) = [a] →
    Performable s k g o a false true →
    ∃ t h, exec (.loadComplete k id m) s = .next t ∧ t.grp k = some h ∧ Quiet k s t ∧
      Loaded g h (loadedWords d w a (s.readPhys k g a.lane a.phys a.n).1).1 (if d.isS then a.who else a.who &&& m)
        (loadedWords d w a (s.readPhys k g a.lane a.phys a.n).1).2 ∧
      (d.isS = false → a.who &&& ~~~(a.who &&& m) ≠ 0 → ∃ y, h.op id = some y ∧
        { a with who := a.who &&& ~~~(a.who &&& m), data := withOffsets (s.readPhys k g a.lane a.phys a.n).1, st := .got } ∈ y.lanes)) ∧
  (∀ s k id m g o d w a, Claims.Pending s k id g o → o.kind = .load d w → d.isS = false → o.named m (Config.freeBit s.free) = [a] →
    a.st = .got →
    ∃ t h, exec (.loadComplete k id m) s = .next t ∧ t.grp k = some h ∧ Quiet k s t ∧
      Loaded g h (loadedWords d w a (a.data.map (·.2))).1 (a.who &&& m) (loadedWords d w a (a.data.map (·.2))).2) ∧
  (∀ s k g l pa n, s.invis = [] → ((s.blkOf g).map (·.held)).getD [] = [] →
    (s.readPhys k g l (.dev pa) n).1 = plainRead s pa n) ∧
  (∀ s k id m g o d w a pa, Claims.Pending s k id g o → o.kind = .ldc d w → o.named m (Config.freeBit s.free) = [a] →
    a.phys = .dev pa → a.st = .ready → a.n = w.bytes → s.clean pa a.n = true → s.mayPerform k g o a false = true → s.shareOk k a = true →
    SMap.has (((s.gridOf g).map (·.ccache)).getD []) (g.core * 2 ^ 40 + pa) = false →
    ∃ t h, exec (.loadComplete k id m) s = .next t ∧ t.grp k = some h ∧ Quiet k s t ∧
      Loaded g h d (if d.isS then a.who else a.who &&& m) (w.loadWords (plainRead s pa a.n))) ∧
  (∀ s k id l g o d w clr a, Claims.Pending s k id g o → o.kind = .ldfe d w clr → o.lanes = [a] → a.lane = l →
    Performable s k g o a false true → s.granuleFull g a = true → g.nonHelpers a.who ≠ 0 → (clr = true → s.fillsVisible a = true) →
    ∃ t h, exec (.ldfeLaneComplete k id l) s = .next t ∧ t.grp k = some h ∧ Quiet k s t ∧
      Loaded g h d a.who (w.loadWords (s.readPhys k g a.lane a.phys a.n).1) ∧ (clr = false → t.full = s.full) ∧
      (∀ pa, a.phys = .dev pa → s.ckpt g = false → clr = true → t.full = s.full.filter (· != pa / 16)) ∧
      (∀ pa b, a.phys = .dev pa → s.ckpt g = true → s.blocks.find g.blk = some b → clr = true → t.full = s.full ∧
        (t.blocks.find g.blk).map (fun x => x.heldFe.find (pa / 16)) = some (some false)) ∧
      (∀ off b, a.phys = .scratch off → s.blocks.find g.blk = some b → clr = true →
        (t.blocks.find g.blk).map (·.sfe) = some (b.sfe.filter (· != off / 16)))) ∧
  (∀ s k id g o d sa w, Claims.Pending s k id g o → o.kind = .tbld d sa → d < 63 → g.earlierStoresDone id = true →
    w = (fun i => if i < 528 then (BitVec.ofNat 32 (leNat (((o.lanes.flatMap (s.groupBytes k g)).drop (4 * i)).take 4))).toNat else 0) →
    (∀ p ∈ s.groups, p.2.core = g.core → ∀ e ∈ p.2.ops, (∃ d' sa', e.kind = .tbld d' sa') → e.done = true ∨ id ≤ e.id) →
    (∀ a ∈ o.lanes, Performable s k g o a false true) →
    ∃ t h, exec (.tbldLoadComplete k id) s = .next t ∧ t.grp k = some h ∧ SameMem s t ∧
      (∀ i, (t.core g.core).table (s.core g.core).bank i = (s.core g.core).table (s.core g.core).bank i) ∧
      (tableOk w = true → h.rs d = 0 ∧ (t.core g.core).bank = !(s.core g.core).bank ∧
        (t.core g.core).tag (t.core g.core).bank = some (s.ctxNum g, sa) ∧
        ∀ i, i < 528 → (t.core g.core).table (t.core g.core).bank i = w i) ∧
      (tableOk w = false → h.rs d = 2 ∧ (t.core g.core).bank = (s.core g.core).bank ∧
        (t.core g.core).tag (!(s.core g.core).bank) = none)) ∧
  (∀ s k id g o ex l a, Claims.Pending s k id g o → o.kind = .refill ex → o.lanes = [a] → a.lane = l → Mask.lanes ex = [l] →
    Performable s k g o a false true → l < g.lanes.length → l < g.width → (g.lane l).st = .running →
    leNat (s.readPhys k g l a.phys 8).1 < 2 ^ 56 → leNat (s.readPhys k g l a.phys 8).1 % 8 = 0 →
    ∃ t h, exec (.retRefillReturn k id) s = .next t ∧ t.grp k = some h ∧ Quiet k s t ∧ SameRegs g h ∧
      (h.lane l).pc = BitVec.ofNat 56 (leNat (s.readPhys k g l a.phys 8).1) ∧ (h.lane l).depth = (g.lane l).depth - 1) ∧
  (∀ s k id m g o ln a pa, Claims.Pending s k id g o → o.kind = .ldp ln → o.lanes = [a] → a.phys = .remote s.pkg pa → a.st = .ready →
    a.who &&& m ≠ 0 → g.remoteTurn o s.pkg = true → s.podLine pa = true → s.isMoving pa = false → s.owned = [] → s.locks = [] →
    s.clean pa 128 = true → s.invis = [] → (s.blkOf g).isSome = true → ((s.blkOf g).map (·.held)).getD [] = [] →
    ∃ t b, exec (.loadComplete k id m) s = .next t ∧ SameMem s t ∧ t.blocks.find g.blk = some b ∧
      (∀ i, i < 128 → SMap.getD b.scratch (128 * ln + i) 0 = Memory.get s.mem (pa + i)) ∧ ∀ i, i < 8 → 8 * ln + i ∈ b.sfe)

/-- The stores performed (R219, R233, R238, R240, R243, R255). A store to device memory that is visible at once changes exactly the bytes
of its access; one with a later visibility changes none of them yet and is kept with its time. A store to scratch changes the
block's scratch, one to host memory the copy that its core keeps dirty. `STFE` also fills its granule; a delayed store is what
every party reads once its time has come. A flush writes the dirty bytes of the halves to host memory through the bridge, which
holds them Modified; `INVAL.h` then drops the halves. A pod line stored on this package changes its bytes and no full-empty bit. -/
def Obligations.StoresPerformed : Prop :=
  (∀ s k id m delay g o a pa bs, Claims.Pending s k id g o → (o.kind = .store ∨ (o.kind = .stfe ∧ o.lanes = [a])) →
    o.named m (Config.freeBit s.free) = [a] → Performable s k g o a true false → a.phys = .dev pa → a.data = withOffsets bs → s.ckpt g = false → s.invis = [] →
    ∃ t h, exec (.storeAck k id m delay) s = .next t ∧ t.grp k = some h ∧ SameRegs g h ∧ t.hostMem = s.hostMem ∧
      (delay = 0 → BytesSet s.mem t.mem pa bs ∧ t.invis = [] ∧ (o.kind = .stfe → pa / 16 ∈ t.full) ∧ (o.kind = .store → t.full = s.full)) ∧
      (0 < delay → t.mem = s.mem ∧ t.full = s.full ∧
        t.invis = [⟨k, id, a.who, (withOffsets bs).map (fun x => (pa + x.1, x.2)), if o.kind = .stfe then [pa / 16] else [], s.timebase + delay⟩])) ∧
  (∀ s k id m delay g o a off bs b, Claims.Pending s k id g o → o.kind = .store → o.named m (Config.freeBit s.free) = [a] →
    Performable s k g o a true false → a.phys = .scratch off → a.data = withOffsets bs → s.blocks.find g.blk = some b →
    ∃ t c, exec (.storeAck k id m delay) s = .next t ∧ SameMem s t ∧ t.blocks.find g.blk = some c ∧
      ∀ x, SMap.getD c.scratch x 0 = if off ≤ x ∧ x < off + bs.length then bs.getD (x - off) 0 else SMap.getD b.scratch x 0) ∧
  (∀ s k id m delay g o a pa bs, Claims.Pending s k id g o → o.kind = .store → o.named m (Config.freeBit s.free) = [a] →
    Performable s k g o a true false → a.phys = .host pa → a.data = withOffsets bs → s.ckpt g = false →
    ∃ t, exec (.storeAck k id m delay) s = .next t ∧ SameMem s t ∧ ∀ i, i < bs.length →
      SMap.getD (t.core (s.l1Core g)).hdata (pa + i) 0 = bs.getD i 0 ∧ pa + i ∈ (t.core (s.l1Core g)).hdirty) ∧
  (∀ s k id m delay g o all, Claims.Pending s k id g o → o.kind = .flushH all → (∀ a ∈ o.lanes, a.waiting = false) →
    g.hostStoresDone id = true → s.hostHolders (s.l1Core g) all (s.hostHalves g o all) = [] →
    ∃ t, exec (.storeAck k id m delay) s = .next t ∧ t.mem = s.mem ∧ FlushedTo (s.core (s.l1Core g)) (s.hostHalves g o all) s t ∧
      (∀ x ∈ (t.core (s.l1Core g)).hdirty, x / 64 ∉ s.hostHalves g o all) ∧
      (t.core (s.l1Core g)).hdata = (s.core (s.l1Core g)).hdata ∧ (t.core (s.l1Core g)).hvalid = (s.core (s.l1Core g)).hvalid) ∧
  (∀ s k id m delay g o all, Claims.Pending s k id g o → o.kind = .invalH all → (∀ a ∈ o.lanes, a.waiting = false) →
    g.hostStoresDone id = true → s.hostHolders (s.l1Core g) all (s.hostHalves g o all) = [] →
    ∃ t, exec (.storeAck k id m delay) s = .next t ∧ t.mem = s.mem ∧ FlushedTo (s.core (s.l1Core g)) (s.hostHalves g o all) s t ∧
      (∀ x ∈ (t.core (s.l1Core g)).hdirty, x / 64 ∉ s.hostHalves g o all) ∧
      ∀ x ∈ s.hostHalves g o all, x ∉ (t.core (s.l1Core g)).hvalid) ∧
  (∀ s k id m delay g o d v, Claims.Pending s k id g o → o.kind = .status d v → d < 63 →
    ∃ t h, exec (.storeAck k id m delay) s = .next t ∧ t.grp k = some h ∧ Quiet k s t ∧ h.rs d = v ∧
      ∀ n, n ≠ d → h.rs n = g.rs n) ∧
  (∀ s k id m delay g o a pa bs, Claims.Pending s k id g o → o.kind = .stp → o.lanes = [a] → a.phys = .remote s.pkg pa → a.st = .ready →
    a.who &&& m ≠ 0 → a.data = withOffsets bs → g.remoteTurn o s.pkg = true → s.podLine pa = true → s.isMoving pa = false →
    s.owned = [] → s.locks = [] → s.invis = [] → s.relOk k g o a.who = true →
    ∃ t, exec (.storeAck k id m delay) s = .next t ∧ BytesSet s.mem t.mem pa bs ∧ t.full = s.full) ∧
  (∀ (s : State) pa bs w, s.invis = [w] → w.bytes = (withOffsets bs).map (fun x => (pa + x.1, x.2)) →
    (w.vis ≤ s.tick.timebase → s.tick.invis = [] ∧ BytesSet s.mem s.tick.mem pa bs ∧ ∀ x ∈ w.fe, x ∈ s.tick.full) ∧
    (s.tick.timebase < w.vis → s.tick.invis = [w] ∧ s.tick.mem = s.mem ∧ s.tick.full = s.full))

/-- Atomics performed (R226, R245, R247): one read and one write of the location, nothing between. The lanes that share an access
make their operations in ascending order, and each gets the value before its own (log entry 12). The destination lanes get the
old value, memory the new one and no other byte changes; `ATOMC` writes only where the old value is the expected one; `RED` has no
destination. -/
def Obligations.AtomicsPerformed : Prop :=
  (∀ s k id m g o a op ty d x, Claims.Pending s k id g o → o.kind = .atom op ty d x → o.named m true = [a] → o.lanes = [a] →
    Performable s k g o a true true → s.invis = [] → s.ckpt g = false → ∀ ps, x.filter (fun p => Mask.has a.who p.1) = ps → ps ≠ [] →
    (ps.map (·.1)).Nodup →
    ∃ t h, exec (.atomicPerform k id m 0) s = .next t ∧ t.grp k = some h ∧
      AtomWritten s t k g a (ps.foldl (fun v p => atomNew op ty v p.2.toNat) (s.atomRead k g a).1) ∧
      (ps.length = 1 → Loaded g h d a.who (Machine.valWords a.n (s.atomRead k g a).1)) ∧
      ∀ n i l z, ps.length ≠ 1 → d = .v n → n.toNat < 254 → ps[i]? = some (l, z) → l < 64 → 0 < a.n →
        h.rv n.toNat l = BitVec.ofNat 32 ((ps.take i).foldl (fun v p => atomNew op ty v p.2.toNat) (s.atomRead k g a).1)) ∧
  (∀ s k id m g o a op ty x, Claims.Pending s k id g o → o.kind = .red op ty x → o.named m true = [a] → o.lanes = [a] →
    Performable s k g o a true true → s.invis = [] → s.ckpt g = false → ∀ ps, x.filter (fun p => Mask.has a.who p.1) = ps → ps ≠ [] →
    ∃ t h, exec (.atomicPerform k id m 0) s = .next t ∧ t.grp k = some h ∧ SameRegs g h ∧
      AtomWritten s t k g a (ps.foldl (fun v p => atomNew op ty v p.2.toNat) (s.atomRead k g a).1)) ∧
  (∀ s k id m g o a w d x y, Claims.Pending s k id g o → o.kind = .atomc w d x y → o.named m true = [a] → o.lanes = [a] →
    Performable s k g o a true true → s.invis = [] → s.ckpt g = false → ∀ l z, x.filter (fun p => Mask.has a.who p.1) = [(l, z)] →
    ∃ t h, exec (.atomicPerform k id m 0) s = .next t ∧ t.grp k = some h ∧
      Loaded g h d a.who (Machine.valWords a.n (s.atomRead k g a).1) ∧
      ((s.atomRead k g a).1 = z → AtomWritten s t k g a (SMap.getD y l 0)) ∧
      ((s.atomRead k g a).1 ≠ z → t.mem = s.mem)) ∧
  (∀ s k g a pa, s.invis = [] → a.phys = .dev pa → (s.atomRead k g a).1 = leNat (plainRead s pa a.n)) ∧
  (∀ old x : Nat, ∀ t : ATy, old < 2 ^ (8 * atyBytes t) → x < 2 ^ (8 * atyBytes t) →
    atomNew .exch t old x = x ∧ atomNew .and t old x = old &&& x ∧ atomNew .or t old x = old ||| x ∧ atomNew .xor t old x = old ^^^ x ∧
    (t = .n32 ∨ t = .s32 → atomNew .add t old x = (old + x) % 2 ^ 32) ∧ (t = .n64 ∨ t = .s64 → atomNew .add t old x = (old + x) % 2 ^ 64) ∧
    (t = .n32 ∨ t = .n64 → atomNew .min t old x = min old x ∧ atomNew .max t old x = max old x) ∧
    (t = .s32 → atomNew .min t old x = if readInt true 32 x < readInt true 32 old then x else old))

/-- `MCAS` (R248, R250, R251): a lane takes the lines of its entries in ascending order; with all of them held and every word as
expected all new words are written together, the result is 0 and the locks go; at the first other word nothing is written to an
entry and the result will be its number; a broken lock gives all of them back and starts again, or ends with 9 the sixteenth
time; a lane whose entries an invalidation has hit translates them anew. -/
def Obligations.McasSteps : Prop :=
  (∀ s k id g o d blk ent p l ln v, Claims.Pending s k id g o → o.kind = .mcas d blk ent p → p.todo.head? = some l →
    p.broken = false → p.store = none → (l ∉ p.stale ∨ p.locked ≠ []) →
    (mcasLines (SMap.getD ent l [])).find? (fun x => !p.locked.contains x) = some ln →
    (∀ a ∈ o.ofLane l, a.st = .ready ∧ s.mayPerform k g o a true = true ∧ s.settled k a.who (ln * 128) 128 = true) →
    s.owned = [] → s.locks.find ln = none →
    (p.locked = [] → ∀ x ∈ (SMap.getD blk l (0, [])).2, s.accessFree g ⟨l, 0, 0, 8, x, [], .ready⟩ true = true) →
    v = s.readBlock k id g l (SMap.getD blk l (0, [])).2 →
    ∃ t h, exec (.mcasLockGrant k id) s = .next t ∧ t.grp k = some h ∧ Quiet k s t ∧ SameRegs g h ∧ t.locks.find ln = some (k, id) ∧
      (h.op id).map (·.kind) = some (.mcas d blk ent { p with
        locked := p.locked ++ [ln]
        vals := if p.locked = [] then (List.range ((SMap.getD blk l (0, [])).2.length / 3)).map (fun i =>
          (v.getD (3 * i + 1) 0, v.getD (3 * i + 2) 0)) else p.vals })) ∧
  (∀ s k id g o d blk ent p l a es, es = (SMap.getD ent l []).map (·.2) → Claims.Pending s k id g o → o.kind = .mcas d blk ent p → p.todo.head? = some l → p.broken = false →
    p.store = none → o.lanes.find? (fun x => x.lane == l) = some a → s.invis = [] → s.ckpt g = false →
    (∀ ln ∈ mcasLines (SMap.getD ent l []), ln ∈ p.locked) → (∀ pa ∈ es, s.clean pa 8 = true) →
    es.length = p.vals.length → es.Pairwise (fun x y => x + 8 ≤ y ∨ y + 8 ≤ x) →
    (∀ i, i < p.vals.length → leNat (plainRead s (es.getD i 0) 8) = (p.vals.getD i (0, 0)).1) →
    ∃ t h, exec (.mcasCommit k id 0) s = .next t ∧ t.grp k = some h ∧ Loaded g h d a.who [0] ∧ (∀ q ∈ t.locks, q.2 ≠ (k, id)) ∧
      (∀ i, i < p.vals.length → Memory.bytes t.mem (es.getD i 0) 8 = leBytes 8 (p.vals.getD i (0, 0)).2) ∧
      ∀ x, (∀ pa ∈ es, x < pa ∨ pa + 8 ≤ x) → Memory.get t.mem x = Memory.get s.mem x) ∧
  (∀ s k id g o d blk ent p l i es, es = (SMap.getD ent l []).map (·.2) → Claims.Pending s k id g o → o.kind = .mcas d blk ent p → p.todo.head? = some l → p.broken = false →
    p.store = none → s.invis = [] → (∀ ln ∈ mcasLines (SMap.getD ent l []), ln ∈ p.locked) →
    (∀ pa ∈ es, s.clean pa 8 = true) → i < es.length →
    (∀ j, j < i → leNat (plainRead s (es.getD j 0) 8) = (p.vals.getD j (0, 0)).1) →
    leNat (plainRead s (es.getD i 0) 8) ≠ (p.vals.getD i (0, 0)).1 →
    ∃ t h, exec (.mcasCommit k id 0) s = .next t ∧ t.grp k = some h ∧ Quiet k s t ∧ SameRegs g h ∧ (∀ q ∈ t.locks, q.2 ≠ (k, id)) ∧
      (h.op id).map (·.kind) = some (.mcas d blk ent { p with locked := [], store := some (i + 1,
        es.map (fun pa => leNat (plainRead s pa 8))) })) ∧
  (∀ s k id g o d blk ent p, Claims.Pending s k id g o → o.kind = .mcas d blk ent p → p.broken = true →
    ∃ t h, exec (.mcasLockBreak k id) s = .next t ∧ t.grp k = some h ∧ SameMem s t ∧ (∀ q ∈ t.locks, q.2 ≠ (k, id)) ∧
      (p.attempt < 15 → SameRegs g h ∧ (h.op id).map (·.kind) =
        some (.mcas d blk ent { p with locked := [], vals := [], broken := false, attempt := p.attempt + 1 })) ∧
      (∀ l a, p.attempt = 15 → p.todo.head? = some l → o.lanes.find? (fun x => x.lane == l) = some a → Loaded g h d a.who [9])) ∧
  (∀ s k id g o d blk ent p l x s1, Claims.Pending s k id g o → Claims.Unheld s (s.ctxNum g) → o.kind = .mcas d blk ent p →
    p.broken = false → p.todo.head? = some l → l ∈ p.stale → p.locked = [] → p.store = none → (∀ a ∈ o.ofLane l, a.st = .ready) →
    s.replayUsed g.core < 64 →
    s.tryAll (s.ldOf g) (s.ctxNum g) .write ((SMap.getD ent l []).map (fun e => (l, BitVec.ofNat 64 e.1))) = (x, s1) →
    (∀ y ∈ x, y.cause = 0 ∧ (y.acc.map (·.st)) = some .ready ∧ ∃ pa, y.phys = .dev pa) → (x.map (·.phys)).Nodup →
    ∃ t h, exec (.mcasLockBreak k id) s = .next t ∧ t.grp k = some h ∧ Quiet k s t ∧ SameRegs g h ∧
      (h.op id).map (·.kind) = some (.mcas d blk (SMap.set ent l (x.filterMap (fun y => y.devAddr.map (fun pa => (y.va, pa)))))
        { p with stale := removeNat p.stale l }))

/-- What follows a page fault, a wait or time (R220, R256, R312, R313, R315). A sage core serves a fault at once when the page is
there, and else forwards what it cannot serve to the host as one ring entry; a served access is translated again; a fragment
waiting to fetch goes on; a release that is met lets its word issue again. -/
def Obligations.FaultsServed : Prop :=
  (∀ s ld f x s1, s.faults.find f = some x → x.ld = ld → x.st = .asked → x.serviceless = false → s.sageReads x = some s1 →
    s1.sagePlan x = some none → exec (.sageAllocService ld f) s = .next (s1.endFault f .resolved)) ∧
  (∀ s ld f x pa n fr sz s1, s.faults.find f = some x → x.ld = ld → x.st = .asked → x.serviceless = false →
    s.sageReads x = some s1 → s1.sagePlan x = some (some (pa, n, fr, sz)) →
    ∃ t, exec (.sageAllocService ld f) s = .next t ∧ (t.faults.find f).map (·.st) = some .resolved ∧ t.groups = s1.groups ∧
      (s1.ldevs.find ld ≠ none → (fr, sz) ∈ (t.ld ld).poolUsed) ∧
      (n = 1 → fr < 2 ^ 56 → Memory.read t.mem pa 8 = 9 + fr) ∧
      (n = 1 → ∀ i, fr ≤ i → i < fr + sz → (i < pa ∨ pa + 8 ≤ i) → Memory.get t.mem i = 0)) ∧
  (∀ s ld f x s1, s.faults.find f = some x → x.ld = ld → x.st = .asked → x.serviceless = false → s.sageReads x = some s1 →
    s1.sagePlan x = none → s1.ldevs.find ld ≠ none →
    ∃ t, exec (.faultForward ld f) s = .next t ∧ (t.faults.find f).map (·.st) = some .forwarded ∧ SameMem s1 t ∧
      ∃ w ∈ (t.ld ld).waiting, w.ring = 4 ∧ w.bytes = faultRecord f x) ∧
  (∀ s k id g o a f x ph s1, Claims.Pending s k id g o → o.kind.holds = false → o.kind.isMcas = false → o.kind ≠ .report → o.lanes = [a] → a.st = .fault f →
    Claims.Unheld s (s.ctxNum g) → s.faults.find f = some x → x.st = .resolved → a.va < 2 ^ 56 → o.kind.admits ph a.n = true →
    s.xlat (s.ctxNum g) a.va o.kind.access = (.ok ph, s1) →
    ∃ t h, exec (.replayResolve k id) s = .next t ∧ t.grp k = some h ∧ Quiet k s t ∧ SameRegs g h ∧
      (h.op id).map (·.lanes) = some (if o.kind.splits then LaneAcc.halves { a with phys := ph, st := .ready }
        else [{ a with phys := ph, st := .ready }])) ∧
  (∀ s k l g f x, s.grp k = some g → (g.lane l).hold = .fault f → (g.lane l).st = .running → s.faults.find f = some x → x.st = .resolved →
    exec (.fetchFaultServed k l) s = .next (s.setGrp k (g.updLanes (g.fragment l) (fun y => if y.st == .running then y.pageServed else y)))) ∧
  (∀ s k l g acq rel sc, s.grp k = some g → (g.lane l).hold = .release acq rel sc → (g.lane l).st = .running →
    (acq = true → g.acquired (g.fragment l) = true) → (rel = true → s.released k g s.nextId (g.fragment l) sc (s.tenantScope g) = true) →
    exec (.visibilityTimeReached k l) s = .next (s.setGrp k (g.holdLanes (g.fragment l) .ready))) ∧
  (∀ s core line, s.unserved core line 1024 = true → (core, line) ∉ s.persistent →
    ∃ t, exec (.persistentRequest core line) s = .next t ∧ (core, line) ∈ t.persistent ∧ { t with persistent := s.persistent } = s)

/-! ## Groups, fetch and pre-emption -/

/-- Moves between the active and pending sets, register lines and fetch (R35, R125, R129, R130, R161, R312). The oldest ready
pending group enters a slot with a free position; a group with nothing ready and a long wait, or idle for 256 clocks, leaves it. A
register line that a word waiting to issue needs arrives in its slot's cache, which then keeps what it has room for. A fetch brings the eight bytes at the PC, little-endian; a page that is not there makes the fragment wait. -/
def Obligations.GroupEvents : Prop :=
  (∀ s k g, s.grp k = some g → g.state = .pending → s.inSlot g.core (g.idx % 4) .active < 8 →
    s.nextPending g.core (g.idx % 4) = some k →
    exec (.groupEnterActive k) s = .next (s.setGrp k { g with state := .active })) ∧
  (∀ s k g l, s.grp k = some g → g.state = .active → s.groupReady k g = false → l ∈ g.leaders → s.longWait k g l = true →
    (s.inSlot g.core (g.idx % 4) .pending < 24 →
      exec (.groupSwapOut k) s = .next (s.setGrp k { g with state := .pending })) ∧
    (∀ j, 24 ≤ s.inSlot g.core (g.idx % 4) .pending → s.nextPending g.core (g.idx % 4) = some j → j ≠ k →
      ∃ t, exec (.groupSwapOut k) s = .next t ∧ (t.grp k).map (·.state) = some .pending ∧
        ((s.grp j).isSome → (t.grp j).map (·.state) = some .active))) ∧
  (∀ s k g, s.grp k = some g → g.state = .active → s.groupReady k g = false → g.idleClk + 256 ≤ s.clk →
    s.inSlot g.core (g.idx % 4) .pending < 24 →
    exec (.noReadyTimeout k) s = .next (s.setGrp k { g with state := .pending })) ∧
  (∀ s k g n, s.grp k = some g → n ∈ g.missing → g.state ≠ .saved → (g.pinnedLines (s.descOf g).width).contains n = true →
    exec (.registerLineFill k n) s = .next ((s.setGrp k { g with
      missing := g.missing.erase n, lineUse := SMap.set g.lineUse n (s.clk, false) }).trimSlot g.core (g.idx % 4))) ∧
  (∀ s k l g pa s1, s.grp k = some g → Claims.Unheld s (s.ctxNum g) → (g.lane l).st = .running → (g.lane l).hold.fetches = true →
    g.fetched.find (g.lane l).pc.toNat = none → g.state = .active ∨ g.state = .pending →
    s.xlat (s.ctxNum g) (g.lane l).pc.toNat .fetch = (.ok (.dev pa), s1) → s.clean pa 8 = true →
    ∃ t h, exec (.wordFetchComplete k l) s = .next t ∧ t.grp k = some h ∧ Quiet k s t ∧
      h = { g with fetched := g.fetched.set (g.lane l).pc.toNat (BitVec.ofNat 64 (Memory.read s.mem pa 8)) }) ∧
  (∀ s k l g kd q s1, s.grp k = some g → Claims.Unheld s (s.ctxNum g) → (g.lane l).st = .running → (g.lane l).hold.fetches = true → l < g.width → l < 64 →
    g.fetched.find (g.lane l).pc.toNat = none → g.state = .active ∨ g.state = .pending →
    s.xlat (s.ctxNum g) (g.lane l).pc.toNat .fetch = (.fault kd q, s1) →
    ∃ t h f, exec (.wordFetchComplete k l) s = .next t ∧ t.grp k = some h ∧ Quiet k s t ∧ SameRegs g h ∧
      (h.lane l).hold = .fault f ∧ (h.lane l).pc = (g.lane l).pc)

/-- Pre-emption (R84, R86). A flagged group whose fragments have all stopped parks: it leaves its slot's sets and keeps the registers
its stops hold live. A draining context with every block saved and no engine at work becomes SAVED; at its drain limit it is RUNNING
again, or READY with nothing of it resident (R70). -/
def Obligations.PreemptionEvents : Prop :=
  (∀ s k g, s.grp k = some g → g.flagged = true → g.allStopped = true → g.state = .active ∨ g.state = .pending ∨ g.state = .parked →
    s.drainOver (s.ctxNum g) = false → s.ungranted k g = [] → g.quiet = true → s.ckpt g = false → ((s.blkOf g).map (·.rolling)).getD false = false →
    ∃ t h, exec (.groupPark k) s = .next t ∧ t.grp k = some h ∧ SameMem s t ∧ h.state = .saved ∧ h.lanes = g.lanes ∧
      (∀ n, g.liveSet.s.testBit n = true → h.rs n = g.rs n) ∧
      (∀ n l, l < 64 → g.liveSet.v.testBit n = true → h.rv n l = g.rv n l) ∧
      (∀ n l, n < 7 → h.rp n l = (g.liveSet.p.testBit n && g.rp n l)) ∧
      (∀ n, n < 63 → g.liveSet.s.testBit n = false → h.rs n = 0)) ∧
  (∀ s n c, s.ctxs.find n = some c → c.st = .draining → ((s.saveParked n).ctxBlocks n).all (fun p => p.2.saved) = true →
    s.enginesQuiet n = true → s.drainOver n = false →
    ∃ t, exec (.contextSaved n) s = .next t ∧ (t.ctxs.find n).map (·.st) = some .saved ∧ (t.ctxs.find n).map (·.drain) = some none) ∧
  (∀ s n c u, s.ctxs.find n = some c → c.st = .draining → c.drain = some u → u ≤ s.timebase →
    ∃ t, exec (.drainLimitReached n) s = .next t ∧ (t.ctxs.find n).map (·.st) = some
      (if (s.ctxBlocks n).any (fun p => !p.2.saved) || s.grids.any (fun p => p.2.ctx == n && p.2.st == .dispatching)
        then .running else .ready) ∧ (t.ctxs.find n).map (·.drain) = some none)

/-! ## Pairs and barriers -/

/-- A pair (R46, R47, R49, R253). Both slots read the registers as they are before the word; with no memory slot the fragment then has
the two effects together, so that two moves exchange registers and an add beside a move sees the old value. A memory slot issues
its access as the newest of its counter. -/
def Obligations.PairWords : Prop :=
  (∀ a b s c g, Ready (.pair a b) s c g → a.mem s c g = none → b.mem s c g = none →
    ∃ t h, exec (.pair a b) s = .next t ∧ t.grp c.grp = some h ∧ OnlyGroup c.grp s t ∧ Advanced c g h ∧
      (∀ n, h.rs n = g.rs n) ∧ (∀ n l, h.rp n l = g.rp n l) ∧
      (∀ n l, l < 64 → n ≠ a.d.toNat → n ≠ b.d.toNat → (a.op ≠ .add64 ∨ n ≠ a.d.toNat + 1) → (b.op ≠ .add64 ∨ n ≠ b.d.toNat + 1) →
        h.rv n l = g.rv n l)) ∧
  (∀ a b s c g, Ready (.pair a b) s c g → a.op = .mov → b.op = .mov → a.a = .v b.d → b.a = .v a.d → a.d ≠ b.d →
    ∃ t h, exec (.pair a b) s = .next t ∧ t.grp c.grp = some h ∧ Advanced c g h ∧
      (∀ l ∈ Mask.lanes (g.guarded c.lanes a.guard), Result h (.v a.d) false l (g.rv b.d.toNat l).toNat) ∧
      (∀ l ∈ Mask.lanes (g.guarded c.lanes b.guard), Result h (.v b.d) false l (g.rv a.d.toNat l).toNat)) ∧
  (∀ a b s c g, Ready (.pair a b) s c g → a.op = .add → b.op = .mov → b.a = .v a.d → a.d ≠ b.d →
    ∃ t h, exec (.pair a b) s = .next t ∧ t.grp c.grp = some h ∧ Advanced c g h ∧
      (∀ l ∈ Mask.lanes (g.guarded c.lanes a.guard), Result h (.v a.d) false l ((g.rv a.d.toNat l).toNat + (a.a.get g l).toNat)) ∧
      (∀ l ∈ Mask.lanes (g.guarded c.lanes b.guard), Result h (.v b.d) false l (g.rv a.d.toNat l).toNat)) ∧
  (∀ (a b : PSlot) s c g k kind as s1, Ready (.pair a b) s c g → Claims.Unheld s (s.ctxNum g) →
    (a.mem ((began (.pair a b) s c g).setGrp c.grp ((counted (.pair a b) c g).run (fun h =>
        (a.eff (began (.pair a b) s c g) c h).append (b.eff (began (.pair a b) s c g) c h)))) c (counted (.pair a b) c g) =
        some (k, kind, .ok (as, s1)) ∨
      a.mem s c g = none ∧
      b.mem ((began (.pair a b) s c g).setGrp c.grp ((counted (.pair a b) c g).run (fun h =>
        (a.eff (began (.pair a b) s c g) c h).append (b.eff (began (.pair a b) s c g) c h)))) c (counted (.pair a b) c g) =
        some (k, kind, .ok (as, s1))) → as ≠ [] →
    ∃ t h, exec (.pair a b) s = .next t ∧ t.grp c.grp = some h ∧ Quiet c.grp s t ∧ Advanced c g h ∧
      Outstanding c g h k kind noOrder (if kind.splits then as.flatMap LaneAcc.halves else as))

namespace Sys2Proof.Claims
open Sys2Proof.Machine Sys2Proof.Safety

/-- A barrier word with its group converged, in a kernel without checkpoints, that names a barrier the group is a member of, the
release it makes being met. -/
structure AtBarrier (i : Instr) (s : State) (c : Issue) (g : Group) (bar : Bar) (b : Barrier) : Prop where
  ready : Ready i s c g
  conv : g.converged c.lanes = true
  plain : s.ckpt g = false
  blk : (s.blkOf g).isSome = true
  grid : (s.gridOf g).isSome = true
  bar : s.bar g bar = some b

/-- A barrier after a change: a phase that every member has now reached ends (R202). -/
def Settled (b x : Barrier) : Prop :=
  x.members = b.members ∧ x.epoch = b.epoch ∧
  (0 < b.members.length ∧ b.members.length ≤ b.count → x.phase = b.phase + 1 ∧ x.count = 0 ∧ x.arrived = []) ∧
  (¬ (0 < b.members.length ∧ b.members.length ≤ b.count) → x = b)

end Sys2Proof.Claims

/-- The barrier words (R200 to R210). `BINIT` makes the listed groups the members and moves the epoch on, or answers 1 during a phase
and 2 for a bad list; `ARRIVE` counts its group and gives the token of the phase; `BDROP` takes it out; `BSYNC` arrives and waits for
its phase, going on at once as the last; `BWAIT` waits for the phase of its token and `BTEST` reads it. A fragment that is not the
whole group traps, and so do a group that is no member, one that has arrived, a stale token and a barrier that the grid lacks. -/
def Obligations.BarrierWords : Prop :=
  (∀ d bar a s c g b, AtBarrier (.binit d bar a) s c g bar b →
    ∃ t h, exec (.binit d bar a) s = .next t ∧ t.grp c.grp = some h ∧ SameMem s t ∧ Advanced c g h ∧ h.v = g.v ∧
      (∀ n, n ≠ d.toNat → h.rs n = g.rs n) ∧
      (((g.rs a.toNat).toNat = 0 ∨ 2 ^ (if bar.scope = .blk then (s.descOf g).groups else (s.descOf g).cpb) ≤ (g.rs a.toNat).toNat) →
        t.bar h bar = some b ∧ (d.toNat < 63 → h.rs d.toNat = 2)) ∧
      ((g.rs a.toNat).toNat ≠ 0 →
        (g.rs a.toNat).toNat < 2 ^ (if bar.scope = .blk then (s.descOf g).groups else (s.descOf g).cpb) →
        (0 < b.count → t.bar h bar = some b ∧ (d.toNat < 63 → h.rs d.toNat = 1)) ∧
        (b.count = 0 → (d.toNat < 63 → h.rs d.toNat = 0) ∧ ∃ x, t.bar h bar = some x ∧ x.epoch = b.epoch + 1 ∧ x.phase = b.phase ∧
          x.count = 0 ∧ (bar.scope = .blk → ∀ k, k ∈ x.members ↔ k ∈ s.scopeGroups g .blk ∧
            ∃ y, s.grp k = some y ∧ (g.rs a.toNat).toNat.testBit y.idx = true) ∧
          (bar.scope ≠ .blk → ∀ k, k ∈ x.members ↔ k ∈ s.scopeGroups g bar.scope ∧
            ∃ y, s.grp k = some y ∧
              (g.rs a.toNat).toNat.testBit (((s.blkOf y).map (·.b)).getD 0 % Nat.max 1 (s.descOf g).cpb) = true)))) ∧
  (∀ d bar s c g b, AtBarrier (.arrive d bar) s c g bar b → c.grp ∈ b.members → c.grp ∉ b.arrived →
    (c.hold = .ready ∨ (began (.arrive d bar) s c g).released c.grp (counted (.arrive d bar) c g) s.nextId
      (g.mask (fun _ => true)) (BScope.order bar.scope) false = true) →
    ∃ t h x, exec (.arrive d bar) s = .next t ∧ t.grp c.grp = some h ∧ SameMem s t ∧ Advanced c g h ∧ h.v = g.v ∧
      (∀ n, n ≠ d.toNat → h.rs n = g.rs n) ∧ t.bar h bar = some x ∧ Settled (b.arrive c.grp) x ∧
      (d.toNat < 63 → (h.rs d.toNat).toNat =
        Bar.byte bar % 256 * 2 ^ 24 + b.epoch.toNat * 2 ^ 16 + b.phase.toNat)) ∧
  (∀ bar s c g b, AtBarrier (.bdrop bar) s c g bar b → c.grp ∈ b.members →
    (c.hold = .ready ∨ (began (.bdrop bar) s c g).released c.grp (counted (.bdrop bar) c g) s.nextId
      (g.mask (fun _ => true)) (BScope.order bar.scope) false = true) →
    ∃ t h x, exec (.bdrop bar) s = .next t ∧ t.grp c.grp = some h ∧ SameMem s t ∧ Advanced c g h ∧ SameRegs g h ∧
      t.bar h bar = some x ∧ Settled (b.drop c.grp) x ∧ c.grp ∉ x.members) ∧
  (∀ bar s c g b, AtBarrier (.bsync bar) s c g bar b → c.grp ∈ b.members → c.grp ∉ b.arrived → g.flagged = false →
    (c.hold = .ready ∨ c.hold = .none) →
    (c.hold = .ready ∨ (began (.bsync bar) s c g).released c.grp (counted (.bsync bar) c g) s.nextId
      (g.mask (fun _ => true)) (BScope.order bar.scope) false = true) →
    ∃ t h x, exec (.bsync bar) s = .next t ∧ t.grp c.grp = some h ∧ SameMem s t ∧ SameRegs g h ∧ t.bar h bar = some x ∧
      Settled (b.arrive c.grp) x ∧ (b.members.length ≤ b.count + 1 → Advanced c g h) ∧
      (b.count + 1 < b.members.length → ∀ l, (h.lane l).pc = (g.lane l).pc ∧
        (Mask.has c.lanes l = true → (g.lane l).st = .running → (h.lane l).hold = .sync bar b.phase.toNat))) ∧
  (∀ bar s c g x n, Ready (.bsync bar) s c g → g.converged c.lanes = true → s.ckpt g = false → c.hold = .sync x n →
    ∃ t h, exec (.bsync bar) s = .next t ∧ t.grp c.grp = some h ∧ OnlyGroup c.grp s t ∧ Advanced c g h ∧ Unwritten {} g h) ∧
  (∀ a s c g bar b, Ready (.bwait a) s c g → g.converged c.lanes = true → s.tokenBar g (g.rs a.toNat) = some (bar, b) → c.hold = .none →
    ((g.rs a.toNat).toNat % 2 ^ 16 ≠ b.phase.toNat →
      ∃ t h, exec (.bwait a) s = .next t ∧ t.grp c.grp = some h ∧ OnlyGroup c.grp s t ∧ Advanced c g h ∧ Unwritten {} g h) ∧
    ((g.rs a.toNat).toNat % 2 ^ 16 = b.phase.toNat → g.flagged = false →
      ∃ t h, exec (.bwait a) s = .next t ∧ t.grp c.grp = some h ∧ OnlyGroup c.grp s t ∧ Unwritten {} g h ∧
        ∀ l, (h.lane l).pc = (g.lane l).pc ∧ (Mask.has c.lanes l = true → (g.lane l).st = .running →
          (h.lane l).hold = .barrier bar b.phase.toNat))) ∧
  (∀ d a s c g, Ready (.btest d a) s c g → g.converged c.lanes = true →
    ∃ t h, exec (.btest d a) s = .next t ∧ t.grp c.grp = some h ∧ OnlyGroup c.grp s t ∧ Advanced c g h ∧
      (∀ n, n ≠ d.toNat → h.rs n = g.rs n) ∧ h.v = g.v ∧
      (s.tokenBar g (g.rs a.toNat) = none → d.toNat < 63 → h.rs d.toNat = 2) ∧
      (∀ bar b, s.tokenBar g (g.rs a.toNat) = some (bar, b) → d.toNat < 63 →
        h.rs d.toNat = if (g.rs a.toNat).toNat % 2 ^ 16 = b.phase.toNat then 0 else 1)) ∧
  (∀ i s c g, (∃ d b a, i = .binit d b a) ∨ (∃ d b, i = .arrive d b) ∨ (∃ a, i = .bwait a) ∨ (∃ b, i = .bdrop b) ∨ (∃ b, i = .bsync b) ∨
      (∃ d a, i = .btest d a) → Ready i s c g → g.nonHelpers c.lanes ≠ 0 → g.converged c.lanes = false →
    exec i s = .next ((began i s c g).trapAt c { cause := 0x0C })) ∧
  (∀ i bar s c g b, (∃ d, i = .arrive d bar) ∨ i = .bsync bar → AtBarrier i s c g bar b → g.nonHelpers c.lanes ≠ 0 → c.hold = .none →
    (c.grp ∉ b.members → exec i s = .next ((began i s c g).trapAt c { cause := 0x12, reason := 1, info := Bar.byte bar })) ∧
    (c.grp ∈ b.members → c.grp ∈ b.arrived →
      exec i s = .next ((began i s c g).trapAt c { cause := 0x12, reason := 2, info := Bar.byte bar }))) ∧
  (∀ bar s c g b, AtBarrier (.bdrop bar) s c g bar b → g.nonHelpers c.lanes ≠ 0 → c.grp ∉ b.members →
    exec (.bdrop bar) s = .next ((began (.bdrop bar) s c g).trapAt c { cause := 0x12, reason := 1, info := Bar.byte bar })) ∧
  (∀ a s c g, Ready (.bwait a) s c g → g.converged c.lanes = true → s.tokenBar g (g.rs a.toNat) = none → c.hold = .none →
    g.nonHelpers c.lanes ≠ 0 →
    exec (.bwait a) s = .next ((began (.bwait a) s c g).trapAt c
      { cause := 0x12, reason := 3, info := (g.rs a.toNat).toNat / 2 ^ 24 })) ∧
  (∀ i bar s c g, (∃ d a, i = .binit d bar a) ∨ (∃ d, i = .arrive d bar) ∨ i = .bsync bar ∨ i = .bdrop bar → Ready i s c g →
    g.converged c.lanes = true → s.ckpt g = false → g.nonHelpers c.lanes ≠ 0 → c.hold = .none → s.bar g bar = none →
    exec i s = .next ((began i s c g).trapAt c { cause := 0x12, reason := 4, info := Bar.byte bar }))

/-! ## Matrix engines -/

namespace Sys2Proof.Claims
open Sys2Proof.Machine Sys2Proof.Safety

/-- A matrix word with nothing in its way: its fragment is the whole group and the cluster's table has room (R272, R276). -/
structure AtTable (i : Instr) (s : State) (c : Issue) (g : Group) : Prop where
  ready : Ready i s c g
  conv : g.converged c.lanes = true
  room : (s.cluster (clusterOf g.core)).room = true

/-- A request has been posted: an entry of the cluster's table, under the number of its operation, with the age of its issue; the
fragment is at the next word and registers and memory are as they were. -/
def Posts (s t : State) (c : Issue) (g : Group) (slot : Nat) (kind : MKind) : Prop :=
  ∃ h, t.grp c.grp = some h ∧ SameMem s t ∧ Advanced c g h ∧ SameRegs g h ∧
    Outstanding c g h .mx (.matrix s.nextId) kind.order [] ∧
    ∃ e ∈ (t.cluster (clusterOf g.core)).table, e.eid = s.nextId ∧ e.grp = c.grp ∧ e.blk = g.blk ∧ e.slot = slot ∧ e.kind = kind ∧
      e.st = .posted ∧ e.age = c.clk ∧ e.pc = c.pc.toNat

/-- What a pass captures at issue (R272, R274). -/
def passOf (g : Group) (p : PassArgs) (paired : Bool) (f : MFmt) : PassCap :=
  ⟨paired, (g.rs64 p.a.toNat).toNat, (g.rs64 p.b.toNat).toNat, (g.rs p.c.toNat).toInt,
    (if p.c.toNat = 63 then (0 : Word) else g.rs (p.c.toNat + 1)).toInt, p.sat, f⟩

/-- The addresses and steps of a pass are multiples of 16 (R274). -/
def passAligned (g : Group) (p : PassArgs) : Prop :=
  (g.rs64 p.a.toNat).toNat % 16 = 0 ∧ (g.rs64 p.b.toNat).toNat % 16 = 0 ∧ (g.rs p.c.toNat).toNat % 16 = 0 ∧
    (p.c.toNat = 63 ∨ (g.rs (p.c.toNat + 1)).toNat % 16 = 0)

/-- A slot of a block. -/
def slotAt (t : State) (blk n : Nat) : Option Slot := (t.blocks.find blk).bind (fun b => SMap.find b.slots n)

/-- A byte that an engine's operation has written: with the full bit of its granule, in device memory or on the way to its
visibility time; in host memory; or in scratch (R219, R255, R295). -/
def EngWritten (gid op blk : Nat) (t : State) (x : Phys × Byte) : Prop :=
  match x.1 with
  | .dev a => (Memory.get t.mem a = x.2 ∧ a / 16 ∈ t.full) ∨
      ∃ w ∈ t.invis, w.grp = gid ∧ w.op = op ∧ SMap.find w.bytes a = some x.2 ∧ a / 16 ∈ w.fe
  | .host a => Memory.get t.hostMem a = x.2
  | .scratch o => ∀ b, t.blocks.find blk = some b → SMap.getD b.scratch o 0 = x.2 ∧ o / 16 ∈ b.sfe
  | _ => True

/-- Some pieces of an engine's work have been written, and the rest is left: no other byte of a memory has changed. -/
structure PiecesWritten (gid op blk : Nat) (c c' : Claim) (s t : State) : Prop where
  fewer : c'.pieces.length < c.pieces.length
  rest : ∀ q ∈ c'.pieces, q ∈ c.pieces
  written : ∀ q ∈ c.pieces, q ∉ c'.pieces → ∀ x ∈ q.2, EngWritten gid op blk t x
  device : ∀ a, (∀ q ∈ c.pieces, q ∉ c'.pieces → ∀ x ∈ q.2, x.1 ≠ .dev a) → Memory.get t.mem a = Memory.get s.mem a
  host : ∀ a, (∀ q ∈ c.pieces, q ∉ c'.pieces → ∀ x ∈ q.2, x.1 ≠ .host a) → Memory.get t.hostMem a = Memory.get s.hostMem a

/-- The pieces of an engine's work name each line once and each place once. -/
def Apart (c : Claim) : Prop := (c.pieces.map (·.1)).Nodup ∧ ((c.pieces.flatMap (·.2)).map (·.1)).Nodup

/-- An operation of the matrix engines is over: no entry of its number is left. -/
def Over (t : State) (cl eid : Nat) : Prop := ∀ e ∈ (t.cluster cl).table, e.eid ≠ eid

/-- A granted entry with its slot BUSY (R267, R276). -/
structure InSlot (s : State) (cl eid : Nat) (e : MEntry) (b : Block) : Prop where
  entry : s.entry cl eid = some e
  home : clusterOf e.core = cl
  grant : e.isGranted = true
  blk : s.blocks.find e.blk = some b
  busy : (s.slotOf e).st = .busy

end Sys2Proof.Claims

/-- The matrix words (R271 to R274, R282, R287 to R289). Each posts one request that captures its operands; `MFMT` reads its
descriptor as a memory operation. Without a format record a pass traps, and so do a misaligned operand or step of any of these
words, a paired pass outside a pair grid, and a fragment that is not the whole group. -/
def Obligations.MatrixWords : Prop :=
  (∀ p f s c g, AtTable (.mma p) s c g → g.mfPending p.mf.toNat = false → g.mf.find p.mf.toNat = some f → passAligned g p →
    ∃ t, exec (.mma p) s = .next t ∧ Posts s t c g p.slot.toNat (.pass (passOf g p false f))) ∧
  (∀ p f s c g, AtTable (.mmap p) s c g → g.mfPending p.mf.toNat = false → g.mf.find p.mf.toNat = some f → passAligned g p →
    (s.descOf g).pair = true → (began (.mmap p) s c g).twinFits c.grp = true →
    ∃ t, exec (.mmap p) s = .next t ∧ Posts s t c g p.slot.toNat (.pass (passOf g p true f))) ∧
  (∀ slot s c g, AtTable (.mzero slot) s c g → ∃ t, exec (.mzero slot) s = .next t ∧ Posts s t c g slot.toNat .zero) ∧
  (∀ z slot a s c g, AtTable (.mdrn z slot a) s c g → (g.rs64 a.toNat).toNat % 64 = 0 →
    ∃ t, exec (.mdrn z slot a) s = .next t ∧ Posts s t c g slot.toNat (.drain z (g.rs64 a.toNat).toNat)) ∧
  (∀ slot a s c g, AtTable (.mlda slot a) s c g → (g.rs64 a.toNat).toNat % 64 = 0 →
    ∃ t, exec (.mlda slot a) s = .next t ∧ Posts s t c g slot.toNat (.mlda (g.rs64 a.toNat).toNat)) ∧
  (∀ w tr n d b slot s c g, AtTable (.mvec w tr n d b slot) s c g →
    ∃ t vals, exec (.mvec w tr n d b slot) s = .next t ∧ Posts s t c g slot.toNat (.mvec w tr (n.toNat + 1) d.toNat (g.rs b.toNat).toNat
      (if w then g.nonHelpers c.lanes else c.lanes) vals) ∧
      (w = true → d.toNat + n.toNat < 255 → ∀ m l, m ≤ n.toNat → l ∈ Mask.lanes (g.nonHelpers c.lanes) →
        SMap.getD vals (m * 64 + l) 0 = g.rv (d.toNat + m) l)) ∧
  (∀ d mf a s c g as s1, Ready (.mfmt d mf a) s c g → g.converged c.lanes = true → g.mfPending mf.toNat = false →
    (g.rs64 a.toNat).toNat % 64 = 0 → Claims.Unheld s (s.ctxNum g) →
    (began (.mfmt d mf a) s c g).memTry (counted (.mfmt d mf a) c g) c.lanes
      { loadReq ⟨.s a, .imm 0⟩ 64 (fun _ _ => g.rs64 a.toNat) with uni := true, helpers := false } = .ok (as, s1) → as ≠ [] →
    ∃ t h, exec (.mfmt d mf a) s = .next t ∧ t.grp c.grp = some h ∧ Quiet c.grp s t ∧ Advanced c g h ∧ SameRegs g h ∧
      Outstanding c g h .mx (.mfmt d.toNat mf.toNat (g.rs64 a.toNat).toNat) noOrder as) ∧
  (∀ i p s c g, (i = .mma p ∨ i = .mmap p) → Ready i s c g → g.converged c.lanes = true → g.nonHelpers c.lanes ≠ 0 →
    g.mfPending p.mf.toNat = false → (i = .mmap p → (began i s c g).twinFits c.grp = true) →
    (g.mf.find p.mf.toNat = none ∨ (i = .mmap p ∧ (s.descOf g).pair = false)) →
    exec i s = .next ((began i s c g).trapAt c { cause := 0x15 })) ∧
  (∀ i p f s c g, (i = .mma p ∨ (i = .mmap p ∧ (s.descOf g).pair = true ∧ (began i s c g).twinFits c.grp = true)) → Ready i s c g →
    g.converged c.lanes = true → g.nonHelpers c.lanes ≠ 0 → g.mfPending p.mf.toNat = false → g.mf.find p.mf.toNat = some f →
    ¬ passAligned g p → ∃ x : DWord, x.toNat % 16 ≠ 0 ∧
      x ∈ [g.rs64 p.a.toNat, g.rs64 p.b.toNat, ((g.rs64 p.c.toNat).setWidth 32).signExtend 64,
        (((g.rs64 p.c.toNat) >>> 32).setWidth 32).signExtend 64] ∧
      exec i s = .next ((began i s c g).trapAt c { cause := 3, addr := x.toNat })) ∧
  (∀ z slot a s c g, Ready (.mdrn z slot a) s c g → g.converged c.lanes = true → g.nonHelpers c.lanes ≠ 0 →
    (g.rs64 a.toNat).toNat % 64 ≠ 0 →
    exec (.mdrn z slot a) s = .next ((began (.mdrn z slot a) s c g).trapAt c { cause := 3, addr := (g.rs64 a.toNat).toNat })) ∧
  (∀ d mf a s c g, Ready (.mfmt d mf a) s c g → g.converged c.lanes = true → g.nonHelpers c.lanes ≠ 0 → g.mfPending mf.toNat = false →
    (g.rs64 a.toNat).toNat % 64 ≠ 0 →
    exec (.mfmt d mf a) s = .next ((began (.mfmt d mf a) s c g).trapAt c { cause := 3, addr := (g.rs64 a.toNat).toNat })) ∧
  (∀ i s c g, (∃ p, i = .mma p) ∨ (∃ p, i = .mmap p) ∨ (∃ x, i = .mzero x) ∨ (∃ z x a, i = .mdrn z x a) ∨ (∃ x a, i = .mlda x a) ∨
      (∃ w tr n d b x, i = .mvec w tr n d b x) ∨ (∃ d x a, i = .mfmt d x a) → Ready i s c g → g.nonHelpers c.lanes ≠ 0 →
    g.converged c.lanes = false → exec i s = .next ((began i s c g).trapAt c { cause := 0x0C })) ∧
  (∀ slot a s c g, Ready (.mlda slot a) s c g → g.converged c.lanes = true → g.nonHelpers c.lanes ≠ 0 → (g.rs64 a.toNat).toNat % 64 ≠ 0 →
    exec (.mlda slot a) s = .next ((began (.mlda slot a) s c g).trapAt c { cause := 3, addr := (g.rs64 a.toNat).toNat }))

/-- The arbiter and its account (R266, R267, R276, R277, R280, R290). The account refills every 256 clocks and stops at
4,096; an entry that is the arbiter's choice is granted, its slot becomes BUSY and a pass pays its units; a half of a pair
that stood alone in a window is posted again; a window of numeric events begins with its count cleared and the settings
written. The length of a numeric window is taken at its start, and a length of 0 takes the written one: the model's reading
(log entry 29). -/
def Obligations.MatrixArbiter : Prop :=
  (∀ s cl, cl < Config.numClusters → ((s.cluster cl).refills + 1) * 256 ≤ s.clk →
    ∃ t, exec (.unitRefill cl) s = .next t ∧ (t.cluster cl).refills = (s.cluster cl).refills + 1 ∧
      (t.cluster cl).account = min ((s.cluster cl).account + (s.cluster cl).refill) 4096 ∧ (t.cluster cl).table = (s.cluster cl).table ∧
      t.groups = s.groups ∧ SameMem s t) ∧
  (∀ s cl eid e b, s.entry cl eid = some e → clusterOf e.core = cl → e.paired = false → s.choice cl e.isPass = some e →
    s.pathBusy cl e.isPass = false → (e.isPass = true → 0 ≤ ((s.cluster cl).refilled s.clk).account) → s.blocks.find e.blk = some b →
    ∃ t e', exec (.entryGrant cl eid) s = .next t ∧ t.entry cl eid = some e' ∧ e'.st = .granted s.clk ∧ e'.kind = e.kind ∧
      (slotAt t e.blk e.slot).map (·.st) = some .busy ∧ SameMem s t ∧ t.groups = s.groups ∧
      (t.cluster cl).account = if e.isPass then ((s.cluster cl).refilled s.clk).account - (e.units : Int)
        else (s.cluster cl).account) ∧
  (∀ s cl eid e, s.entry cl eid = some e → clusterOf e.core = cl → e.paired = false → e.st = .posted → s.isHead e = true →
    s.barred e = true → ∃ t, exec (.entryGrant cl eid) s = .next t ∧ Over t cl eid) ∧
  (∀ s die cl c e, die = cl / 20 → s.clusters.find cl = some c → e ∈ c.table → s.loneHalf e = true →
    ∃ t, exec (.passWindowEnd die) s = .next t ∧ { e with st := .posted, missed := e.missed + 1 } ∈ (t.cluster cl).table ∧ SameMem s t) ∧
  (∀ s cl eid e p m s1, s.entry cl eid = some e → clusterOf e.core = cl → e.kind = .pass p → e.weight = none → Claims.Unheld s e.ctx →
    s.engPages (((s.ctxs.find e.ctx).map (·.ld)).getD 0) e.ctx 0 false ((((List.range 16).map (fun i => (p.panelA, i)) ++
      (List.range 16).map (fun j => (p.panelB, (if e.paired then 256 * (clusterOf e.core % 2) else 0) + j))).flatMap (fun r =>
        pagesFrom (r.1.at r.2 0) (r.1.bytes (Nat.min p.fmt.k 256)))).foldl insertNat []) = (.ok m, s1) →
    m.all (fun q => q.2.readable) = true →
    ∃ t e' w, exec (.unitEstimate cl eid) s = .next t ∧ t.entry cl eid = some e' ∧ e'.weight = some w ∧ 16 ≤ w ∧ SameMem s t) ∧
  (∀ s ld cls c, ld < 16 → cls < 4 → s.ldevs.find ld ≠ none → c = SMap.getD (s.ld ld).num cls emptyNum →
    0 < (if c.window = 0 then c.nextWindow else c.window) →
    c.start / (1024 * (if c.window = 0 then c.nextWindow else c.window)) < s.timebase / (1024 * (if c.window = 0 then c.nextWindow else c.window)) →
    ∃ t, exec (.numericWindowStart ld cls) s = .next t ∧ SMap.getD (t.ld ld).num cls emptyNum =
      { c with count := 0, firedNow := false, threshold := c.nextThreshold, window := c.nextWindow, start := s.timebase })

/-- Passes (R274, R275, R278, R260). A granted pass begins to read once the release of its group is complete. A pass whose operands are
all there runs its blocks over the slot and retires with the slot IDLE, a paired one over the slots of both twins, each with its own
columns; a page that must be served stalls it after its last whole
block, and one that can never be used halts the slot with a matrix error; a stalled pass is posted again once its page is served.
Each element is read at a time of its own since the pass began: the time is the model's free value (log entry 29). -/
def Obligations.MatrixPasses : Prop :=
  (∀ s cl eid e b p, InSlot s cl eid e b → e.kind = .pass p → p.paired = false → e.begun = false → s.opReleased e = true →
    ∃ t e', exec (.passComplete cl eid) s = .next t ∧ SameMem s t ∧ t.entry cl eid = some e' ∧ e'.begun = true ∧ e'.kind = e.kind ∧
      t.blocks = s.blocks) ∧
  (∀ s cl eid e b p m s1, InSlot s cl eid e b → e.kind = .pass p → p.paired = false → e.begun = true → s.owned = [] → s.poison = [] →
    Claims.NoneHeld s →
    s.scan s (((s.ctxs.find e.ctx).map (·.ld)).getD 0) e.ctx eid p (p.fmt.k / p.fmt.len - (s.slotOf e).progress / p.fmt.len)
      ((s.slotOf e).progress / p.fmt.len) [] = (.all m, s1) →
    ∃ t, exec (.passComplete cl eid) s = .next t ∧ SameMem s t ∧ Over t cl eid ∧
      slotAt t e.blk e.slot = some ⟨.idle, (runPass p (s.rdAt eid panelABase m) (s.rdAt eid panelBBase m) 0
        ((s.slotOf e).progress / p.fmt.len) (p.fmt.k / p.fmt.len) (s.slotOf e).data e.seen).1,
        if (s.slotOf e).halted.isSome then p.fmt.k else 0, none, []⟩) ∧
  (∀ s cl eid e b f b' p m s1 op, InSlot s cl eid e b → e.kind = .pass p → p.paired = true → s.matchOf e = some f →
    InSlot s (clusterOf f.core) f.eid f b' → e.blk ≠ f.blk → clusterOf e.core % 2 ≠ clusterOf f.core % 2 → e.begun = true →
    f.begun = true → s.owned = [] → s.poison = [] → Claims.NoneHeld s →
    op = (if clusterOf e.core % 2 = 0 then eid else f.eid) →
    s.scan s (((s.ctxs.find e.ctx).map (·.ld)).getD 0) e.ctx op p (p.fmt.k / p.fmt.len - (s.slotOf e).progress / p.fmt.len)
      ((s.slotOf e).progress / p.fmt.len) [] = (.all m, s1) →
    ∃ t, exec (.passComplete cl eid) s = .next t ∧ SameMem s t ∧ Over t cl eid ∧ Over t (clusterOf f.core) f.eid ∧
      ∀ x, x = e ∨ x = f → slotAt t x.blk x.slot = some ⟨.idle, (runPass p (s.rdAt op panelABase m) (s.rdAt op panelBBase m)
        (clusterOf x.core % 2) ((s.slotOf e).progress / p.fmt.len) (p.fmt.k / p.fmt.len) (s.slotOf x).data x.seen).1,
        if (s.slotOf x).halted.isSome then p.fmt.k else 0, none, []⟩) ∧
  (∀ s cl eid e b p m s1 n f, InSlot s cl eid e b → e.kind = .pass p → p.paired = false → e.begun = true → s.owned = [] → s.poison = [] →
    Claims.NoneHeld s →
    s.scan s (((s.ctxs.find e.ctx).map (·.ld)).getD 0) e.ctx eid p (p.fmt.k / p.fmt.len - (s.slotOf e).progress / p.fmt.len)
      ((s.slotOf e).progress / p.fmt.len) [] = (.wait n f m, s1) →
    ∃ t e', exec (.passFault cl eid) s = .next t ∧ SameMem s t ∧ t.entry cl eid = some e' ∧ e'.st = .stalled f ∧
      (slotAt t e.blk e.slot).map (·.st) = some .stalled ∧ (slotAt t e.blk e.slot).map (·.progress) = some (n * p.fmt.len)) ∧
  (∀ s cl eid e b p m s1 n, InSlot s cl eid e b → e.kind = .pass p → p.paired = false → e.begun = true → s.owned = [] → s.poison = [] →
    Claims.NoneHeld s →
    s.scan s (((s.ctxs.find e.ctx).map (·.ld)).getD 0) e.ctx eid p (p.fmt.k / p.fmt.len - (s.slotOf e).progress / p.fmt.len)
      ((s.slotOf e).progress / p.fmt.len) [] = (.bad n m, s1) →
    ∃ t, exec (.passFault cl eid) s = .next t ∧ SameMem s t ∧ Over t cl eid ∧
      (slotAt t e.blk e.slot).map (fun x => (x.st, x.progress, x.halted)) = some (.halted, n * p.fmt.len, some p)) ∧
  (∀ s cl eid e p f, s.entry cl eid = some e → clusterOf e.core = cl → e.kind = .pass p → e.st = .stalled f → s.faultOver f = true →
    s.faultFailed f = false → (s.cluster cl).room = true →
    ∃ t e', exec (.passResume cl eid) s = .next t ∧ t.entry cl eid = some e' ∧ e'.st = .posted ∧ e'.age = e.age ∧ SameMem s t ∧
      t.blocks = s.blocks)

/-- What the drain path completes (R134, R271, R275, R284 to R289). `MZERO` leaves +0 everywhere; `MVEC.r` writes registers from the
slot, some lanes before others, and `MVEC.w` writes the elements of its lanes; an accumulator load begins to read once its release is
complete and fills the slot from its window. A storing drain converts its elements and takes its lines, then writes each line's bytes
with their full bits as it is granted, and last its trailers; an adding one takes its lines one after the other, adds when it holds
all of them, and writes the sums line by line. At its end a drain keeps the slot or clears it. A valid descriptor becomes the record
of its `MFMT`. The times at which elements are read and the claims of an adding drain are the model's own (log entry 29). -/
def Obligations.MatrixCompletions : Prop :=
  (∀ s cl eid e b, InSlot s cl eid e b → e.kind = .zero →
    ∃ t, exec (.mzeroComplete cl eid) s = .next t ∧ SameMem s t ∧ Over t cl eid ∧ slotAt t e.blk e.slot = some ⟨.idle, [], 0, none, []⟩) ∧
  (∀ s cl eid e b g tr n d pos lanes vals, InSlot s cl eid e b → e.kind = .mvec false tr n d pos lanes vals → s.grp e.grp = some g →
    d + n ≤ 255 → 0 < n →
    ∃ t h now, exec (.mvecComplete cl eid) s = .next t ∧ SameMem s t ∧ t.grp e.grp = some h ∧ now &&& lanes = now ∧
      (lanes ≠ 0 → now ≠ 0) ∧
      (now = lanes → Over t cl eid ∧ slotAt t e.blk e.slot = some ⟨.idle, (s.slotOf e).data, 0, none, []⟩) ∧
      (now ≠ lanes → ∃ e', t.entry cl eid = some e' ∧ e'.kind = .mvec false tr n d pos (lanes &&& ~~~now) vals ∧ e'.st = e.st) ∧
      ∀ m l, l < 64 → h.rv m l = if Mask.has now l ∧ d ≤ m ∧ m < d + n then SMap.getD (s.slotOf e).data (vecElem tr pos (m - d) l) 0 else g.rv m l) ∧
  (∀ s cl eid e b tr n d pos lanes vals, InSlot s cl eid e b → e.kind = .mvec true tr n d pos lanes vals → n ≤ 8 →
    ∃ t x, exec (.mvecComplete cl eid) s = .next t ∧ SameMem s t ∧ Over t cl eid ∧ slotAt t e.blk e.slot = some x ∧ x.st = .idle ∧
      (∀ m l, m < n → l ∈ Mask.lanes lanes → SMap.getD x.data (vecElem tr pos m l) 0 = SMap.getD vals (m * 64 + l) 0) ∧
      ∀ k, (∀ m l, m < n → l ∈ Mask.lanes lanes → vecElem tr pos m l ≠ k) → SMap.getD x.data k 0 = SMap.getD (s.slotOf e).data k 0) ∧
  (∀ s cl eid e b sa, InSlot s cl eid e b → e.kind = .mlda sa → e.begun = false → s.opReleased e = true →
    ∃ t e', exec (.mldaComplete cl eid) s = .next t ∧ SameMem s t ∧ t.entry cl eid = some e' ∧ e'.begun = true ∧ t.blocks = s.blocks) ∧
  (∀ s cl eid e b sa d m s1, InSlot s cl eid e b → e.kind = .mlda sa → e.begun = true → e.wait = none → e.desc = some d →
    s.owned = [] → s.poison = [] → Claims.NoneHeld s →
    s.engPages (((s.ctxs.find e.ctx).map (·.ld)).getD 0) e.ctx (opKey eid) false ((((d.parts.take 1).flatMap Part.window).flatMap (fun r =>
      pagesFrom r.1 r.2)).foldl insertNat []) = (.ok m, s1) → (∀ q ∈ m, q.2.readable = true) →
    ∃ t, exec (.mldaComplete cl eid) s = .next t ∧ SameMem s t ∧ Over t cl eid ∧
      slotAt t e.blk e.slot = some ⟨.idle, ((d.parts.head?).map (fun p => p.tile (s.rdAt eid panelABase m))).getD [], 0, none, []⟩) ∧
  (∀ s cl eid e b z sa d m s1, InSlot s cl eid e b → e.kind = .drain z sa → e.claim = none → e.wait = none → e.desc = some d →
    s.opReleased e = true → s.engPages (((s.ctxs.find e.ctx).map (·.ld)).getD 0) e.ctx (opKey eid) true (pagesOf d.targets) = (.ok m, s1) →
    (∀ q ∈ m, q.2.isDevice = true) → Claims.NoneHeld s →
    ∃ t e', exec (.drainComplete cl eid) s = .next t ∧ SameMem s t ∧ t.entry cl eid = some e' ∧ t.blocks = s.blocks ∧
      (d.mode = 2 → e'.claim = some ⟨(addrLines m d.targets).map (fun l => (l, [])), [], m⟩) ∧
      (d.mode ≠ 2 → (∀ l ∈ addrLines m d.targets, (l, eid) ∈ t.owned) ∧
        e'.claim = some ⟨piecesOf 0 ((s1.drainOut d (s.slotOf e).data).1.bytes.map (fun x => (pageAt m x.1, x.2))), [], m⟩ ∧
        e'.tail = (s1.drainOut d (s.slotOf e).data).1.trailer ∧ e'.seen = (s1.drainOut d (s.slotOf e).data).1.events)) ∧
  (∀ s cl eid e b z sa d c p, InSlot s cl eid e b → e.kind = .drain z sa → e.claim = some c → e.desc = some d → d.mode ≠ 2 →
    p ∈ c.pieces → s.granted eid p.1 = true → Apart c → s.invis = [] →
    ∃ t e' c', exec (.drainComplete cl eid) s = .next t ∧ t.entry cl eid = some e' ∧ e'.claim = some c' ∧
      PiecesWritten e.grp eid 0 c c' s t) ∧
  (∀ s cl eid e b z sa d q ps c l, InSlot s cl eid e b → e.kind = .drain z sa → e.claim = some c → e.desc = some d → d.mode = 2 →
    d.parts = q :: ps → e.begun = false →
    (∀ x ∈ c.pieces, (x.1, eid) ∈ s.owned → s.holdsLine eid x.1 = true) →
    (c.pieces.map (·.1)).find? (fun x => !s.owned.any (fun o => o == (x, eid))) = some l → Claims.NoneHeld s →
    ∃ t, exec (.drainComplete cl eid) s = .next t ∧ SameMem s t ∧ t.blocks = s.blocks ∧ t.owned = s.owned ++ [(l, eid)]) ∧
  (∀ s cl eid e b z sa d q ps c, InSlot s cl eid e b → e.kind = .drain z sa → e.claim = some c → e.desc = some d → d.mode = 2 →
    d.parts = q :: ps → e.begun = false → c.pieces ≠ [] → (∀ x ∈ c.pieces, s.holdsLine eid x.1 = true) → s.poison = [] → s.invis = [] →
    ∃ t e', exec (.drainComplete cl eid) s = .next t ∧ SameMem s t ∧ t.blocks = s.blocks ∧ t.owned = s.owned ∧
      t.entry cl eid = some e' ∧ e'.begun = true ∧
      e'.seen = (q.add d (fun va => s.engByte 0 (match pageAt c.dst va with | .dev a => .dev a | _ => .zero)) (s.slotOf e).data q.cells).events ∧
      e'.claim = some { c with pieces := piecesOf 0 ((q.add d (fun va => s.engByte 0 (match pageAt c.dst va with
        | .dev a => .dev a
        | _ => .zero)) (s.slotOf e).data q.cells).bytes.map (fun x => (pageAt c.dst x.1, x.2))) }) ∧
  (∀ (q : Part) d rd data r col, q.width ≠ 0 → q.width * 8 = (fmtOf q.fmt).width → q.addr r col + q.width ≤ 2 ^ 64 →
    ∀ i, i < q.width → SMap.find (q.add d rd data [(r, col)]).bytes (q.addr r col + i) =
      (leBytes q.width ((fmtOf q.fmt).sum ⟨modeOf d.rnd, d.sat, false⟩
        [(fmtOf q.fmt).value (leNat ((List.range q.width).map (fun k => rd (q.addr r col + k)))),
          fp32.value (SMap.getD data (r * 256 + col) 0).toNat]).1)[i]?) ∧
  (∀ s cl eid e b z sa d q ps c p, InSlot s cl eid e b → e.kind = .drain z sa → e.claim = some c → e.desc = some d → d.mode = 2 →
    d.parts = q :: ps → e.begun = true → p ∈ c.pieces → s.granted eid p.1 = true → Apart c → s.invis = [] →
    ∃ t e' c', exec (.drainComplete cl eid) s = .next t ∧ t.entry cl eid = some e' ∧ e'.claim = some c' ∧
      PiecesWritten e.grp eid 0 c c' s t) ∧
  (∀ s cl eid e b z sa d c n bs q, InSlot s cl eid e b → e.kind = .drain z sa → e.claim = some c → e.desc = some d → c.pieces = [] →
    e.tail = [(n, bs)] → d.parts[n]? = some q → s.invis = [] → (∀ l ∈ addrLines c.dst [q.trail], s.holdsLine eid l = true) →
    ((withOffsets bs).map (fun x => pageAt c.dst (q.trail + x.1))).Nodup →
    ∃ t e', exec (.drainComplete cl eid) s = .next t ∧ t.entry cl eid = some e' ∧ e'.tail = [] ∧
      ∀ x ∈ withOffsets bs, EngWritten e.grp eid 0 t (pageAt c.dst (q.trail + x.1), x.2)) ∧
  (∀ s cl eid e b z sa c d, InSlot s cl eid e b → e.kind = .drain z sa → e.claim = some c → e.desc = some d → c.pieces = [] → e.tail = [] →
    ∃ t, exec (.drainComplete cl eid) s = .next t ∧ SameMem s t ∧ Over t cl eid ∧ (∀ o ∈ t.owned, o.2 ≠ eid) ∧
      slotAt t e.blk e.slot = some ⟨.idle, if z then [] else (s.slotOf e).data, 0, none, []⟩) ∧
  (∀ s k id g o d mf sa a f, Pending s k id g o → o.kind = .mfmt d mf sa → o.lanes = [a] → d < 63 → Performable s k g o a false true →
    s.released k g id (allLanes g) .grp false = true →
    field (s.readPhys k g a.lane a.phys 64).1 3 1 ≠ 0 → readMfmt (s.readPhys k g a.lane a.phys 64).1 = some f →
    f.units ≤ s.freeUnits (clusterOf g.core) + ((g.mf.find mf).map (·.units)).getD 0 →
    ∃ t h, exec (.mfmtComplete k id) s = .next t ∧ t.grp k = some h ∧ Quiet k s t ∧ h.mf.find mf = some f ∧ h.rs d = 0)

/-! ## Transfers and collectives -/

namespace Sys2Proof.Claims
open Sys2Proof.Machine Sys2Proof.Safety

/-- A word has handed a descriptor to an engine, its sources those of the group `v`: an operation of the copy counter stands, the
fragment goes on, registers and memory are as they were (R299, R378). -/
def HandedOver (i : Instr) (kind : Nat → OpKind) (ok : State → Issue → Group → State → Prop) (s : State) (c : Issue) (g v : Group) : Prop :=
  ∃ t h, exec i s = .next t ∧ t.grp c.grp = some h ∧ Quiet c.grp s t ∧ Advanced c g h ∧ SameRegs g h ∧
    Outstanding c g h .cp (kind s.nextId) noOrder [] ∧ ok s c v t

/-- A word waits for its release with its sources kept (R134, R260): nothing of it stands yet. -/
def Gated (i : Instr) (s : State) (c : Issue) (g : Group) : Prop :=
  ∃ t h, exec i s = .next t ∧ t.grp c.grp = some h ∧ Quiet c.grp s t ∧ SameRegs g h ∧ h.ops = g.ops ∧ h.issued = g.issued ∧
    t.transfers = s.transfers ∧ t.colls = s.colls ∧ SMap.find h.snaps s.nextId = some ⟨g.v, g.shadow, g.s, g.p⟩ ∧
    ∀ l, (h.lane l).pc = (g.lane l).pc ∧
      (Mask.has c.lanes l = true → (g.lane l).st = .running → (h.lane l).hold = .gate s.nextId true .pkg)

/-- The release of R260 that an engine word waits for is complete. -/
def EngineReleased (i : Instr) (s : State) (c : Issue) (g : Group) : Bool :=
  (began i s c g).released c.grp (counted i c g) s.nextId (BitVec.allOnes 64) .pkg (s.tenantScope g)

/-- A word waits for its release, hands its descriptor to an engine when it is complete, and goes on (R260, R299, R378). -/
def HandsOver (i : Instr) (gd : Guard) (a : BitVec 6) (kind : Nat → OpKind) (ok : State → Issue → Group → State → Prop) : Prop :=
  (∀ s c g, Ready i s c g → goes c g gd ≠ 0 →
    ((g.rs64 a.toNat).toNat % 64 = 0 → EngineReleased i s c g = true → HandedOver i kind ok s c g g) ∧
    ((g.rs64 a.toNat).toNat % 64 = 0 → EngineReleased i s c g = false → c.hold = .none → Gated i s c g) ∧
    ((g.rs64 a.toNat).toNat % 64 ≠ 0 →
      exec i s = .next ((began i s c g).trapAt c { cause := 3, addr := (g.rs64 a.toNat).toNat }))) ∧
  (∀ s c g n all sc, s.cur = some c → s.grp c.grp = some g → s.illegalHere g i = false → s.wordReady c g i = true → s.ckpt g = false →
    c.hold = .gate n all sc → goes c (g.asIssued c.hold) gd ≠ 0 → ((g.asIssued c.hold).rs64 a.toNat).toNat % 64 = 0 →
    HandedOver i kind ok s c g (g.asIssued c.hold))

/-- A transfer waits in the queue of its die's engine. -/
def Queued (kind : TKind) (a : BitVec 6) (s : State) (c : Issue) (g : Group) (t : State) : Prop :=
  ∃ x, t.transfers.find s.nextId = some x ∧ x.kind = kind ∧ x.st = .queued ∧ x.desc = (g.rs64 a.toNat).toNat ∧ x.die = dieOf g.core ∧
    x.grp = c.grp ∧ x.op = s.nextId ∧ x.ctx = s.ctxNum g ∧ x.chunk = 0 ∧ x.claimed = none

/-- A transfer has ended its work, with a failure or none, and owns no line. -/
def Finished (t : State) (k : Nat) (x : Transfer) (fail : Option (Nat × Nat)) : Prop :=
  t.transfers.find k = some { x with st := .finished fail, claimed := none } ∧ ∀ o ∈ t.owned, o.2 ≠ k

end Sys2Proof.Claims

/-- The engine words (R260, R293, R299, R378): each waits for its release with its sources kept, then queues its descriptor's address
with its die's engine and goes on; a misaligned address traps. -/
def Obligations.EngineWords : Prop :=
  (∀ gd a, HandsOver (.tcpy gd a) gd a .transfer (Queued .tcpy a)) ∧ (∀ gd a, HandsOver (.gath gd a) gd a .transfer (Queued .gath a)) ∧
  (∀ gd a, HandsOver (.scat gd a) gd a .transfer (Queued .scat a)) ∧ (∀ gd a, HandsOver (.fill gd a) gd a .transfer (Queued .fill a)) ∧
  (∀ gd a, HandsOver (.coll gd a) gd a .coll (fun s c g t => ∃ x, t.colls.find s.nextId = some x ∧ x.st = .queued ∧
    x.desc = (g.rs64 a.toNat).toNat ∧ x.die = dieOf g.core ∧ x.grp = c.grp ∧ x.op = s.nextId ∧ x.ctx = s.ctxNum g))

/-- The life of a transfer (R222, R260, R296, R300 to R304). The oldest queued one of a die is taken and checked, as one is whose page
has been served: it moves while fewer than 256 are in the engine, waits for a page, or ends with an error, as one of a FAULTED context
does. A chunk translates its pages, then reads its sources and claims its destination lines, and what it writes is the fill value or the
source bytes; the lines granted are written with their full bits. After the last chunk, with every write visible, the signal granule is
written whole; the transfer is over once all its writes are visible, and its counter retires it. -/
def Obligations.TransferEvents : Prop :=
  (∀ s k x i u, s.transfers.find k = some x → Claims.Unheld s x.ctx →
    (i = .transferTake k ∧ x.st = .queued ∧
      (∀ p ∈ s.transfers, p.2.die = x.die → p.2.st = .queued → k ≤ p.1) ∧ u = s.readsNow k ∨
     i = .transferPageMapped k ∧ (∃ f, x.st = .checking f ∧ s.faultOver f = true) ∧ u = s) →
    (s.ctxDead x.ctx = true → ∃ t, exec i s = .next t ∧ SameMem s t ∧ Finished t k x (some (2, 0))) ∧
    (s.ctxDead x.ctx = false → x.kind.isPacket = true → s.inEngine x.die < 256 →
      ∃ t, exec i s = .next t ∧ SameMem s t ∧ t.transfers.find k = some { x with st := .moving }) ∧
    (s.ctxDead x.ctx = false → x.kind.isPacket = false →
      (∀ y s1, u.checkTransfer x = (.ready y, s1) → s.inEngine x.die < 256 →
        ∃ t, exec i s = .next t ∧ SameMem s t ∧ t.transfers.find k = some y ∧ y.st = .moving ∧ y.kind = x.kind) ∧
      (∀ f s1, u.checkTransfer x = (.wait f, s1) →
        ∃ t, exec i s = .next t ∧ SameMem s t ∧ t.transfers.find k = some { x with st := .checking f }) ∧
      (∀ n s1, u.checkTransfer x = (.bad n, s1) → ∃ t, exec i s = .next t ∧ SameMem s t ∧ Finished t k x (some (n, 0))))) ∧
  (∀ s k x i p q s1, s.transfers.find k = some x →
    (i = .transferChunk k ∧ x.st = .moving ∧ x.claimed = none ∨ i = .transferPageMapped k ∧ ∃ f, x.st = .waiting f ∧ s.faultOver f = true) →
    s.ctxDead x.ctx = false → Claims.NoneHeld s → s.chunkPages k x = (p, q, s1) →
    (∀ ms md, p = .ok ms → q = .ok md → (∀ a ∈ x.elems.flatMap (x.dstAt md), a.movable = true) →
      (∀ a ∈ x.elems.flatMap (x.srcAt ms), a.movable = true ∧ s.lineFree k x.blk a = true) →
      ∃ t, exec i s = .next t ∧ SameMem s t ∧ t.blocks = s.blocks ∧
        t.transfers.find k = some { x with st := .reading, claimed := some ⟨[], ms, md⟩ }) ∧
    (∀ ms md, p = .ok ms → q = .ok md → (∃ a ∈ x.elems.flatMap (x.dstAt md) ++ x.elems.flatMap (x.srcAt ms), a.movable = false) →
      ∃ t, exec i s = .next t ∧ SameMem s t ∧ Finished t k x (some (3, x.first))) ∧
    ((∃ va, p = .bad va ∨ q = .bad va) → ∃ t, exec i s = .next t ∧ SameMem s t ∧ Finished t k x (some (2, x.first))) ∧
    (∀ f, (p = .wait f ∧ ∀ va, q ≠ .bad va) ∨ ((∃ ms, p = .ok ms) ∧ q = .wait f) →
      ∃ t, exec i s = .next t ∧ SameMem s t ∧ t.transfers.find k = some { x with st := .waiting f })) ∧
  (∀ s k x cl, s.transfers.find k = some x → x.st = .reading → x.claimed = some cl → s.ctxDead x.ctx = false → Claims.NoneHeld s →
    (∀ a ∈ x.elems.flatMap (x.srcAt cl.src), s.lineFree k x.blk a = true ∧ s.engClean a = true) →
    ∃ t, exec (.transferChunk k) s = .next t ∧ SameMem s t ∧ t.blocks = s.blocks ∧
      t.transfers.find k = some { x with
        st := .moving, claimed := some { cl with pieces := piecesOf x.blk (s.chunkCells k x cl.src cl.dst) } } ∧
      ∀ l ∈ claimKeys (piecesOf x.blk (s.chunkCells k x cl.src cl.dst)), (l, k) ∈ t.owned) ∧
  (∀ (s : State) k x ms md, (x.kind = .fill → s.chunkCells k x ms md = x.elems.flatMap (fun e => (x.dstAt md e).zip (leBytes x.w x.aux))) ∧
    (x.kind ≠ .fill → s.olds = [] →
      (∀ a ∈ x.elems.flatMap (x.srcAt ms), ∀ b ∈ x.elems.flatMap (x.dstAt md), pieceKey x.blk a ≠ pieceKey x.blk b) →
      s.chunkCells k x ms md = x.elems.flatMap (fun e => (x.dstAt md e).zip ((x.srcAt ms e).map (s.engByte x.blk))))) ∧
  (∀ s k x cl p, s.transfers.find k = some x → x.st = .moving → x.claimed = some cl → p ∈ cl.pieces → s.granted k p.1 = true →
    Apart cl → s.invis = [] →
    ∃ t cl', exec (.transferChunk k) s = .next t ∧ t.transfers.find k = some { x with claimed := some cl' } ∧
      PiecesWritten x.grp k x.blk cl cl' s t) ∧
  (∀ s k x cl p b, s.transfers.find k = some x → x.st = .moving → x.claimed = some cl → cl.pieces = [p] → s.granted k p.1 = true →
    (∀ q ∈ p.2, ∃ o, q.1 = .scratch o) → s.blocks.find x.blk = some b →
    ∃ t c, exec (.transferChunk k) s = .next t ∧ SameMem s t ∧ t.blocks.find x.blk = some c ∧
      t.transfers.find k = some { x with claimed := some { cl with pieces := [] } } ∧
      (∀ q ∈ p.2, ∀ o, q.1 = .scratch o → o / 16 ∈ c.sfe ∧ ∃ r ∈ p.2, r.1 = .scratch o ∧ SMap.getD c.scratch o 0 = r.2) ∧
      ∀ o, (∀ q ∈ p.2, q.1 ≠ .scratch o) → SMap.getD c.scratch o 0 = SMap.getD b.scratch o 0) ∧
  (∀ s k x cl, s.transfers.find k = some x → x.st = .moving → x.claimed = some cl → cl.pieces = [] →
    ((x.chunk + 1) * x.span < x.dst.count →
      ∃ t, exec (.transferChunk k) s = .next t ∧ SameMem s t ∧ t.transfers.find k = some { x with chunk := x.chunk + 1, claimed := none }) ∧
    (x.dst.count ≤ (x.chunk + 1) * x.span → x.sig = 0 →
      ∃ t, exec (.transferChunk k) s = .next t ∧ SameMem s t ∧ Finished t k x (if s.ctxDead x.ctx then some (2, x.first) else none)) ∧
    (x.dst.count ≤ (x.chunk + 1) * x.span → x.sig ≠ 0 →
      ∃ t, exec (.transferChunk k) s = .next t ∧ SameMem s t ∧ t.transfers.find k = some { x with st := .signalling })) ∧
  (∀ s k x, s.transfers.find k = some x → x.st = .signalling → s.ctxDead x.ctx = false → s.engVisible x.grp k = true →
    s.lineFree k x.blk x.sigPhys = true → Claims.NoneHeld s →
    ∃ t, exec (.transferSignal k) s = .next t ∧ Finished t k x none ∧
      (∀ b ∈ withOffsets (leBytes 8 x.sigv.toNat ++ leBytes 8 0), EngWritten x.grp k x.blk t (x.sigPhys.shift b.1, b.2)) ∧
      (∀ a, (∀ i, i < 16 → x.sigPhys.shift i ≠ .dev a) → Memory.get t.mem a = Memory.get s.mem a) ∧
      ∀ a, (∀ i, i < 16 → x.sigPhys.shift i ≠ .host a) → Memory.get t.hostMem a = Memory.get s.hostMem a) ∧
  (∀ s k x fail, s.transfers.find k = some x → x.st = .finished fail → s.engVisible x.grp k = true →
    ∃ t, exec (.transferChunk k) s = .next t ∧ SameMem s t ∧ t.transfers.find k = none ∧
      (x.kind.isPacket = false → ∀ g, s.grp x.grp = some g →
        t.grp x.grp = some (g.completeOp x.op (fail.map (fun f => (0x19, f.1, x.pc, f.2))))))

/-- The life of a collective (R222, R260, R376, R379). The oldest queued one of a die starts, waits for a page or fails as its checks say;
one that starts takes its destination lines and sends every other member its announcement and its part. With every contribution there
its result is put together and written line by line with the full bits; with that visible and every packet acknowledged the signal is
written whole, and once that too is visible its counter retires the collective. What the members send each other beyond R379 is the
model's own layout (log entry 30). -/
def Obligations.CollectiveEvents : Prop :=
  (∀ s k x, s.colls.find k = some x → x.st = .queued → Claims.Unheld s x.ctx →
    (∀ p ∈ s.colls, p.2.die = x.die → p.2.st = .queued → k ≤ p.1) →
    (s.colls.filter (fun p => p.2.die == x.die && !(p.2.st == .queued))).length < 64 → x.wait = none →
    (∀ f s1, s.checkColl k x = (.wait f, s1) →
      ∃ t, exec (.collStart k) s = .next t ∧ SameMem s t ∧ t.colls.find k = some { x with wait := some f }) ∧
    (∀ y r s1, s.checkColl k x = (.fail y r, s1) → ∃ t, exec (.collStart k) s = .next t ∧ SameMem s t ∧ t.colls.find k = none ∧
      ∀ g, s.grp x.grp = some g → y.members = [] → t.grp x.grp = some (g.completeOp x.op (some (0x1C, r, x.pc, 0)))) ∧
    (∀ y src s1, s.checkColl k x = (.go y src, s1) → y.members = [s.pkg] →
      ∃ t, exec (.collStart k) s = .next t ∧ SameMem s t ∧ t.colls.find k = some y ∧
        ∀ cl, y.claimed = some cl → ∀ l ∈ rangeLines cl.dst y.d.dst y.d.dstBytes, (l, k) ∈ t.owned) ∧
    (∀ y src s1 p port, s.checkColl k x = (.go y src, s1) → y.members = [s.pkg, p] → p ≠ s.pkg →
      s.route (s.bankOf y.d.version) p = some port →
      ∃ t, exec (.collStart k) s = .next t ∧ SameMem s t ∧ t.colls.find k = some y ∧
        (t.link port).out = (s.link port).out ++ [s.collFlit y 6 p y.announce] ::
          (dataPayloads y.d.tag (if y.d.op = 2 then (src.drop y.d.part).take y.d.part
            else if y.d.op = 3 ∧ y.d.root ≠ 0 then [] else src)).map (fun b => [s.collFlit y 5 p b]))) ∧
  (∀ s k x cl, s.colls.find k = some x → x.claimed = some cl → x.st = .running → x.complete = true → x.fail = none →
    ∃ t, exec (.collComplete k) s = .next t ∧ SameMem s t ∧ t.colls.find k = some { x with
      st := .finished
      claimed := some { cl with pieces := piecesOf 0 ((withOffsets (x.output cl s.pkg s.free)).map (fun b =>
        (pageAt cl.dst (x.d.dst + b.1), b.2))) } }) ∧
  (∀ s k x cl p, s.colls.find k = some x → x.claimed = some cl → x.st = .finished → x.fail = none → p ∈ cl.pieces →
    s.granted k p.1 = true → Claims.NoneHeld s → Apart cl → s.invis = [] →
    ∃ t cl', exec (.collComplete k) s = .next t ∧ t.colls.find k = some { x with claimed := some cl' } ∧
      PiecesWritten x.grp k 0 cl cl' s t) ∧
  (∀ s k x cl, s.colls.find k = some x → x.claimed = some cl → cl.pieces = [] → x.st = .finished → x.fail = none →
    s.engVisible x.grp x.op = true → s.collUnsent x = false → Claims.NoneHeld s →
    (x.d.sig = 0 → ∃ t, exec (.collComplete k) s = .next t ∧ SameMem s t ∧ t.colls.find k = some { x with st := .signalled }) ∧
    (x.d.sig ≠ 0 → s.lineFree k 0 x.sigPhys = true →
      ∃ t, exec (.collComplete k) s = .next t ∧ t.colls.find k = some { x with st := .signalled } ∧
        (∀ b ∈ withOffsets (leBytes 8 x.d.sigv.toNat ++ leBytes 8 0), EngWritten x.grp x.op 0 t (x.sigPhys.shift b.1, b.2)) ∧
        ∀ a, (∀ i, i < 16 → x.sigPhys.shift i ≠ .dev a) → Memory.get t.mem a = Memory.get s.mem a)) ∧
  (∀ s k x cl, s.colls.find k = some x → x.claimed = some cl → x.st = .signalled → s.engVisible x.grp x.op = true →
    ∃ t, exec (.collComplete k) s = .next t ∧ t.colls.find k = none ∧ SameMem s t ∧
      ∀ g, s.grp x.grp = some g → t.grp x.grp = some (g.completeOp x.op none))

/-! ## The Carillon loop -/

namespace Sys2Proof.Claims
open Sys2Proof.Machine Sys2Proof.Safety

/-- A record word has issued: its record waits to enter the send queue and holds the fragment (R350). -/
def SendsRecord (s : State) (c : Issue) (g : Group) (i : Instr) (d : BitVec 6) (before rel : Bool) (r : Record) : Prop :=
  ∃ t h, exec i s = .next t ∧ t.grp c.grp = some h ∧ Quiet c.grp s t ∧ SameRegs g h ∧
    Outstanding c g h .bc (.record d.toNat before r rel) noOrder [] ∧
    ∀ l, (h.lane l).pc = (g.lane l).pc ∧ (Mask.has c.lanes l = true → (g.lane l).st = .running → (h.lane l).hold = .busy s.nextId)

/-- The tenant of a group's context. -/
def tenantOf (s : State) (g : Group) : Nat := ((s.ctxOf g).map (·.tenant)).getD 0

/-- The value of a scalar register, or of a pair. -/
def val (g : Group) (b64 : Bool) (r : BitVec 6) : Nat := if b64 then (g.rs64 r.toNat).toNat else (g.rs r.toNat).toNat

end Sys2Proof.Claims

/-- The loop's words (R319, R321, R350 to R353). `CBW`, `CBC`, `CBA` and `CBPT` make a record of their operands, which holds the fragment until it
is queued; a bad alignment or a bad page edit traps. `CLD` reads the local store, through its tenant's partition as it is when the
access is performed, `PEAL` the peal, and `PFENCE` waits for one. -/
def Obligations.LoopWords : Prop :=
  (∀ w rel gd d a b s c g, Ready (.cbw w rel gd d a b) s c g → g.nonHelpers (g.guarded c.lanes gd) ≠ 0 → (g.rs a.toNat).toNat % w.bytes = 0 →
    SendsRecord s c g (.cbw w rel gd d a b) d false rel
      ⟨1, w.bytes, Claims.tenantOf s g, (g.rs a.toNat).toNat, (storeBytes g 0 (.s b) w ++ leBytes 24 0).take 24⟩) ∧
  (∀ w rel gd d a b s c g, Ready (.cbw w rel gd d a b) s c g → g.nonHelpers (g.guarded c.lanes gd) ≠ 0 → (g.rs a.toNat).toNat % w.bytes ≠ 0 →
    exec (.cbw w rel gd d a b) s = .next ((began (.cbw w rel gd d a b) s c g).trapAt c { cause := 3, addr := (g.rs a.toNat).toNat })) ∧
  (∀ i b64 rel gd d a b x s c g, (i = .cbc b64 rel gd d a b x ∨ i = .cba b64 rel gd d a b) → Ready i s c g →
    g.nonHelpers (g.guarded c.lanes gd) ≠ 0 → (g.rs a.toNat).toNat % (if b64 then 8 else 4) ≠ 0 →
    exec i s = .next ((began i s c g).trapAt c { cause := 3, addr := (g.rs a.toNat).toNat })) ∧
  (∀ b64 rel gd d a b x s c g, Ready (.cbc b64 rel gd d a b x) s c g → g.nonHelpers (g.guarded c.lanes gd) ≠ 0 →
    (g.rs a.toNat).toNat % (if b64 then 8 else 4) = 0 →
    SendsRecord s c g (.cbc b64 rel gd d a b x) d true rel ⟨2, if b64 then 8 else 4, Claims.tenantOf s g, (g.rs a.toNat).toNat,
      leBytes 8 (val g b64 b) ++ leBytes 8 (val g b64 x) ++ leBytes 8 0⟩) ∧
  (∀ b64 rel gd d a b s c g, Ready (.cba b64 rel gd d a b) s c g → g.nonHelpers (g.guarded c.lanes gd) ≠ 0 →
    (g.rs a.toNat).toNat % (if b64 then 8 else 4) = 0 →
    SendsRecord s c g (.cba b64 rel gd d a b) d true rel ⟨3, if b64 then 8 else 4, Claims.tenantOf s g, (g.rs a.toNat).toNat,
      leBytes 8 (val g b64 b) ++ leBytes 16 0⟩) ∧
  (∀ lvl rel gd d a b s c g, Ready (.cbpt lvl rel gd d a b) s c g → g.nonHelpers (g.guarded c.lanes gd) ≠ 0 →
    (editOk lvl.toNat (g.rs64 a.toNat).toNat (g.rs64 b.toNat) = true → SendsRecord s c g (.cbpt lvl rel gd d a b) d false rel
      ⟨5, lvl.toNat, Claims.tenantOf s g, 0, leBytes 8 (g.rs64 a.toNat).toNat ++ leBytes 8 (g.rs64 b.toNat).toNat ++ leBytes 8 0⟩) ∧
    (editOk lvl.toNat (g.rs64 a.toNat).toNat (g.rs64 b.toNat) = false → exec (.cbpt lvl rel gd d a b) s =
      .next ((began (.cbpt lvl rel gd d a b) s c g).trapAt c { cause := 0x1B, addr := (g.rs64 a.toNat).toNat }))) ∧
  (∀ w gd d a s c g, Ready (.cld w gd d a) s c g →
    (∀ l ∈ (loadReq a w.bytes (offsetEa a)).lanes g (exFor g c.lanes gd d), effOff g l a % w.bytes = 0) →
    ∃ t h as, exec (.cld w gd d a) s = .next t ∧ t.grp c.grp = some h ∧ Quiet c.grp s t ∧ Advanced c g h ∧ SameRegs g h ∧
      (as ≠ [] → Outstanding c g h .ld (.load d w) noOrder as) ∧
      (∀ x ∈ as, x.va = effOff g x.lane a ∧ x.n = w.bytes ∧ x.phys = .store x.va) ∧
      as.map (·.lane) = (loadReq a w.bytes (offsetEa a)).lanes g (exFor g c.lanes gd d)) ∧
  (∀ (s : State) k g l off n, (s.readPhys k g l (.store off) n).1 =
    if off + n ≤ (s.partition (Claims.tenantOf s g)).2 then s.storeBytes ((s.partition (Claims.tenantOf s g)).1 + off) n else leBytes n 0) ∧
  (∀ ret gd (d : BitVec 6) s c g, Ready (.peal ret gd d) s c g → g.nonHelpers (g.guarded c.lanes gd) ≠ 0 →
    ∃ t h, exec (.peal ret gd d) s = .next t ∧ t.grp c.grp = some h ∧ OnlyGroup c.grp s t ∧ Advanced c g h ∧ h.v = g.v ∧
      (∀ n, n ≠ d.toNat → n ≠ d.toNat + 1 → h.rs n = g.rs n) ∧ (d.toNat < 62 → h.rs64 d.toNat = BitVec.ofNat 64 (if ret then g.peal else s.peal))) ∧
  (∀ gd a s c g, Ready (.pfence gd a) s c g → g.nonHelpers (g.guarded c.lanes gd) ≠ 0 →
    ((g.rs64 a.toNat).toNat % 2 ^ 63 ≤ s.peal →
      ∃ t h, exec (.pfence gd a) s = .next t ∧ t.grp c.grp = some h ∧ OnlyGroup c.grp s t ∧ Advanced c g h ∧ Unwritten {} g h) ∧
    (s.peal < (g.rs64 a.toNat).toNat % 2 ^ 63 → g.flagged = false →
      ∃ t h, exec (.pfence gd a) s = .next t ∧ t.grp c.grp = some h ∧ OnlyGroup c.grp s t ∧ Unwritten {} g h ∧
        ∀ l, (h.lane l).pc = (g.lane l).pc ∧ (Mask.has c.lanes l = true → (g.lane l).st = .running →
          (h.lane l).hold = .pfence ((g.rs64 a.toNat).toNat % 2 ^ 63))))

/-- The life of a record (R341 to R348, R351, R356). It enters the send queue in its group's order and frees its fragment;
when the token comes it gets the next peal and is applied here, as records of other packages are in peal order; a record that has first
to wait for blocks here keeps the token, or its place, until it is applied. Back, a record writes its peal, with bit 63 for a failure,
and its counter retires it. A frame sent again changes nothing. A re-formed loop has the ring of its members, and the records of a member
that were not applied by then go to the head of its send queue. A re-formed ring is an operand of the event: the model's reading (log
entry 26). -/
def Obligations.LoopEvents : Prop :=
  (∀ s k id g o d before r rel, s.grp k = some g → g.op id = some o → o.kind = .record d before r rel → g.recordHeld id = true →
    (∀ e ∈ g.ops, e.id < id → (∃ d' b' r' l', e.kind = .record d' b' r' l') → g.recordHeld e.id = false) →
    s.sendq.length < Config.sendSlots → (rel = true → s.released k g id (g.mask (fun _ => true)) .pod false = true) →
    ∃ t h, exec (.recordEnterSendQueue k id) s = .next t ∧ t.grp k = some h ∧ Quiet k s t ∧ SameRegs g h ∧
      t.sendq = s.sendq ++ [⟨k, id, some (s.ctxNum g), none, none, r, false, false, 0⟩] ∧
      ∀ l, l < 64 → l < g.width → (g.lane l).hold = .busy id → (g.lane l).st = .running → (h.lane l).pc = (g.lane l).pc + 8) ∧
  (∀ s, s.formed = true → s.visit = 0 → s.sendq = [] → exec (.tokenArrive (s.peal + 1)) s = .next s) ∧
  (∀ s x rest, s.formed = true → s.visit < 16 → s.visit ≤ s.peal → s.sendq = x :: rest →
    (∀ t, s.applyRecord (s.peal + 1) x.r = .later (some t) →
      exec (.tokenArrive (s.peal + 1 - s.visit)) s = .next { t with stays := true }) ∧
    (s.applyRecord (s.peal + 1) x.r = .later none → exec (.tokenArrive (s.peal + 1 - s.visit)) s = notNow "TOKEN_ARRIVE")) ∧
  (∀ s sender r t, s.formed = true → sender ≠ s.pkg → sender ∈ s.ring → r.body.length = 24 → 1 ≤ r.kind → r.kind ≤ 6 →
    s.applyRecord (s.peal + 1) r = .later (some t) → exec (.recordApply (s.peal + 1) sender r) s = .next { t with stays := true }) ∧
  (∀ (s : State) e, s.stays = true → (s.keepInput e).agenda = e :: s.agenda ∧ (s.keepInput e).stays = false) ∧
  (∀ s x t o, s.formed = true → s.visit = 0 → s.sendq = [x] → s.applyRecord (s.peal + 1) x.r = .ok t o →
    ∃ u, exec (.tokenArrive (s.peal + 1)) s = .next u ∧ u.sendq = [] ∧ u.peal = s.peal + 1 ∧ u.store = t.store ∧ u.visit = 0 ∧
      u.onLoop.find (s.peal + 1) = some { x with outOfRange := o.outOfRange, failed := o.failed, before := o.before }) ∧
  (∀ s sender r, s.formed = true → sender ≠ s.pkg → sender ∈ s.ring → r.body.length = 24 → r.kind = 1 → r.tenant ≠ 0xFFFF → r.arg ≤ 24 →
    ∃ t, exec (.recordApply (s.peal + 1) sender r) s = .next t ∧ t.peal = s.peal + 1 ∧ SameMem s t ∧ t.groups = s.groups ∧
      (r.addr + r.arg ≤ (s.partition r.tenant).2 → 0 < (s.partition r.tenant).2 → ∀ x, SMap.getD t.store x 0 =
        if (s.partition r.tenant).1 + r.addr ≤ x ∧ x < (s.partition r.tenant).1 + r.addr + r.arg
        then r.body.getD (x - ((s.partition r.tenant).1 + r.addr)) 0 else SMap.getD s.store x 0) ∧
      ((s.partition r.tenant).2 < r.addr + r.arg → t.store = s.store)) ∧
  (∀ s n x rest g o d before r rel, s.formed = true → s.onLoop = (n, x) :: rest → x.packet = none → x.cmd = none → s.grp x.grp = some g →
    g.op x.op = some o → o.kind = .record d before r rel → s.ckpt g = false → d + 3 < 63 →
    ∃ t h, exec (.recordReturned n) s = .next t ∧ t.grp x.grp = some h ∧ Quiet x.grp s t ∧ t.onLoop.find n = none ∧
      h.peal = max g.peal n ∧
      h.rs64 d = BitVec.ofNat 64 (n + if x.outOfRange ∨ x.failed then 2 ^ 63 else 0) ∧
      (before = true → h.rs64 (d + 2) = BitVec.ofNat 64 (if x.outOfRange then 0 else x.before)) ∧
      (∀ m, m ≠ d → m ≠ d + 1 → (before = true → m ≠ d + 2 ∧ m ≠ d + 3) → h.rs m = g.rs m)) ∧
  (∀ s n, s.formed = true → (SMap.has s.frames n = true ∨ n = s.peal + 1) → exec (.frameCrcRetransmit n) s = .next s) ∧
  (∀ s r, s.ring ≠ [] → s.reformOk r = true →
    ∃ t, exec (.loopBreakDetect r) s = .next t ∧ t.ring = r.ring ∧ t.onLoop = [] ∧ (t.formed = r.ring.contains s.pkg) ∧
      (r.image = none → (∀ p ∈ s.onLoop, r.peal < p.1) → r.ring.contains s.pkg = true → t.sendq = s.onLoop.map (·.2) ++ s.sendq))

/-! ## Queues and grids -/

namespace Sys2Proof.Claims
open Sys2Proof.Machine Sys2Proof.Safety

/-- A push has been turned away: its status stands in an `st` operation for the destination, the fragment goes on, and no register has
changed. -/
def Status (s : State) (c : Issue) (g : Group) (i : Instr) (d : BitVec 6) (v : Nat) : Prop :=
  ∃ t h, exec i s = .next t ∧ t.grp c.grp = some h ∧ Quiet c.grp s t ∧ Advanced c g h ∧ SameRegs g h ∧
    Outstanding c g h .st (.status d.toNat (BitVec.ofNat 32 v)) noOrder []

/-- A push has been taken on: it stands among the outstanding stores, and holds its fragment only where it waits. -/
def Pushes (s : State) (c : Issue) (g : Group) (i : Instr) (d : BitVec 6) (q : Nat) (wait : Bool) (pkt : List Byte)
    (child : Option (Desc × List Nat)) : Prop :=
  ∃ t h id, exec i s = .next t ∧ t.grp c.grp = some h ∧ Quiet c.grp s t ∧ SameRegs g h ∧
    Outstanding c g h .st (.push d.toNat q wait pkt child) noOrder [] ∧ (wait = false → Advanced c g h) ∧
    (wait = true → ∀ l, (h.lane l).pc = (g.lane l).pc ∧
      (Mask.has c.lanes l = true → (g.lane l).st = .running → (h.lane l).hold = .push q id))

/-- The word that reads a packet: `LAUNCH` or `QPUSH`. -/
def push (launch wait : Bool) (gd : Guard) (d a b : BitVec 6) : Instr := if launch then .launch wait gd d a b else .qpush wait gd d a b

/-- A push reads its packet: issued anew by some executing lane, with the packet aligned, the group's stores performed, and these
bytes; checkpointed blocks hold nothing of its tables. -/
structure Reads (i : Instr) (gd : Guard) (a : BitVec 6) (s : State) (c : Issue) (g : Group) (pkt : List Byte) (s1 : State) : Prop where
  ready : Ready i s c g
  some_ : goes c g gd ≠ 0
  anew : c.hold = .none
  aligned : (g.rs64 a.toNat).toNat % 64 = 0
  stores : g.storesDone = true
  bytes : (began i s c g).readNow c.grp (counted i c g) ((Mask.lanes (goes c g gd)).headD 0) (g.rs64 a.toNat).toNat 64 = .ok pkt s1
  full : pkt.length = 64
  tables : Unheld s (s.ctxNum g)

/-- The queue a push names is a device queue of the group's context. -/
def Own (s : State) (g : Group) (q : Nat) (x : Queue) : Prop :=
  s.queue (s.ldOf g) (q % 64) = some x ∧ q < 64 ∧ x.ctx = s.ctxNum g ∧ x.kind = .device

/-- A push under way has its queue: a device queue of the group's context, not in ERROR. -/
def Open (s : State) (g : Group) (q : Nat) (x : Queue) : Prop :=
  s.queue (s.ldOf g) q = some x ∧ x.ctx = s.ctxNum g ∧ x.kind = .device ∧ x.st ≠ .error

/-- The slot of a queue's next packet lies at `pa` in device memory, and the line is free for its write. -/
def SlotFree (s : State) (ld q : Nat) (x : Queue) (pa : Nat) (s1 : State) : Prop :=
  s.slotsAt ld q x 1 = .ok [.dev pa] s1 ∧ s.slotHolders [.dev pa] = [] ∧ s.slotsOpen [.dev pa] = true

/-- The push of an operation has become the write of its status. -/
def Ends (t : State) (k id d v : Nat) : Prop := ((t.grp k).bind (·.op id)).map (·.kind) = some (.status d (BitVec.ofNat 32 v))

/-- A packet stands in its slot and the tail has moved past it; no other byte of device memory has changed (R107). -/
def Appended (s t : State) (ld q : Nat) (x : Queue) (pa : Nat) (pkt : List Byte) : Prop :=
  BytesSet s.mem t.mem pa pkt ∧ t.hostMem = s.hostMem ∧ ∃ y, t.queue ld q = some y ∧ y.tail = x.tail + 1 ∧ y.head = x.head

end Sys2Proof.Claims

/-- The words that push, and their pushes (R107 to R110, R120 to R122). `QPUSH` and `LAUNCH` read a packet and check it: status
2 for no device queue of the context, 3 for one in ERROR or RETIRED, 4 for a packet they may not push; `LAUNCH` gives 5 at depth
15 and 6 for a rejected launch; without `.wait` a full queue gives 1. A push that passes stands among the outstanding stores;
once released it writes its packet into the next slot with status 0, a launch making the child grid. `CONT` posts a record for
each executing lane, or traps; its records go to their slots together. Status 1 for a queue found full only later (log entry
47), and the trap that `CONT` to a queue in ERROR takes (log entry 46), are the model's choice. -/
def Obligations.QueueWords : Prop :=
  (∀ l wait gd d a b s c g pkt s1, Reads (Claims.push l wait gd d a b) gd a s c g pkt s1 →
    (s1.queue (s1.ldOf g) ((g.rs b.toNat).toNat % 64) = none →
      (64 ≤ (g.rs b.toNat).toNat ∨ (∀ r, SMap.find (s1.ld (s1.ldOf g)).retired (g.rs b.toNat).toNat = some r →
          r.device = false ∨ r.ctx ≠ s1.ctxNum g) →
        Status s c g (Claims.push l wait gd d a b) d 2) ∧
      (∀ r, (g.rs b.toNat).toNat < 64 → SMap.find (s1.ld (s1.ldOf g)).retired (g.rs b.toNat).toNat = some r → r.device = true →
        r.ctx = s1.ctxNum g → Status s c g (Claims.push l wait gd d a b) d 3)) ∧
    (∀ x, s1.queue (s1.ldOf g) ((g.rs b.toNat).toNat % 64) = some x →
      (64 ≤ (g.rs b.toNat).toNat ∨ x.ctx ≠ s1.ctxNum g ∨ x.kind ≠ .device) →
      Status s c g (Claims.push l wait gd d a b) d 2) ∧
    (∀ x, Own s1 g (g.rs b.toNat).toNat x → x.st = .error → Status s c g (Claims.push l wait gd d a b) d 3) ∧
    (∀ x, Own s1 g (g.rs b.toNat).toNat x → x.st ≠ .error →
      ((l = true ∧ field pkt 0 1 ≠ 1) ∨ (l = false ∧ field pkt 0 1 = 1) ∨ malformed pkt ≠ none) →
      Status s c g (Claims.push l wait gd d a b) d 4)) ∧
  (∀ wait gd d a b s c g pkt s1 x, Reads (.qpush wait gd d a b) gd a s c g pkt s1 → Own s1 g (g.rs b.toNat).toNat x → x.st ≠ .error →
    field pkt 0 1 ≠ 1 → malformed pkt = none →
    (x.size ≤ x.tail - x.head → wait = false → Status s c g (.qpush wait gd d a b) d 1) ∧
    (x.tail - x.head < x.size ∨ wait = true → Pushes s c g (.qpush wait gd d a b) d (g.rs b.toNat).toNat wait pkt none)) ∧
  (∀ wait gd d a b s c g pkt s1 x, Reads (.launch wait gd d a b) gd a s c g pkt s1 → Own s1 g (g.rs b.toNat).toNat x → x.st ≠ .error →
    field pkt 0 1 = 1 → malformed pkt = none →
    (((s1.gridOf g).map (·.depth)).getD 0 = 15 → Status s c g (.launch wait gd d a b) d 5) ∧
    (∀ bs s2, ((s1.gridOf g).map (·.depth)).getD 0 ≠ 15 →
      s1.readNow c.grp (counted (.launch wait gd d a b) c g) ((Mask.lanes (goes c g gd)).headD 0) (field pkt 16 8) 64 = .ok bs s2 →
      (readDesc bs = none → Status s c g (.launch wait gd d a b) d 6) ∧
      (∀ ds, readDesc bs = some ds →
        s2.accepts (s2.ldOf g) (s2.ctxNum g) ds (field pkt 24 4) (field pkt 28 2) (field pkt 30 2) = false →
        Status s c g (.launch wait gd d a b) d 6) ∧
      (∀ ds pg, readDesc bs = some ds →
        s2.accepts (s2.ldOf g) (s2.ctxNum g) ds (field pkt 24 4) (field pkt 28 2) (field pkt 30 2) = true →
        ds.consts = 0 → s2.gridOf g = some pg →
        (x.size ≤ x.tail - x.head ∨ 65535 ≤ pg.children → wait = false → Status s c g (.launch wait gd d a b) d 1) ∧
        ((x.tail - x.head < x.size ∧ pg.children < 65535) ∨ wait = true →
          Pushes s c g (.launch wait gd d a b) d (g.rs b.toNat).toNat wait pkt (some (ds, [])))))) ∧
  (∀ i gd s c g q id, ((∃ wait d a b, i = .qpush wait gd d a b) ∨ ∃ wait d a b, i = .launch wait gd d a b) → Ready i s c g →
    goes c g gd ≠ 0 → c.hold = .push q id →
    ∃ t h, exec i s = .next t ∧ t.grp c.grp = some h ∧ OnlyGroup c.grp s t ∧ Advanced c g h ∧ Unwritten {} g h) ∧
  (∀ s k id m dl g o d q wait pkt child, Pending s k id g o → o.kind = .push d q wait pkt child → o.lanes = [] → Claims.Unheld s (s.ctxNum g) →
    ((s.queue (s.ldOf g) q = none ∨ ∃ x, s.queue (s.ldOf g) q = some x ∧ (x.ctx ≠ s.ctxNum g ∨ x.kind ≠ .device ∨ x.st = .error)) →
      ∃ t, exec (.storeAck k id m dl) s = .next t ∧ SameMem s t ∧ Ends t k id d 3) ∧
    (∀ x, Open s g q x → wait = false → x.size ≤ x.tail - x.head →
      ∃ t, exec (.storeAck k id m dl) s = .next t ∧ SameMem s t ∧ Ends t k id d 1) ∧
    (∀ x pa s1, Open s g q x → x.tail - x.head < x.size → s.released k g id (allLanes g) .pkg false = true → SlotFree s (s.ldOf g) q x pa s1 →
      (child = none → ∃ t, exec (.storeAck k id m dl) s = .next t ∧ Appended s t (s.ldOf g) q x pa pkt ∧ Ends t k id d 0) ∧
      (∀ ds cs pg, child = some (ds, cs) → s.gridOf g = some pg → pg.children < 65535 → pg.st ≠ .failed →
        ∃ t n ch, exec (.storeAck k id m dl) s = .next t ∧ Appended s t (s.ldOf g) q x pa pkt ∧ Ends t k id d 0 ∧
          t.grids.find n = some ch ∧ ch.parent = some g.grid ∧ ch.depth = pg.depth + 1 ∧ ch.st = .submitted ∧ ch.desc = ds ∧
          ch.consts = cs ∧ ch.queue = some (q, x.tail) ∧ (ch.x, ch.y, ch.z) = (field pkt 24 4, field pkt 28 2, field pkt 30 2) ∧
          (n ≠ g.grid → (t.grids.find g.grid).map (·.children) = some (pg.children + 1))))) ∧
  (∀ gd a e s c g q x, Ready (.cont gd a e) s c g → goes c g gd ≠ 0 →
    s.contQueue (s.ldOf g) (s.ctxNum g) = some (q, x) → x.st ≠ .error →
    x.tail - x.head + (began (.cont gd a e) s c g).contsComing (s.ldOf g) q + (Mask.lanes (goes c g gd)).length ≤ x.size →
    ∃ t h, exec (.cont gd a e) s = .next t ∧ t.grp c.grp = some h ∧ Quiet c.grp s t ∧ Advanced c g h ∧ SameRegs g h ∧
      Outstanding c g h .st (.posted q ((Mask.lanes (goes c g gd)).map (fun l =>
        contRecord e.toNat (g.rv64 a.toNat l) (g.rv64 (a.toNat + 2) l)))) noOrder [⟨0, goes c g gd, 0, 0, .zero, [], .done⟩]) ∧
  (∀ gd a e s c g, Ready (.cont gd a e) s c g → goes c g gd = 0 →
    ∃ t h, exec (.cont gd a e) s = .next t ∧ t.grp c.grp = some h ∧ Quiet c.grp s t ∧ Advanced c g h ∧ SameRegs g h) ∧
  (∀ gd a e s c g, Ready (.cont gd a e) s c g → goes c g gd ≠ 0 →
    (s.contQueue (s.ldOf g) (s.ctxNum g) = none ∨ ∃ q x, s.contQueue (s.ldOf g) (s.ctxNum g) = some (q, x) ∧
      (x.st = .error ∨ x.size < x.tail - x.head + (Mask.lanes (goes c g gd)).length)) →
    exec (.cont gd a e) s = .next ((began (.cont gd a e) s c g).trapAt c { cause := 0x14 })) ∧
  (∀ s k id m dl g o q x pa r s1 who, Pending s k id g o → o.kind = .posted q [r] → o.lanes = [⟨0, who, 0, 0, .zero, [], .done⟩] →
    s.queue (s.ldOf g) q = some x → x.ctx = s.ctxNum g → x.kind = .cont → x.st ≠ .error → x.tail - x.head < x.size →
    Claims.Unheld s (s.ctxNum g) →
    s.released k g id who .pkg false = true → SlotFree s (s.ldOf g) q x pa s1 →
    ∃ t, exec (.storeAck k id m dl) s = .next t ∧ Appended s t (s.ldOf g) q x pa r)

/-- The dispatcher (R97, R99 to R104, R111). The head of an ACTIVE queue in its turn is taken: the head advances, and the
packet's grid, transfer or record begins; a bad packet puts the queue in ERROR, an unmet condition in BLOCKED, a page that is
not there makes it wait. A head startable for 1,000,000 ticks is promoted. An ended packet completes: its completion word is
written and it is no longer started; a signal writes its value. Continuation records of one entry and bin make a grid of one
group of 16 lanes. How many records a continuation group takes where the spec leaves it open is free (log entry 21), and the errors of an
entry that names no such kernel are the model's reading (log entry 49). -/
def Obligations.QueueEvents : Prop :=
  (∀ s ld q x, s.queue ld q = some x → (s.ld ld).enable = true → x.head < x.tail → x.wait = none → x.st = .active →
    Claims.Unheld s x.ctx →
    (∀ pkt acc s1, s.headOf ld q x = (.go pkt acc, s1) → s.itsTurn (ld * 64 + q) x.cls = true →
      ∃ t y, exec (.packetTake ld q) s = .next t ∧ t.queue ld q = some y ∧ y.head = x.head + 1 ∧ y.tail = x.tail ∧
        t.mem = s.mem ∧ t.groups = s.groups ∧
        (x.kind = .cont → y.conts = x.conts ++ [⟨field pkt 0 2, BitVec.ofNat 64 (field pkt 8 8), BitVec.ofNat 64 (field pkt 16 8)⟩]) ∧
        (x.kind ≠ .cont → ∃ p, y.started = x.started ++ [p] ∧ p.n = x.head ∧ some p.ty = ptype pkt ∧ p.cword = field pkt 2 2 ∧
          p.cvalue.toNat = field pkt 8 8 ∧
          (p.ty = .launch → SMap.find x.children x.head = none → ∀ a, acc = some a →
            ∃ g, t.grids.find p.work = some g ∧ g.st = .submitted ∧ g.desc = a.1 ∧ g.queue = some (q, x.head) ∧ g.next = 0 ∧
              (g.x, g.y, g.z) = (field pkt 24 4, field pkt 28 2, field pkt 30 2)) ∧
          (p.ty = .copy → ∃ k tr, t.transfers.find k = some tr ∧ tr.kind = .packet ld q x.head ∧ tr.st = .queued ∧
            tr.srcBase = field pkt 16 8 ∧ tr.dstBase = field pkt 24 8 ∧ tr.dst = ⟨9, [(field pkt 32 8, 1)]⟩) ∧
          (p.ty = .podLaunch → ∃ r, t.sendq = s.sendq ++ [r] ∧ r.packet = some (ld, q, x.head) ∧ r.r.kind = 4))) ∧
    (∀ n s1, s.headOf ld q x = (.error n, s1) →
      ∃ t y, exec (.packetTake ld q) s = .next t ∧ SameMem s t ∧ t.queue ld q = some y ∧ y.st = .error ∧ y.error = n ∧ y.head = x.head) ∧
    (∀ acc s1, s.headOf ld q x = (.unmet acc, s1) →
      ∃ t y, exec (.packetTake ld q) s = .next t ∧ SameMem s t ∧ t.queue ld q = some y ∧ y.st = .blocked ∧ y.head = x.head) ∧
    (∀ f s1, s.headOf ld q x = (.wait f, s1) →
      ∃ t, exec (.packetTake ld q) s = .next t ∧ SameMem s t ∧ t.queue ld q = some { x with wait := some f })) ∧
  (∀ s ld q x pkt acc s1, s.queue ld q = some x → (s.ld ld).enable = true → x.head < x.tail → x.st = .blocked →
    Claims.Unheld s x.ctx →
    s.headOf ld q x = (.go pkt acc, s1) →
    ∃ t, exec (.packetTake ld q) s = .next t ∧ SameMem s t ∧ t.queue ld q = some { x with st := .active, accepted := acc }) ∧
  (∀ s ld q x u, s.queue ld q = some x → x.promoted = false → s.startable ld q x = true → x.since = some u → u + 1000000 ≤ s.timebase →
    exec (.queueStarvationPromote ld q) s = .next (s.setQueue ld q { x with promoted := true })) ∧
  (∀ s ld q x p, s.queue ld q = some x → p ∈ x.started → (∀ p' ∈ x.started, p'.n = p.n → p' = p) →
    ((p.ty = .launch ∧ s.workVisible = true ∧ ∀ g, s.grids.find p.work = some g →
        g.st = .complete ∨ (g.st = .failed ∧ s.groupsGone p.work = true)) ∨
      (p.ty = .signal ∧ field p.body 0 8 = 0) ∨
      ((p.ty = .barrierAnd ∨ p.ty = .copy ∨ p.ty = .podLaunch) ∧ p.done = true ∧ s.workVisible = true)) →
    ∃ t y, exec (.packetComplete ld q p.n) s = .next t ∧ SameMem s t ∧ t.queue ld q = some y ∧
      y.started = x.started.filter (fun p' => p'.n != p.n) ∧ y.head = x.head ∧
      ∀ w, SMap.getD (t.ld ld).words w 0 = if p.cword ≠ 0xFFFF ∧ w = p.cword then p.cvalue else SMap.getD (s.ld ld).words w 0) ∧
  (∀ s ld q x p s1 m pa, s.queue ld q = some x → p ∈ x.started → (∀ p' ∈ x.started, p'.n = p.n → p' = p) → p.ty = .signal →
    field p.body 0 8 ≠ 0 → s.engPages ld x.ctx (queueKey ld q) true (pagesFrom (field p.body 0 8) 8) = (.ok m, s1) →
    pageAt m (field p.body 0 8) = .dev pa → s.owned = [] → s.locks = [] → s.invis = [] → s.poison = [] → Claims.NoneHeld s →
    ∃ t, exec (.packetComplete ld q p.n) s = .next t ∧
      BytesSet s.mem t.mem pa (leBytes 8 (signalValue p.body (Memory.read s.mem pa 8)))) ∧
  (∀ s ctx bin entry c q x, s.ctxs.find ctx = some c → s.contQueue c.ld ctx = some (q, x) → (s.ld c.ld).enable = true →
    x.st = .idle ∨ x.st = .active ∨ x.st = .blocked → x.wait = none → Claims.Unheld s x.ctx →
    contRun entry (s.contRunning ctx) (x.conts.filter (fun r => s.binOf ctx r == bin)) ≠ [] →
    (∀ n s1, s.contHead c.ld q x entry = (.error n, s1) →
      ∃ t y, exec (.contDispatch ctx bin entry) s = .next t ∧ SameMem s t ∧ t.queue c.ld q = some y ∧ y.st = .error ∧ y.error = n ∧
        y.conts.length + 1 = x.conts.length) ∧
    (∀ acc s1, s.contHead c.ld q x entry = (.go [] (some acc), s1) →
      ∃ t y gid g rs, exec (.contDispatch ctx bin entry) s = .next t ∧ SameMem s t ∧ t.grids.find gid = some g ∧ g.st = .submitted ∧
        g.desc = acc.1 ∧ g.total = 1 ∧ g.queue = none ∧ rs ≠ [] ∧ rs.length ≤ 16 ∧
        (∀ r ∈ rs, r ∈ x.conts ∧ r.entry = entry ∧ s.binOf ctx r = bin) ∧
        g.contLines = rs.map (·.line) ∧ g.contLines.Nodup ∧ g.initV = contRegs acc.1.regs rs ∧
        t.queue c.ld q = some y ∧ y.conts.length + rs.length = x.conts.length)) ∧
  (∀ (s : State) ld q (x : Queue) entry,
    (∀ m s1 eb, s.engPages ld x.ctx (queueKey ld q) false (pagesFrom (x.entries + 8 * entry) 8) = (.ok m, s1) →
      s1.engRead 0 0 m (x.entries + 8 * entry) 8 = .ok eb → leNat eb = 0 ∨ leNat eb % 64 ≠ 0 →
      s.contHead ld q x entry = (.error 2, s1)) ∧
    (∀ pkt acc s1, s.contHead ld q x entry = (.go pkt (some acc), s1) → acc.1.width = 16))

/-- Grids and their blocks (R115 to R118, R120, R124, R159, R87). A block of a grid that has room is placed: its groups stand in
the slots' sets with every visible lane at the entry, the argument in s0:s1 and every other register 0. A DRAINED grid with no
child completes; with children it waits. A saved block comes back to a core with room; that the first one to come back makes a
READY context RUNNING is the model's reading (log entry 33). -/
def Obligations.GridEvents : Prop :=
  (∀ s gid gr at_ t, s.grids.find gid = some gr → s.placeUnits gid at_ = some t → gr.st = .submitted ∨ gr.st = .dispatching →
    s.gridTaken gr = true → s.mayDispatch gr.ctx = true →
    at_.length = (if gr.desc.gridbar then gr.total / max 1 gr.desc.unit else 1) →
    exec (.blockPlace gid at_) s = .next (t.updCtx gr.ctx (fun c => { c with st := .running }))) ∧
  (∀ s gid gr a cx, s.grids.find gid = some gr → gr.st = .submitted ∨ gr.st = .dispatching → s.gridTaken gr = true →
    s.mayDispatch gr.ctx = true → gr.desc.gridbar = false → gr.desc.cluster = false → gr.desc.pair = false → gr.next < gr.total →
    s.unitRoom gr.desc a = true → s.ctxs.find gr.ctx = some cx → s.poolUsed gr.ctx + gr.desc.image ≤ cx.poolSize →
    ∃ t b, exec (.blockPlace gid [a]) s = .next t ∧ SameMem s t ∧ (t.ctxs.find gr.ctx).map (·.st) = some .running ∧
      (t.grids.find gid).map (fun g => (g.next, g.st)) = some (gr.next + 1, if gr.next + 1 = gr.total then .running else .dispatching) ∧
      t.blocks.find s.nextId = some b ∧ b.grid = gid ∧ b.b = gr.next ∧ b.core = a ∧ b.scratch = [] ∧ b.sfe = [] ∧ b.bars = [] ∧
      b.groups.length = gr.desc.groups ∧
      ∀ i k, b.groups[i]? = some k → ∃ h, t.grp k = some h ∧ h.idx = i ∧ h.blk = s.nextId ∧ h.grid = gid ∧ h.core = a ∧
        h.width = gr.desc.visible ∧ (h.state = .active ∨ h.state = .pending) ∧ h.fpMode = 0 ∧ h.fpFlags = 0 ∧ h.fpSeed = 0 ∧ h.ops = [] ∧
        h.rs64 0 = gr.arg ∧ (∀ n, 2 ≤ n → h.rs n = 0) ∧ (∀ n l, n < 7 → h.rp n l = false) ∧
        (gr.initV = [] → ∀ n l, h.rv n l = 0) ∧
        (gr.contLines = [] → ∀ l, l < gr.desc.visible → (h.lane l).st = .running ∧ (h.lane l).pc = BitVec.ofNat 56 gr.desc.entry)) ∧
  (∀ s gid gr, s.grids.find gid = some gr → gr.children = 0 → gr.st = .drained ∨ gr.st = .awaiting →
    ∃ t, exec (.gridComplete gid) s = .next t ∧ SameMem s t ∧ t.groups = s.groups ∧
      (gr.parent = none → gr.queue ≠ none → (t.grids.find gid).map (·.st) = some .complete) ∧
      (gr.parent = none → gr.queue = none → t.grids.find gid = none) ∧
      (∀ p pg, gr.parent = some p → p ≠ gid → s.grids.find p = some pg → (t.grids.find gid).map (·.st) = some .complete ∧
        (t.grids.find p).map (·.children) = some (pg.children - 1))) ∧
  (∀ s gid gr, s.grids.find gid = some gr → gr.children ≠ 0 → gr.st = .drained →
    exec (.gridComplete gid) s = .next (s.updGrid gid (fun g => { g with st := .awaiting }))) ∧
  (∀ s ctx c us at_ t, s.ctxs.find ctx = some c → c.st = .running ∨ c.st = .ready → s.mgmt.copy = none →
    us = (s.nextReturn c).map (fun u => u.filter (fun b => ((s.blocks.find b).map (·.saved)).getD false)) → us ≠ [] →
    us.length = at_.length → s.returnUnits (us.zip at_) = some t →
    exec (.resumeBlockPlace ctx at_) s =
      .next (t.updCtx ctx (fun x => { x with st := .running, order := x.order.filter (fun b => !us.any (·.contains b)) })) ∧
    ∀ b a x gr, us = [[b]] → at_ = [a] → s.blocks.find b = some x → s.grids.find x.grid = some gr → gr.desc.cluster = false →
      gr.desc.pair = false → (t.blocks.find b).map (fun y => (y.saved, y.core)) = some (false, a) ∧
        ∀ k ∈ x.groups, (s.grp k).isSome → (t.grp k).map (·.core) = some a)

/-! ## Commands of the host -/

namespace Sys2Proof.Claims
open Sys2Proof.Machine Sys2Proof.Safety

/-- Ring `r` of function `fn` has at its head the command record `c` of a code, which gets its own meaning: the function is there and
enabled, no command of the ring waits, firmware is accepted, the reserved bytes are 0 and the context is in range and the
device's own (R67, R69, R383, R386, R387, R390). -/
structure Served (s : State) (fn r code last : Nat) (c : Cmd) : Prop where
  own : if last = 8 then fn = 16 else fn < 16
  there : s.present fn = true
  enabled : fn = 16 ∨ (s.ld fn).enable = true
  listed : 0 < (s.hostRing fn r).size ∧ (s.hostRing fn r).head < (s.hostRing fn r).tail
  free : (s.hostRing fn r).busy = false
  accepted : s.mgmt.accepted = true
  head : s.headCmd fn r = c
  code_ : c.code = code ∧ 1 ≤ code ∧ code ≤ last
  clean : c.clean = true
  ctx : (fn = 16 → c.ctx = 0) ∧ c.ctx < 4096 ∧ ∀ x, s.ctxs.find c.ctx = some x → fn = 16 ∨ x.ld = fn

/-- A command whose completion waits: the same record, met again. -/
structure Waits (s : State) (fn r code last : Nat) (c : Cmd) : Prop where
  own : if last = 8 then fn = 16 else fn < 16
  there : s.present fn = true
  enabled : fn = 16 ∨ (s.ld fn).enable = true
  listed : 0 < (s.hostRing fn r).size ∧ (s.hostRing fn r).head < (s.hostRing fn r).tail
  busy : (s.hostRing fn r).busy = true
  head : s.headCmd fn r = c
  code_ : c.code = code ∧ 1 ≤ code ∧ code ≤ last

/-- A command completes with a status, over the state its effect leaves. -/
def Answers (i : Instr) (s : State) (fn r v : Nat) (u : State) : Prop := exec i s = .next (u.finishCmd fn r v)

/-- A command's effect is made, and its completion waits. -/
def Later (i : Instr) (s : State) (fn r : Nat) (u : State) : Prop :=
  exec i s = .next (u.setRing fn r { u.hostRing fn r with busy := true })

/-- Nothing but the contexts, and the states of their queues, has changed. -/
def OnlyCtxs (s u : State) : Prop := { u with ctxs := s.ctxs, ldevs := s.ldevs } = s

/-- The state of a context. -/
def ctxSt (s : State) (n : Nat) : Option CtxSt := (s.ctxs.find n).map (·.st)

end Sys2Proof.Claims

/-- The context commands (R67 to R70, R81, R82, R86, R328). A command in a wrong state has status 1 and a bad operand 2, and
neither changes anything. `CREATE` makes a context, or has status 4 where its pool is too small; `BIND` gives it its table
and makes it READY; `PREEMPT` saves a READY context and drains a RUNNING one, every group of which is flagged; `RESUME`
undoes it; `DESTROY` ends it once its packets have; `SETLIMIT` sets its safe-point distance. Status 1 for a wrong state
before status 2 for a bad operand is the model's reading (log entry 20). -/
def Obligations.ContextCommands : Prop :=
  (∀ s ld c, Served s ld 0 1 6 c →
    (((s.ctxs.find c.ctx).isSome = true ∨ s.createOk ld c = false) → Answers (.create ld) s ld 0 2 s) ∧
    (s.ctxs.find c.ctx = none → s.createOk ld c = true → c.op1 < 65536 → Answers (.create ld) s ld 0 4 s) ∧
    (s.ctxs.find c.ctx = none → s.createOk ld c = true → 65536 ≤ c.op1 →
      ∃ u x, Answers (.create ld) s ld 0 0 u ∧ { u with ctxs := s.ctxs } = s ∧ (∀ n, n ≠ c.ctx → u.ctxs.find n = s.ctxs.find n) ∧
        u.ctxs.find c.ctx = some x ∧ x.st = .created ∧ x.ld = ld ∧ x.poolBase = c.op0 ∧ x.poolSize = c.op1 ∧
        x.spLimit = (if c.op2 % 2 ^ 16 = 0 then 2048 else c.op2 % 2 ^ 16) ∧ x.tenant = c.op2 / 2 ^ 16 % 2 ^ 16 ∧
        (x.tenantScope = true ↔ c.op2 / 2 ^ 32 % 2 = 1) ∧ x.sysfence = 0 ∧ x.handler = 0 ∧ x.hmask = 0 ∧ x.fmask = 0)) ∧
  (∀ s ld c, Served s ld 0 2 6 c →
    (Claims.ctxSt s c.ctx ≠ some .created → Answers (.bind ld) s ld 0 1 s) ∧
    (Claims.ctxSt s c.ctx = some .created → ¬(c.op0 % 4096 = 0 ∧ s.ownRange ld c.op0 4096 = true ∧ c.op1 < 16 ∧ c.op2 = 0) →
      Answers (.bind ld) s ld 0 2 s) ∧
    (Claims.ctxSt s c.ctx = some .created → c.op0 % 4096 = 0 → s.ownRange ld c.op0 4096 = true → c.op1 < 16 → c.op2 = 0 →
      ∃ u, Answers (.bind ld) s ld 0 0 u ∧ OnlyCtxs s u ∧
        u.ctxs.find c.ctx = (s.ctxs.find c.ctx).map (fun x => { x with st := .ready, bound := true, root := c.op0, ldev := c.op1 }))) ∧
  (∀ s ld c, Served s ld 0 3 6 c →
    (Claims.ctxSt s c.ctx ≠ some .ready → Claims.ctxSt s c.ctx ≠ some .running → Answers (.preempt ld) s ld 0 1 s) ∧
    ((Claims.ctxSt s c.ctx = some .ready ∨ Claims.ctxSt s c.ctx = some .running) → ¬(c.op0 < 2 ^ 48 ∧ c.op1 = 0 ∧ c.op2 = 0) →
      Answers (.preempt ld) s ld 0 2 s) ∧
    (Claims.ctxSt s c.ctx = some .ready → c.op0 < 2 ^ 48 → c.op1 = 0 → c.op2 = 0 →
      ∃ u, Answers (.preempt ld) s ld 0 0 u ∧ OnlyCtxs s u ∧ Claims.ctxSt u c.ctx = some .saved) ∧
    (Claims.ctxSt s c.ctx = some .running → c.op0 < 2 ^ 48 → c.op1 = 0 → c.op2 = 0 →
      ∃ u, Later (.preempt ld) s ld 0 u ∧ SameMem s u ∧ Claims.ctxSt u c.ctx = some .draining ∧
        (u.ctxs.find c.ctx).map (·.drain) = some (if c.op0 = 0 then none else some (s.timebase + c.op0)) ∧
        ∀ k g, s.grp k = some g → s.ctxNum g = c.ctx → g.state ≠ .saved → g.state ≠ .exited →
          ∃ h, u.grp k = some h ∧ h.flagged = true ∧ SameRegs g h)) ∧
  (∀ s ld c, Served s ld 0 4 6 c →
    (Claims.ctxSt s c.ctx ≠ some .saved → Answers (.resume ld) s ld 0 1 s) ∧
    (Claims.ctxSt s c.ctx = some .saved → ¬(c.op0 = 0 ∧ c.op1 = 0 ∧ c.op2 = 0) → Answers (.resume ld) s ld 0 2 s) ∧
    (Claims.ctxSt s c.ctx = some .saved → c.op0 = 0 → c.op1 = 0 → c.op2 = 0 →
      ∃ u, Answers (.resume ld) s ld 0 0 u ∧ OnlyCtxs s u ∧
        Claims.ctxSt u c.ctx = some (if (s.ctxBlocks c.ctx).isEmpty then .ready else .running))) ∧
  (∀ s ld c, Served s ld 0 5 6 c →
    ((∀ st, Claims.ctxSt s c.ctx = some st → st ∉ [.created, .ready, .saved, .faulted]) → Answers (.destroy ld) s ld 0 1 s) ∧
    (∀ st, Claims.ctxSt s c.ctx = some st → st ∈ [.created, .ready, .saved, .faulted] → ¬(c.op0 = 0 ∧ c.op1 = 0 ∧ c.op2 = 0) →
      Answers (.destroy ld) s ld 0 2 s) ∧
    (∀ st, Claims.ctxSt s c.ctx = some st → st ∈ [.created, .ready, .saved, .faulted] → c.op0 = 0 → c.op1 = 0 → c.op2 = 0 →
      ∃ u, (NoneHeld s → SameMem s u) ∧ ((Answers (.destroy ld) s ld 0 0 u ∧ u.ctxs.find c.ctx = none ∧ ∀ p ∈ u.grids, p.2.ctx ≠ c.ctx) ∨
        (Later (.destroy ld) s ld 0 u ∧ Claims.ctxSt u c.ctx = some .destroyed)))) ∧
  (∀ s ld c, Waits s ld 0 5 6 c → s.ctxEmpty c.ctx = true →
    ∃ u, Answers (.destroy ld) s ld 0 0 u ∧ SameMem s u ∧ u.ctxs.find c.ctx = none ∧ ∀ p ∈ u.grids, p.2.ctx ≠ c.ctx) ∧
  (∀ s ld c, Served s ld 0 6 6 c →
    ((∀ st, Claims.ctxSt s c.ctx = some st → st.live = false) → Answers (.setlimit ld) s ld 0 1 s) ∧
    (∀ st, Claims.ctxSt s c.ctx = some st → st.live = true → ¬(64 ≤ c.op0 ∧ c.op0 ≤ 65535 ∧ c.op1 = 0 ∧ c.op2 = 0) →
      Answers (.setlimit ld) s ld 0 2 s) ∧
    (∀ st, Claims.ctxSt s c.ctx = some st → st.live = true → 64 ≤ c.op0 → c.op0 ≤ 65535 → c.op1 = 0 → c.op2 = 0 →
      ∃ u, Answers (.setlimit ld) s ld 0 0 u ∧ { u with ctxs := s.ctxs } = s ∧
        u.ctxs.find c.ctx = (s.ctxs.find c.ctx).map (fun x => { x with spLimit := c.op0 })))

/-- The queue commands (R96, R97, R120). A queue is made IDLE with head and tail 0; suspended and resumed; reset from ERROR,
its packets not taken being discarded; and retired when nothing of it is started, its bell record keeping its counts (R94). A wrong state has status 1, a bad operand
or another context's queue 2. The status for a queue that is not there is the model's reading (log entry 20). -/
def Obligations.QueueCommands : Prop :=
  (∀ s ld c, Served s ld 1 1 5 c →
    ((∀ st, Claims.ctxSt s c.ctx = some st → st.live = false) → Answers (.qcreate ld) s ld 1 1 s) ∧
    (∀ st, Claims.ctxSt s c.ctx = some st → st.live = true →
      (s.qcreateOk ld c = false → Answers (.qcreate ld) s ld 1 2 s) ∧
      (s.qcreateOk ld c = true →
        ∃ u x, Answers (.qcreate ld) s ld 1 0 u ∧ { u with ldevs := s.ldevs } = s ∧ u.queue ld (c.op1 % 64) = some x ∧ x.ctx = c.ctx ∧
          x.base = c.op0 ∧ x.size = 2 ^ (c.op1 / 256 % 32) ∧ x.prio = c.op1 / 2 ^ 13 % 4 ∧ x.head = 0 ∧ x.tail = 0 ∧
          (x.st = .idle ∨ x.st = .suspended) ∧ x.started = [] ∧
          x.kind = (if c.op1 / 2 ^ 15 % 4 = 0 then .host else if c.op1 / 2 ^ 15 % 4 = 1 then .device else .cont)))) ∧
  (∀ s ld c i code, (i, code) ∈ [(Instr.qsuspend ld, 2), (.qresume ld, 3), (.qreset ld, 4), (.qretire ld, 5)] → Served s ld 1 code 5 c →
    (64 ≤ c.op0 ∨ c.op1 ≠ 0 ∨ c.op2 ≠ 0 ∨ s.queue ld c.op0 = none ∨ ∃ x, s.queue ld c.op0 = some x ∧ x.ctx ≠ c.ctx) →
    Answers i s ld 1 2 s) ∧
  (∀ s ld c x, c.op0 < 64 → c.op1 = 0 → c.op2 = 0 → s.queue ld c.op0 = some x → x.ctx = c.ctx →
    (Served s ld 1 2 5 c →
      ((x.st = .suspended ∨ x.st = .error) → Answers (.qsuspend ld) s ld 1 1 s) ∧
      (x.st ≠ .suspended → x.st ≠ .error → ∃ u y, Answers (.qsuspend ld) s ld 1 0 u ∧ { u with ldevs := s.ldevs } = s ∧
        u.queue ld c.op0 = some y ∧ y.st = .suspended ∧ y.head = x.head ∧ y.tail = x.tail ∧ y.started = x.started)) ∧
    (Served s ld 1 3 5 c →
      (x.st ≠ .suspended → Answers (.qresume ld) s ld 1 1 s) ∧
      (x.st = .suspended → ∃ u y, Answers (.qresume ld) s ld 1 0 u ∧ { u with ldevs := s.ldevs } = s ∧ u.queue ld c.op0 = some y ∧
        y.head = x.head ∧ y.tail = x.tail ∧ y.started = x.started ∧
        ((Claims.ctxSt s c.ctx = some .ready ∨ Claims.ctxSt s c.ctx = some .running) →
          y.st = if x.tail ≤ x.head then .idle else .active))) ∧
    (Served s ld 1 4 5 c →
      (x.st ≠ .error → Answers (.qreset ld) s ld 1 1 s) ∧
      (x.st = .error → ∃ u y, Answers (.qreset ld) s ld 1 0 u ∧ (NoneHeld s → SameMem s u) ∧ u.queue ld c.op0 = some y ∧ y.head = x.tail ∧
        y.tail = x.tail ∧ (y.st = .idle ∨ y.st = .suspended) ∧ y.started = x.started)) ∧
    (Served s ld 1 5 5 c →
      ((x.st = .active ∨ x.st = .blocked ∨ x.started ≠ []) → Answers (.qretire ld) s ld 1 1 s) ∧
      ((x.st = .idle ∨ x.st = .suspended ∨ x.st = .error) → x.started = [] →
        ∃ u, Answers (.qretire ld) s ld 1 0 u ∧ (NoneHeld s → SameMem s u) ∧ u.queue ld c.op0 = none ∧
          SMap.find (u.ld ld).retired c.op0 = some ⟨x.tail, x.head, x.error, x.kind == .device, x.ctx⟩)))

/-- Page and trap commands and services (R315, R316, R318, R328, R334 to R336). `INVAL` completes once no TLB holds a
translation of the range and no access that used one is open; `FAULTDONE` ends a forwarded fault; `POOL` sets the pool;
`RETIREOK` vacates an announced region; `HANDLER` and `FORWARD` set the trap policy; `TRAPDONE` retries, completes or fails a
record's call; the sage cores complete theirs. Where a record lies in memory is free (log entry 13), and the order of the
checks is the model's reading (log entry 20). -/
def Obligations.ServiceCommands : Prop :=
  (∀ s ld c, Served s ld 2 1 4 c →
    (s.ctxs.find c.ctx = none → Answers (.inval ld) s ld 2 1 s) ∧
    (∀ va size, (s.ctxs.find c.ctx).isSome = true → c.op2 = 0 →
      ((c.op0 = 0 ∧ c.op1 = 0 ∧ va = 0 ∧ size = 2 ^ 55) ∨ (va = c.op0 ∧ size = c.op1)) →
      va % 4096 = 0 → va < 2 ^ 55 → size % 4096 = 0 → 4096 ≤ size → size ≤ 2 ^ 55 →
      NoneHeld s →
      ((s.beginInval c.ctx va size).inFlight (fun x => x == c.ctx) false va size = false →
        Answers (.inval ld) s ld 2 0 ((s.beginInval c.ctx va size).dropTlb c.ctx va size)) ∧
      ((s.beginInval c.ctx va size).inFlight (fun x => x == c.ctx) false va size = true → Later (.inval ld) s ld 2 (s.beginInval c.ctx va size)))) ∧
  (∀ s ld c, Waits s ld 2 1 4 c → NoneHeld s → s.inFlight (fun x => x == c.ctx) false (invalRange c).1 (invalRange c).2 = false →
    Answers (.inval ld) s ld 2 0 (s.dropTlb c.ctx (invalRange c).1 (invalRange c).2)) ∧
  (∀ (s : State) ctx va size, { s.dropTlb ctx va size with tlb := s.tlb } = s ∧
    ∀ x, x ∈ (s.dropTlb ctx va size).tlb ↔ x ∈ s.tlb ∧ ¬(x.owner = ctx ∧ x.base < va + size ∧ va < x.base + x.size)) ∧
  (∀ s ld c f, Served s ld 2 2 4 c → s.faults.find c.op0 = some f → f.st = .forwarded → f.ld = ld → f.ctx = c.ctx → c.op1 < 2 → c.op2 = 0 →
    ∃ u, Answers (.faultdone ld) s ld 2 0 u ∧ { u with faults := s.faults } = s ∧
      u.faults.find c.op0 = some { f with st := if c.op1 = 0 then .resolved else .failed } ∧
      ∀ k, k ≠ c.op0 → u.faults.find k = s.faults.find k) ∧
  (∀ s ld c, Served s ld 2 3 4 c → c.op0 % 2 ^ 21 = 0 → c.op1 % 2 ^ 21 = 0 → c.op2 = 0 → c.op0 + c.op1 ≤ Config.deviceBytes →
    s.mgmt.retired = [] →
    ∃ u, Answers (.pool ld) s ld 2 0 u ∧ { u with ldevs := s.ldevs } = s ∧ (u.ld ld).poolBase = c.op0 ∧ (u.ld ld).poolSize = c.op1) ∧
  (∀ s ld c, Served s ld 2 4 4 c → s.mgmt.announced ≤ c.op0 → c.op0 < 768 → c.op1 = 0 → c.op2 = 0 →
    ∃ u, Answers (.retireok ld) s ld 2 0 u ∧ { u with mgmt := s.mgmt } = s ∧ ∀ r, r ∈ u.mgmt.vacated ↔ r = c.op0 ∨ r ∈ s.mgmt.vacated) ∧
  (∀ s ld c i code, (i, code) ∈ [(Instr.handler ld, 1), (.forward ld, 2), (.trapdone ld, 3)] → Served s ld 3 code 3 c →
    (∀ st, Claims.ctxSt s c.ctx = some st → st.live = false) → (code = 3 → (s.records.find c.op0).isSome = true) → Answers i s ld 3 1 s) ∧
  (∀ s ld c, Served s ld 3 3 3 c → (s.records.find c.op0 = none → Answers (.trapdone ld) s ld 3 2 s) ∧
    (∀ x st, s.records.find c.op0 = some x → Claims.ctxSt s c.ctx = some st → st.live = true → x.ld = ld → x.announced = true →
      field x.bytes 4 2 = c.ctx → c.op1 < 3 → c.op2 = 0 → (s.grp x.grp = none ∨ ∃ g, s.grp x.grp = some g ∧ g.state = .exited) →
      Answers (.trapdone ld) s ld 3 1 s)) ∧
  (∀ s ld c st, Served s ld 3 1 3 c → Claims.ctxSt s c.ctx = some st → st.live = true → c.op0 % 8 = 0 → c.op0 < 2 ^ 56 → c.op2 % 4096 = 0 →
    c.op2 < 2 ^ 56 →
    ∃ u, Answers (.handler ld) s ld 3 0 u ∧ { u with ctxs := s.ctxs } = s ∧ u.ctxs.find c.ctx =
      (s.ctxs.find c.ctx).map (fun x => { x with handler := c.op0, hmask := BitVec.ofNat 64 c.op1, report := c.op2 })) ∧
  (∀ s ld c st, Served s ld 3 2 3 c → Claims.ctxSt s c.ctx = some st → st.live = true → c.op1 = 0 → c.op2 = 0 →
    ∃ u, Answers (.forward ld) s ld 3 0 u ∧ { u with ctxs := s.ctxs } = s ∧ u.ctxs.find c.ctx =
      (s.ctxs.find c.ctx).map (fun x => { x with fmask := BitVec.ofNat 64 c.op0 })) ∧
  (∀ s ld c st x g, Served s ld 3 3 3 c → Claims.ctxSt s c.ctx = some st → st.live = true → s.records.find c.op0 = some x → x.ld = ld →
    x.announced = true → field x.bytes 4 2 = c.ctx → s.grp x.grp = some g → c.op2 = 0 → g.state = .active → g.flagged = false →
    (c.op1 = 0 → ∃ u h, Answers (.trapdone ld) s ld 3 0 u ∧ SameMem s u ∧ u.records.find c.op0 = none ∧ u.grp x.grp = some h ∧
      SameRegs g h ∧ ∀ l, (g.lane l).st = .service c.op0 → (h.lane l).st = .running ∧ (h.lane l).pc = x.pc ∧ (h.lane l).hold = .none) ∧
    (c.op1 = 1 → ∃ u h, Answers (.trapdone ld) s ld 3 0 u ∧ SameMem s u ∧ u.records.find c.op0 = none ∧ u.grp x.grp = some h ∧
      (∀ n l, l < 64 → x.code ≠ none → Mask.has x.lanes l = true → n = 0 ∨ (n = 1 ∧ 2 ≤ (s.descOf g).regs) →
        h.rv n l = BitVec.ofNat 32 (Memory.read s.mem (x.addr + 64 + 32 * l) 8 / 2 ^ (32 * n))) ∧
      (∀ n l, l < 64 → (x.code = none ∨ 2 ≤ n ∨ Mask.has x.lanes l = false) → h.rv n l = g.rv n l) ∧
      ∀ l, (g.lane l).st = .service c.op0 → (h.lane l).st = .running ∧ (h.lane l).pc = x.pc + 8) ∧
    (c.op1 = 2 → (∀ gr, s.grids.find g.grid = some gr → gr.parent = none) → ∃ u, Answers (.trapdone ld) s ld 3 0 u ∧
      (NoneHeld s → SameMem s u) ∧ u.records.find c.op0 = none ∧ GridGone u g.grid)) ∧
  (∀ s ld rid x g code, s.records.find rid = some x → x.ld = ld → x.code = some code → 0xF000 ≤ code → s.grp x.grp = some g →
    g.state = .active → g.flagged = false →
    ∃ u h, exec (.serviceComplete ld rid) s = .next u ∧ SameMem s u ∧ u.records.find rid = none ∧ u.grp x.grp = some h ∧
      (∀ l, l < 64 → Mask.has x.lanes l = true → h.rv 0 l =
        if code = 0xFFFF then BitVec.ofNat 32 (field x.bytes (64 + 32 * l) 8) else BitVec.allOnes 32) ∧
      ∀ l, (g.lane l).st = .service rid → (h.lane l).st = .running ∧ (h.lane l).pc = x.pc + 8)

/-- The management commands (R346, R354, R356, R371, R382, R387 to R389) and a function-level reset. `LDBIND` binds a device;
`LDRESET`, `UNBIND` and the host's reset end its contexts, queues and rings; `PARTITION` and `TOPOLOGY` send a record and wait
for it; `LOOPFORM` re-forms the loop; `CHECKPOINT` and `RESTORE` start a copy when no context runs, or none is left. A wrong
state has status 1 and a bad operand 2. The status for an unbound device and the order of the checks (log entry 20), the members
and the ring order of `LOOPFORM` as its operand (log entry 26), and what bounds a copy and a restoration (log entry 28) are the
model's choice. -/
def Obligations.ManagementCommands : Prop :=
  (∀ s c, Served s 16 0 1 8 c →
    ((s.ld (c.op0 % 16)).bound = true → Answers .ldbind s 16 0 1 s) ∧
    ((s.ld (c.op0 % 16)).bound = false → bindFields c = false → Answers .ldbind s 16 0 2 s) ∧
    ((s.ld (c.op0 % 16)).bound = false → bindFields c = true → c.op1 % 1024 + c.op1 / 2 ^ 16 % 1024 ≤ 768 →
      c.op2 % 65536 + c.op2 / 65536 % 65536 ≤ 65535 →
      (∀ p ∈ s.ldevs, p.2.bound = true →
        rangesOverlap (c.op1 % 1024) (c.op1 / 2 ^ 16 % 1024) p.2.regFirst p.2.regCount = false ∧
        rangesOverlap (c.op2 % 65536) (c.op2 / 65536 % 65536) p.2.tenFirst p.2.tenCount = false) →
      ∃ u, Answers .ldbind s 16 0 0 u ∧ { u with ldevs := s.ldevs } = s ∧ (u.ld (c.op0 % 16)).bound = true ∧
        (u.ld (c.op0 % 16)).port = c.op0 / 16 % 2 ∧ (u.ld (c.op0 % 16)).regFirst = c.op1 % 1024 ∧
        (u.ld (c.op0 % 16)).regCount = c.op1 / 2 ^ 16 % 1024 ∧ (u.ld (c.op0 % 16)).tenFirst = c.op2 % 65536 ∧
        (u.ld (c.op0 % 16)).tenCount = c.op2 / 65536 % 65536 ∧ (u.ld (c.op0 % 16)).enable = false ∧
        ∀ k, k ≠ c.op0 % 16 → u.ld k = s.ld k)) ∧
  (∀ s c i code, (i, code) ∈ [(Instr.ldreset, 2), (.unbind, 8)] → Served s 16 0 code 8 c →
    ((16 ≤ c.op0 ∨ c.op1 ≠ 0 ∨ c.op2 ≠ 0) → Answers i s 16 0 2 s) ∧
    (c.op0 < 16 → c.op1 = 0 → c.op2 = 0 → (s.ld c.op0).bound = false → Answers i s 16 0 1 s)) ∧
  (∀ s c, Served s 16 0 2 8 c → c.op0 < 16 → c.op1 = 0 → c.op2 = 0 → (s.ld c.op0).bound = true →
    ∃ u, Answers .ldreset s 16 0 0 u ∧ (NoneHeld s → u.mem = s.mem) ∧ (∀ p ∈ u.ctxs, p.2.ld ≠ c.op0) ∧ (u.ld c.op0).bound = true ∧
      (u.ld c.op0).queues = [] ∧ (u.ld c.op0).rings = [] ∧ (u.ld c.op0).words = [] ∧ (u.ld c.op0).enable = false ∧
      (u.ld c.op0).feat = 0 ∧ (u.ld c.op0).regFirst = (s.ld c.op0).regFirst ∧ (u.ld c.op0).tenFirst = (s.ld c.op0).tenFirst) ∧
  (∀ s c, Served s 16 0 8 8 c → c.op0 < 16 → c.op1 = 0 → c.op2 = 0 → (s.ld c.op0).bound = true →
    ∃ u, Answers .unbind s 16 0 0 u ∧ (NoneHeld s → u.mem = s.mem) ∧ (∀ p ∈ u.ctxs, p.2.ld ≠ c.op0) ∧ (u.ld c.op0).bound = false) ∧
  (∀ s ld, ld < 16 → s.present ld = true →
    ∃ u, exec (.functionLevelReset ld) s = .next u ∧ (NoneHeld s → u.mem = s.mem) ∧ (∀ p ∈ u.ctxs, p.2.ld ≠ ld) ∧ (u.ld ld).bound = true ∧
      (u.ld ld).queues = [] ∧ (u.ld ld).rings = [] ∧ (u.ld ld).words = [] ∧ (u.ld ld).enable = false) ∧
  (∀ s c, Served s 16 0 3 8 c → s.sendq.length < Config.sendSlots →
    (s.partitionOk c = false → Answers .partition s 16 0 2 s) ∧
    (s.partitionOk c = true → ∃ u r, Later .partition s 16 0 u ∧ { u with sendq := s.sendq } = s ∧ u.sendq = s.sendq ++ [r] ∧
      r.cmd = some 0 ∧ r.r.kind = 1 ∧ r.r.tenant = 0xFFFF ∧ r.r.addr = 8 * c.op0 ∧ r.r.body.take 8 = leBytes 4 c.op1 ++ leBytes 4 c.op2)) ∧
  (∀ s c, Served s 16 0 4 8 c → s.sendq.length < Config.sendSlots →
    (s.topen = true → Answers .topology s 16 0 1 s) ∧
    (s.topen = false → (c.op0 / 2 ^ 17 ≠ 0 ∨ c.op1 ≠ 0 ∨ c.op2 ≠ 0 ∨ c.op0 / 65536 % 2 = s.tbank ∨ c.op0 % 65536 = s.tver) →
      Answers .topology s 16 0 2 s) ∧
    (s.topen = false → c.op0 / 2 ^ 17 = 0 → c.op1 = 0 → c.op2 = 0 → c.op0 / 65536 % 2 ≠ s.tbank → c.op0 % 65536 ≠ s.tver →
      ∃ u r, Later .topology s 16 0 u ∧ { u with sendq := s.sendq } = s ∧ u.sendq = s.sendq ++ [r] ∧ r.cmd = some 0 ∧ r.r.kind = 6 ∧
        r.r.addr = c.op0 % 65536 ∧ r.r.body.take 2 = leBytes 2 (c.op0 / 65536 % 2))) ∧
  (∀ s c r, Served s 16 0 5 8 c → s.reformOk r = true →
    ((c.op0 ≠ 0 ∨ c.op1 ≠ 0 ∨ c.op2 ≠ 0) → Answers (.loopform r) s 16 0 2 s) ∧
    (c.op0 = 0 → c.op1 = 0 → c.op2 = 0 →
      ∃ u, Answers (.loopform r) s 16 0 0 u ∧ u.ring = r.ring ∧ u.onLoop = [] ∧ u.formed = r.ring.contains s.pkg)) ∧
  (∀ s c, Served s 16 0 6 8 c →
    ((∃ p ∈ s.ctxs, p.2.st = .running ∨ p.2.st = .draining) → Answers .checkpoint s 16 0 1 s) ∧
    ((∀ p ∈ s.ctxs, p.2.st ≠ .running ∧ p.2.st ≠ .draining) → tierOk c = false → Answers .checkpoint s 16 0 2 s) ∧
    ((∀ p ∈ s.ctxs, p.2.st ≠ .running ∧ p.2.st ≠ .draining) → tierOk c = true →
      ∃ u, Later .checkpoint s 16 0 u ∧ { u with mgmt := s.mgmt } = s ∧ u.mgmt = { s.mgmt with copy := some true })) ∧
  (∀ s c, Served s 16 0 7 8 c →
    (s.ctxs ≠ [] → Answers .restore s 16 0 1 s) ∧ (s.ctxs = [] → tierOk c = false → Answers .restore s 16 0 2 s) ∧
    (s.ctxs = [] → tierOk c = true →
      ∃ u, Later .restore s 16 0 u ∧ { u with mgmt := s.mgmt } = s ∧ u.mgmt = { s.mgmt with copy := some false }))

/-- The host's rings (R67, R69, R93 to R95, R97, R383, R384). A write of a tail, a head or a descriptor takes effect within its
bounds; outside them the tail and head post a ring error and a queue's tail puts the queue in ERROR; the count that the device
keeps is read-only (R3). A completed command has its status written, its head moved on and its ring free; a command of another
device's context gets status 5 and a malformed one 2. The device writes the oldest waiting entry of a ring, or a record's
announcement. The place of a record is free (log entry 13); that a ring of order 0 takes no tail but its head is the model's
reading (log entry 37). -/
def Obligations.Rings : Prop :=
  (∀ s fn r (t : DWord), s.present fn = true → ringExists fn r = true → hostProduced fn r = true →
    ((s.hostRing fn r).head ≤ t.toNat → t.toNat ≤ (s.hostRing fn r).head + (s.hostRing fn r).size →
      exec (.ringTailWrite fn r t) s = .next (s.setRing fn r { s.hostRing fn r with tail := t.toNat })) ∧
    ((t.toNat < (s.hostRing fn r).head ∨ (s.hostRing fn r).head + (s.hostRing fn r).size < t.toNat) →
      exec (.ringTailWrite fn r t) s = .next (s.ringError fn r))) ∧
  (∀ s fn r (t : DWord), s.present fn = true → ringExists fn r = true → hostProduced fn r = false →
    ((s.hostRing fn r).head ≤ t.toNat → t.toNat ≤ (s.hostRing fn r).tail →
      exec (.ringHeadWrite fn r t) s = .next (s.setRing fn r { s.hostRing fn r with head := t.toNat })) ∧
    ((t.toNat < (s.hostRing fn r).head ∨ (s.hostRing fn r).tail < t.toNat) →
      exec (.ringHeadWrite fn r t) s = .next (s.ringError fn r))) ∧
  (∀ s fn r (t : DWord), s.present fn = true → ringExists fn r = true →
    (hostProduced fn r = false → exec (.ringTailWrite fn r t) s = .next s) ∧
    (hostProduced fn r = true → exec (.ringHeadWrite fn r t) s = .next s)) ∧
  (∀ s fn r (base : DWord) (order : Byte), s.present fn = true → ringExists fn r = true →
    ((s.hostRing fn r).head = (s.hostRing fn r).tail → base.toNat % 4096 = 0 → (order = 0 ∨ (4 ≤ order.toNat ∧ order.toNat ≤ 12)) →
      exec (.ringDescriptorWrite fn r base order) s =
        .next (s.setRing fn r { s.hostRing fn r with base := base.toNat, order := order.toNat })) ∧
    (((s.hostRing fn r).head ≠ (s.hostRing fn r).tail ∨ base.toNat % 4096 ≠ 0 ∨ (order ≠ 0 ∧ (order.toNat < 4 ∨ 12 < order.toNat))) →
      exec (.ringDescriptorWrite fn r base order) s = .next s)) ∧
  (∀ s ld q (t : DWord), s.present ld = true → ld < 16 → q < 64 →
    (s.queue ld q = none → exec (.bellTailWrite ld q t) s = .next s) ∧
    (∀ x, s.queue ld q = some x →
      ((x.kind ≠ .host ∨ t.toNat = x.tail) → exec (.bellTailWrite ld q t) s = .next s) ∧
      (x.kind = .host → x.tail < t.toNat → t.toNat ≤ x.head + x.size →
        ∃ u y, exec (.bellTailWrite ld q t) s = .next u ∧ { u with ldevs := s.ldevs } = s ∧ u.queue ld q = some y ∧ y.tail = t.toNat ∧
          y.head = x.head ∧ (x.st = .idle → s.runnable x = true → x.head < t.toNat → y.st = .active)) ∧
      (x.kind = .host → t.toNat ≠ x.tail → (t.toNat < x.tail ∨ x.head + x.size < t.toNat) →
        ∃ u y, exec (.bellTailWrite ld q t) s = .next u ∧ u.queue ld q = some y ∧ y.st = .error ∧ y.error = 3 ∧ y.tail = x.tail))) ∧
  (∀ (s : State) fn r v, (fn = 16 ∧ r = 0) ∨ (fn < 16 ∧ (s.ld fn).bound = true) →
    BytesSet s.hostMem (s.finishCmd fn r v).hostMem ((s.hostRing fn r).addr fn r (s.hostRing fn r).head + 4) (leBytes 4 v) ∧
    (s.finishCmd fn r v).mem = s.mem ∧
    (s.finishCmd fn r v).hostRing fn r = { s.hostRing fn r with head := (s.hostRing fn r).head + 1, busy := false } ∧
    (s.finishCmd fn r v).irqs = s.irqs ++
      (if (s.hostRing fn r).vector / 128 % 2 = 1 then [(fn, (s.hostRing fn r).vector % 64)] else [])) ∧
  (∀ s ld c i r code last, (i, r, code, last) ∈ [(Instr.create ld, 0, 1, 6), (.bind ld, 0, 2, 6), (.preempt ld, 0, 3, 6), (.resume ld, 0, 4, 6),
      (.destroy ld, 0, 5, 6), (.setlimit ld, 0, 6, 6), (.qcreate ld, 1, 1, 5), (.qsuspend ld, 1, 2, 5), (.qresume ld, 1, 3, 5),
      (.qreset ld, 1, 4, 5), (.qretire ld, 1, 5, 5), (.inval ld, 2, 1, 4), (.faultdone ld, 2, 2, 4), (.pool ld, 2, 3, 4),
      (.retireok ld, 2, 4, 4), (.handler ld, 3, 1, 3), (.forward ld, 3, 2, 3), (.trapdone ld, 3, 3, 3)] →
    ld < 16 → s.present ld = true → (s.ld ld).enable = true → 0 < (s.hostRing ld r).size → (s.hostRing ld r).head < (s.hostRing ld r).tail →
    (s.hostRing ld r).busy = false → s.headCmd ld r = c → (c.code = code ∨ c.code = 0 ∨ last < c.code) →
    (∀ x, s.ctxs.find c.ctx = some x → x.ld ≠ ld → Answers i s ld r 5 s) ∧
    ((∀ x, s.ctxs.find c.ctx = some x → x.ld = ld) → (c.code = 0 ∨ last < c.code ∨ c.clean = false ∨ 4096 ≤ c.ctx) →
      Answers i s ld r 2 s)) ∧
  (∀ s ld r e, (s.ld ld).enable = true → ld ≠ 16 → r ≠ 5 → (s.ld ld).waiting.find? (fun x => x.ring == r) = some e →
    ((s.hostRing ld r).tail - (s.hostRing ld r).head < (s.hostRing ld r).size →
      ∃ t, exec (.ringEntryPost ld r) s = .next t ∧ t.mem = s.mem ∧ (t.ld ld).waiting = (s.ld ld).waiting.erase e ∧
        BytesSet s.hostMem t.hostMem ((s.hostRing ld r).addr ld r (s.hostRing ld r).tail) e.bytes ∧
        t.hostRing ld r = { s.hostRing ld r with tail := (s.hostRing ld r).tail + 1 }) ∧
    ((s.hostRing ld r).size ≤ (s.hostRing ld r).tail - (s.hostRing ld r).head → r = 6 →
      ∃ t, exec (.ringEntryPost ld r) s = .next t ∧ SameMem s t ∧ (t.ld ld).waiting = (s.ld ld).waiting.erase e ∧
        t.hostRing ld r = { s.hostRing ld r with lost := min ((s.hostRing ld r).lost + 1) (2 ^ 32 - 1) })) ∧
  (∀ s ld n x, ld < 16 → s.present ld = true → (s.ld ld).enable = true → s.toAnnounce ld = some (n, x) →
    (s.hostRing ld 5).tail - (s.hostRing ld 5).head < (s.hostRing ld 5).size →
    ∃ t, exec (.ringEntryPost ld 5) s = .next t ∧ BytesSet s.mem t.mem x.addr x.bytes ∧
      BytesSet s.hostMem t.hostMem ((s.hostRing ld 5).addr ld 5 (s.hostRing ld 5).tail)
        (leBytes 4 n ++ leBytes 4 x.bytes.length ++ leBytes 8 x.addr) ∧
      t.records.find n = some { x with announced := true } ∧
      t.hostRing ld 5 = { s.hostRing ld 5 with tail := (s.hostRing ld 5).tail + 1 }) ∧
  (∀ (s : State) e rest, s.mgmt.evWaiting = e :: rest → s.mgmt.ev.tail - s.mgmt.ev.head < s.mgmt.ev.size →
    ∃ t, exec (.ringEntryPost 16 1) s = .next t ∧ t.mem = s.mem ∧ t.mgmt.evWaiting = rest ∧
      BytesSet s.hostMem t.hostMem (s.mgmt.ev.addr 16 1 s.mgmt.ev.tail) e.bytes ∧ t.mgmt.ev = { s.mgmt.ev with tail := s.mgmt.ev.tail + 1 })

/-- The host's register accesses and its other doings (R3, R4, R94, R223, R290, R371, R381, R382, R385, R386, R390 to R392). The
feature word takes the offered bits while its device is off; numeric settings, thresholds and service codes need expert control;
a completion word takes the bytes written; an offset with no register ignores the write; a routing entry changes only outside
the current bank; a register reads its fields, with reserved bits and offsets without a register as zero (R4). A host access
reads or writes device memory it may reach and nothing else, and is answered with the bytes or poisoned; a snoop gives a half
up; measurements are signed; an image is accepted by its signature and version. How an answer is signed and measured is free
(log entry 8); what a write of a part of a register does, and what clearing expert control resets, are the model's reading (log
entry 31). -/
def Obligations.HostWrites : Prop :=
  (∀ (s : State) ld (v : BitVec 128), ld < 16 → s.present ld = true →
    ((s.ld ld).enable = true → exec (.feataccWrite ld v) s = .next s) ∧
    ((s.ld ld).enable = false → ∃ t, exec (.feataccWrite ld v) s = .next t ∧ { t with ldevs := s.ldevs } = s ∧
      t.ld ld = { s.ld ld with feat := v &&& 0x3FFF })) ∧
  (∀ (s : State) ld (v : Word), ld < 16 → s.present ld = true →
    ∃ t, exec (.ldctlWrite ld v) s = .next t ∧ { t with ldevs := s.ldevs } = s ∧ (t.ld ld).enable = v.getLsbD 0 ∧
      (t.ld ld).expert = v.getLsbD 1 ∧ (t.ld ld).rings = (s.ld ld).rings ∧ (t.ld ld).queues = (s.ld ld).queues ∧
      ((s.ld ld).expert = true → v.getLsbD 1 = false → ∀ k x, (t.ld ld).num.find k = some x → x.threshold = 0xFFFFFFFF ∧ x.control = 0) ∧
      (v.getLsbD 1 = true → (t.ld ld).num = (s.ld ld).num)) ∧
  (∀ (s : State) ld k w (v : Word), ld < 16 → s.present ld = true → k < 4 →
    ((s.ld ld).expert = false → exec (.numericSettingWrite ld k w v) s = .next s) ∧
    ((s.ld ld).expert = true → ∃ t x, exec (.numericSettingWrite ld k w v) s = .next t ∧ { t with ldevs := s.ldevs } = s ∧
      (t.ld ld).num.find k = some x ∧ (if w then x.nextWindow else x.nextThreshold) = v.toNat ∧
      x.threshold = ((s.ld ld).num.getD k emptyNum).threshold ∧ x.window = ((s.ld ld).num.getD k emptyNum).window)) ∧
  (∀ (s : State) (v : Word), ∃ t, exec (.plimitWrite v) s = .next t ∧ SameMem s t ∧ t.groups = s.groups ∧
    t.mgmt = { s.mgmt with plimit := v &&& 0x1FFF, limitAt := s.clk } ∧ ∀ k, (t.cluster k).table = (s.cluster k).table) ∧
  (∀ (s : State) (v : DWord),
    (∃ t, exec (.registerWrite 16 0x20 4 v) s = .next t ∧ { t with mgmt := s.mgmt } = s ∧ t.mgmt = { s.mgmt with expert := v.getLsbD 0 }) ∧
    (∃ t, exec (.registerWrite 16 0x30 4 v) s = .next t ∧ { t with mgmt := s.mgmt } = s ∧
      t.mgmt = { s.mgmt with stperiod := v.setWidth 32 }) ∧
    (∀ i, i < 16 → s.mgmt.expert = false → exec (.registerWrite 16 (0x20000 + 4 * i) 4 v) s = .next s) ∧
    (∀ i, i < 16 → s.mgmt.expert = true → ∃ t, exec (.registerWrite 16 (0x20000 + 4 * i) 4 v) s = .next t ∧
      { t with mgmt := s.mgmt } = s ∧ SMap.getD t.mgmt.sage i 0x100 = v.setWidth 32 &&& 0xFFFF)) ∧
  (∀ (s : State) ld off n (v : DWord), ld < 16 → s.present ld = true → n = 1 ∨ n = 2 ∨ n = 4 ∨ n = 8 → off % n = 0 →
    (0x1000 ≤ off → off + n ≤ 0x3000 → ∃ t, exec (.registerWrite ld off n v) s = .next t ∧ { t with ldevs := s.ldevs } = s ∧
      ∀ x, 0x1000 ≤ x → x < 0x3000 → bellByte (t.ld ld) x =
        if off ≤ x ∧ x < off + n then BitVec.ofNat 8 (v.toNat / 2 ^ (8 * (x - off))) else bellByte (s.ld ld) x) ∧
    (0x5000 ≤ off → off + n ≤ 0x10000 → exec (.registerWrite ld off n v) s = .next s)) ∧
  (∀ (s : State) ld off, ld < 16 → (0x5000 ≤ off → s.readReg ld off = 0) ∧
    (off < 0x3000 → ∀ i, i < 4 → (s.readReg ld off).toNat / 2 ^ (8 * i) % 256 = (bellByte (s.ld ld) (off + i)).toNat) ∧
    s.readReg ld 0x4020 = BitVec.ofNat 32 ((if (s.ld ld).enable then 1 else 0) + (if (s.ld ld).expert then 2 else 0)) ∧
    s.readReg 16 0x30 = s.mgmt.stperiod ∧ s.readReg 16 0x30000 = s.mgmt.plimit ∧
    (s.mgmt.onModule = false → s.readReg 16 0x200000 = 0) ∧ (∀ n, 0x300000 ≤ n → s.readReg 16 n = 0) ∧
    ∀ k c, validLink k = true → c < 8 → s.readReg 16 (0x100000 + 0x1000 * k + 0x100 + 32 * c + 0x1C) &&& 0x7FFFFFF0 = 0) ∧
  (∀ (s : State) bank dst (v : Word), bank < 2 → dst < 256 →
    (bank = s.tbank → exec (.routeWrite bank dst v) s = .next s) ∧
    (bank ≠ s.tbank → ∃ t, exec (.routeWrite bank dst v) s = .next t ∧ { t with routes := s.routes } = s ∧
      ∀ k, SMap.getD t.routes k 0xFF = if k = bank * 256 + dst then v.toNat % 256 else SMap.getD s.routes k 0xFF)) ∧
  (∀ (s : State) ld pa n, ld < 16 → s.present ld = true → 1 ≤ n → n ≤ 64 →
    (∀ w, (∀ bs, w = some bs → bs.length = n) → (∃ i, i < n ∧ s.hostReach ld (pa + i) = false) →
      exec (.hostCxlMemAccess ld pa n w) s = .next { s with answers := s.answers ++ [⟨s.portOf ld, ld, pa, none⟩] }) ∧
    ((∀ i, i < n → s.hostReach ld (pa + i) = true) → s.owned = [] → s.locks = [] → s.invis = [] → Claims.NoneHeld s →
      s.mgmt.moving = none →
      exec (.hostCxlMemAccess ld pa n none) s = .next { s with answers := s.answers ++
        [⟨s.portOf ld, ld, pa, if s.clean pa n then some (Memory.bytes s.mem pa n) else none⟩] } ∧
      ∀ bs, bs.length = n → s.mgmt.copy ≠ some true →
        ∃ t, exec (.hostCxlMemAccess ld pa n (some bs)) s = .next t ∧ BytesSet s.mem t.mem pa bs ∧ t.hostMem = s.hostMem ∧
          t.full = s.full ∧ t.answers = s.answers ++ [⟨s.portOf ld, ld, pa, some []⟩] ∧ (s.poolsHit pa n = [] → t.groups = s.groups ∧ t.blocks = s.blocks))) ∧
  (∀ (s : State) half (bs : List (Nat × Byte)), half < 2 ^ 46 → (∀ b ∈ bs, b.1 / 64 = half) →
    ∃ t, exec (.hostSnoop half (some bs)) s = .next t ∧ t.hostMem = Memory.writeAll s.hostMem bs ∧ SMap.find t.bridge half = none ∧ t.mem = s.mem) ∧
  (∀ (s : State) fn (nonce : DWord), (fn = 16 ∨ (fn < 16 ∧ s.present fn = true)) →
    ∃ t a, exec (.spdmRequest fn nonce) s = .next t ∧ { t with mgmt := s.mgmt } = s ∧ t.mgmt = { s.mgmt with spdm := s.mgmt.spdm ++ [(fn, a)] } ∧
      a = s.measurements ++ Config.signature (leBytes 8 nonce.toNat ++ s.measurements)) ∧
  (∀ s : State, s.measurements = Config.measure (Config.bootRom 0) ++ Config.measure (Config.bootRom 1) ++ s.mgmt.images.flatMap (·.2) ++
    Config.measure (leBytes 16 featOff) ++ Config.measure s.configBytes) ∧
  (∀ (s : State) d image (v : DWord), d < 2 →
    (Config.imageSigned image = true → s.mgmt.rollback ≤ v.toNat →
      ∃ t, exec (.firmwareImageLoad d image v) s = .next t ∧ { t with mgmt := s.mgmt } = s ∧ t.mgmt.accepted = true ∧
        SMap.find t.mgmt.images (2 * d + (if Config.imageSage image then 1 else 0)) = some (Config.measure image) ∧
        ∀ k, k ≠ 2 * d + (if Config.imageSage image then 1 else 0) → SMap.find t.mgmt.images k = SMap.find s.mgmt.images k) ∧
    ((Config.imageSigned image = false ∨ v.toNat < s.mgmt.rollback) → exec (.firmwareImageLoad d image v) s = .next s))

/-! ## The fabric -/

/-- Packets of other packages (R240, R359, R360, R363, R364, R370, R373). A flit of any type on an UP colour is counted; one
beyond correction goes no further, a good one is received, and what can go on does; an idle flit is only counted, and one of a
type that there is not counts as beyond correction, under any row (log entry 26). The expected number goes to ingress with a
10,000-tick hold; a later one is kept; an earlier one is discarded. A read of a pod line of this package is answered with its
128 bytes; a write's bytes are stored and acknowledged; a flit of an unknown version waits, and one of an old reset generation
fails. The layout of a flit's payload where the spec gives none (log entry 22), and that what can go on does so within the step
(log entry 26), are the model's own. -/
def Obligations.FlitEvents : Prop :=
  (∀ s i a ty, (i, ty) ∈ [(Instr.readRequest a, 1), (.readResponse a, 2), (.write a, 3), (.writeAcknowledgement a, 4),
      (.collectiveData a, 5), (.collectiveControl a, 6), (.errorResponse a, 7)] →
    validLink a.link = true → a.colour < 8 → ((s.link a.link).colour a.colour).isUp = true → a.flit.ty = ty →
    a.flit.payload.length = 128 → a.flit.seq < 2 ^ 32 →
    ((6 < a.symErr ∨ a.crcBad = true) →
      ∃ t, exec i s = .next t ∧ SameMem s t ∧ t.groups = s.groups ∧ t.ingress = s.ingress ∧
        (a.colour < (s.link a.link).colours.length →
          ((t.link a.link).colour a.colour).cunc = min (((s.link a.link).colour a.colour).cunc + 1) (2 ^ 32 - 1))) ∧
    (a.symErr ≤ 6 → a.crcBad = false →
      exec i s = .next ((s.updColour a.link a.colour (fun c => c.count a.symErr false)).receive a).fabricWork)) ∧
  (∀ s i a ty, (i, ty) ∈ [(Instr.readRequest a, 1), (.readResponse a, 2), (.write a, 3), (.writeAcknowledgement a, 4),
      (.collectiveData a, 5), (.collectiveControl a, 6), (.errorResponse a, 7)] →
    validLink a.link = true → a.colour < 8 → ((s.link a.link).colour a.colour).isUp = true → a.flit.ty = 0 ∨ 8 ≤ a.flit.ty →
    a.flit.payload.length = 128 → a.flit.seq < 2 ^ 32 →
    exec i s = .next (s.updColour a.link a.colour (fun c => c.count a.symErr (decide (6 < a.symErr) || a.crcBad || decide (8 ≤ a.flit.ty))))) ∧
  (∀ (s : State) a, SMap.getD (s.link a.link).rxSeq a.flit.tenant 0 = a.flit.seq → (s.link a.link).rxHeld = [] →
    ∃ t, s.receive a = t ∧ t.ingress = s.ingress ++ [⟨s.timebase + 10000, a.flit⟩] ∧ SameMem s t ∧ t.groups = s.groups ∧
      SMap.getD (t.link a.link).rxSeq a.flit.tenant 0 = (a.flit.seq + 1) % 2 ^ 32) ∧
  (∀ (s : State) a, SMap.getD (s.link a.link).rxSeq a.flit.tenant 0 < 2 ^ 31 → a.flit.seq < 2 ^ 32 →
    (a.flit.seq < SMap.getD (s.link a.link).rxSeq a.flit.tenant 0 → s.receive a = s) ∧
    (SMap.getD (s.link a.link).rxSeq a.flit.tenant 0 < a.flit.seq →
      a.flit.seq < SMap.getD (s.link a.link).rxSeq a.flit.tenant 0 + 2 ^ 31 → (s.link a.link).rxHeld = [] →
      ((s.receive a).link a.link).rxHeld = [a] ∧ (s.receive a).ingress = s.ingress)) ∧
  (∀ (s : State) f pa, f.rgen = s.resetGen f.tenant → s.versionOk f = true → f.dst = s.pkg → field f.payload 0 8 = pa →
    field f.payload 8 4 = 128 → pa % 128 = 0 → s.podLine pa = true → s.isMoving pa = false → s.owned = [] → s.locks = [] →
    s.poison = [] → s.invis = [] → Claims.NoneHeld s →
    (f.ty = 1 → s.deliver f none = (s.reply f 2 (Memory.bytes s.mem pa 128), true)) ∧
    (∀ f2 : Flit, f.ty = 3 → f2.payload.length = 128 → ∃ t, s.deliver f (some f2) = (t, true) ∧ BytesSet s.mem t.mem pa f2.payload ∧
      t.groups = s.groups)) ∧
  (∀ (s : State) f x, f.rgen ≠ s.resetGen f.tenant → s.deliver f x = (s.failFlit f whyReset, true)) ∧
  (∀ (s : State) f x, f.rgen = s.resetGen f.tenant → s.versionOk f = false → s.deliver f x = (s, false)) ∧
  (∀ (s : State) f r g o line, f.rgen = s.resetGen f.tenant → s.versionOk f = true → f.dst = s.pkg → f.ty = 2 → f.payload.length = 128 →
    s.remotes = [r] → r.tag = f.tag → r.dst = f.src → s.grp r.grp = some g → g.op r.op = some o → o.kind = .ldp line →
    g.remoteTurn o f.src = true → s.owned = [] → (s.blocks.find g.blk).isSome = true →
    ∃ t b, s.deliver f none = (t, true) ∧ t.remotes = [] ∧ SameMem s t ∧ t.blocks.find g.blk = some b ∧
      ∀ i, i < 128 → SMap.getD b.scratch (128 * line + i) 0 = f.payload.getD i 0)

/-- Ports, colours, lasers and generations (R360, R362 to R369, R372, R373, R404, R407). A kept flit is sent again on the next
colour with its number, as one is whose colour leaves the stripe set; one that the receiver could correct is acknowledged and
dropped, and returned slots are free: 64 of its own for a tenant that owns a colour, 64 more for the others together. A narrow
port sends by weighted round-robin, flit by flit. A colour is retrained, darkened and trained; three failed attempts end it; its
counts are judged in windows of 65,536 flits, and it follows its partner's end, whose news is an operand of the event (log entry
26). A branch in alarm moves its engine to the other feed. A closing generation and an expired hold end what they held. The
numbers of the laser branches (log entry 23), from where the windows of a watch are counted (log entry 24) and the versions
flits carry (log entry 26) are the model's own. -/
def Obligations.LinkEvents : Prop :=
  (∀ (s : State) k tn q u c, validLink k = true → (s.link k).unacked.find? (fun x => x.tenant == tn && x.seq == q) = some u →
    (s.link k).nextColour tn = some c →
    ∃ t, exec (.flitRetry k tn q) s = .next t ∧ { t with links := s.links } = s ∧
      { u with colour := c, good := u.good || ((s.link k).colour c).clean } ∈ (t.link k).unacked ∧
      SMap.find (t.link k).last tn = some c ∧ (t.link k).txSeq = (s.link k).txSeq ∧ (t.link k).slots = (s.link k).slots) ∧
  (∀ (s : State) k tn q, ((s.link k).unacked.find? (fun x => x.tenant == tn && x.seq == q && x.good) = none →
      exec (.flitAcknowledgement k tn q) s = notNow "FLIT_ACKNOWLEDGEMENT") ∧
    ∀ u, (s.link k).unacked.find? (fun x => x.tenant == tn && x.seq == q && x.good) = some u →
      ∃ t, exec (.flitAcknowledgement k tn q) s = .next t ∧ { t with links := s.links } = s ∧
        t.link k = { s.link k with unacked := (s.link k).unacked.erase u }) ∧
  (∀ (l : Link) f c, l.nextColour f.tenant = some c → ∃ u, (l.sendFlit f).unacked = l.unacked ++ [u] ∧ u.tenant = f.tenant ∧
    u.seq = SMap.getD l.txSeq f.tenant 0 ∧ u.colour = c ∧ u.flit = { f with seq := u.seq } ∧
    (u.good = false ↔ (l.colour c).marg.getLsbD 31 = true ∧ 7 ≤ (l.colour c).marg.toNat % 16)) ∧
  (∀ (s : State) k tn r n, validLink k = true → 1 ≤ n → (s.link k).count tn r + n ≤ 64 → (∀ p ∈ s.links, p.2.out = []) →
    ∃ t, exec (.freeSlotReturn k tn r n) s = .next t ∧ { t with links := s.links } = s ∧ (t.link k).count tn r = (s.link k).count tn r + n) ∧
  (∀ (l : Link) t r, (l.owns t = true → l.free t r = l.count t r) ∧ (l.owns t = false → l.free t r = min (l.count t r) (l.joint r))) ∧
  (∀ (l : Link) held a b n pk, l.narrow = true → l.owners = [a, b] → a < b →
    (l.serving = (a, n + 1) → l.sendable held (· == a) [] l.out = some pk → l.sendOne held = some ({ l with serving := (a, n) }.sendNext pk)) ∧
    (l.serving = (a, 0) → l.sendable held (· == b) [] l.out = some pk →
      l.sendOne held = some ({ l with serving := (b, l.weight b - 1) }.sendNext pk))) ∧
  (∀ (l : Link) left u c, l.unacked = [u] → u.colour ∈ left → l.nextColour u.tenant = some c →
    (l.resendOff left).unacked = [{ u with colour := c, good := u.good || (l.colour c).clean }]) ∧
  (∀ (s : State) k x y, y = ({ x with narrow := x.isNarrow } : Link) → (s.link k).alive = true →
    (s.setLink k x).link k = y.resendOff ((List.range 8).filter (fun c => ((s.link k).colour c).isUp && !(x.colour c).isUp))) ∧
  (∀ (s : State) k c, validLink k = true → c < 8 →
    (((s.link k).colour c).isUp = false → exec (.cctlRetrain k c) s = .next s) ∧
    (((s.link k).colour c).isUp = true → c < (s.link k).colours.length →
      ∃ t, exec (.cctlRetrain k c) s = .next t ∧ SameMem s t ∧ (t.link k).colour c = ((s.link k).colour c).retrain ∧
        ∀ j, j ≠ c → (t.link k).colour j = (s.link k).colour j) ∧
    (c < (s.link k).colours.length → ∀ en, ∃ t, exec (.cctlEnableWrite k c en) s = .next t ∧ t.mem = s.mem ∧
      (t.link k).colour c = (if en then { (s.link k).colour c with enable := true }
        else { (s.link k).colour c with enable := false, st := .dark }) ∧ ∀ j, j ≠ c → (t.link k).colour j = (s.link k).colour j) ∧
    (((s.link k).colour c).st = .dark → ((s.link k).colour c).enable = true → (s.link k).preq.testBit c = true → s.feedLight k = true →
      c < (s.link k).colours.length →
      ∃ t, exec (.trainingStart k c) s = .next t ∧ SameMem s t ∧ ((t.link k).colour c).st = .training ∧ ((t.link k).colour c).attempt = 0) ∧
    (((s.link k).colour c).st = .training ∨ ((s.link k).colour c).st = .retraining → c < (s.link k).colours.length →
      (∃ t, exec (.trainingAttemptEnd k c true) s = .next t ∧ t.mem = s.mem ∧ ((t.link k).colour c).st = .up ∧
        ((t.link k).colour c).ccorr = 0 ∧ ((t.link k).colour c).winAt = s.timebase ∧ ((t.link k).colour c).done = if ((s.link k).colour c).st = .retraining
          then min (((s.link k).colour c).done + 1) 65535 else ((s.link k).colour c).done) ∧
      (∃ t, exec (.trainingAttemptEnd k c false) s = .next t ∧ t.mem = s.mem ∧
        ((t.link k).colour c).fails = min (((s.link k).colour c).fails + 1) 65535 ∧
        ((t.link k).colour c).st = if ((s.link k).colour c).attempt + 1 < 3 then ((s.link k).colour c).st else .failed)) ∧
    (((s.link k).colour c).isUp = true → c < (s.link k).colours.length →
      (s.timebase < ((s.link k).colour c).winAt + windowTicks → exec (.colourWindowEnd k c none) s = notNow "COLOUR_WINDOW_END") ∧
      (((s.link k).colour c).winAt + windowTicks ≤ s.timebase → ∃ t, exec (.colourWindowEnd k c none) s = .next t ∧ SameMem s t ∧
        ((t.link k).colour c).ccorr = 0 ∧ ((t.link k).colour c).cuncWin = 0 ∧ ((t.link k).colour c).winAt = s.timebase ∧
        ((t.link k).colour c).calm = (if ((s.link k).colour c).ccorr ≤ ((s.link k).colour c).cwarn then ((s.link k).colour c).calm + 1 else 0) ∧
        (((s.link k).colour c).st = .watch → 4 ≤ ((t.link k).colour c).calm → 4 ≤ ((t.link k).colour c).calmP →
          ((t.link k).colour c).st = .up)) ∧
      (∃ t, exec (.colourWindowEnd k c (some (.window true))) s = .next t ∧ t.mem = s.mem ∧
        ((t.link k).colour c).calmP = ((s.link k).colour c).calmP + 1 ∧
        (((s.link k).colour c).st = .watch → 4 ≤ ((s.link k).colour c).calm → 3 ≤ ((s.link k).colour c).calmP →
          ((t.link k).colour c).st = .up ∧ ((t.link k).colour c).ccorr = 0 ∧ ((t.link k).colour c).winAt = s.timebase)) ∧
      (∀ p, p = .window false ∨ p = .watch → ∃ t, exec (.colourWindowEnd k c (some p)) s = .next t ∧ t.mem = s.mem ∧
        ((t.link k).colour c).st = .watch ∧ ((t.link k).colour c).calmP = 0) ∧
      (∃ t, exec (.colourWindowEnd k c (some .retrain)) s = .next t ∧ t.mem = s.mem ∧
        (t.link k).colour c = ((s.link k).colour c).retrain)) ∧
    (c < (s.link k).colours.length → ∀ p st, (p, st) ∈ [(Partner.dark, ColSt.dark), (.failed, .failed)] → ((s.link k).colour c).st ≠ st →
      ∃ t, exec (.colourWindowEnd k c (some p)) s = .next t ∧ t.mem = s.mem ∧ ((t.link k).colour c).st = st)) ∧
  (∀ (s : State) m b, m < 6 → b < 8 → (m, b) ∉ s.mgmt.alarms →
    ∃ t, exec (.branchAlarm m b) s = .next t ∧ t.mem = s.mem ∧ t.mgmt.alarms = (m, b) :: s.mgmt.alarms ∧
      ∀ e second, e < 16 → branchOf e second = (m, b) → s.feedOf e = second → s.feedAlarm e (!second) = false →
        (t.link (32 + e)).colours = (s.link (32 + e)).colours.map (fun c => { c with feed := !second })) ∧
  (∀ (s : State) m b, (m, b) ∈ s.mgmt.alarms →
    ∃ t, exec (.branchPowerRestored m b) s = .next t ∧ t.mem = s.mem ∧ t.mgmt.alarms = s.mgmt.alarms.erase (m, b)) ∧
  (∀ (s : State) i x, s.ingress[i]? = some x → s.versionOk x.f = false → x.deadline ≤ s.timebase →
    (x.f.ty = 3 → ∃ j ∈ s.ingress.eraseIdx i, oneWrite x.f j.f = true) →
    exec (.ingressHoldExpiry i) s = .next ((({ s with ingress := (s.ingress.eraseIdx i).filter (fun j => !oneWrite x.f j.f) } : State).failFlit
      x.f whyStale).fabricWork)) ∧
  (∀ (s : State), s.topen = true → s.tclose ≤ s.timebase →
    ∃ t, exec .generationClose s = .next t ∧ (s.remotes = [] → s.ingress = [] → s.groups = [] → s.colls = [] → t.topen = false ∧ t.mem = s.mem))

/-! ## Failures, regions and copies -/

/-- Errors, self-tests, banks, regions and copies (R70, R211, R278, R318, R319, R338, R339, R384, R389, R391). An error at a
thread faults its context, or with a shadow, nothing written in a matrix slot and fewer than three rollbacks, rolls the block
back: scratch, barriers and registers are those of the shadow. A failed die faults every context that is RUNNING, DRAINING or
SAVED; a failed self-test those on the core. Sixteen dropped banks announce a region; migration goes through the regions and
ends with those retired that were vacated when it began. A copy out writes the image; a copy in takes back what the trailer
vouches for. Reading the shadow's first image at placement and what a rollback keeps (log entry 19), the layout of an image (log
entry 28) and which regions a migration takes and retires (log entry 36) are the model's reading. -/
def Obligations.ErrorEvents : Prop :=
  (∀ (s : State) pa gid g b c rec_, s.grp gid = some g → s.blkOf g = some b → s.ctxs.find (s.ctxNum g) = some c → g.state ≠ .exited →
    b.rolling = false → (b.shadow = none ∨ rec_ = false ∨ s.slotsStill g.blk b = false ∨ 3 ≤ b.rollbacks) →
    ∃ t, exec (.uncorrectableError pa (.thread gid rec_)) s = .next t ∧ Claims.ctxSt t (s.ctxNum g) = some .faulted ∧
      (NoneHeld s → t.mem = s.mem ∧ (rec_ = false → pa < Config.deviceBytes → pa / 16 ∈ t.poison))) ∧
  (∀ (s : State) pa gid g b sh, s.grp gid = some g → s.blkOf g = some b → b.shadow = some sh → b.rolling = false → s.slotsStill g.blk b = true →
    b.rollbacks < 3 → g.state ≠ .exited →
    ∃ t, exec (.uncorrectableError pa (.thread gid true)) s = .next t ∧ SameMem s t ∧
      (t.blocks.find g.blk).map (fun x => (x.rolling, x.halt, x.scratch)) = some (true, true, b.scratch)) ∧
  (∀ (s : State) pa gid g b sh rec_, s.grp gid = some g → s.blkOf g = some b → b.shadow = some sh → b.rolling = true →
    s.blockRetired b = true → (sh.groups.map (·.1)).Nodup →
    ∃ t x, exec (.uncorrectableError pa (.thread gid rec_)) s = .next t ∧ SameMem s t ∧ t.blocks.find g.blk = some x ∧
      x.scratch = sh.scratch ∧ x.sfe = sh.sfe ∧ x.bars = sh.bars ∧ x.held = [] ∧ x.rolling = false ∧ x.halt = false ∧
      x.rollbacks = b.rollbacks + 1 ∧
      ∀ k old, (k, old) ∈ sh.groups → (s.grp k).isSome → ∃ h, t.grp k = some h ∧ SameRegs old h ∧ h.j = old.j) ∧
  (∀ (s : State) pa k x a, s.transfers.find k = some x → x.st = .reading → .dev a ∈ x.srcPlaces → a / 16 = pa / 16 →
    ∃ t, exec (.uncorrectableError pa (.transfer k)) s = .next t ∧ SameMem s t ∧ Claims.Finished t k x (some (2, x.first)) ∧
      (pa < Config.deviceBytes → pa / 16 ∈ t.poison)) ∧
  (∀ (s : State) pa b x g c, s.blocks.find b = some x → x.saved = true → s.grids.find x.grid = some g → s.ctxs.find g.ctx = some c →
    c.st = .running →
    ∃ t, exec (.uncorrectableError pa (.image b)) s = .next t ∧ (NoneHeld s → t.mem = s.mem) ∧ Claims.ctxSt t g.ctx = some .faulted) ∧
  (∀ (s : State) pa cl eid e, s.entry cl eid = some e → e.isGranted = true → (s.slotOf e).st = .busy →
    (∀ a b, e.kind = .drain a b → (e.claim = none ∨ ∃ d, e.desc = some d ∧ d.mode = 2 ∧ e.begun = false) → exec (.uncorrectableError pa (.matrix cl eid)) s =
      .next ((s.poisonAt pa).finishEntry e false (s.slotOf e).data (e.error 0x16 1 (s.slotOf e).progress))) ∧
    (∀ a, e.kind = .mlda a → exec (.uncorrectableError pa (.matrix cl eid)) s =
      .next (((s.poisonAt pa).updSlot e false (fun q => { q with st := if (s.slotOf e).halted.isSome then .halted else .idle })).dropEntry e
        (e.error 0x16 1 (s.slotOf e).progress)))) ∧
  (∀ (s : State) d, d < Config.dies → d ∉ s.mgmt.deadDies →
    ∃ t, exec (.computeDieFailure d) s = .next t ∧ (NoneHeld s → t.mem = s.mem) ∧ (∀ x, x ∈ t.mgmt.deadDies ↔ x = d ∨ x ∈ s.mgmt.deadDies) ∧
      (∀ n c, s.ctxs.find n = some c → c.st = .running ∨ c.st = .draining ∨ c.st = .saved → Claims.ctxSt t n = some .faulted) ∧
      ∀ n c, s.ctxs.find n = some c → c.st = .created ∨ c.st = .ready → (∀ p ∈ s.ctxs, p.1 = n → p.2 = c) →
        Claims.ctxSt t n = some c.st) ∧
  (∀ (s : State) core, core < Config.numCores → s.mgmt.stperiod ≠ 0 → dieOf core ∉ s.mgmt.deadDies →
    exec (.selfTestInject core true) s = .next s ∧
    ∃ t, exec (.selfTestInject core false) s = .next t ∧ (NoneHeld s → t.mem = s.mem) ∧ core ∈ t.mgmt.badCores ∧
      ∀ k b g c, (k, b) ∈ s.blocks → b.saved = false → b.core = core → s.grids.find b.grid = some g → s.ctxs.find g.ctx = some c →
        c.st.live = true → Claims.ctxSt t g.ctx = some .faulted) ∧
  (∀ (s : State) bank, bank < 12288 → bank ∉ s.mgmt.dropped → 0 < s.mgmt.announced →
    ∃ t, exec (.bankDrop bank) s = .next t ∧ SameMem s t ∧ t.mgmt.dropped = insertNat s.mgmt.dropped bank ∧
      t.mgmt.announced = if (insertNat s.mgmt.dropped bank).length % 16 = 0 then s.mgmt.announced - 1 else s.mgmt.announced) ∧
  (∀ (s : State), (s.mgmt.moving = none → (∃ r ∈ s.mgmt.vacated, r ∉ s.mgmt.retired) →
      ∃ t, exec (.regionMigrate 0) s = .next t ∧ { t with mgmt := s.mgmt } = s ∧ t.mgmt = { s.mgmt with moving := some 0, sweeping := s.mgmt.vacated }) ∧
    (∀ r, s.mgmt.moving = some r → Claims.NoneHeld s → (∀ o ∈ s.owned, o.1 * 128 / Config.regionBytes ≠ r) →
      ∃ t, exec (.regionMigrate r) s = .next t ∧ SameMem s t ∧ t.mgmt.moving = (if r + 1 < 768 then some (r + 1) else none) ∧
        (767 ≤ r → t.mgmt.sweeping = [] ∧ ∀ x, x ∈ t.mgmt.retired ↔ x ∈ s.mgmt.sweeping ∨ x ∈ s.mgmt.retired))) ∧
  (∀ (s : State), s.mgmt.cmd.busy = true →
    (s.mgmt.copy = some true →
      ∃ t, exec .safeTierCopyComplete s = .next t ∧ t.mem = s.mem ∧ t.mgmt.copy = none ∧ t.mgmt.cmd.busy = false ∧
        BytesSet (s.withImage (s.headCmd 16 0).op0) t.hostMem (s.mgmt.cmd.addr 16 0 s.mgmt.cmd.head + 4) (leBytes 4 0)) ∧
    (s.mgmt.copy = some false →
      trailer s.hostMem (s.headCmd 16 0).op0 = Memory.bytes s.hostMem ((s.headCmd 16 0).op0 + Config.deviceBytes + Config.storeBytes) 4096 →
      ∃ t, exec .safeTierCopyComplete s = .next t ∧ t.mgmt.copy = none ∧ t.poison = [] ∧
        t.mem = Memory.writeAll [] (cellsIn s.hostMem (s.headCmd 16 0).op0 Config.deviceBytes) ∧
        (s.ring.contains s.pkg = true → t.store = s.store)) ∧
    (s.mgmt.copy = some false →
      trailer s.hostMem (s.headCmd 16 0).op0 ≠ Memory.bytes s.hostMem ((s.headCmd 16 0).op0 + Config.deviceBytes + Config.storeBytes) 4096 →
      ∃ t, exec .safeTierCopyComplete s = .next t ∧ t.mgmt.copy = none ∧ t.store = s.store ∧
        BytesSet s.hostMem t.hostMem (s.mgmt.cmd.addr 16 0 s.mgmt.cmd.head + 4) (leBytes 4 2)))

/-! ## Reset, encodings and the step -/

/-- The machine after reset (R1, R5, R70, R97, R177, R194, R219, R363, R366, R371, R382, R391, R392), and a reset while it runs:
no context, queue, grid, group or bound device is left; the timebase is 0, every full-empty bit 0, both tags of every activation
table none, every colour DARK. What the host's memory holds stays. What a device reset keeps is the model's reading (log entry
38). Bytes that nothing has written read as 0 and the laser modules present are the model's choice (log entries 2 and 5); no
clause rests on them but that the empty list is canonical. -/
def Obligations.ResetState : Prop :=
  MemOk State.reset ∧ State.reset.timebase = 0 ∧ (∀ a, a ∉ State.reset.full) ∧ (∀ c b, (State.reset.core c).tag b = none) ∧
  (∀ n, State.reset.ctxs.find n = none) ∧ (∀ ld q, State.reset.queue ld q = none) ∧ (∀ ld, (State.reset.ld ld).bound = false) ∧
  (∀ k c, c < 8 → ((State.reset.link k).colour c).st = .dark ∧ ((State.reset.link k).colour c).tenant = 0xFFFF ∧
    ((State.reset.link k).colour c).cwarn = 0x1000 ∧ ((State.reset.link k).colour c).cretr = 0x10000) ∧
  State.reset.formed = false ∧ State.reset.peal = 0 ∧ State.reset.mgmt.accepted = false ∧ State.reset.mgmt.plimit = 5000 ∧
  State.reset.mgmt.stperiod = 1000000 ∧ (∀ k, SMap.getD State.reset.routes k 0xFF = 0xFF) ∧
  ∀ (s : State) i, (i = .deviceReset ∨ i = .powerLoss) →
    ∃ t, exec i s = .next t ∧ t.timebase = 0 ∧ t.full = [] ∧ t.ctxs = [] ∧ t.grids = [] ∧ t.blocks = [] ∧ t.groups = [] ∧
      t.ldevs = [] ∧ t.cores = [] ∧ t.clusters = [] ∧ t.formed = false ∧ t.mgmt.accepted = false ∧ t.hostMem = s.hostMem ∧
      t.pkg = s.pkg ∧ t.mgmt.rollback = s.mgmt.rollback

/-- Decoding the word of a well-formed instruction gives it back, whatever its operands (R37 to R53). -/
def Obligations.DecodeEncode : Prop :=
  ∀ i w, Instr.wf i = true → encode i = some w → w < 2 ^ 64 ∧ decodeWord w = .ok i

/-- Words written out from the layouts of R34, R37, R46 and R50 and the map of R45 stand for the instructions that those rules say, and the
word of all ones for none. The bytes of a word are read lowest first (R2, R34). -/
def Obligations.DecodeWords : Prop :=
  decodeTableWord 64 0 = some (.nop ⟨0, false⟩) ∧ decodeTableWord 64 (2 ^ 64 - 1) = none ∧
  decodeTableWord 64 (0x02 * 2 ^ 54 + 7 * 2 ^ 51 + 1 * 2 ^ 42 + 2 * 2 ^ 34 + 3 * 2 ^ 26) =
    some (.add .s32 false ⟨⟨7, false⟩, .v 1, .v 2, .v 3⟩) ∧
  decodeTableWord 64 (0x02 * 2 ^ 54 + 3 * 2 ^ 51 + 1 * 2 ^ 50 + 4 * 2 ^ 42 + 6 * 2 ^ 34 + 0xFFFF * 2 ^ 18 + 35 * 2 ^ 12 + 1 + 8) =
    some (.add .n64 false ⟨⟨3, true⟩, .s 4, .s 6, .imm 0xFFFF⟩) ∧
  decodeTableWord 64 (0x20 * 2 ^ 54 + 7 * 2 ^ 51 + 9 * 2 ^ 42 + 8 * 2 ^ 34 + 5 * 2 ^ 26 + 5 * 2 ^ 5 + 2) =
    some (.fadd .rz false ⟨⟨7, false⟩, .v 9, .v 8, .s 5⟩) ∧
  decodeTableWord 64 (0x50 * 2 ^ 54 + 7 * 2 ^ 51 + 0xFFFFFF * 2 ^ 18) = some (.bra ⟨7, false⟩ 0xFFFFFF) ∧
  decodeTableWord 64 (0x58 * 2 ^ 54 + 7 * 2 ^ 51) = some (.exit ⟨7, false⟩) ∧
  decodeTableWord 64 (0x60 * 2 ^ 54 + 7 * 2 ^ 51 + 3 * 2 ^ 42 + 4 * 2 ^ 34 + 16 * 2 ^ 18 + 36 * 2 ^ 12 + 1) =
    some (.ld .b32 ⟨false, false, .grp⟩ false ⟨7, false⟩ (.v 3) ⟨.s 4, .imm 16⟩) ∧
  decodeTableWord 64 (0x8A * 2 ^ 54 + 7 * 2 ^ 51 + 2 * 2 ^ 42 + 4 * 2 ^ 34 + 6 * 2 ^ 26 + 8 * 2 ^ 18 + 5 * 2 ^ 4 + 7) =
    some (.mma ⟨2, 4, 6, 8, 5, false⟩) ∧
  decodeTableWord 64 (0xC0 * 2 ^ 54 + 7 * 2 ^ 51 + 7 * 2 ^ 42 + 0x101 * 2 ^ 18 + 32 * 2 ^ 12 + 8) =
    some (.csrr ⟨7, false⟩ (.s 7) .spLimit) ∧
  decodeTableWord 64 (2 * 2 ^ 62 + 0 * 2 ^ 56 + 5 * 2 ^ 48 + 7 * 2 ^ 45 + 0x12345678) =
    some (.movi ⟨7, false⟩ (.v 5) 0x12345678) ∧
  decodeTableWord 64 (1 * 2 ^ 62 + (0x01 * 2 ^ 25 + 1 * 2 ^ 17 + 2 * 2 ^ 9 + 7 * 2 ^ 6) * 2 ^ 31 + (0x02 * 2 ^ 25 + 4 * 2 ^ 17 + 3 * 2 ^ 9 + 7 * 2 ^ 6)) =
    some (.pair ⟨7, .mov, 1, .v 2⟩ ⟨7, .add, 4, .v 3⟩) ∧
  (match decodeWord (1 * 2 ^ 62 + (0x01 * 2 ^ 25 + 1 * 2 ^ 17 + 2 * 2 ^ 9 + 7 * 2 ^ 6) * 2 ^ 31 + (0x02 * 2 ^ 25 + 5 * 2 ^ 17 + 3 * 2 ^ 9 + 7 * 2 ^ 6)) with
    | .error e => some e
    | .ok _ => none) = some (.illegalPair 1) ∧
  (decodeBytes [0x00, 0x00, 0x00, 0x0C, 0x08, 0x04, 0xB8, 0x00]).toOption = some (.add .s32 false ⟨⟨7, false⟩, .v 1, .v 2, .v 3⟩, [])

/-- A step in a word's turn runs exactly the instruction that the fetched word of an ACTIVE group's fragment decodes to, and
then what follows every step; a word that is none traps there (R53, R126 to R128). That the machine takes turns between words
and its other steps, and that the order within a turn is free, is the model's (log entry 4). -/
def Obligations.StepRunsDecoded : Prop :=
  ∀ (s : State) c, s.turn = true → s.nextIssue = some c →
    (∃ g, (c.grp, g) ∈ s.groups ∧ g.state = .active ∧ SMap.find g.fetched c.pc.toNat = some c.word) ∧
    (s.issuing c).cur = some c ∧
    (∀ i, decodeWord c.word.toNat = .ok i → step s = onNext (exec i (s.issuing c)) (fun t => (t.dropWord c).after s)) ∧
    (∀ e, decodeWord c.word.toNat = .error e → step s = onNext (illegalWord c e (s.issuing c)) (fun t => (t.dropWord c).after s))

/-- Every step keeps both byte memories in their canonical form: addresses strictly rising and no listed byte 0. The
canonical form is the model's own (log entry 5). -/
def Obligations.StepKeepsMemories : Prop := ∀ s t : State, MemOk s → step s = .next t → MemOk t
end

