-- ==== Sys2Proof/Laws/Sparse.lean ====
section
/-! SUPPORT. What reading a sparse map gives after each operation on it, and that every operation on a byte memory keeps its
canonical form. -/

namespace Sys2Proof.Machine

/-! ## Sparse maps -/

@[simp] theorem SMap.find_nil {α : Type} (k : Nat) : SMap.find ([] : SMap α) k = none := rfl

theorem SMap.find_cons {α : Type} (i : Nat) (x : α) (r : SMap α) (k : Nat) :
    SMap.find ((i, x) :: r) k = if i = k then some x else SMap.find r k := rfl

@[simp] theorem SMap.find_set_self {α : Type} (m : SMap α) (k : Nat) (x : α) : SMap.find (SMap.set m k x) k = some x := by
  induction m with
  | nil => simp [SMap.set, SMap.find]
  | cons p r ih =>
    obtain ⟨i, y⟩ := p
    unfold SMap.set
    split
    · simp [SMap.find]
    · split
      · simp [SMap.find]
      · simp_all [SMap.find]

theorem SMap.find_set_ne {α : Type} (m : SMap α) {k j : Nat} (x : α) (h : j ≠ k) :
    SMap.find (SMap.set m k x) j = SMap.find m j := by
  induction m with
  | nil => simp [SMap.set, SMap.find, Ne.symm h]
  | cons p r ih =>
    obtain ⟨i, y⟩ := p
    unfold SMap.set
    split
    · simp [SMap.find, Ne.symm h]
    · split
      · subst_vars; simp [SMap.find, Ne.symm h]
      · simp [SMap.find, ih]

theorem SMap.find_set {α : Type} (m : SMap α) (k j : Nat) (x : α) :
    SMap.find (SMap.set m k x) j = if j = k then some x else SMap.find m j := by
  by_cases h : j = k
  · subst h; simp
  · simp [h, SMap.find_set_ne m x h]

theorem SMap.find_filter {α : Type} (m : SMap α) (k j : Nat) :
    SMap.find (m.filter (fun p => p.1 != k)) j = if j = k then none else SMap.find m j := by
  induction m with
  | nil => simp
  | cons p r ih =>
    obtain ⟨i, y⟩ := p
    by_cases hi : i = k
    · simp only [List.filter_cons, hi, bne_self_eq_false, Bool.false_eq_true, if_false, ih, SMap.find_cons]
      by_cases hj : j = k
      · simp [hj]
      · simp [hj, Ne.symm hj]
    · have : (i != k) = true := by simp [hi]
      simp only [List.filter_cons, this, if_true, SMap.find_cons, ih]
      by_cases hj : i = j
      · subst hj; simp [hi]
      · simp [hj]

theorem SMap.find_del {α : Type} (m : SMap α) (k j : Nat) :
    SMap.find (SMap.del m k) j = if j = k then none else SMap.find m j := by
  unfold SMap.del
  split
  · exact SMap.find_filter m k j
  · rename_i h
    split
    · subst_vars; simpa [SMap.has] using h
    · rfl

/-- What a sparse map reads after a write. -/
theorem SMap.getD_put {α : Type} [DecidableEq α] (m : SMap α) (k j : Nat) (x d : α) :
    SMap.getD (SMap.put m k x d) j d = if j = k then x else SMap.getD m j d := by
  unfold SMap.getD SMap.put
  split
  · rw [SMap.find_del]; split
    · subst_vars; rfl
    · rfl
  · rw [SMap.find_set]; split
    · rfl
    · rfl

theorem SMap.find_upd {α : Type} (m : SMap α) (k j : Nat) (f : α → α) :
    SMap.find (SMap.upd m k f) j = if j = k then (SMap.find m k).map f else SMap.find m j := by
  unfold SMap.upd
  split
  · split
    · subst_vars; simp_all
    · rfl
  · rw [SMap.find_set]; split
    · simp_all
    · rfl

theorem SMap.find_mapV {α β : Type} (m : SMap α) (f : Nat → α → β) (k : Nat) :
    SMap.find (SMap.mapV m f) k = (SMap.find m k).map (f k) := by
  induction m with
  | nil => rfl
  | cons p r ih =>
    obtain ⟨i, y⟩ := p
    simp only [SMap.mapV, List.map_cons, SMap.find_cons] at ih ⊢
    split
    · subst_vars; rfl
    · exact ih

/-! ## Byte memories: what a read gives -/

/-- A byte read after a one-byte write. -/
theorem Memory.get_set (m : List Host.Cell) (a x : Nat) (b : Byte) :
    Memory.get (Memory.set m a b) x = if x = a then b else Memory.get m x := SMap.getD_put m a x b 0

/-- A byte outside a written run reads as before. -/
theorem Memory.get_write_outside (bs : List Byte) (m : List Host.Cell) (a x : Nat) (h : x < a ∨ a + bs.length ≤ x) :
    Memory.get (Memory.write m a bs) x = Memory.get m x := by
  induction bs generalizing m a with
  | nil => rfl
  | cons b r ih =>
    simp only [Memory.write, List.length_cons] at h ⊢
    rw [ih (Memory.set m a b) (a + 1) (by omega), Memory.get_set, if_neg (by omega)]

/-- A byte of a written run reads as written. -/
theorem Memory.get_write_inside (bs : List Byte) (m : List Host.Cell) (a i : Nat) (h : i < bs.length) :
    Memory.get (Memory.write m a bs) (a + i) = bs[i] := by
  induction bs generalizing m a i with
  | nil => simp at h
  | cons b r ih =>
    simp only [Memory.write]
    cases i with
    | zero => rw [Memory.get_write_outside r _ _ _ (by omega), Memory.get_set]; simp
    | succ n =>
      have := ih (Memory.set m a b) (a + 1) n (by simpa using h)
      rw [show a + (n + 1) = a + 1 + n by omega, this]; rfl

/-- A byte that no pair names reads as before. -/
theorem Memory.get_writeAll_outside (bs : List (Nat × Byte)) (m : List Host.Cell) (x : Nat) (h : ∀ p ∈ bs, p.1 ≠ x) :
    Memory.get (Memory.writeAll m bs) x = Memory.get m x := by
  induction bs generalizing m with
  | nil => rfl
  | cons p r ih =>
    simp only [List.mem_cons, forall_eq_or_imp] at h
    show Memory.get (Memory.writeAll (Memory.set m p.1 p.2) r) x = _
    rw [ih _ h.2, Memory.get_set, if_neg (Ne.symm h.1)]

/-! ## Byte memories: the canonical form -/

theorem SMap.sortedFrom_mono {α : Type} (m : SMap α) {j k : Nat} (h : j ≤ k) (s : SMap.sortedFrom k m = true) :
    SMap.sortedFrom j m = true := by
  cases m with
  | nil => rfl
  | cons p r => obtain ⟨i, y⟩ := p; simp only [SMap.sortedFrom, Bool.and_eq_true, decide_eq_true_eq] at s ⊢; exact ⟨by omega, s.2⟩

theorem SMap.sorted_tail {α : Type} {p : Nat × α} {r : SMap α} (h : SMap.sorted (p :: r) = true) : SMap.sorted r = true := by
  obtain ⟨i, y⟩ := p
  cases r with
  | nil => rfl
  | cons q t =>
    obtain ⟨j, z⟩ := q
    simp only [SMap.sorted, SMap.sortedFrom, Bool.and_eq_true] at h ⊢
    exact h.2

theorem SMap.sortedFrom_set {α : Type} (m : SMap α) (k j : Nat) (x : α) (h : SMap.sortedFrom j m = true) (hk : j < k) :
    SMap.sortedFrom j (SMap.set m k x) = true := by
  induction m generalizing j with
  | nil => simp [SMap.set, SMap.sortedFrom, hk]
  | cons p r ih =>
    obtain ⟨i, y⟩ := p
    simp only [SMap.sortedFrom, Bool.and_eq_true, decide_eq_true_eq] at h
    unfold SMap.set
    split
    · simp [SMap.sortedFrom, h.2, *]
    · split
      · subst_vars; simp [SMap.sortedFrom, h.2, hk]
      · simp only [SMap.sortedFrom, Bool.and_eq_true, decide_eq_true_eq]
        exact ⟨h.1, ih i h.2 (by omega)⟩

theorem SMap.sorted_set {α : Type} (m : SMap α) (k : Nat) (x : α) (h : SMap.sorted m = true) :
    SMap.sorted (SMap.set m k x) = true := by
  cases m with
  | nil => rfl
  | cons p r =>
    obtain ⟨i, y⟩ := p
    unfold SMap.set
    split
    · simp only [SMap.sorted, SMap.sortedFrom, Bool.and_eq_true, decide_eq_true_eq] at h ⊢; exact ⟨by omega, h⟩
    · split
      · subst_vars; simpa only [SMap.sorted] using h
      · simp only [SMap.sorted] at h ⊢; exact SMap.sortedFrom_set r k i x h (by omega)

theorem SMap.sortedFrom_filter {α : Type} (m : SMap α) (f : Nat × α → Bool) (j : Nat) (h : SMap.sortedFrom j m = true) :
    SMap.sortedFrom j (m.filter f) = true := by
  induction m generalizing j with
  | nil => rfl
  | cons p r ih =>
    obtain ⟨i, y⟩ := p
    simp only [SMap.sortedFrom, Bool.and_eq_true, decide_eq_true_eq] at h
    rw [List.filter_cons]
    split
    · simp only [SMap.sortedFrom, Bool.and_eq_true, decide_eq_true_eq]; exact ⟨h.1, ih i h.2⟩
    · exact ih j (SMap.sortedFrom_mono r (by omega) h.2)

theorem SMap.sorted_filter {α : Type} (m : SMap α) (f : Nat × α → Bool) (h : SMap.sorted m = true) :
    SMap.sorted (m.filter f) = true := by
  induction m with
  | nil => rfl
  | cons p r ih =>
    rw [List.filter_cons]
    split
    · obtain ⟨i, y⟩ := p; simp only [SMap.sorted] at h ⊢; exact SMap.sortedFrom_filter r f i h
    · exact ih (SMap.sorted_tail h)

theorem SMap.mem_set {α : Type} (m : SMap α) (k : Nat) (x : α) (p : Nat × α) (h : p ∈ SMap.set m k x) : p = (k, x) ∨ p ∈ m := by
  induction m with
  | nil => simpa [SMap.set] using h
  | cons q r ih =>
    obtain ⟨i, y⟩ := q
    unfold SMap.set at h
    split at h
    · simpa using h
    · split at h
      · rcases List.mem_cons.mp h with h | h
        · exact .inl h
        · exact .inr (List.mem_cons_of_mem _ h)
      · rcases List.mem_cons.mp h with h | h
        · exact .inr (h ▸ List.mem_cons_self ..)
        · exact (ih h).imp id (List.mem_cons_of_mem _)

/-- A filtered memory keeps its canonical form. -/
theorem Memory.wf_filter (m : List Host.Cell) (f : Host.Cell → Bool) (h : Memory.wf m = true) : Memory.wf (m.filter f) = true := by
  simp only [Memory.wf, Bool.and_eq_true, List.all_eq_true] at h ⊢
  exact ⟨SMap.sorted_filter m f h.1, fun c hc => h.2 c (List.mem_filter.mp hc).1⟩

/-- A one-byte write keeps the canonical form. -/
theorem Memory.wf_set (m : List Host.Cell) (a : Nat) (b : Byte) (h : Memory.wf m = true) : Memory.wf (Memory.set m a b) = true := by
  unfold Memory.set SMap.put
  split
  · unfold SMap.del
    split
    · exact Memory.wf_filter m _ h
    · exact h
  · rename_i hb
    simp only [Memory.wf, Bool.and_eq_true, List.all_eq_true] at h ⊢
    refine ⟨SMap.sorted_set m a b h.1, fun c hc => ?_⟩
    rcases SMap.mem_set m a b c hc with rfl | hm
    · simpa using hb
    · exact h.2 c hm

/-- Writing a run of bytes keeps the canonical form. -/
theorem Memory.wf_write (bs : List Byte) (m : List Host.Cell) (a : Nat) (h : Memory.wf m = true) :
    Memory.wf (Memory.write m a bs) = true := by
  induction bs generalizing m a with
  | nil => exact h
  | cons b r ih => exact ih _ _ (Memory.wf_set m a b h)

/-- Writing named bytes keeps the canonical form. -/
theorem Memory.wf_writeAll (bs : List (Nat × Byte)) (m : List Host.Cell) (h : Memory.wf m = true) :
    Memory.wf (Memory.writeAll m bs) = true := by
  induction bs generalizing m with
  | nil => exact h
  | cons p r ih => exact ih _ (Memory.wf_set m p.1 p.2 h)

end Sys2Proof.Machine
end

