-- ==== Sys2Proof/Laws/State.lean ====
section
/-! SUPPORT. Each update of the state, field by field: what it leaves alone, and what it makes of the field it changes. -/

namespace Sys2Proof.Machine

/-! `State.setGrp` -/

@[simp] theorem State.setGrp_cur (s : State) (g : Nat) (x : Group) : (s.setGrp g x).cur = s.cur := rfl
@[simp] theorem State.setGrp_agenda (s : State) (g : Nat) (x : Group) : (s.setGrp g x).agenda = s.agenda := rfl
@[simp] theorem State.setGrp_turn (s : State) (g : Nat) (x : Group) : (s.setGrp g x).turn = s.turn := rfl
@[simp] theorem State.setGrp_free (s : State) (g : Nat) (x : Group) : (s.setGrp g x).free = s.free := rfl
@[simp] theorem State.setGrp_nextId (s : State) (g : Nat) (x : Group) : (s.setGrp g x).nextId = s.nextId := rfl
@[simp] theorem State.setGrp_clk (s : State) (g : Nat) (x : Group) : (s.setGrp g x).clk = s.clk := rfl
@[simp] theorem State.setGrp_pkg (s : State) (g : Nat) (x : Group) : (s.setGrp g x).pkg = s.pkg := rfl
@[simp] theorem State.setGrp_mem (s : State) (g : Nat) (x : Group) : (s.setGrp g x).mem = s.mem := rfl
@[simp] theorem State.setGrp_full (s : State) (g : Nat) (x : Group) : (s.setGrp g x).full = s.full := rfl
@[simp] theorem State.setGrp_poison (s : State) (g : Nat) (x : Group) : (s.setGrp g x).poison = s.poison := rfl
@[simp] theorem State.setGrp_hostMem (s : State) (g : Nat) (x : Group) : (s.setGrp g x).hostMem = s.hostMem := rfl
@[simp] theorem State.setGrp_bridge (s : State) (g : Nat) (x : Group) : (s.setGrp g x).bridge = s.bridge := rfl
@[simp] theorem State.setGrp_invis (s : State) (g : Nat) (x : Group) : (s.setGrp g x).invis = s.invis := rfl
@[simp] theorem State.setGrp_owned (s : State) (g : Nat) (x : Group) : (s.setGrp g x).owned = s.owned := rfl
@[simp] theorem State.setGrp_locks (s : State) (g : Nat) (x : Group) : (s.setGrp g x).locks = s.locks := rfl
@[simp] theorem State.setGrp_persistent (s : State) (g : Nat) (x : Group) : (s.setGrp g x).persistent = s.persistent := rfl
@[simp] theorem State.setGrp_tlb (s : State) (g : Nat) (x : Group) : (s.setGrp g x).tlb = s.tlb := rfl
@[simp] theorem State.setGrp_shared (s : State) (g : Nat) (x : Group) : (s.setGrp g x).shared = s.shared := rfl
@[simp] theorem State.setGrp_ldevs (s : State) (g : Nat) (x : Group) : (s.setGrp g x).ldevs = s.ldevs := rfl
@[simp] theorem State.setGrp_rr (s : State) (g : Nat) (x : Group) : (s.setGrp g x).rr = s.rr := rfl
@[simp] theorem State.setGrp_ctxs (s : State) (g : Nat) (x : Group) : (s.setGrp g x).ctxs = s.ctxs := rfl
@[simp] theorem State.setGrp_grids (s : State) (g : Nat) (x : Group) : (s.setGrp g x).grids = s.grids := rfl
@[simp] theorem State.setGrp_blocks (s : State) (g : Nat) (x : Group) : (s.setGrp g x).blocks = s.blocks := rfl
@[simp] theorem State.setGrp_cores (s : State) (g : Nat) (x : Group) : (s.setGrp g x).cores = s.cores := rfl
@[simp] theorem State.setGrp_clusters (s : State) (g : Nat) (x : Group) : (s.setGrp g x).clusters = s.clusters := rfl
@[simp] theorem State.setGrp_faults (s : State) (g : Nat) (x : Group) : (s.setGrp g x).faults = s.faults := rfl
@[simp] theorem State.setGrp_records (s : State) (g : Nat) (x : Group) : (s.setGrp g x).records = s.records := rfl
@[simp] theorem State.setGrp_transfers (s : State) (g : Nat) (x : Group) : (s.setGrp g x).transfers = s.transfers := rfl
@[simp] theorem State.setGrp_colls (s : State) (g : Nat) (x : Group) : (s.setGrp g x).colls = s.colls := rfl
@[simp] theorem State.setGrp_peal (s : State) (g : Nat) (x : Group) : (s.setGrp g x).peal = s.peal := rfl
@[simp] theorem State.setGrp_store (s : State) (g : Nat) (x : Group) : (s.setGrp g x).store = s.store := rfl
@[simp] theorem State.setGrp_sendq (s : State) (g : Nat) (x : Group) : (s.setGrp g x).sendq = s.sendq := rfl
@[simp] theorem State.setGrp_onLoop (s : State) (g : Nat) (x : Group) : (s.setGrp g x).onLoop = s.onLoop := rfl
@[simp] theorem State.setGrp_formed (s : State) (g : Nat) (x : Group) : (s.setGrp g x).formed = s.formed := rfl
@[simp] theorem State.setGrp_ring (s : State) (g : Nat) (x : Group) : (s.setGrp g x).ring = s.ring := rfl
@[simp] theorem State.setGrp_frames (s : State) (g : Nat) (x : Group) : (s.setGrp g x).frames = s.frames := rfl
@[simp] theorem State.setGrp_links (s : State) (g : Nat) (x : Group) : (s.setGrp g x).links = s.links := rfl
@[simp] theorem State.setGrp_routes (s : State) (g : Nat) (x : Group) : (s.setGrp g x).routes = s.routes := rfl
@[simp] theorem State.setGrp_tver (s : State) (g : Nat) (x : Group) : (s.setGrp g x).tver = s.tver := rfl
@[simp] theorem State.setGrp_tbank (s : State) (g : Nat) (x : Group) : (s.setGrp g x).tbank = s.tbank := rfl
@[simp] theorem State.setGrp_tprev (s : State) (g : Nat) (x : Group) : (s.setGrp g x).tprev = s.tprev := rfl
@[simp] theorem State.setGrp_topen (s : State) (g : Nat) (x : Group) : (s.setGrp g x).topen = s.topen := rfl
@[simp] theorem State.setGrp_tclose (s : State) (g : Nat) (x : Group) : (s.setGrp g x).tclose = s.tclose := rfl
@[simp] theorem State.setGrp_remotes (s : State) (g : Nat) (x : Group) : (s.setGrp g x).remotes = s.remotes := rfl
@[simp] theorem State.setGrp_ingress (s : State) (g : Nat) (x : Group) : (s.setGrp g x).ingress = s.ingress := rfl
@[simp] theorem State.setGrp_irqs (s : State) (g : Nat) (x : Group) : (s.setGrp g x).irqs = s.irqs := rfl
@[simp] theorem State.setGrp_mgmt (s : State) (g : Nat) (x : Group) : (s.setGrp g x).mgmt = s.mgmt := rfl

/-! `State.updGrp` -/

@[simp] theorem State.updGrp_cur (s : State) (g : Nat) (f : Group → Group) : (s.updGrp g f).cur = s.cur := rfl
@[simp] theorem State.updGrp_agenda (s : State) (g : Nat) (f : Group → Group) : (s.updGrp g f).agenda = s.agenda := rfl
@[simp] theorem State.updGrp_turn (s : State) (g : Nat) (f : Group → Group) : (s.updGrp g f).turn = s.turn := rfl
@[simp] theorem State.updGrp_free (s : State) (g : Nat) (f : Group → Group) : (s.updGrp g f).free = s.free := rfl
@[simp] theorem State.updGrp_nextId (s : State) (g : Nat) (f : Group → Group) : (s.updGrp g f).nextId = s.nextId := rfl
@[simp] theorem State.updGrp_clk (s : State) (g : Nat) (f : Group → Group) : (s.updGrp g f).clk = s.clk := rfl
@[simp] theorem State.updGrp_pkg (s : State) (g : Nat) (f : Group → Group) : (s.updGrp g f).pkg = s.pkg := rfl
@[simp] theorem State.updGrp_mem (s : State) (g : Nat) (f : Group → Group) : (s.updGrp g f).mem = s.mem := rfl
@[simp] theorem State.updGrp_full (s : State) (g : Nat) (f : Group → Group) : (s.updGrp g f).full = s.full := rfl
@[simp] theorem State.updGrp_poison (s : State) (g : Nat) (f : Group → Group) : (s.updGrp g f).poison = s.poison := rfl
@[simp] theorem State.updGrp_hostMem (s : State) (g : Nat) (f : Group → Group) : (s.updGrp g f).hostMem = s.hostMem := rfl
@[simp] theorem State.updGrp_bridge (s : State) (g : Nat) (f : Group → Group) : (s.updGrp g f).bridge = s.bridge := rfl
@[simp] theorem State.updGrp_invis (s : State) (g : Nat) (f : Group → Group) : (s.updGrp g f).invis = s.invis := rfl
@[simp] theorem State.updGrp_owned (s : State) (g : Nat) (f : Group → Group) : (s.updGrp g f).owned = s.owned := rfl
@[simp] theorem State.updGrp_locks (s : State) (g : Nat) (f : Group → Group) : (s.updGrp g f).locks = s.locks := rfl
@[simp] theorem State.updGrp_persistent (s : State) (g : Nat) (f : Group → Group) : (s.updGrp g f).persistent = s.persistent := rfl
@[simp] theorem State.updGrp_tlb (s : State) (g : Nat) (f : Group → Group) : (s.updGrp g f).tlb = s.tlb := rfl
@[simp] theorem State.updGrp_shared (s : State) (g : Nat) (f : Group → Group) : (s.updGrp g f).shared = s.shared := rfl
@[simp] theorem State.updGrp_ldevs (s : State) (g : Nat) (f : Group → Group) : (s.updGrp g f).ldevs = s.ldevs := rfl
@[simp] theorem State.updGrp_rr (s : State) (g : Nat) (f : Group → Group) : (s.updGrp g f).rr = s.rr := rfl
@[simp] theorem State.updGrp_ctxs (s : State) (g : Nat) (f : Group → Group) : (s.updGrp g f).ctxs = s.ctxs := rfl
@[simp] theorem State.updGrp_grids (s : State) (g : Nat) (f : Group → Group) : (s.updGrp g f).grids = s.grids := rfl
@[simp] theorem State.updGrp_blocks (s : State) (g : Nat) (f : Group → Group) : (s.updGrp g f).blocks = s.blocks := rfl
@[simp] theorem State.updGrp_cores (s : State) (g : Nat) (f : Group → Group) : (s.updGrp g f).cores = s.cores := rfl
@[simp] theorem State.updGrp_clusters (s : State) (g : Nat) (f : Group → Group) : (s.updGrp g f).clusters = s.clusters := rfl
@[simp] theorem State.updGrp_faults (s : State) (g : Nat) (f : Group → Group) : (s.updGrp g f).faults = s.faults := rfl
@[simp] theorem State.updGrp_records (s : State) (g : Nat) (f : Group → Group) : (s.updGrp g f).records = s.records := rfl
@[simp] theorem State.updGrp_transfers (s : State) (g : Nat) (f : Group → Group) : (s.updGrp g f).transfers = s.transfers := rfl
@[simp] theorem State.updGrp_colls (s : State) (g : Nat) (f : Group → Group) : (s.updGrp g f).colls = s.colls := rfl
@[simp] theorem State.updGrp_peal (s : State) (g : Nat) (f : Group → Group) : (s.updGrp g f).peal = s.peal := rfl
@[simp] theorem State.updGrp_store (s : State) (g : Nat) (f : Group → Group) : (s.updGrp g f).store = s.store := rfl
@[simp] theorem State.updGrp_sendq (s : State) (g : Nat) (f : Group → Group) : (s.updGrp g f).sendq = s.sendq := rfl
@[simp] theorem State.updGrp_onLoop (s : State) (g : Nat) (f : Group → Group) : (s.updGrp g f).onLoop = s.onLoop := rfl
@[simp] theorem State.updGrp_formed (s : State) (g : Nat) (f : Group → Group) : (s.updGrp g f).formed = s.formed := rfl
@[simp] theorem State.updGrp_ring (s : State) (g : Nat) (f : Group → Group) : (s.updGrp g f).ring = s.ring := rfl
@[simp] theorem State.updGrp_frames (s : State) (g : Nat) (f : Group → Group) : (s.updGrp g f).frames = s.frames := rfl
@[simp] theorem State.updGrp_links (s : State) (g : Nat) (f : Group → Group) : (s.updGrp g f).links = s.links := rfl
@[simp] theorem State.updGrp_routes (s : State) (g : Nat) (f : Group → Group) : (s.updGrp g f).routes = s.routes := rfl
@[simp] theorem State.updGrp_tver (s : State) (g : Nat) (f : Group → Group) : (s.updGrp g f).tver = s.tver := rfl
@[simp] theorem State.updGrp_tbank (s : State) (g : Nat) (f : Group → Group) : (s.updGrp g f).tbank = s.tbank := rfl
@[simp] theorem State.updGrp_tprev (s : State) (g : Nat) (f : Group → Group) : (s.updGrp g f).tprev = s.tprev := rfl
@[simp] theorem State.updGrp_topen (s : State) (g : Nat) (f : Group → Group) : (s.updGrp g f).topen = s.topen := rfl
@[simp] theorem State.updGrp_tclose (s : State) (g : Nat) (f : Group → Group) : (s.updGrp g f).tclose = s.tclose := rfl
@[simp] theorem State.updGrp_remotes (s : State) (g : Nat) (f : Group → Group) : (s.updGrp g f).remotes = s.remotes := rfl
@[simp] theorem State.updGrp_ingress (s : State) (g : Nat) (f : Group → Group) : (s.updGrp g f).ingress = s.ingress := rfl
@[simp] theorem State.updGrp_irqs (s : State) (g : Nat) (f : Group → Group) : (s.updGrp g f).irqs = s.irqs := rfl
@[simp] theorem State.updGrp_mgmt (s : State) (g : Nat) (f : Group → Group) : (s.updGrp g f).mgmt = s.mgmt := rfl

/-! `State.updGrid` -/

@[simp] theorem State.updGrid_cur (s : State) (g : Nat) (f : Grid → Grid) : (s.updGrid g f).cur = s.cur := rfl
@[simp] theorem State.updGrid_agenda (s : State) (g : Nat) (f : Grid → Grid) : (s.updGrid g f).agenda = s.agenda := rfl
@[simp] theorem State.updGrid_turn (s : State) (g : Nat) (f : Grid → Grid) : (s.updGrid g f).turn = s.turn := rfl
@[simp] theorem State.updGrid_free (s : State) (g : Nat) (f : Grid → Grid) : (s.updGrid g f).free = s.free := rfl
@[simp] theorem State.updGrid_nextId (s : State) (g : Nat) (f : Grid → Grid) : (s.updGrid g f).nextId = s.nextId := rfl
@[simp] theorem State.updGrid_clk (s : State) (g : Nat) (f : Grid → Grid) : (s.updGrid g f).clk = s.clk := rfl
@[simp] theorem State.updGrid_pkg (s : State) (g : Nat) (f : Grid → Grid) : (s.updGrid g f).pkg = s.pkg := rfl
@[simp] theorem State.updGrid_mem (s : State) (g : Nat) (f : Grid → Grid) : (s.updGrid g f).mem = s.mem := rfl
@[simp] theorem State.updGrid_full (s : State) (g : Nat) (f : Grid → Grid) : (s.updGrid g f).full = s.full := rfl
@[simp] theorem State.updGrid_poison (s : State) (g : Nat) (f : Grid → Grid) : (s.updGrid g f).poison = s.poison := rfl
@[simp] theorem State.updGrid_hostMem (s : State) (g : Nat) (f : Grid → Grid) : (s.updGrid g f).hostMem = s.hostMem := rfl
@[simp] theorem State.updGrid_bridge (s : State) (g : Nat) (f : Grid → Grid) : (s.updGrid g f).bridge = s.bridge := rfl
@[simp] theorem State.updGrid_invis (s : State) (g : Nat) (f : Grid → Grid) : (s.updGrid g f).invis = s.invis := rfl
@[simp] theorem State.updGrid_owned (s : State) (g : Nat) (f : Grid → Grid) : (s.updGrid g f).owned = s.owned := rfl
@[simp] theorem State.updGrid_locks (s : State) (g : Nat) (f : Grid → Grid) : (s.updGrid g f).locks = s.locks := rfl
@[simp] theorem State.updGrid_persistent (s : State) (g : Nat) (f : Grid → Grid) : (s.updGrid g f).persistent = s.persistent := rfl
@[simp] theorem State.updGrid_tlb (s : State) (g : Nat) (f : Grid → Grid) : (s.updGrid g f).tlb = s.tlb := rfl
@[simp] theorem State.updGrid_shared (s : State) (g : Nat) (f : Grid → Grid) : (s.updGrid g f).shared = s.shared := rfl
@[simp] theorem State.updGrid_ldevs (s : State) (g : Nat) (f : Grid → Grid) : (s.updGrid g f).ldevs = s.ldevs := rfl
@[simp] theorem State.updGrid_rr (s : State) (g : Nat) (f : Grid → Grid) : (s.updGrid g f).rr = s.rr := rfl
@[simp] theorem State.updGrid_ctxs (s : State) (g : Nat) (f : Grid → Grid) : (s.updGrid g f).ctxs = s.ctxs := rfl
@[simp] theorem State.updGrid_blocks (s : State) (g : Nat) (f : Grid → Grid) : (s.updGrid g f).blocks = s.blocks := rfl
@[simp] theorem State.updGrid_groups (s : State) (g : Nat) (f : Grid → Grid) : (s.updGrid g f).groups = s.groups := rfl
@[simp] theorem State.updGrid_cores (s : State) (g : Nat) (f : Grid → Grid) : (s.updGrid g f).cores = s.cores := rfl
@[simp] theorem State.updGrid_clusters (s : State) (g : Nat) (f : Grid → Grid) : (s.updGrid g f).clusters = s.clusters := rfl
@[simp] theorem State.updGrid_faults (s : State) (g : Nat) (f : Grid → Grid) : (s.updGrid g f).faults = s.faults := rfl
@[simp] theorem State.updGrid_records (s : State) (g : Nat) (f : Grid → Grid) : (s.updGrid g f).records = s.records := rfl
@[simp] theorem State.updGrid_transfers (s : State) (g : Nat) (f : Grid → Grid) : (s.updGrid g f).transfers = s.transfers := rfl
@[simp] theorem State.updGrid_colls (s : State) (g : Nat) (f : Grid → Grid) : (s.updGrid g f).colls = s.colls := rfl
@[simp] theorem State.updGrid_peal (s : State) (g : Nat) (f : Grid → Grid) : (s.updGrid g f).peal = s.peal := rfl
@[simp] theorem State.updGrid_store (s : State) (g : Nat) (f : Grid → Grid) : (s.updGrid g f).store = s.store := rfl
@[simp] theorem State.updGrid_sendq (s : State) (g : Nat) (f : Grid → Grid) : (s.updGrid g f).sendq = s.sendq := rfl
@[simp] theorem State.updGrid_onLoop (s : State) (g : Nat) (f : Grid → Grid) : (s.updGrid g f).onLoop = s.onLoop := rfl
@[simp] theorem State.updGrid_formed (s : State) (g : Nat) (f : Grid → Grid) : (s.updGrid g f).formed = s.formed := rfl
@[simp] theorem State.updGrid_ring (s : State) (g : Nat) (f : Grid → Grid) : (s.updGrid g f).ring = s.ring := rfl
@[simp] theorem State.updGrid_frames (s : State) (g : Nat) (f : Grid → Grid) : (s.updGrid g f).frames = s.frames := rfl
@[simp] theorem State.updGrid_links (s : State) (g : Nat) (f : Grid → Grid) : (s.updGrid g f).links = s.links := rfl
@[simp] theorem State.updGrid_routes (s : State) (g : Nat) (f : Grid → Grid) : (s.updGrid g f).routes = s.routes := rfl
@[simp] theorem State.updGrid_tver (s : State) (g : Nat) (f : Grid → Grid) : (s.updGrid g f).tver = s.tver := rfl
@[simp] theorem State.updGrid_tbank (s : State) (g : Nat) (f : Grid → Grid) : (s.updGrid g f).tbank = s.tbank := rfl
@[simp] theorem State.updGrid_tprev (s : State) (g : Nat) (f : Grid → Grid) : (s.updGrid g f).tprev = s.tprev := rfl
@[simp] theorem State.updGrid_topen (s : State) (g : Nat) (f : Grid → Grid) : (s.updGrid g f).topen = s.topen := rfl
@[simp] theorem State.updGrid_tclose (s : State) (g : Nat) (f : Grid → Grid) : (s.updGrid g f).tclose = s.tclose := rfl
@[simp] theorem State.updGrid_remotes (s : State) (g : Nat) (f : Grid → Grid) : (s.updGrid g f).remotes = s.remotes := rfl
@[simp] theorem State.updGrid_ingress (s : State) (g : Nat) (f : Grid → Grid) : (s.updGrid g f).ingress = s.ingress := rfl
@[simp] theorem State.updGrid_irqs (s : State) (g : Nat) (f : Grid → Grid) : (s.updGrid g f).irqs = s.irqs := rfl
@[simp] theorem State.updGrid_mgmt (s : State) (g : Nat) (f : Grid → Grid) : (s.updGrid g f).mgmt = s.mgmt := rfl

/-! `State.updBlk` -/

@[simp] theorem State.updBlk_cur (s : State) (b : Nat) (f : Block → Block) : (s.updBlk b f).cur = s.cur := rfl
@[simp] theorem State.updBlk_agenda (s : State) (b : Nat) (f : Block → Block) : (s.updBlk b f).agenda = s.agenda := rfl
@[simp] theorem State.updBlk_turn (s : State) (b : Nat) (f : Block → Block) : (s.updBlk b f).turn = s.turn := rfl
@[simp] theorem State.updBlk_free (s : State) (b : Nat) (f : Block → Block) : (s.updBlk b f).free = s.free := rfl
@[simp] theorem State.updBlk_nextId (s : State) (b : Nat) (f : Block → Block) : (s.updBlk b f).nextId = s.nextId := rfl
@[simp] theorem State.updBlk_clk (s : State) (b : Nat) (f : Block → Block) : (s.updBlk b f).clk = s.clk := rfl
@[simp] theorem State.updBlk_pkg (s : State) (b : Nat) (f : Block → Block) : (s.updBlk b f).pkg = s.pkg := rfl
@[simp] theorem State.updBlk_mem (s : State) (b : Nat) (f : Block → Block) : (s.updBlk b f).mem = s.mem := rfl
@[simp] theorem State.updBlk_full (s : State) (b : Nat) (f : Block → Block) : (s.updBlk b f).full = s.full := rfl
@[simp] theorem State.updBlk_poison (s : State) (b : Nat) (f : Block → Block) : (s.updBlk b f).poison = s.poison := rfl
@[simp] theorem State.updBlk_hostMem (s : State) (b : Nat) (f : Block → Block) : (s.updBlk b f).hostMem = s.hostMem := rfl
@[simp] theorem State.updBlk_bridge (s : State) (b : Nat) (f : Block → Block) : (s.updBlk b f).bridge = s.bridge := rfl
@[simp] theorem State.updBlk_invis (s : State) (b : Nat) (f : Block → Block) : (s.updBlk b f).invis = s.invis := rfl
@[simp] theorem State.updBlk_owned (s : State) (b : Nat) (f : Block → Block) : (s.updBlk b f).owned = s.owned := rfl
@[simp] theorem State.updBlk_locks (s : State) (b : Nat) (f : Block → Block) : (s.updBlk b f).locks = s.locks := rfl
@[simp] theorem State.updBlk_persistent (s : State) (b : Nat) (f : Block → Block) : (s.updBlk b f).persistent = s.persistent := rfl
@[simp] theorem State.updBlk_tlb (s : State) (b : Nat) (f : Block → Block) : (s.updBlk b f).tlb = s.tlb := rfl
@[simp] theorem State.updBlk_shared (s : State) (b : Nat) (f : Block → Block) : (s.updBlk b f).shared = s.shared := rfl
@[simp] theorem State.updBlk_ldevs (s : State) (b : Nat) (f : Block → Block) : (s.updBlk b f).ldevs = s.ldevs := rfl
@[simp] theorem State.updBlk_rr (s : State) (b : Nat) (f : Block → Block) : (s.updBlk b f).rr = s.rr := rfl
@[simp] theorem State.updBlk_ctxs (s : State) (b : Nat) (f : Block → Block) : (s.updBlk b f).ctxs = s.ctxs := rfl
@[simp] theorem State.updBlk_grids (s : State) (b : Nat) (f : Block → Block) : (s.updBlk b f).grids = s.grids := rfl
@[simp] theorem State.updBlk_groups (s : State) (b : Nat) (f : Block → Block) : (s.updBlk b f).groups = s.groups := rfl
@[simp] theorem State.updBlk_cores (s : State) (b : Nat) (f : Block → Block) : (s.updBlk b f).cores = s.cores := rfl
@[simp] theorem State.updBlk_clusters (s : State) (b : Nat) (f : Block → Block) : (s.updBlk b f).clusters = s.clusters := rfl
@[simp] theorem State.updBlk_faults (s : State) (b : Nat) (f : Block → Block) : (s.updBlk b f).faults = s.faults := rfl
@[simp] theorem State.updBlk_records (s : State) (b : Nat) (f : Block → Block) : (s.updBlk b f).records = s.records := rfl
@[simp] theorem State.updBlk_transfers (s : State) (b : Nat) (f : Block → Block) : (s.updBlk b f).transfers = s.transfers := rfl
@[simp] theorem State.updBlk_colls (s : State) (b : Nat) (f : Block → Block) : (s.updBlk b f).colls = s.colls := rfl
@[simp] theorem State.updBlk_peal (s : State) (b : Nat) (f : Block → Block) : (s.updBlk b f).peal = s.peal := rfl
@[simp] theorem State.updBlk_store (s : State) (b : Nat) (f : Block → Block) : (s.updBlk b f).store = s.store := rfl
@[simp] theorem State.updBlk_sendq (s : State) (b : Nat) (f : Block → Block) : (s.updBlk b f).sendq = s.sendq := rfl
@[simp] theorem State.updBlk_onLoop (s : State) (b : Nat) (f : Block → Block) : (s.updBlk b f).onLoop = s.onLoop := rfl
@[simp] theorem State.updBlk_formed (s : State) (b : Nat) (f : Block → Block) : (s.updBlk b f).formed = s.formed := rfl
@[simp] theorem State.updBlk_ring (s : State) (b : Nat) (f : Block → Block) : (s.updBlk b f).ring = s.ring := rfl
@[simp] theorem State.updBlk_frames (s : State) (b : Nat) (f : Block → Block) : (s.updBlk b f).frames = s.frames := rfl
@[simp] theorem State.updBlk_links (s : State) (b : Nat) (f : Block → Block) : (s.updBlk b f).links = s.links := rfl
@[simp] theorem State.updBlk_routes (s : State) (b : Nat) (f : Block → Block) : (s.updBlk b f).routes = s.routes := rfl
@[simp] theorem State.updBlk_tver (s : State) (b : Nat) (f : Block → Block) : (s.updBlk b f).tver = s.tver := rfl
@[simp] theorem State.updBlk_tbank (s : State) (b : Nat) (f : Block → Block) : (s.updBlk b f).tbank = s.tbank := rfl
@[simp] theorem State.updBlk_tprev (s : State) (b : Nat) (f : Block → Block) : (s.updBlk b f).tprev = s.tprev := rfl
@[simp] theorem State.updBlk_topen (s : State) (b : Nat) (f : Block → Block) : (s.updBlk b f).topen = s.topen := rfl
@[simp] theorem State.updBlk_tclose (s : State) (b : Nat) (f : Block → Block) : (s.updBlk b f).tclose = s.tclose := rfl
@[simp] theorem State.updBlk_remotes (s : State) (b : Nat) (f : Block → Block) : (s.updBlk b f).remotes = s.remotes := rfl
@[simp] theorem State.updBlk_ingress (s : State) (b : Nat) (f : Block → Block) : (s.updBlk b f).ingress = s.ingress := rfl
@[simp] theorem State.updBlk_irqs (s : State) (b : Nat) (f : Block → Block) : (s.updBlk b f).irqs = s.irqs := rfl
@[simp] theorem State.updBlk_mgmt (s : State) (b : Nat) (f : Block → Block) : (s.updBlk b f).mgmt = s.mgmt := rfl

/-! `State.updCtx` -/

@[simp] theorem State.updCtx_cur (s : State) (c : Nat) (f : Ctx → Ctx) : (s.updCtx c f).cur = s.cur := rfl
@[simp] theorem State.updCtx_agenda (s : State) (c : Nat) (f : Ctx → Ctx) : (s.updCtx c f).agenda = s.agenda := rfl
@[simp] theorem State.updCtx_turn (s : State) (c : Nat) (f : Ctx → Ctx) : (s.updCtx c f).turn = s.turn := rfl
@[simp] theorem State.updCtx_free (s : State) (c : Nat) (f : Ctx → Ctx) : (s.updCtx c f).free = s.free := rfl
@[simp] theorem State.updCtx_nextId (s : State) (c : Nat) (f : Ctx → Ctx) : (s.updCtx c f).nextId = s.nextId := rfl
@[simp] theorem State.updCtx_clk (s : State) (c : Nat) (f : Ctx → Ctx) : (s.updCtx c f).clk = s.clk := rfl
@[simp] theorem State.updCtx_pkg (s : State) (c : Nat) (f : Ctx → Ctx) : (s.updCtx c f).pkg = s.pkg := rfl
@[simp] theorem State.updCtx_mem (s : State) (c : Nat) (f : Ctx → Ctx) : (s.updCtx c f).mem = s.mem := rfl
@[simp] theorem State.updCtx_full (s : State) (c : Nat) (f : Ctx → Ctx) : (s.updCtx c f).full = s.full := rfl
@[simp] theorem State.updCtx_poison (s : State) (c : Nat) (f : Ctx → Ctx) : (s.updCtx c f).poison = s.poison := rfl
@[simp] theorem State.updCtx_hostMem (s : State) (c : Nat) (f : Ctx → Ctx) : (s.updCtx c f).hostMem = s.hostMem := rfl
@[simp] theorem State.updCtx_bridge (s : State) (c : Nat) (f : Ctx → Ctx) : (s.updCtx c f).bridge = s.bridge := rfl
@[simp] theorem State.updCtx_invis (s : State) (c : Nat) (f : Ctx → Ctx) : (s.updCtx c f).invis = s.invis := rfl
@[simp] theorem State.updCtx_owned (s : State) (c : Nat) (f : Ctx → Ctx) : (s.updCtx c f).owned = s.owned := rfl
@[simp] theorem State.updCtx_locks (s : State) (c : Nat) (f : Ctx → Ctx) : (s.updCtx c f).locks = s.locks := rfl
@[simp] theorem State.updCtx_persistent (s : State) (c : Nat) (f : Ctx → Ctx) : (s.updCtx c f).persistent = s.persistent := rfl
@[simp] theorem State.updCtx_tlb (s : State) (c : Nat) (f : Ctx → Ctx) : (s.updCtx c f).tlb = s.tlb := rfl
@[simp] theorem State.updCtx_shared (s : State) (c : Nat) (f : Ctx → Ctx) : (s.updCtx c f).shared = s.shared := rfl
@[simp] theorem State.updCtx_ldevs (s : State) (c : Nat) (f : Ctx → Ctx) : (s.updCtx c f).ldevs = s.ldevs := rfl
@[simp] theorem State.updCtx_rr (s : State) (c : Nat) (f : Ctx → Ctx) : (s.updCtx c f).rr = s.rr := rfl
@[simp] theorem State.updCtx_grids (s : State) (c : Nat) (f : Ctx → Ctx) : (s.updCtx c f).grids = s.grids := rfl
@[simp] theorem State.updCtx_blocks (s : State) (c : Nat) (f : Ctx → Ctx) : (s.updCtx c f).blocks = s.blocks := rfl
@[simp] theorem State.updCtx_groups (s : State) (c : Nat) (f : Ctx → Ctx) : (s.updCtx c f).groups = s.groups := rfl
@[simp] theorem State.updCtx_cores (s : State) (c : Nat) (f : Ctx → Ctx) : (s.updCtx c f).cores = s.cores := rfl
@[simp] theorem State.updCtx_clusters (s : State) (c : Nat) (f : Ctx → Ctx) : (s.updCtx c f).clusters = s.clusters := rfl
@[simp] theorem State.updCtx_faults (s : State) (c : Nat) (f : Ctx → Ctx) : (s.updCtx c f).faults = s.faults := rfl
@[simp] theorem State.updCtx_records (s : State) (c : Nat) (f : Ctx → Ctx) : (s.updCtx c f).records = s.records := rfl
@[simp] theorem State.updCtx_transfers (s : State) (c : Nat) (f : Ctx → Ctx) : (s.updCtx c f).transfers = s.transfers := rfl
@[simp] theorem State.updCtx_colls (s : State) (c : Nat) (f : Ctx → Ctx) : (s.updCtx c f).colls = s.colls := rfl
@[simp] theorem State.updCtx_peal (s : State) (c : Nat) (f : Ctx → Ctx) : (s.updCtx c f).peal = s.peal := rfl
@[simp] theorem State.updCtx_store (s : State) (c : Nat) (f : Ctx → Ctx) : (s.updCtx c f).store = s.store := rfl
@[simp] theorem State.updCtx_sendq (s : State) (c : Nat) (f : Ctx → Ctx) : (s.updCtx c f).sendq = s.sendq := rfl
@[simp] theorem State.updCtx_onLoop (s : State) (c : Nat) (f : Ctx → Ctx) : (s.updCtx c f).onLoop = s.onLoop := rfl
@[simp] theorem State.updCtx_formed (s : State) (c : Nat) (f : Ctx → Ctx) : (s.updCtx c f).formed = s.formed := rfl
@[simp] theorem State.updCtx_ring (s : State) (c : Nat) (f : Ctx → Ctx) : (s.updCtx c f).ring = s.ring := rfl
@[simp] theorem State.updCtx_frames (s : State) (c : Nat) (f : Ctx → Ctx) : (s.updCtx c f).frames = s.frames := rfl
@[simp] theorem State.updCtx_links (s : State) (c : Nat) (f : Ctx → Ctx) : (s.updCtx c f).links = s.links := rfl
@[simp] theorem State.updCtx_routes (s : State) (c : Nat) (f : Ctx → Ctx) : (s.updCtx c f).routes = s.routes := rfl
@[simp] theorem State.updCtx_tver (s : State) (c : Nat) (f : Ctx → Ctx) : (s.updCtx c f).tver = s.tver := rfl
@[simp] theorem State.updCtx_tbank (s : State) (c : Nat) (f : Ctx → Ctx) : (s.updCtx c f).tbank = s.tbank := rfl
@[simp] theorem State.updCtx_tprev (s : State) (c : Nat) (f : Ctx → Ctx) : (s.updCtx c f).tprev = s.tprev := rfl
@[simp] theorem State.updCtx_topen (s : State) (c : Nat) (f : Ctx → Ctx) : (s.updCtx c f).topen = s.topen := rfl
@[simp] theorem State.updCtx_tclose (s : State) (c : Nat) (f : Ctx → Ctx) : (s.updCtx c f).tclose = s.tclose := rfl
@[simp] theorem State.updCtx_remotes (s : State) (c : Nat) (f : Ctx → Ctx) : (s.updCtx c f).remotes = s.remotes := rfl
@[simp] theorem State.updCtx_ingress (s : State) (c : Nat) (f : Ctx → Ctx) : (s.updCtx c f).ingress = s.ingress := rfl
@[simp] theorem State.updCtx_irqs (s : State) (c : Nat) (f : Ctx → Ctx) : (s.updCtx c f).irqs = s.irqs := rfl
@[simp] theorem State.updCtx_mgmt (s : State) (c : Nat) (f : Ctx → Ctx) : (s.updCtx c f).mgmt = s.mgmt := rfl

/-! `State.updLd` -/

@[simp] theorem State.updLd_cur (s : State) (l : Nat) (f : LDev → LDev) : (s.updLd l f).cur = s.cur := rfl
@[simp] theorem State.updLd_agenda (s : State) (l : Nat) (f : LDev → LDev) : (s.updLd l f).agenda = s.agenda := rfl
@[simp] theorem State.updLd_turn (s : State) (l : Nat) (f : LDev → LDev) : (s.updLd l f).turn = s.turn := rfl
@[simp] theorem State.updLd_free (s : State) (l : Nat) (f : LDev → LDev) : (s.updLd l f).free = s.free := rfl
@[simp] theorem State.updLd_nextId (s : State) (l : Nat) (f : LDev → LDev) : (s.updLd l f).nextId = s.nextId := rfl
@[simp] theorem State.updLd_clk (s : State) (l : Nat) (f : LDev → LDev) : (s.updLd l f).clk = s.clk := rfl
@[simp] theorem State.updLd_pkg (s : State) (l : Nat) (f : LDev → LDev) : (s.updLd l f).pkg = s.pkg := rfl
@[simp] theorem State.updLd_mem (s : State) (l : Nat) (f : LDev → LDev) : (s.updLd l f).mem = s.mem := rfl
@[simp] theorem State.updLd_full (s : State) (l : Nat) (f : LDev → LDev) : (s.updLd l f).full = s.full := rfl
@[simp] theorem State.updLd_poison (s : State) (l : Nat) (f : LDev → LDev) : (s.updLd l f).poison = s.poison := rfl
@[simp] theorem State.updLd_hostMem (s : State) (l : Nat) (f : LDev → LDev) : (s.updLd l f).hostMem = s.hostMem := rfl
@[simp] theorem State.updLd_bridge (s : State) (l : Nat) (f : LDev → LDev) : (s.updLd l f).bridge = s.bridge := rfl
@[simp] theorem State.updLd_invis (s : State) (l : Nat) (f : LDev → LDev) : (s.updLd l f).invis = s.invis := rfl
@[simp] theorem State.updLd_owned (s : State) (l : Nat) (f : LDev → LDev) : (s.updLd l f).owned = s.owned := rfl
@[simp] theorem State.updLd_locks (s : State) (l : Nat) (f : LDev → LDev) : (s.updLd l f).locks = s.locks := rfl
@[simp] theorem State.updLd_persistent (s : State) (l : Nat) (f : LDev → LDev) : (s.updLd l f).persistent = s.persistent := rfl
@[simp] theorem State.updLd_tlb (s : State) (l : Nat) (f : LDev → LDev) : (s.updLd l f).tlb = s.tlb := rfl
@[simp] theorem State.updLd_shared (s : State) (l : Nat) (f : LDev → LDev) : (s.updLd l f).shared = s.shared := rfl
@[simp] theorem State.updLd_rr (s : State) (l : Nat) (f : LDev → LDev) : (s.updLd l f).rr = s.rr := rfl
@[simp] theorem State.updLd_ctxs (s : State) (l : Nat) (f : LDev → LDev) : (s.updLd l f).ctxs = s.ctxs := rfl
@[simp] theorem State.updLd_grids (s : State) (l : Nat) (f : LDev → LDev) : (s.updLd l f).grids = s.grids := rfl
@[simp] theorem State.updLd_blocks (s : State) (l : Nat) (f : LDev → LDev) : (s.updLd l f).blocks = s.blocks := rfl
@[simp] theorem State.updLd_groups (s : State) (l : Nat) (f : LDev → LDev) : (s.updLd l f).groups = s.groups := rfl
@[simp] theorem State.updLd_cores (s : State) (l : Nat) (f : LDev → LDev) : (s.updLd l f).cores = s.cores := rfl
@[simp] theorem State.updLd_clusters (s : State) (l : Nat) (f : LDev → LDev) : (s.updLd l f).clusters = s.clusters := rfl
@[simp] theorem State.updLd_faults (s : State) (l : Nat) (f : LDev → LDev) : (s.updLd l f).faults = s.faults := rfl
@[simp] theorem State.updLd_records (s : State) (l : Nat) (f : LDev → LDev) : (s.updLd l f).records = s.records := rfl
@[simp] theorem State.updLd_transfers (s : State) (l : Nat) (f : LDev → LDev) : (s.updLd l f).transfers = s.transfers := rfl
@[simp] theorem State.updLd_colls (s : State) (l : Nat) (f : LDev → LDev) : (s.updLd l f).colls = s.colls := rfl
@[simp] theorem State.updLd_peal (s : State) (l : Nat) (f : LDev → LDev) : (s.updLd l f).peal = s.peal := rfl
@[simp] theorem State.updLd_store (s : State) (l : Nat) (f : LDev → LDev) : (s.updLd l f).store = s.store := rfl
@[simp] theorem State.updLd_sendq (s : State) (l : Nat) (f : LDev → LDev) : (s.updLd l f).sendq = s.sendq := rfl
@[simp] theorem State.updLd_onLoop (s : State) (l : Nat) (f : LDev → LDev) : (s.updLd l f).onLoop = s.onLoop := rfl
@[simp] theorem State.updLd_formed (s : State) (l : Nat) (f : LDev → LDev) : (s.updLd l f).formed = s.formed := rfl
@[simp] theorem State.updLd_ring (s : State) (l : Nat) (f : LDev → LDev) : (s.updLd l f).ring = s.ring := rfl
@[simp] theorem State.updLd_frames (s : State) (l : Nat) (f : LDev → LDev) : (s.updLd l f).frames = s.frames := rfl
@[simp] theorem State.updLd_links (s : State) (l : Nat) (f : LDev → LDev) : (s.updLd l f).links = s.links := rfl
@[simp] theorem State.updLd_routes (s : State) (l : Nat) (f : LDev → LDev) : (s.updLd l f).routes = s.routes := rfl
@[simp] theorem State.updLd_tver (s : State) (l : Nat) (f : LDev → LDev) : (s.updLd l f).tver = s.tver := rfl
@[simp] theorem State.updLd_tbank (s : State) (l : Nat) (f : LDev → LDev) : (s.updLd l f).tbank = s.tbank := rfl
@[simp] theorem State.updLd_tprev (s : State) (l : Nat) (f : LDev → LDev) : (s.updLd l f).tprev = s.tprev := rfl
@[simp] theorem State.updLd_topen (s : State) (l : Nat) (f : LDev → LDev) : (s.updLd l f).topen = s.topen := rfl
@[simp] theorem State.updLd_tclose (s : State) (l : Nat) (f : LDev → LDev) : (s.updLd l f).tclose = s.tclose := rfl
@[simp] theorem State.updLd_remotes (s : State) (l : Nat) (f : LDev → LDev) : (s.updLd l f).remotes = s.remotes := rfl
@[simp] theorem State.updLd_ingress (s : State) (l : Nat) (f : LDev → LDev) : (s.updLd l f).ingress = s.ingress := rfl
@[simp] theorem State.updLd_irqs (s : State) (l : Nat) (f : LDev → LDev) : (s.updLd l f).irqs = s.irqs := rfl
@[simp] theorem State.updLd_mgmt (s : State) (l : Nat) (f : LDev → LDev) : (s.updLd l f).mgmt = s.mgmt := rfl

/-! `State.setCore` -/

@[simp] theorem State.setCore_cur (s : State) (c : Nat) (x : Core) : (s.setCore c x).cur = s.cur := rfl
@[simp] theorem State.setCore_agenda (s : State) (c : Nat) (x : Core) : (s.setCore c x).agenda = s.agenda := rfl
@[simp] theorem State.setCore_turn (s : State) (c : Nat) (x : Core) : (s.setCore c x).turn = s.turn := rfl
@[simp] theorem State.setCore_free (s : State) (c : Nat) (x : Core) : (s.setCore c x).free = s.free := rfl
@[simp] theorem State.setCore_nextId (s : State) (c : Nat) (x : Core) : (s.setCore c x).nextId = s.nextId := rfl
@[simp] theorem State.setCore_clk (s : State) (c : Nat) (x : Core) : (s.setCore c x).clk = s.clk := rfl
@[simp] theorem State.setCore_pkg (s : State) (c : Nat) (x : Core) : (s.setCore c x).pkg = s.pkg := rfl
@[simp] theorem State.setCore_mem (s : State) (c : Nat) (x : Core) : (s.setCore c x).mem = s.mem := rfl
@[simp] theorem State.setCore_full (s : State) (c : Nat) (x : Core) : (s.setCore c x).full = s.full := rfl
@[simp] theorem State.setCore_poison (s : State) (c : Nat) (x : Core) : (s.setCore c x).poison = s.poison := rfl
@[simp] theorem State.setCore_hostMem (s : State) (c : Nat) (x : Core) : (s.setCore c x).hostMem = s.hostMem := rfl
@[simp] theorem State.setCore_bridge (s : State) (c : Nat) (x : Core) : (s.setCore c x).bridge = s.bridge := rfl
@[simp] theorem State.setCore_invis (s : State) (c : Nat) (x : Core) : (s.setCore c x).invis = s.invis := rfl
@[simp] theorem State.setCore_owned (s : State) (c : Nat) (x : Core) : (s.setCore c x).owned = s.owned := rfl
@[simp] theorem State.setCore_locks (s : State) (c : Nat) (x : Core) : (s.setCore c x).locks = s.locks := rfl
@[simp] theorem State.setCore_persistent (s : State) (c : Nat) (x : Core) : (s.setCore c x).persistent = s.persistent := rfl
@[simp] theorem State.setCore_tlb (s : State) (c : Nat) (x : Core) : (s.setCore c x).tlb = s.tlb := rfl
@[simp] theorem State.setCore_shared (s : State) (c : Nat) (x : Core) : (s.setCore c x).shared = s.shared := rfl
@[simp] theorem State.setCore_ldevs (s : State) (c : Nat) (x : Core) : (s.setCore c x).ldevs = s.ldevs := rfl
@[simp] theorem State.setCore_rr (s : State) (c : Nat) (x : Core) : (s.setCore c x).rr = s.rr := rfl
@[simp] theorem State.setCore_ctxs (s : State) (c : Nat) (x : Core) : (s.setCore c x).ctxs = s.ctxs := rfl
@[simp] theorem State.setCore_grids (s : State) (c : Nat) (x : Core) : (s.setCore c x).grids = s.grids := rfl
@[simp] theorem State.setCore_blocks (s : State) (c : Nat) (x : Core) : (s.setCore c x).blocks = s.blocks := rfl
@[simp] theorem State.setCore_groups (s : State) (c : Nat) (x : Core) : (s.setCore c x).groups = s.groups := rfl
@[simp] theorem State.setCore_clusters (s : State) (c : Nat) (x : Core) : (s.setCore c x).clusters = s.clusters := rfl
@[simp] theorem State.setCore_faults (s : State) (c : Nat) (x : Core) : (s.setCore c x).faults = s.faults := rfl
@[simp] theorem State.setCore_records (s : State) (c : Nat) (x : Core) : (s.setCore c x).records = s.records := rfl
@[simp] theorem State.setCore_transfers (s : State) (c : Nat) (x : Core) : (s.setCore c x).transfers = s.transfers := rfl
@[simp] theorem State.setCore_colls (s : State) (c : Nat) (x : Core) : (s.setCore c x).colls = s.colls := rfl
@[simp] theorem State.setCore_peal (s : State) (c : Nat) (x : Core) : (s.setCore c x).peal = s.peal := rfl
@[simp] theorem State.setCore_store (s : State) (c : Nat) (x : Core) : (s.setCore c x).store = s.store := rfl
@[simp] theorem State.setCore_sendq (s : State) (c : Nat) (x : Core) : (s.setCore c x).sendq = s.sendq := rfl
@[simp] theorem State.setCore_onLoop (s : State) (c : Nat) (x : Core) : (s.setCore c x).onLoop = s.onLoop := rfl
@[simp] theorem State.setCore_formed (s : State) (c : Nat) (x : Core) : (s.setCore c x).formed = s.formed := rfl
@[simp] theorem State.setCore_ring (s : State) (c : Nat) (x : Core) : (s.setCore c x).ring = s.ring := rfl
@[simp] theorem State.setCore_frames (s : State) (c : Nat) (x : Core) : (s.setCore c x).frames = s.frames := rfl
@[simp] theorem State.setCore_links (s : State) (c : Nat) (x : Core) : (s.setCore c x).links = s.links := rfl
@[simp] theorem State.setCore_routes (s : State) (c : Nat) (x : Core) : (s.setCore c x).routes = s.routes := rfl
@[simp] theorem State.setCore_tver (s : State) (c : Nat) (x : Core) : (s.setCore c x).tver = s.tver := rfl
@[simp] theorem State.setCore_tbank (s : State) (c : Nat) (x : Core) : (s.setCore c x).tbank = s.tbank := rfl
@[simp] theorem State.setCore_tprev (s : State) (c : Nat) (x : Core) : (s.setCore c x).tprev = s.tprev := rfl
@[simp] theorem State.setCore_topen (s : State) (c : Nat) (x : Core) : (s.setCore c x).topen = s.topen := rfl
@[simp] theorem State.setCore_tclose (s : State) (c : Nat) (x : Core) : (s.setCore c x).tclose = s.tclose := rfl
@[simp] theorem State.setCore_remotes (s : State) (c : Nat) (x : Core) : (s.setCore c x).remotes = s.remotes := rfl
@[simp] theorem State.setCore_ingress (s : State) (c : Nat) (x : Core) : (s.setCore c x).ingress = s.ingress := rfl
@[simp] theorem State.setCore_irqs (s : State) (c : Nat) (x : Core) : (s.setCore c x).irqs = s.irqs := rfl
@[simp] theorem State.setCore_mgmt (s : State) (c : Nat) (x : Core) : (s.setCore c x).mgmt = s.mgmt := rfl

/-! `State.queueEntry` -/

@[simp] theorem State.queueEntry_cur (s : State) (l r : Nat) (bs : List Byte) : (s.queueEntry l r bs).cur = s.cur := rfl
@[simp] theorem State.queueEntry_agenda (s : State) (l r : Nat) (bs : List Byte) : (s.queueEntry l r bs).agenda = s.agenda := rfl
@[simp] theorem State.queueEntry_turn (s : State) (l r : Nat) (bs : List Byte) : (s.queueEntry l r bs).turn = s.turn := rfl
@[simp] theorem State.queueEntry_free (s : State) (l r : Nat) (bs : List Byte) : (s.queueEntry l r bs).free = s.free := rfl
@[simp] theorem State.queueEntry_nextId (s : State) (l r : Nat) (bs : List Byte) : (s.queueEntry l r bs).nextId = s.nextId := rfl
@[simp] theorem State.queueEntry_clk (s : State) (l r : Nat) (bs : List Byte) : (s.queueEntry l r bs).clk = s.clk := rfl
@[simp] theorem State.queueEntry_pkg (s : State) (l r : Nat) (bs : List Byte) : (s.queueEntry l r bs).pkg = s.pkg := rfl
@[simp] theorem State.queueEntry_mem (s : State) (l r : Nat) (bs : List Byte) : (s.queueEntry l r bs).mem = s.mem := rfl
@[simp] theorem State.queueEntry_full (s : State) (l r : Nat) (bs : List Byte) : (s.queueEntry l r bs).full = s.full := rfl
@[simp] theorem State.queueEntry_poison (s : State) (l r : Nat) (bs : List Byte) : (s.queueEntry l r bs).poison = s.poison := rfl
@[simp] theorem State.queueEntry_hostMem (s : State) (l r : Nat) (bs : List Byte) : (s.queueEntry l r bs).hostMem = s.hostMem := rfl
@[simp] theorem State.queueEntry_bridge (s : State) (l r : Nat) (bs : List Byte) : (s.queueEntry l r bs).bridge = s.bridge := rfl
@[simp] theorem State.queueEntry_invis (s : State) (l r : Nat) (bs : List Byte) : (s.queueEntry l r bs).invis = s.invis := rfl
@[simp] theorem State.queueEntry_owned (s : State) (l r : Nat) (bs : List Byte) : (s.queueEntry l r bs).owned = s.owned := rfl
@[simp] theorem State.queueEntry_locks (s : State) (l r : Nat) (bs : List Byte) : (s.queueEntry l r bs).locks = s.locks := rfl
@[simp] theorem State.queueEntry_persistent (s : State) (l r : Nat) (bs : List Byte) : (s.queueEntry l r bs).persistent = s.persistent := rfl
@[simp] theorem State.queueEntry_tlb (s : State) (l r : Nat) (bs : List Byte) : (s.queueEntry l r bs).tlb = s.tlb := rfl
@[simp] theorem State.queueEntry_shared (s : State) (l r : Nat) (bs : List Byte) : (s.queueEntry l r bs).shared = s.shared := rfl
@[simp] theorem State.queueEntry_rr (s : State) (l r : Nat) (bs : List Byte) : (s.queueEntry l r bs).rr = s.rr := rfl
@[simp] theorem State.queueEntry_ctxs (s : State) (l r : Nat) (bs : List Byte) : (s.queueEntry l r bs).ctxs = s.ctxs := rfl
@[simp] theorem State.queueEntry_grids (s : State) (l r : Nat) (bs : List Byte) : (s.queueEntry l r bs).grids = s.grids := rfl
@[simp] theorem State.queueEntry_blocks (s : State) (l r : Nat) (bs : List Byte) : (s.queueEntry l r bs).blocks = s.blocks := rfl
@[simp] theorem State.queueEntry_groups (s : State) (l r : Nat) (bs : List Byte) : (s.queueEntry l r bs).groups = s.groups := rfl
@[simp] theorem State.queueEntry_cores (s : State) (l r : Nat) (bs : List Byte) : (s.queueEntry l r bs).cores = s.cores := rfl
@[simp] theorem State.queueEntry_clusters (s : State) (l r : Nat) (bs : List Byte) : (s.queueEntry l r bs).clusters = s.clusters := rfl
@[simp] theorem State.queueEntry_faults (s : State) (l r : Nat) (bs : List Byte) : (s.queueEntry l r bs).faults = s.faults := rfl
@[simp] theorem State.queueEntry_records (s : State) (l r : Nat) (bs : List Byte) : (s.queueEntry l r bs).records = s.records := rfl
@[simp] theorem State.queueEntry_transfers (s : State) (l r : Nat) (bs : List Byte) : (s.queueEntry l r bs).transfers = s.transfers := rfl
@[simp] theorem State.queueEntry_colls (s : State) (l r : Nat) (bs : List Byte) : (s.queueEntry l r bs).colls = s.colls := rfl
@[simp] theorem State.queueEntry_peal (s : State) (l r : Nat) (bs : List Byte) : (s.queueEntry l r bs).peal = s.peal := rfl
@[simp] theorem State.queueEntry_store (s : State) (l r : Nat) (bs : List Byte) : (s.queueEntry l r bs).store = s.store := rfl
@[simp] theorem State.queueEntry_sendq (s : State) (l r : Nat) (bs : List Byte) : (s.queueEntry l r bs).sendq = s.sendq := rfl
@[simp] theorem State.queueEntry_onLoop (s : State) (l r : Nat) (bs : List Byte) : (s.queueEntry l r bs).onLoop = s.onLoop := rfl
@[simp] theorem State.queueEntry_formed (s : State) (l r : Nat) (bs : List Byte) : (s.queueEntry l r bs).formed = s.formed := rfl
@[simp] theorem State.queueEntry_ring (s : State) (l r : Nat) (bs : List Byte) : (s.queueEntry l r bs).ring = s.ring := rfl
@[simp] theorem State.queueEntry_frames (s : State) (l r : Nat) (bs : List Byte) : (s.queueEntry l r bs).frames = s.frames := rfl
@[simp] theorem State.queueEntry_links (s : State) (l r : Nat) (bs : List Byte) : (s.queueEntry l r bs).links = s.links := rfl
@[simp] theorem State.queueEntry_routes (s : State) (l r : Nat) (bs : List Byte) : (s.queueEntry l r bs).routes = s.routes := rfl
@[simp] theorem State.queueEntry_tver (s : State) (l r : Nat) (bs : List Byte) : (s.queueEntry l r bs).tver = s.tver := rfl
@[simp] theorem State.queueEntry_tbank (s : State) (l r : Nat) (bs : List Byte) : (s.queueEntry l r bs).tbank = s.tbank := rfl
@[simp] theorem State.queueEntry_tprev (s : State) (l r : Nat) (bs : List Byte) : (s.queueEntry l r bs).tprev = s.tprev := rfl
@[simp] theorem State.queueEntry_topen (s : State) (l r : Nat) (bs : List Byte) : (s.queueEntry l r bs).topen = s.topen := rfl
@[simp] theorem State.queueEntry_tclose (s : State) (l r : Nat) (bs : List Byte) : (s.queueEntry l r bs).tclose = s.tclose := rfl
@[simp] theorem State.queueEntry_remotes (s : State) (l r : Nat) (bs : List Byte) : (s.queueEntry l r bs).remotes = s.remotes := rfl
@[simp] theorem State.queueEntry_ingress (s : State) (l r : Nat) (bs : List Byte) : (s.queueEntry l r bs).ingress = s.ingress := rfl
@[simp] theorem State.queueEntry_irqs (s : State) (l r : Nat) (bs : List Byte) : (s.queueEntry l r bs).irqs = s.irqs := rfl
@[simp] theorem State.queueEntry_mgmt (s : State) (l r : Nat) (bs : List Byte) : (s.queueEntry l r bs).mgmt = s.mgmt := rfl

/-! `State.postEvent` -/

@[simp] theorem State.postEvent_cur (s : State) (l code c : Nat) (info : List Nat) (rep : List Byte) : (s.postEvent l code c info rep).cur = s.cur := rfl
@[simp] theorem State.postEvent_agenda (s : State) (l code c : Nat) (info : List Nat) (rep : List Byte) : (s.postEvent l code c info rep).agenda = s.agenda := rfl
@[simp] theorem State.postEvent_turn (s : State) (l code c : Nat) (info : List Nat) (rep : List Byte) : (s.postEvent l code c info rep).turn = s.turn := rfl
@[simp] theorem State.postEvent_free (s : State) (l code c : Nat) (info : List Nat) (rep : List Byte) : (s.postEvent l code c info rep).free = s.free := rfl
@[simp] theorem State.postEvent_nextId (s : State) (l code c : Nat) (info : List Nat) (rep : List Byte) : (s.postEvent l code c info rep).nextId = s.nextId := rfl
@[simp] theorem State.postEvent_clk (s : State) (l code c : Nat) (info : List Nat) (rep : List Byte) : (s.postEvent l code c info rep).clk = s.clk := rfl
@[simp] theorem State.postEvent_pkg (s : State) (l code c : Nat) (info : List Nat) (rep : List Byte) : (s.postEvent l code c info rep).pkg = s.pkg := rfl
@[simp] theorem State.postEvent_mem (s : State) (l code c : Nat) (info : List Nat) (rep : List Byte) : (s.postEvent l code c info rep).mem = s.mem := rfl
@[simp] theorem State.postEvent_full (s : State) (l code c : Nat) (info : List Nat) (rep : List Byte) : (s.postEvent l code c info rep).full = s.full := rfl
@[simp] theorem State.postEvent_poison (s : State) (l code c : Nat) (info : List Nat) (rep : List Byte) : (s.postEvent l code c info rep).poison = s.poison := rfl
@[simp] theorem State.postEvent_hostMem (s : State) (l code c : Nat) (info : List Nat) (rep : List Byte) : (s.postEvent l code c info rep).hostMem = s.hostMem := rfl
@[simp] theorem State.postEvent_bridge (s : State) (l code c : Nat) (info : List Nat) (rep : List Byte) : (s.postEvent l code c info rep).bridge = s.bridge := rfl
@[simp] theorem State.postEvent_invis (s : State) (l code c : Nat) (info : List Nat) (rep : List Byte) : (s.postEvent l code c info rep).invis = s.invis := rfl
@[simp] theorem State.postEvent_owned (s : State) (l code c : Nat) (info : List Nat) (rep : List Byte) : (s.postEvent l code c info rep).owned = s.owned := rfl
@[simp] theorem State.postEvent_locks (s : State) (l code c : Nat) (info : List Nat) (rep : List Byte) : (s.postEvent l code c info rep).locks = s.locks := rfl
@[simp] theorem State.postEvent_persistent (s : State) (l code c : Nat) (info : List Nat) (rep : List Byte) : (s.postEvent l code c info rep).persistent = s.persistent := rfl
@[simp] theorem State.postEvent_tlb (s : State) (l code c : Nat) (info : List Nat) (rep : List Byte) : (s.postEvent l code c info rep).tlb = s.tlb := rfl
@[simp] theorem State.postEvent_shared (s : State) (l code c : Nat) (info : List Nat) (rep : List Byte) : (s.postEvent l code c info rep).shared = s.shared := rfl
@[simp] theorem State.postEvent_rr (s : State) (l code c : Nat) (info : List Nat) (rep : List Byte) : (s.postEvent l code c info rep).rr = s.rr := rfl
@[simp] theorem State.postEvent_ctxs (s : State) (l code c : Nat) (info : List Nat) (rep : List Byte) : (s.postEvent l code c info rep).ctxs = s.ctxs := rfl
@[simp] theorem State.postEvent_grids (s : State) (l code c : Nat) (info : List Nat) (rep : List Byte) : (s.postEvent l code c info rep).grids = s.grids := rfl
@[simp] theorem State.postEvent_blocks (s : State) (l code c : Nat) (info : List Nat) (rep : List Byte) : (s.postEvent l code c info rep).blocks = s.blocks := rfl
@[simp] theorem State.postEvent_groups (s : State) (l code c : Nat) (info : List Nat) (rep : List Byte) : (s.postEvent l code c info rep).groups = s.groups := rfl
@[simp] theorem State.postEvent_cores (s : State) (l code c : Nat) (info : List Nat) (rep : List Byte) : (s.postEvent l code c info rep).cores = s.cores := rfl
@[simp] theorem State.postEvent_clusters (s : State) (l code c : Nat) (info : List Nat) (rep : List Byte) : (s.postEvent l code c info rep).clusters = s.clusters := rfl
@[simp] theorem State.postEvent_faults (s : State) (l code c : Nat) (info : List Nat) (rep : List Byte) : (s.postEvent l code c info rep).faults = s.faults := rfl
@[simp] theorem State.postEvent_records (s : State) (l code c : Nat) (info : List Nat) (rep : List Byte) : (s.postEvent l code c info rep).records = s.records := rfl
@[simp] theorem State.postEvent_transfers (s : State) (l code c : Nat) (info : List Nat) (rep : List Byte) : (s.postEvent l code c info rep).transfers = s.transfers := rfl
@[simp] theorem State.postEvent_colls (s : State) (l code c : Nat) (info : List Nat) (rep : List Byte) : (s.postEvent l code c info rep).colls = s.colls := rfl
@[simp] theorem State.postEvent_peal (s : State) (l code c : Nat) (info : List Nat) (rep : List Byte) : (s.postEvent l code c info rep).peal = s.peal := rfl
@[simp] theorem State.postEvent_store (s : State) (l code c : Nat) (info : List Nat) (rep : List Byte) : (s.postEvent l code c info rep).store = s.store := rfl
@[simp] theorem State.postEvent_sendq (s : State) (l code c : Nat) (info : List Nat) (rep : List Byte) : (s.postEvent l code c info rep).sendq = s.sendq := rfl
@[simp] theorem State.postEvent_onLoop (s : State) (l code c : Nat) (info : List Nat) (rep : List Byte) : (s.postEvent l code c info rep).onLoop = s.onLoop := rfl
@[simp] theorem State.postEvent_formed (s : State) (l code c : Nat) (info : List Nat) (rep : List Byte) : (s.postEvent l code c info rep).formed = s.formed := rfl
@[simp] theorem State.postEvent_ring (s : State) (l code c : Nat) (info : List Nat) (rep : List Byte) : (s.postEvent l code c info rep).ring = s.ring := rfl
@[simp] theorem State.postEvent_frames (s : State) (l code c : Nat) (info : List Nat) (rep : List Byte) : (s.postEvent l code c info rep).frames = s.frames := rfl
@[simp] theorem State.postEvent_links (s : State) (l code c : Nat) (info : List Nat) (rep : List Byte) : (s.postEvent l code c info rep).links = s.links := rfl
@[simp] theorem State.postEvent_routes (s : State) (l code c : Nat) (info : List Nat) (rep : List Byte) : (s.postEvent l code c info rep).routes = s.routes := rfl
@[simp] theorem State.postEvent_tver (s : State) (l code c : Nat) (info : List Nat) (rep : List Byte) : (s.postEvent l code c info rep).tver = s.tver := rfl
@[simp] theorem State.postEvent_tbank (s : State) (l code c : Nat) (info : List Nat) (rep : List Byte) : (s.postEvent l code c info rep).tbank = s.tbank := rfl
@[simp] theorem State.postEvent_tprev (s : State) (l code c : Nat) (info : List Nat) (rep : List Byte) : (s.postEvent l code c info rep).tprev = s.tprev := rfl
@[simp] theorem State.postEvent_topen (s : State) (l code c : Nat) (info : List Nat) (rep : List Byte) : (s.postEvent l code c info rep).topen = s.topen := rfl
@[simp] theorem State.postEvent_tclose (s : State) (l code c : Nat) (info : List Nat) (rep : List Byte) : (s.postEvent l code c info rep).tclose = s.tclose := rfl
@[simp] theorem State.postEvent_remotes (s : State) (l code c : Nat) (info : List Nat) (rep : List Byte) : (s.postEvent l code c info rep).remotes = s.remotes := rfl
@[simp] theorem State.postEvent_ingress (s : State) (l code c : Nat) (info : List Nat) (rep : List Byte) : (s.postEvent l code c info rep).ingress = s.ingress := rfl
@[simp] theorem State.postEvent_irqs (s : State) (l code c : Nat) (info : List Nat) (rep : List Byte) : (s.postEvent l code c info rep).irqs = s.irqs := rfl
@[simp] theorem State.postEvent_mgmt (s : State) (l code c : Nat) (info : List Nat) (rep : List Byte) : (s.postEvent l code c info rep).mgmt = s.mgmt := rfl

/-! `State.postMgmt` -/

@[simp] theorem State.postMgmt_cur (s : State) (code : Nat) (info : List Nat) : (s.postMgmt code info).cur = s.cur := rfl
@[simp] theorem State.postMgmt_agenda (s : State) (code : Nat) (info : List Nat) : (s.postMgmt code info).agenda = s.agenda := rfl
@[simp] theorem State.postMgmt_turn (s : State) (code : Nat) (info : List Nat) : (s.postMgmt code info).turn = s.turn := rfl
@[simp] theorem State.postMgmt_free (s : State) (code : Nat) (info : List Nat) : (s.postMgmt code info).free = s.free := rfl
@[simp] theorem State.postMgmt_nextId (s : State) (code : Nat) (info : List Nat) : (s.postMgmt code info).nextId = s.nextId := rfl
@[simp] theorem State.postMgmt_clk (s : State) (code : Nat) (info : List Nat) : (s.postMgmt code info).clk = s.clk := rfl
@[simp] theorem State.postMgmt_pkg (s : State) (code : Nat) (info : List Nat) : (s.postMgmt code info).pkg = s.pkg := rfl
@[simp] theorem State.postMgmt_mem (s : State) (code : Nat) (info : List Nat) : (s.postMgmt code info).mem = s.mem := rfl
@[simp] theorem State.postMgmt_full (s : State) (code : Nat) (info : List Nat) : (s.postMgmt code info).full = s.full := rfl
@[simp] theorem State.postMgmt_poison (s : State) (code : Nat) (info : List Nat) : (s.postMgmt code info).poison = s.poison := rfl
@[simp] theorem State.postMgmt_hostMem (s : State) (code : Nat) (info : List Nat) : (s.postMgmt code info).hostMem = s.hostMem := rfl
@[simp] theorem State.postMgmt_bridge (s : State) (code : Nat) (info : List Nat) : (s.postMgmt code info).bridge = s.bridge := rfl
@[simp] theorem State.postMgmt_invis (s : State) (code : Nat) (info : List Nat) : (s.postMgmt code info).invis = s.invis := rfl
@[simp] theorem State.postMgmt_owned (s : State) (code : Nat) (info : List Nat) : (s.postMgmt code info).owned = s.owned := rfl
@[simp] theorem State.postMgmt_locks (s : State) (code : Nat) (info : List Nat) : (s.postMgmt code info).locks = s.locks := rfl
@[simp] theorem State.postMgmt_persistent (s : State) (code : Nat) (info : List Nat) : (s.postMgmt code info).persistent = s.persistent := rfl
@[simp] theorem State.postMgmt_tlb (s : State) (code : Nat) (info : List Nat) : (s.postMgmt code info).tlb = s.tlb := rfl
@[simp] theorem State.postMgmt_shared (s : State) (code : Nat) (info : List Nat) : (s.postMgmt code info).shared = s.shared := rfl
@[simp] theorem State.postMgmt_ldevs (s : State) (code : Nat) (info : List Nat) : (s.postMgmt code info).ldevs = s.ldevs := rfl
@[simp] theorem State.postMgmt_rr (s : State) (code : Nat) (info : List Nat) : (s.postMgmt code info).rr = s.rr := rfl
@[simp] theorem State.postMgmt_ctxs (s : State) (code : Nat) (info : List Nat) : (s.postMgmt code info).ctxs = s.ctxs := rfl
@[simp] theorem State.postMgmt_grids (s : State) (code : Nat) (info : List Nat) : (s.postMgmt code info).grids = s.grids := rfl
@[simp] theorem State.postMgmt_blocks (s : State) (code : Nat) (info : List Nat) : (s.postMgmt code info).blocks = s.blocks := rfl
@[simp] theorem State.postMgmt_groups (s : State) (code : Nat) (info : List Nat) : (s.postMgmt code info).groups = s.groups := rfl
@[simp] theorem State.postMgmt_cores (s : State) (code : Nat) (info : List Nat) : (s.postMgmt code info).cores = s.cores := rfl
@[simp] theorem State.postMgmt_clusters (s : State) (code : Nat) (info : List Nat) : (s.postMgmt code info).clusters = s.clusters := rfl
@[simp] theorem State.postMgmt_faults (s : State) (code : Nat) (info : List Nat) : (s.postMgmt code info).faults = s.faults := rfl
@[simp] theorem State.postMgmt_records (s : State) (code : Nat) (info : List Nat) : (s.postMgmt code info).records = s.records := rfl
@[simp] theorem State.postMgmt_transfers (s : State) (code : Nat) (info : List Nat) : (s.postMgmt code info).transfers = s.transfers := rfl
@[simp] theorem State.postMgmt_colls (s : State) (code : Nat) (info : List Nat) : (s.postMgmt code info).colls = s.colls := rfl
@[simp] theorem State.postMgmt_peal (s : State) (code : Nat) (info : List Nat) : (s.postMgmt code info).peal = s.peal := rfl
@[simp] theorem State.postMgmt_store (s : State) (code : Nat) (info : List Nat) : (s.postMgmt code info).store = s.store := rfl
@[simp] theorem State.postMgmt_sendq (s : State) (code : Nat) (info : List Nat) : (s.postMgmt code info).sendq = s.sendq := rfl
@[simp] theorem State.postMgmt_onLoop (s : State) (code : Nat) (info : List Nat) : (s.postMgmt code info).onLoop = s.onLoop := rfl
@[simp] theorem State.postMgmt_formed (s : State) (code : Nat) (info : List Nat) : (s.postMgmt code info).formed = s.formed := rfl
@[simp] theorem State.postMgmt_ring (s : State) (code : Nat) (info : List Nat) : (s.postMgmt code info).ring = s.ring := rfl
@[simp] theorem State.postMgmt_frames (s : State) (code : Nat) (info : List Nat) : (s.postMgmt code info).frames = s.frames := rfl
@[simp] theorem State.postMgmt_links (s : State) (code : Nat) (info : List Nat) : (s.postMgmt code info).links = s.links := rfl
@[simp] theorem State.postMgmt_routes (s : State) (code : Nat) (info : List Nat) : (s.postMgmt code info).routes = s.routes := rfl
@[simp] theorem State.postMgmt_tver (s : State) (code : Nat) (info : List Nat) : (s.postMgmt code info).tver = s.tver := rfl
@[simp] theorem State.postMgmt_tbank (s : State) (code : Nat) (info : List Nat) : (s.postMgmt code info).tbank = s.tbank := rfl
@[simp] theorem State.postMgmt_tprev (s : State) (code : Nat) (info : List Nat) : (s.postMgmt code info).tprev = s.tprev := rfl
@[simp] theorem State.postMgmt_topen (s : State) (code : Nat) (info : List Nat) : (s.postMgmt code info).topen = s.topen := rfl
@[simp] theorem State.postMgmt_tclose (s : State) (code : Nat) (info : List Nat) : (s.postMgmt code info).tclose = s.tclose := rfl
@[simp] theorem State.postMgmt_remotes (s : State) (code : Nat) (info : List Nat) : (s.postMgmt code info).remotes = s.remotes := rfl
@[simp] theorem State.postMgmt_ingress (s : State) (code : Nat) (info : List Nat) : (s.postMgmt code info).ingress = s.ingress := rfl
@[simp] theorem State.postMgmt_irqs (s : State) (code : Nat) (info : List Nat) : (s.postMgmt code info).irqs = s.irqs := rfl

/-! `State.interrupt` -/

@[simp] theorem State.interrupt_cur (s : State) (fn v : Nat) : (s.interrupt fn v).cur = s.cur := rfl
@[simp] theorem State.interrupt_agenda (s : State) (fn v : Nat) : (s.interrupt fn v).agenda = s.agenda := rfl
@[simp] theorem State.interrupt_turn (s : State) (fn v : Nat) : (s.interrupt fn v).turn = s.turn := rfl
@[simp] theorem State.interrupt_free (s : State) (fn v : Nat) : (s.interrupt fn v).free = s.free := rfl
@[simp] theorem State.interrupt_nextId (s : State) (fn v : Nat) : (s.interrupt fn v).nextId = s.nextId := rfl
@[simp] theorem State.interrupt_clk (s : State) (fn v : Nat) : (s.interrupt fn v).clk = s.clk := rfl
@[simp] theorem State.interrupt_pkg (s : State) (fn v : Nat) : (s.interrupt fn v).pkg = s.pkg := rfl
@[simp] theorem State.interrupt_mem (s : State) (fn v : Nat) : (s.interrupt fn v).mem = s.mem := rfl
@[simp] theorem State.interrupt_full (s : State) (fn v : Nat) : (s.interrupt fn v).full = s.full := rfl
@[simp] theorem State.interrupt_poison (s : State) (fn v : Nat) : (s.interrupt fn v).poison = s.poison := rfl
@[simp] theorem State.interrupt_hostMem (s : State) (fn v : Nat) : (s.interrupt fn v).hostMem = s.hostMem := rfl
@[simp] theorem State.interrupt_bridge (s : State) (fn v : Nat) : (s.interrupt fn v).bridge = s.bridge := rfl
@[simp] theorem State.interrupt_invis (s : State) (fn v : Nat) : (s.interrupt fn v).invis = s.invis := rfl
@[simp] theorem State.interrupt_owned (s : State) (fn v : Nat) : (s.interrupt fn v).owned = s.owned := rfl
@[simp] theorem State.interrupt_locks (s : State) (fn v : Nat) : (s.interrupt fn v).locks = s.locks := rfl
@[simp] theorem State.interrupt_persistent (s : State) (fn v : Nat) : (s.interrupt fn v).persistent = s.persistent := rfl
@[simp] theorem State.interrupt_tlb (s : State) (fn v : Nat) : (s.interrupt fn v).tlb = s.tlb := rfl
@[simp] theorem State.interrupt_shared (s : State) (fn v : Nat) : (s.interrupt fn v).shared = s.shared := rfl
@[simp] theorem State.interrupt_ldevs (s : State) (fn v : Nat) : (s.interrupt fn v).ldevs = s.ldevs := rfl
@[simp] theorem State.interrupt_rr (s : State) (fn v : Nat) : (s.interrupt fn v).rr = s.rr := rfl
@[simp] theorem State.interrupt_ctxs (s : State) (fn v : Nat) : (s.interrupt fn v).ctxs = s.ctxs := rfl
@[simp] theorem State.interrupt_grids (s : State) (fn v : Nat) : (s.interrupt fn v).grids = s.grids := rfl
@[simp] theorem State.interrupt_blocks (s : State) (fn v : Nat) : (s.interrupt fn v).blocks = s.blocks := rfl
@[simp] theorem State.interrupt_groups (s : State) (fn v : Nat) : (s.interrupt fn v).groups = s.groups := rfl
@[simp] theorem State.interrupt_cores (s : State) (fn v : Nat) : (s.interrupt fn v).cores = s.cores := rfl
@[simp] theorem State.interrupt_clusters (s : State) (fn v : Nat) : (s.interrupt fn v).clusters = s.clusters := rfl
@[simp] theorem State.interrupt_faults (s : State) (fn v : Nat) : (s.interrupt fn v).faults = s.faults := rfl
@[simp] theorem State.interrupt_records (s : State) (fn v : Nat) : (s.interrupt fn v).records = s.records := rfl
@[simp] theorem State.interrupt_transfers (s : State) (fn v : Nat) : (s.interrupt fn v).transfers = s.transfers := rfl
@[simp] theorem State.interrupt_colls (s : State) (fn v : Nat) : (s.interrupt fn v).colls = s.colls := rfl
@[simp] theorem State.interrupt_peal (s : State) (fn v : Nat) : (s.interrupt fn v).peal = s.peal := rfl
@[simp] theorem State.interrupt_store (s : State) (fn v : Nat) : (s.interrupt fn v).store = s.store := rfl
@[simp] theorem State.interrupt_sendq (s : State) (fn v : Nat) : (s.interrupt fn v).sendq = s.sendq := rfl
@[simp] theorem State.interrupt_onLoop (s : State) (fn v : Nat) : (s.interrupt fn v).onLoop = s.onLoop := rfl
@[simp] theorem State.interrupt_formed (s : State) (fn v : Nat) : (s.interrupt fn v).formed = s.formed := rfl
@[simp] theorem State.interrupt_ring (s : State) (fn v : Nat) : (s.interrupt fn v).ring = s.ring := rfl
@[simp] theorem State.interrupt_frames (s : State) (fn v : Nat) : (s.interrupt fn v).frames = s.frames := rfl
@[simp] theorem State.interrupt_links (s : State) (fn v : Nat) : (s.interrupt fn v).links = s.links := rfl
@[simp] theorem State.interrupt_routes (s : State) (fn v : Nat) : (s.interrupt fn v).routes = s.routes := rfl
@[simp] theorem State.interrupt_tver (s : State) (fn v : Nat) : (s.interrupt fn v).tver = s.tver := rfl
@[simp] theorem State.interrupt_tbank (s : State) (fn v : Nat) : (s.interrupt fn v).tbank = s.tbank := rfl
@[simp] theorem State.interrupt_tprev (s : State) (fn v : Nat) : (s.interrupt fn v).tprev = s.tprev := rfl
@[simp] theorem State.interrupt_topen (s : State) (fn v : Nat) : (s.interrupt fn v).topen = s.topen := rfl
@[simp] theorem State.interrupt_tclose (s : State) (fn v : Nat) : (s.interrupt fn v).tclose = s.tclose := rfl
@[simp] theorem State.interrupt_remotes (s : State) (fn v : Nat) : (s.interrupt fn v).remotes = s.remotes := rfl
@[simp] theorem State.interrupt_ingress (s : State) (fn v : Nat) : (s.interrupt fn v).ingress = s.ingress := rfl
@[simp] theorem State.interrupt_mgmt (s : State) (fn v : Nat) : (s.interrupt fn v).mgmt = s.mgmt := rfl

/-! The field that changes -/

@[simp] theorem State.setGrp_groups (s : State) (g : Nat) (x : Group) : (s.setGrp g x).groups = s.groups.set g x := rfl
@[simp] theorem State.updGrp_groups (s : State) (g : Nat) (f : Group → Group) : (s.updGrp g f).groups = s.groups.upd g f := rfl
@[simp] theorem State.updGrid_grids (s : State) (g : Nat) (f : Grid → Grid) : (s.updGrid g f).grids = s.grids.upd g f := rfl
@[simp] theorem State.updBlk_blocks (s : State) (b : Nat) (f : Block → Block) : (s.updBlk b f).blocks = s.blocks.upd b f := rfl
@[simp] theorem State.updCtx_ctxs (s : State) (c : Nat) (f : Ctx → Ctx) : (s.updCtx c f).ctxs = s.ctxs.upd c f := rfl
@[simp] theorem State.updLd_ldevs (s : State) (l : Nat) (f : LDev → LDev) : (s.updLd l f).ldevs = s.ldevs.upd l f := rfl
@[simp] theorem State.interrupt_irqs (s : State) (fn v : Nat) : (s.interrupt fn v).irqs = s.irqs ++ [(fn, v)] := rfl

end Sys2Proof.Machine
end

