-- ==== Sys2Proof/Laws/Issue.lean ====
section
/-! SUPPORT. What a word does once nothing is in its way: one equation for the wrapper of every word, and what counting a word,
moving a fragment on and writing registers leave alone. -/

namespace Sys2Proof.Machine
open Sys2Proof.Safety

/-! ## Finding a group -/

@[simp] theorem State.grp_setGrp_self (s : State) (k : Nat) (x : Group) : (s.setGrp k x).grp k = some x :=
  SMap.find_set_self _ _ _

theorem State.grp_setGrp_ne (s : State) {k j : Nat} (x : Group) (h : j ≠ k) : (s.setGrp k x).grp j = s.grp j :=
  SMap.find_set_ne _ _ h

theorem State.grp_updGrp (s : State) (k j : Nat) (f : Group → Group) :
    (s.updGrp k f).grp j = if j = k then (s.grp k).map f else s.grp j := SMap.find_upd _ _ _ _

@[simp] theorem State.grp_updGrp_self (s : State) (k : Nat) (f : Group → Group) : (s.updGrp k f).grp k = (s.grp k).map f := by
  rw [State.grp_updGrp, if_pos rfl]

theorem State.grp_updGrp_ne (s : State) {k j : Nat} (f : Group → Group) (h : j ≠ k) : (s.updGrp k f).grp j = s.grp j := by
  rw [State.grp_updGrp, if_neg h]

@[simp] theorem State.grp_with_cur (s : State) (c : Option Issue) (k : Nat) : ({ s with cur := c } : State).grp k = s.grp k := rfl

/-! ## The wrapper -/

@[simp] theorem began_grp (i : Instr) (s : State) (c : Issue) (g : Group) : (began i s c g).grp c.grp = some (counted i c g) :=
  SMap.find_set_self _ _ _

theorem began_only (i : Instr) (s : State) (c : Issue) (g : Group) : OnlyGroup c.grp s (began i s c g) :=
  ⟨rfl, fun _ h => SMap.find_set_ne _ _ h⟩

theorem Group.asIssued_fresh (g : Group) {h : Hold} (hk : h.key = none) : g.asIssued h = g := by simp [Group.asIssued, hk]

theorem State.dropSnap_fresh (s : State) (k : Nat) {h : Hold} (hk : h.key = none) : s.dropSnap k h = s := by simp [State.dropSnap, hk]

/-- The wrapper of a word that has nothing in its way: its own effect decides. -/
theorem runWord_ready {i : Instr} {s : State} {c : Issue} {g : Group} (h : Ready i s c g) (body : State → Issue → Group → WOut) :
    runWord s i body =
      match body (began i s c g) c (counted i c g) with
      | .done t => .next (t.updGrp c.grp (fun x => x.advance c.lanes))
      | .moved t => .next t
      | .hold t w => .next (t.updGrp c.grp (fun x =>
          let y := x.holdLanes c.lanes w
          if y.flagged && w.isStop then y.stopAt c.lanes .waitPoint else y))
      | .notReady => .next { s with cur := none }
      | .trap t => .next ((began i s c g).wordTraps c g t) := by
  obtain ⟨hc, hg, hl, hr, hp, ho, hk⟩ := h
  have hq : (g.counts c i.isSafept && decide (s.spLimit g ≤ g.spCount)) = false := by
    unfold Group.counts
    rcases hp with h | h | h | h
    · simp [h]
    · simp [h]
    · simp [h]
    · simp [Nat.not_le.mpr h]
  have hb : began i s c g = { s.setGrp c.grp (counted i c g) with cur := none } := rfl
  unfold counted at hb
  unfold runWord
  simp only [hc, hg, hl, hr, Bool.not_true, Bool.false_eq_true, if_false, hq, ho, Bool.false_and]
  rw [← hb]
  simp only [Group.asIssued_fresh _ hk, State.dropSnap_fresh _ _ hk]
  show (match body (began i s c g) c (counted i c g) with
    | .done t => _ | .moved t => _ | .hold t w => _ | .notReady => _ | .trap t => _) = _
  cases body (began i s c g) c (counted i c g) <;> rfl

end Sys2Proof.Machine
end

