-- ==== Sys2Proof/Laws/Group.lean ====
section
/-! SUPPORT. Lanes and registers of a group: what moving lanes, counting a word and writing an effect change and leave alone. -/

namespace Sys2Proof.Machine
open Sys2Proof.Safety

/-! ## Lanes -/

theorem Group.lane_mapIdx (g : Group) (f : Nat → Lane → Lane) (l : Nat) :
    ({ g with lanes := g.lanes.mapIdx f } : Group).lane l = if l < g.lanes.length then f l (g.lane l) else deadLane := by
  unfold Group.lane
  by_cases h : l < g.lanes.length
  · simp [h]
  · simp [h]

theorem Group.lane_ge (g : Group) {l : Nat} (h : ¬ l < g.lanes.length) : g.lane l = deadLane := by
  unfold Group.lane; simp [List.getElem?_eq_none (Nat.not_lt.mp h)]

theorem Group.lane_updLanes (g : Group) (m : Mask) (f : Lane → Lane) (l : Nat) :
    (g.updLanes m f).lane l = if l < g.lanes.length ∧ Mask.has m l = true then f (g.lane l) else g.lane l := by
  unfold Group.updLanes
  rw [Group.lane_mapIdx]
  by_cases h : l < g.lanes.length
  · simp [h]
  · simp [h, g.lane_ge h]

/-- A fragment that goes on: its running lanes move to the next word, no other lane changes. -/
theorem Group.lane_advance (g : Group) (m : Mask) (l : Nat) :
    (g.advance m).lane l = if Mask.has m l = true ∧ (g.lane l).st = .running then
      { g.lane l with pc := (g.lane l).pc + 8, hold := .none, kept := .none } else g.lane l := by
  unfold Group.advance
  rw [Group.lane_updLanes]
  by_cases h : l < g.lanes.length
  · by_cases hm : Mask.has m l = true
    · by_cases hr : (g.lane l).st = .running
      · simp [h, hm, hr]
      · simp [h, hm, hr]
    · simp [hm]
  · have : (g.lane l).st ≠ .running := by rw [g.lane_ge h]; decide
    simp [h, this]

/-- A fragment that waits: its running lanes carry the hold, no other lane changes. -/
theorem Group.lane_holdLanes (g : Group) (m : Mask) (w : Hold) (l : Nat) :
    (g.holdLanes m w).lane l = if Mask.has m l = true ∧ (g.lane l).st = .running then { g.lane l with hold := w } else g.lane l := by
  unfold Group.holdLanes
  rw [Group.lane_updLanes]
  by_cases h : l < g.lanes.length
  · by_cases hm : Mask.has m l = true
    · by_cases hr : (g.lane l).st = .running
      · simp [h, hm, hr]
      · simp [h, hm, hr]
    · simp [hm]
  · have : (g.lane l).st ≠ .running := by rw [g.lane_ge h]; decide
    simp [h, this]

/-- Counting a word changes of a lane only when it last issued, and ends its order after pre-emption. -/
theorem counted_lane (i : Instr) (c : Issue) (g : Group) (l : Nat) :
    ∃ n p, (counted i c g).lane l = { g.lane l with issued := n, stop := p } := by
  unfold counted
  split
  · unfold Group.count
    show ∃ n p, (g.updLanes c.lanes (fun x => { x with issued := g.words + 1, stop := none })).lane l = _
    rw [Group.lane_updLanes]
    split
    · exact ⟨g.words + 1, none, rfl⟩
    · exact ⟨(g.lane l).issued, (g.lane l).stop, rfl⟩
  · exact ⟨(g.lane l).issued, (g.lane l).stop, rfl⟩

@[simp] theorem counted_lane_pc (i : Instr) (c : Issue) (g : Group) (l : Nat) : ((counted i c g).lane l).pc = (g.lane l).pc := by
  obtain ⟨n, p, h⟩ := counted_lane i c g l; rw [h]

@[simp] theorem counted_lane_st (i : Instr) (c : Issue) (g : Group) (l : Nat) : ((counted i c g).lane l).st = (g.lane l).st := by
  obtain ⟨n, p, h⟩ := counted_lane i c g l; rw [h]

/-- Counting a word leaves every register, flag and mask alone. -/
theorem counted_regs (i : Instr) (c : Issue) (g : Group) :
    (counted i c g).v = g.v ∧ (counted i c g).s = g.s ∧ (counted i c g).p = g.p ∧ (counted i c g).j = g.j ∧
    (counted i c g).fpMode = g.fpMode ∧ (counted i c g).fpFlags = g.fpFlags ∧ (counted i c g).fpSeed = g.fpSeed ∧
    (counted i c g).width = g.width ∧ (counted i c g).shadow = g.shadow ∧ (counted i c g).ops = g.ops := by
  unfold counted Group.count Group.updLanes
  split <;> simp

/-! ## Writing registers -/

/-- Writes to other keys leave a key alone. -/
theorem fold_put_ne {α : Type} (f : α → Nat) (x : α → Word) (ws : List α) (m : SMap Word) (k : Nat) (h : ∀ w ∈ ws, f w ≠ k) :
    SMap.getD (ws.foldl (fun m w => SMap.put m (f w) (x w) 0) m) k 0 = SMap.getD m k 0 := by
  induction ws generalizing m with
  | nil => rfl
  | cons w r ih =>
    simp only [List.mem_cons, forall_eq_or_imp] at h
    rw [List.foldl_cons, ih _ h.2, SMap.getD_put, if_neg (Ne.symm h.1)]

/-- A key that some write names, and all that name it with one value, reads that value. -/
theorem fold_put_eq {α : Type} (f : α → Nat) (x : α → Word) (ws : List α) (m : SMap Word) (k : Nat) (y : Word)
    (h : ∀ w ∈ ws, f w = k → x w = y) (e : ∃ w ∈ ws, f w = k) :
    SMap.getD (ws.foldl (fun m w => SMap.put m (f w) (x w) 0) m) k 0 = y := by
  induction ws generalizing m with
  | nil => simp at e
  | cons w r ih =>
    simp only [List.mem_cons, forall_eq_or_imp] at h
    rw [List.foldl_cons]
    by_cases hr : ∃ u ∈ r, f u = k
    · exact ih _ h.2 hr
    · rw [fold_put_ne f x r _ k (fun u hu he => hr ⟨u, hu, he⟩)]
      obtain ⟨u, hu, he⟩ := e
      rcases List.mem_cons.mp hu with rfl | hu
      · rw [SMap.getD_put, if_pos he.symm, h.1 he]
      · exact absurd ⟨u, hu, he⟩ hr

/-- The writes of an effect over lanes are those of each lane. -/
theorem Eff.lanes_v (ls : List Nat) (f : Nat → Eff) (w : Nat × Nat × Word) :
    w ∈ (Eff.lanes ls f).v ↔ ∃ l ∈ ls, w ∈ (f l).v := by
  unfold Eff.lanes
  suffices ∀ acc : Eff, w ∈ (ls.foldl (fun acc l => acc.append (f l)) acc).v ↔ w ∈ acc.v ∨ ∃ l ∈ ls, w ∈ (f l).v by
    simpa using this {}
  induction ls with
  | nil => simp
  | cons l r ih => intro acc; rw [List.foldl_cons, ih]; simp [Eff.append, or_assoc]

theorem Eff.lanes_s (ls : List Nat) (f : Nat → Eff) (w : Nat × Word) :
    w ∈ (Eff.lanes ls f).s ↔ ∃ l ∈ ls, w ∈ (f l).s := by
  unfold Eff.lanes
  suffices ∀ acc : Eff, w ∈ (ls.foldl (fun acc l => acc.append (f l)) acc).s ↔ w ∈ acc.s ∨ ∃ l ∈ ls, w ∈ (f l).s by
    simpa using this {}
  induction ls with
  | nil => simp
  | cons l r ih => intro acc; rw [List.foldl_cons, ih]; simp [Eff.append, or_assoc]

theorem Eff.lanes_p (ls : List Nat) (f : Nat → Eff) (w : Nat × Nat × Bool) :
    w ∈ (Eff.lanes ls f).p ↔ ∃ l ∈ ls, w ∈ (f l).p := by
  unfold Eff.lanes
  suffices ∀ acc : Eff, w ∈ (ls.foldl (fun acc l => acc.append (f l)) acc).p ↔ w ∈ acc.p ∨ ∃ l ∈ ls, w ∈ (f l).p by
    simpa using this {}
  induction ls with
  | nil => simp
  | cons l r ih => intro acc; rw [List.foldl_cons, ih]; simp [Eff.append, or_assoc]

theorem Mask.mem_lanes (m : Mask) (l : Nat) : l ∈ Mask.lanes m ↔ l < 64 ∧ Mask.has m l = true := by
  simp [Mask.lanes, Mask.has]

/-- A vector register that an effect does not write reads as before. -/
theorem Group.rv_apply_ne (g : Group) (e : Eff) (n l : Nat) (hl : l < 64)
    (h : ∀ w ∈ e.v, w.2.1 < 64 → ¬ (w.1 = n ∧ w.2.1 = l)) (hb : ∀ w ∈ e.v, w.2.1 < 64) : (g.apply e).rv n l = g.rv n l := by
  unfold Group.rv
  split
  · rfl
  · show SMap.getD (e.v.foldl _ g.v) _ 0 = _
    exact fold_put_ne (fun w : Nat × Nat × Word => w.1 * 64 + w.2.1) (fun w => w.2.2) e.v g.v _
      (fun w hw he => h w hw (hb w hw) (by have := hb w hw; omega))

/-- A vector register that an effect writes with one value reads that value. -/
theorem Group.rv_apply_eq (g : Group) (e : Eff) (n l : Nat) (x : Word) (hn : n ≠ 255) (hl : l < 64) (hb : ∀ w ∈ e.v, w.2.1 < 64)
    (h : ∀ w ∈ e.v, w.1 = n → w.2.1 = l → w.2.2 = x) (he : (n, l, x) ∈ e.v) : (g.apply e).rv n l = x := by
  unfold Group.rv
  rw [if_neg hn]
  show SMap.getD (e.v.foldl _ g.v) _ 0 = _
  exact fold_put_eq (fun w : Nat × Nat × Word => w.1 * 64 + w.2.1) (fun w => w.2.2) e.v g.v _ x
    (fun w hw hk => by have := hb w hw; exact h w hw (by omega) (by omega)) ⟨_, he, rfl⟩

theorem Group.rs_apply_ne (g : Group) (e : Eff) (n : Nat) (h : ∀ w ∈ e.s, w.1 ≠ n) : (g.apply e).rs n = g.rs n := by
  unfold Group.rs
  split
  · rfl
  · exact fold_put_ne (fun w : Nat × Word => w.1) (fun w => w.2) e.s g.s n h

theorem Group.rs_apply_eq (g : Group) (e : Eff) (n : Nat) (x : Word) (hn : n ≠ 63)
    (h : ∀ w ∈ e.s, w.1 = n → w.2 = x) (he : (n, x) ∈ e.s) : (g.apply e).rs n = x := by
  unfold Group.rs
  rw [if_neg hn]
  exact fold_put_eq (fun w : Nat × Word => w.1) (fun w => w.2) e.s g.s n x h ⟨_, he, rfl⟩

/-- Writing registers in primary and shadow lanes shows in the primary ones as one effect. -/
theorem Group.run_eq (g : Group) (f : Group → Eff) : ∃ sh, g.run f = { g.apply (f g) with shadow := sh } := by
  unfold Group.run
  simp only
  split
  · exact ⟨_, rfl⟩
  · exact ⟨_, rfl⟩

end Sys2Proof.Machine
end

