-- ==== Sys2Proof/Laws/Words.lean ====
section
/-! SUPPORT. Every instruction word runs in one wrapper: what that wrapper does before the word's own effect. -/

namespace Sys2Proof.Machine

/-- A word that is illegal here is counted and traps. -/
theorem runWord_illegal {i : Instr} {s : State} {c : Issue} {g : Group} (body : State → Issue → Group → WOut) (hc : s.cur = some c)
    (hg : s.grp c.grp = some g) (hl : s.illegalHere g i = true) :
    runWord s i body = .next (s.illegalTraps c g (illegalTrap (s.descOf g).regs i)) := by
  simp only [runWord, hc, hg, hl, if_true]

/-- A word's trap is its fragment's, unless helper lanes stand alone. -/
theorem wordTraps_eq {s : State} {c : Issue} {g : Group} (t : Trap) (hn : g.nonHelpers c.lanes ≠ 0) : s.wordTraps c g t = s.trapAt c t := by
  simp only [State.wordTraps, beq_iff_eq, if_neg hn]

/-- A word that issues with its safe point overdue traps. -/
theorem runWord_late {i : Instr} {s : State} {c : Issue} {g : Group} (body : State → Issue → Group → WOut) (hc : s.cur = some c)
    (hg : s.grp c.grp = some g) (hl : s.illegalHere g i = false) (hr : s.wordReady c g i = true) (hh : c.hold = .none)
    (hi : g.inHandler c.lanes = false) (hs : i.isSafept = false) (hp : s.spLimit g ≤ g.spCount) :
    runWord s i body = .next (s.trapAt c { cause := 0x10, info := g.spCount }) := by
  have hk : g.counts c i.isSafept = true := by simp [Group.counts, hh, hi, hs]
  simp only [runWord, hc, hg, hl, hr, hk, decide_eq_true hp, Bool.and_self, Bool.not_true, Bool.false_eq_true, if_false, if_true]

/-- Every instruction word runs in the one wrapper of words. -/
theorem exec_word {i : Instr} {s : State} (hw : (encode i).isSome = true) : ∃ body, exec i s = runWord s i body := by
  cases i with
  | nop => dsimp only [exec, execNop, laneWord, regWord, onceWord]; exact ⟨_, rfl⟩
  | mov => dsimp only [exec, execMov, laneWord, regWord, onceWord]; exact ⟨_, rfl⟩
  | add => dsimp only [exec, execAdd, laneWord, regWord, onceWord]; exact ⟨_, rfl⟩
  | sub => dsimp only [exec, execSub, laneWord, regWord, onceWord]; exact ⟨_, rfl⟩
  | mul => dsimp only [exec, execMul, laneWord, regWord, onceWord]; exact ⟨_, rfl⟩
  | mulh => dsimp only [exec, execMulh, laneWord, regWord, onceWord]; exact ⟨_, rfl⟩
  | mad => dsimp only [exec, execMad, laneWord, regWord, onceWord]; exact ⟨_, rfl⟩
  | div => dsimp only [exec, execDiv, laneWord, regWord, onceWord]; exact ⟨_, rfl⟩
  | min => dsimp only [exec, execMin, laneWord, regWord, onceWord]; exact ⟨_, rfl⟩
  | max => dsimp only [exec, execMax, laneWord, regWord, onceWord]; exact ⟨_, rfl⟩
  | abs => dsimp only [exec, execAbs, laneWord, regWord, onceWord]; exact ⟨_, rfl⟩
  | and => dsimp only [exec, execAnd, laneWord, regWord, onceWord]; exact ⟨_, rfl⟩
  | or => dsimp only [exec, execOr, laneWord, regWord, onceWord]; exact ⟨_, rfl⟩
  | xor => dsimp only [exec, execXor, laneWord, regWord, onceWord]; exact ⟨_, rfl⟩
  | bool3 => dsimp only [exec, execBool3, laneWord, regWord, onceWord]; exact ⟨_, rfl⟩
  | shl => dsimp only [exec, execShl, laneWord, regWord, onceWord]; exact ⟨_, rfl⟩
  | shr => dsimp only [exec, execShr, laneWord, regWord, onceWord]; exact ⟨_, rfl⟩
  | sar => dsimp only [exec, execSar, laneWord, regWord, onceWord]; exact ⟨_, rfl⟩
  | xtr => dsimp only [exec, execXtr, laneWord, regWord, onceWord]; exact ⟨_, rfl⟩
  | popc => dsimp only [exec, execPopc, laneWord, regWord, onceWord]; exact ⟨_, rfl⟩
  | clz => dsimp only [exec, execClz, laneWord, regWord, onceWord]; exact ⟨_, rfl⟩
  | brev => dsimp only [exec, execBrev, laneWord, regWord, onceWord]; exact ⟨_, rfl⟩
  | bfx => dsimp only [exec, execBfx, laneWord, regWord, onceWord]; exact ⟨_, rfl⟩
  | bfi => dsimp only [exec, execBfi, laneWord, regWord, onceWord]; exact ⟨_, rfl⟩
  | iset => dsimp only [exec, execIset, laneWord, regWord, onceWord]; exact ⟨_, rfl⟩
  | sel => dsimp only [exec, execSel, laneWord, regWord, onceWord]; exact ⟨_, rfl⟩
  | lea => dsimp only [exec, execLea, laneWord, regWord, onceWord]; exact ⟨_, rfl⟩
  | bytsel => dsimp only [exec, execBytsel, laneWord, regWord, onceWord]; exact ⟨_, rfl⟩
  | idp4 => dsimp only [exec, execIdp4, laneWord, regWord, onceWord]; exact ⟨_, rfl⟩
  | pmov => dsimp only [exec, execPmov, laneWord, regWord, onceWord]; exact ⟨_, rfl⟩
  | rds => dsimp only [exec, execRds, laneWord, regWord, onceWord]; exact ⟨_, rfl⟩
  | fadd => dsimp only [exec, execFadd, laneWord, regWord, onceWord]; exact ⟨_, rfl⟩
  | fmul => dsimp only [exec, execFmul, laneWord, regWord, onceWord]; exact ⟨_, rfl⟩
  | fma => dsimp only [exec, execFma, laneWord, regWord, onceWord]; exact ⟨_, rfl⟩
  | fmin => dsimp only [exec, execFmin, laneWord, regWord, onceWord]; exact ⟨_, rfl⟩
  | fmax => dsimp only [exec, execFmax, laneWord, regWord, onceWord]; exact ⟨_, rfl⟩
  | fset => dsimp only [exec, execFset, laneWord, regWord, onceWord]; exact ⟨_, rfl⟩
  | fclass => dsimp only [exec, execFclass, laneWord, regWord, onceWord]; exact ⟨_, rfl⟩
  | frnd => dsimp only [exec, execFrnd, laneWord, regWord, onceWord]; exact ⟨_, rfl⟩
  | pkadd => dsimp only [exec, execPkadd, laneWord, regWord, onceWord]; exact ⟨_, rfl⟩
  | pkmul => dsimp only [exec, execPkmul, laneWord, regWord, onceWord]; exact ⟨_, rfl⟩
  | pkfma => dsimp only [exec, execPkfma, laneWord, regWord, onceWord]; exact ⟨_, rfl⟩
  | pkmm => dsimp only [exec, execPkmm, laneWord, regWord, onceWord]; exact ⟨_, rfl⟩
  | fdp2 => dsimp only [exec, execFdp2, laneWord, regWord, onceWord]; exact ⟨_, rfl⟩
  | fscale => dsimp only [exec, execFscale, laneWord, regWord, onceWord]; exact ⟨_, rfl⟩
  | frcp => dsimp only [exec, execFrcp, laneWord, regWord, onceWord]; exact ⟨_, rfl⟩
  | frsq => dsimp only [exec, execFrsq, laneWord, regWord, onceWord]; exact ⟨_, rfl⟩
  | fsqrt => dsimp only [exec, execFsqrt, laneWord, regWord, onceWord]; exact ⟨_, rfl⟩
  | fex2 => dsimp only [exec, execFex2, laneWord, regWord, onceWord]; exact ⟨_, rfl⟩
  | flg2 => dsimp only [exec, execFlg2, laneWord, regWord, onceWord]; exact ⟨_, rfl⟩
  | fsin => dsimp only [exec, execFsin, laneWord, regWord, onceWord]; exact ⟨_, rfl⟩
  | fcos => dsimp only [exec, execFcos, laneWord, regWord, onceWord]; exact ⟨_, rfl⟩
  | ftanh => dsimp only [exec, execFtanh, laneWord, regWord, onceWord]; exact ⟨_, rfl⟩
  | fdiv => dsimp only [exec, execFdiv, laneWord, regWord, onceWord]; exact ⟨_, rfl⟩
  | tbl => dsimp only [exec, execTbl, laneWord, regWord, onceWord]; exact ⟨_, rfl⟩
  | tbld => dsimp only [exec, execTbld, laneWord, regWord, onceWord]; exact ⟨_, rfl⟩
  | cvt => dsimp only [exec, execCvt, laneWord, regWord, onceWord]; exact ⟨_, rfl⟩
  | cvtq => dsimp only [exec, execCvtq, laneWord, regWord, onceWord]; exact ⟨_, rfl⟩
  | cvtd => dsimp only [exec, execCvtd, laneWord, regWord, onceWord]; exact ⟨_, rfl⟩
  | xlane => dsimp only [exec, execXlane, laneWord, regWord, onceWord]; exact ⟨_, rfl⟩
  | qx => dsimp only [exec, execQx, laneWord, regWord, onceWord]; exact ⟨_, rfl⟩
  | vote => dsimp only [exec, execVote, laneWord, regWord, onceWord]; exact ⟨_, rfl⟩
  | ballot => dsimp only [exec, execBallot, laneWord, regWord, onceWord]; exact ⟨_, rfl⟩
  | matchLanes => dsimp only [exec, execMatchLanes, laneWord, regWord, onceWord]; exact ⟨_, rfl⟩
  | redux => dsimp only [exec, execRedux, laneWord, regWord, onceWord]; exact ⟨_, rfl⟩
  | v2s => dsimp only [exec, execV2s, laneWord, regWord, onceWord]; exact ⟨_, rfl⟩
  | mask => dsimp only [exec, execMask, laneWord, regWord, onceWord]; exact ⟨_, rfl⟩
  | bra => dsimp only [exec, execBra, laneWord, regWord, onceWord]; exact ⟨_, rfl⟩
  | brx => dsimp only [exec, execBrx, laneWord, regWord, onceWord]; exact ⟨_, rfl⟩
  | call => dsimp only [exec, execCall, laneWord, regWord, onceWord]; exact ⟨_, rfl⟩
  | callx => dsimp only [exec, execCallx, laneWord, regWord, onceWord]; exact ⟨_, rfl⟩
  | ret => dsimp only [exec, execRet, laneWord, regWord, onceWord]; exact ⟨_, rfl⟩
  | enrol => dsimp only [exec, execEnrol, laneWord, regWord, onceWord]; exact ⟨_, rfl⟩
  | rejoin => dsimp only [exec, execRejoin, laneWord, regWord, onceWord]; exact ⟨_, rfl⟩
  | strike => dsimp only [exec, execStrike, laneWord, regWord, onceWord]; exact ⟨_, rfl⟩
  | exit => dsimp only [exec, execExit, laneWord, regWord, onceWord]; exact ⟨_, rfl⟩
  | wait => dsimp only [exec, execWait, laneWord, regWord, onceWord]; exact ⟨_, rfl⟩
  | yield => dsimp only [exec, execYield, laneWord, regWord, onceWord]; exact ⟨_, rfl⟩
  | safept => dsimp only [exec, execSafept, laneWord, regWord, onceWord]; exact ⟨_, rfl⟩
  | brk => dsimp only [exec, execBrk, laneWord, regWord, onceWord]; exact ⟨_, rfl⟩
  | nap => dsimp only [exec, execNap, laneWord, regWord, onceWord]; exact ⟨_, rfl⟩
  | trap => dsimp only [exec, execTrap, laneWord, regWord, onceWord]; exact ⟨_, rfl⟩
  | eret => dsimp only [exec, execEret, laneWord, regWord, onceWord]; exact ⟨_, rfl⟩
  | ld => dsimp only [exec, execLd, laneWord, regWord, onceWord]; exact ⟨_, rfl⟩
  | st => dsimp only [exec, execSt, laneWord, regWord, onceWord]; exact ⟨_, rfl⟩
  | lds => dsimp only [exec, execLds, laneWord, regWord, onceWord]; exact ⟨_, rfl⟩
  | sts => dsimp only [exec, execSts, laneWord, regWord, onceWord]; exact ⟨_, rfl⟩
  | ldc => dsimp only [exec, execLdc, laneWord, regWord, onceWord]; exact ⟨_, rfl⟩
  | ldfe => dsimp only [exec, execLdfe, laneWord, regWord, onceWord]; exact ⟨_, rfl⟩
  | stfe => dsimp only [exec, execStfe, laneWord, regWord, onceWord]; exact ⟨_, rfl⟩
  | ldp => dsimp only [exec, execLdp, laneWord, regWord, onceWord]; exact ⟨_, rfl⟩
  | stp => dsimp only [exec, execStp, laneWord, regWord, onceWord]; exact ⟨_, rfl⟩
  | pref => dsimp only [exec, execPref, laneWord, regWord, onceWord]; exact ⟨_, rfl⟩
  | flushH => dsimp only [exec, execFlushH, laneWord, regWord, onceWord]; exact ⟨_, rfl⟩
  | invalH => dsimp only [exec, execInvalH, laneWord, regWord, onceWord]; exact ⟨_, rfl⟩
  | atom => dsimp only [exec, execAtom, laneWord, regWord, onceWord]; exact ⟨_, rfl⟩
  | atomc => dsimp only [exec, execAtomc, laneWord, regWord, onceWord]; exact ⟨_, rfl⟩
  | red => dsimp only [exec, execRed, laneWord, regWord, onceWord]; exact ⟨_, rfl⟩
  | mcas => dsimp only [exec, execMcas, laneWord, regWord, onceWord]; exact ⟨_, rfl⟩
  | fence => dsimp only [exec, execFence, laneWord, regWord, onceWord]; exact ⟨_, rfl⟩
  | binit => dsimp only [exec, execBinit, laneWord, regWord, onceWord]; exact ⟨_, rfl⟩
  | arrive => dsimp only [exec, execArrive, laneWord, regWord, onceWord]; exact ⟨_, rfl⟩
  | bwait => dsimp only [exec, execBwait, laneWord, regWord, onceWord]; exact ⟨_, rfl⟩
  | bdrop => dsimp only [exec, execBdrop, laneWord, regWord, onceWord]; exact ⟨_, rfl⟩
  | bsync => dsimp only [exec, execBsync, laneWord, regWord, onceWord]; exact ⟨_, rfl⟩
  | btest => dsimp only [exec, execBtest, laneWord, regWord, onceWord]; exact ⟨_, rfl⟩
  | mfmt => dsimp only [exec, execMfmt, laneWord, regWord, onceWord]; exact ⟨_, rfl⟩
  | mzero => dsimp only [exec, execMzero, laneWord, regWord, onceWord]; exact ⟨_, rfl⟩
  | mma => dsimp only [exec, execMma, laneWord, regWord, onceWord]; exact ⟨_, rfl⟩
  | mmap => dsimp only [exec, execMmap, laneWord, regWord, onceWord]; exact ⟨_, rfl⟩
  | mdrn => dsimp only [exec, execMdrn, laneWord, regWord, onceWord]; exact ⟨_, rfl⟩
  | mlda => dsimp only [exec, execMlda, laneWord, regWord, onceWord]; exact ⟨_, rfl⟩
  | mvec => dsimp only [exec, execMvec, laneWord, regWord, onceWord]; exact ⟨_, rfl⟩
  | tcpy => dsimp only [exec, execTcpy, laneWord, regWord, onceWord]; exact ⟨_, rfl⟩
  | gath => dsimp only [exec, execGath, laneWord, regWord, onceWord]; exact ⟨_, rfl⟩
  | scat => dsimp only [exec, execScat, laneWord, regWord, onceWord]; exact ⟨_, rfl⟩
  | fill => dsimp only [exec, execFill, laneWord, regWord, onceWord]; exact ⟨_, rfl⟩
  | coll => dsimp only [exec, execColl, laneWord, regWord, onceWord]; exact ⟨_, rfl⟩
  | cbw => dsimp only [exec, execCbw, laneWord, regWord, onceWord]; exact ⟨_, rfl⟩
  | cbc => dsimp only [exec, execCbc, laneWord, regWord, onceWord]; exact ⟨_, rfl⟩
  | cba => dsimp only [exec, execCba, laneWord, regWord, onceWord]; exact ⟨_, rfl⟩
  | cld => dsimp only [exec, execCld, laneWord, regWord, onceWord]; exact ⟨_, rfl⟩
  | peal => dsimp only [exec, execPeal, laneWord, regWord, onceWord]; exact ⟨_, rfl⟩
  | pfence => dsimp only [exec, execPfence, laneWord, regWord, onceWord]; exact ⟨_, rfl⟩
  | launch => dsimp only [exec, execLaunch, laneWord, regWord, onceWord]; exact ⟨_, rfl⟩
  | qpush => dsimp only [exec, execQpush, laneWord, regWord, onceWord]; exact ⟨_, rfl⟩
  | cont => dsimp only [exec, execCont, laneWord, regWord, onceWord]; exact ⟨_, rfl⟩
  | cbpt => dsimp only [exec, execCbpt, laneWord, regWord, onceWord]; exact ⟨_, rfl⟩
  | csrr => dsimp only [exec, execCsrr, laneWord, regWord, onceWord]; exact ⟨_, rfl⟩
  | csrw => dsimp only [exec, execCsrw, laneWord, regWord, onceWord]; exact ⟨_, rfl⟩
  | csrx => dsimp only [exec, execCsrx, laneWord, regWord, onceWord]; exact ⟨_, rfl⟩
  | pair => dsimp only [exec, execPair, laneWord, regWord, onceWord]; exact ⟨_, rfl⟩
  | movi => dsimp only [exec, execMovi, laneWord, regWord, onceWord]; exact ⟨_, rfl⟩
  | movh => dsimp only [exec, execMovh, laneWord, regWord, onceWord]; exact ⟨_, rfl⟩
  | addi => dsimp only [exec, execAddi, laneWord, regWord, onceWord]; exact ⟨_, rfl⟩
  | fmovi => dsimp only [exec, execFmovi, laneWord, regWord, onceWord]; exact ⟨_, rfl⟩
  | braL => dsimp only [exec, execBraL, laneWord, regWord, onceWord]; exact ⟨_, rfl⟩
  | callL => dsimp only [exec, execCallL, laneWord, regWord, onceWord]; exact ⟨_, rfl⟩
  | ldL => dsimp only [exec, execLdL, laneWord, regWord, onceWord]; exact ⟨_, rfl⟩
  | stL => dsimp only [exec, execStL, laneWord, regWord, onceWord]; exact ⟨_, rfl⟩
  | create => cases hw
  | bind => cases hw
  | preempt => cases hw
  | resume => cases hw
  | destroy => cases hw
  | setlimit => cases hw
  | qcreate => cases hw
  | qsuspend => cases hw
  | qresume => cases hw
  | qreset => cases hw
  | qretire => cases hw
  | inval => cases hw
  | faultdone => cases hw
  | pool => cases hw
  | retireok => cases hw
  | handler => cases hw
  | forward => cases hw
  | trapdone => cases hw
  | ldbind => cases hw
  | ldreset => cases hw
  | partition => cases hw
  | topology => cases hw
  | loopform => cases hw
  | checkpoint => cases hw
  | restore => cases hw
  | unbind => cases hw
  | bellTailWrite => cases hw
  | ringTailWrite => cases hw
  | ringHeadWrite => cases hw
  | ringDescriptorWrite => cases hw
  | feataccWrite => cases hw
  | ldctlWrite => cases hw
  | numericSettingWrite => cases hw
  | plimitWrite => cases hw
  | cctlRetrain => cases hw
  | cctlEnableWrite => cases hw
  | routeWrite => cases hw
  | registerWrite => cases hw
  | deviceReset => cases hw
  | powerLoss => cases hw
  | functionLevelReset => cases hw
  | hostCxlMemAccess => cases hw
  | hostSnoop => cases hw
  | spdmRequest => cases hw
  | firmwareImageLoad => cases hw
  | packetTake => cases hw
  | queueStarvationPromote => cases hw
  | packetComplete => cases hw
  | contDispatch => cases hw
  | blockPlace => cases hw
  | gridComplete => cases hw
  | groupEnterActive => cases hw
  | groupSwapOut => cases hw
  | noReadyTimeout => cases hw
  | yieldExpiry => cases hw
  | napExpiry => cases hw
  | registerLineFill => cases hw
  | loadComplete => cases hw
  | storeAck => cases hw
  | atomicPerform => cases hw
  | ldfeLaneComplete => cases hw
  | mcasLockGrant => cases hw
  | mcasCommit => cases hw
  | mcasLockBreak => cases hw
  | persistentRequest => cases hw
  | retRefillReturn => cases hw
  | tbldLoadComplete => cases hw
  | sageAllocService => cases hw
  | faultForward => cases hw
  | replayResolve => cases hw
  | fetchFaultServed => cases hw
  | ringEntryPost => cases hw
  | transferTake => cases hw
  | transferChunk => cases hw
  | transferPageMapped => cases hw
  | transferSignal => cases hw
  | entryGrant => cases hw
  | unitEstimate => cases hw
  | unitRefill => cases hw
  | passWindowEnd => cases hw
  | passComplete => cases hw
  | passFault => cases hw
  | passResume => cases hw
  | drainComplete => cases hw
  | mldaComplete => cases hw
  | mzeroComplete => cases hw
  | mvecComplete => cases hw
  | mfmtComplete => cases hw
  | numericWindowStart => cases hw
  | handlerEntry => cases hw
  | serviceComplete => cases hw
  | groupPark => cases hw
  | contextSaved => cases hw
  | drainLimitReached => cases hw
  | resumeBlockPlace => cases hw
  | uncorrectableError => cases hw
  | computeDieFailure => cases hw
  | selfTestInject => cases hw
  | bankDrop => cases hw
  | regionMigrate => cases hw
  | recordEnterSendQueue => cases hw
  | tokenArrive => cases hw
  | recordApply => cases hw
  | recordReturned => cases hw
  | frameCrcRetransmit => cases hw
  | loopBreakDetect => cases hw
  | generationClose => cases hw
  | ingressHoldExpiry => cases hw
  | readRequest => cases hw
  | readResponse => cases hw
  | write => cases hw
  | writeAcknowledgement => cases hw
  | collectiveData => cases hw
  | collectiveControl => cases hw
  | errorResponse => cases hw
  | flitRetry => cases hw
  | collStart => cases hw
  | collComplete => cases hw
  | trainingStart => cases hw
  | trainingAttemptEnd => cases hw
  | colourWindowEnd => cases hw
  | branchAlarm => cases hw
  | visibilityTimeReached => cases hw
  | wordFetchComplete => cases hw
  | flitAcknowledgement => cases hw
  | freeSlotReturn => cases hw
  | branchPowerRestored => cases hw
  | safeTierCopyComplete => cases hw

end Sys2Proof.Machine
end

