-- ==== Sys2Proof/Tests/Slice0.lean ====
section
/-! SUPPORT. Tests on fixed values: the worked encodings and worked examples of the spec, an ill-formed term for each check of
WellFormed, and for every statement a state that meets its hypotheses. -/

namespace Sys2Proof.Tests
open Sys2Proof.Machine Sys2Proof.Safety Sys2Proof.Claims

set_option maxRecDepth 100000
set_option Elab.async false
set_option maxErrors 2000

/-! ## The worked encodings of the spec -/

/-- The guard pt. -/
def gd : Guard := ⟨7, false⟩
def noOrd : Order := ⟨false, false, .grp⟩

-- `?p0 ADD.s32 v1, v2, v3` and `ADD.s32 v5, s4, -1` (03_instruction_word.md)
theorem test_word_add : decodeTableWord 64 0x008004080C000000 = some (.add .s32 false ⟨⟨0, false⟩, .v 1, .v 2, .v 3⟩) := by decide
theorem test_word_add_imm : decodeTableWord 64 0x00B81413FFFE0001 = some (.add .s32 false ⟨gd, .v 5, .s 4, .imm 0xFFFF⟩) := by decide
-- `ADD v1, v2 || FMUL v8, v9` and `FMOVI v7, 1.0` (03_instruction_word.md)
theorem test_word_pair : decodeTableWord 64 0x420102E0241013C0 =
    some (.pair ⟨7, .add, 1, .v 2⟩ ⟨7, .fmul (.mode 0), 8, .v 9⟩) := by decide
theorem test_word_fmovi : decodeTableWord 64 0x8307E0003F800000 = some (.fmovi gd (.v 7) 0x3F800000) := by decide
-- `SAFEPT #3`, `CSRW fp.mode, s3`, `CSRR s5, ctx.sp_count` (05_context.md)
theorem test_word_safept : decodeTableWord 64 0x16F80000000E0000 = some (.safept 3) := by decide
theorem test_word_csrw : decodeTableWord 64 0x3078000C00020001 = some (.csrw gd .fpMode 3) := by decide
theorem test_word_csrr : decodeTableWord 64 0x30381400040A0008 = some (.csrr gd (.s 5) .spCount) := by decide
-- `QPUSH.wait s4, [s10], s12`, `CONT v8, #3` (06_queue.md); `LAUNCH s6, [s20], s3` (07_kernel.md)
theorem test_word_qpush : decodeTableWord 64 0x2DF810283000100B = some (.qpush true gd 4 10 12) := by decide
theorem test_word_cont : decodeTableWord 64 0x2E380020000E0000 = some (.cont gd 8 3) := by decide
theorem test_word_launch : decodeTableWord 64 0x2DB818500C00000B = some (.launch false gd 6 20 3) := by decide
-- `CALL fn, s8`, `ENROL j2, join`, `WAIT ld=0, mx=1`, `XLANE.flip v1, v2, 1` (08_group.md)
theorem test_word_call : decodeTableWord 64 0x14B8000000140080 = some (.call gd 5 8) := by decide
theorem test_word_enrol : decodeTableWord 64 0x15780800001A0000 = some (.enrol gd 2 6) := by decide
theorem test_word_wait : decodeTableWord 64 0x167800FCFC0403F0 = some (.wait 0 63 63 1 63) := by decide
theorem test_word_xlane : decodeTableWord 64 0x1038040800063000 = some (.xlane .flip false false gd 1 2 (.imm 1) none) := by decide
-- `MAD.wide.n32 v10, v2, v3, v12`, `BOOL3 v1, v2, v3, v4, 0x96`, `ISET.lt.s32 p1, v4, s7`, `RDS s2, sr.groupid` (09_thread_integer.md)
theorem test_word_mad : decodeTableWord 64 0x01B828080C309000 = some (.mad .n32 false true ⟨gd, .v 10, .v 2, .v 3, .v 12⟩) := by decide
theorem test_word_bool3 : decodeTableWord 64 0x03B804080C100960 = some (.bool3 false 0x96 ⟨gd, .v 1, .v 2, .v 3, .v 4⟩) := by decide
theorem test_word_iset : decodeTableWord 64 0x063804101C008012 = some (.iset .lt .s32 gd (.p 1) (.v 4) (.s 7)) := by decide
theorem test_word_rds : decodeTableWord 64 0x07B80800000A0008 = some (.rds false gd (.s 2) .groupid) := by decide
-- `FMA.rz v8, v1, v2, v3`, `CVT.e4m3.f32.rn.sat v5.e2, v2`, `CVTQ.scale.b16.e2m1 v5, v3`, `TBL v9, v8, s10` (10_thread_float.md)
theorem test_word_fma : decodeTableWord 64 0x08B82004080C00A0 = some (.fma .rz false ⟨gd, .v 8, .v 1, .v 2, .v 3⟩) := by decide
theorem test_word_cvt : decodeTableWord 64 0x0E781408C0400180 = some (.cvt .e4m3 .f32 0 2 .rn false true gd (.v 5) (.v 2)) := by decide
theorem test_word_cvtq : decodeTableWord 64 0x0EB8140C00009000 =
    some (.cvtq .e2m1 false true false (.mode 0) false 0 gd 5 3) := by decide
theorem test_word_tbl : decodeTableWord 64 0x0DF8242028000002 = some (.tbl gd 9 8 10) := by decide
-- `ARRIVE s4, blk.1`, `BINIT s6, cls.1, s7` (11_barrier.md)
theorem test_word_arrive : decodeTableWord 64 0x2078100004000008 = some (.arrive 4 ⟨.blk, 1⟩) := by decide
theorem test_word_binit : decodeTableWord 64 0x2038181D04000009 = some (.binit 6 ⟨.cls, 1⟩ 7) := by decide
-- `LD.b64 v10, [v4 + 16]`, `ST.rel.pkg.b32 v9, [v6 + s3]`, `LDFE.clr.b32 v2, [s8 + 0x40]`, `ATOM.add.s64 v20, [v4], v6`,
-- `MCAS v1, [s4], 2`, `LDP #5, [s10]` (12_line.md); `FENCE.acq.pod` (13_line_order.md)
theorem test_word_ld : decodeTableWord 64 0x1838281000425000 = some (.ld .b64 noOrd false gd (.v 10) ⟨.v 4, .imm 16⟩) := by decide
theorem test_word_st : decodeTableWord 64 0x187824180C004132 =
    some (.st .b32 ⟨false, true, .pkg⟩ false gd 9 ⟨.v 6, .s 3⟩) := by decide
theorem test_word_ldfe : decodeTableWord 64 0x197808200102C001 =
    some (.ldfe true false .b32 noOrd gd (.v 2) ⟨.s 8, .imm 0x40⟩) := by decide
-- the worked word of `ATOM` puts b and c at other bits than R37 does; the fields stand here where R37 has them (log entry 35)
theorem test_word_atom : decodeTableWord 64 (0x6C * 2 ^ 54 + 7 * 2 ^ 51 + 20 * 2 ^ 42 + 4 * 2 ^ 34 + 255 * 2 ^ 26 + 6 * 2 ^ 18 + 2 ^ 16) =
    some (.atom .add .s64 noOrd gd (.v 20) ⟨.v 4, .v 255⟩ (.v 6)) := by decide
theorem test_word_mcas : decodeTableWord 64 0x1BF80410000A0001 = some (.mcas noOrd gd (.v 1) (.s 4) (.imm 2)) := by decide
theorem test_word_ldp : decodeTableWord 64 0x19F8002800160001 = some (.ldp gd 10 (.imm 5)) := by decide
theorem test_word_fence : decodeTableWord 64 0x1C380000000000C0 = some (.fence ⟨true, false, .pod⟩ gd) := by decide
-- `MMA a2, s4, s6, s8, mf1`, `MVEC.r.x4 v8, a2, s5` (14_tile.md); `GATH [s10]` (15_transfer.md)
theorem test_word_mma : decodeTableWord 64 0x22B8081018200017 = some (.mma ⟨2, 4, 6, 8, 1, false⟩) := by decide
theorem test_word_mvec : decodeTableWord 64 0x23B820001408C002 = some (.mvec false false 3 8 5 2) := by decide
theorem test_word_gath : decodeTableWord 64 0x2878002800000001 = some (.gath gd 10) := by decide
-- `TRAP #0x42`, `ERET.x v10, s20, s22` (17_trap.md); `CBC.b64 s8, [s4], s12, s14` (18_record.md); `COLL [s10]` (19_link.md);
-- `CBPT.rel.l1 s20, [s4], s6` (16_page.md)
theorem test_word_trap : decodeTableWord 64 0x17B80000010A0000 = some (.trap gd 0x42) := by decide
theorem test_word_eret : decodeTableWord 64 0x17F8002850582006 = some (.eret false (.x 10 20 22)) := by decide
theorem test_word_cbc : decodeTableWord 64 0x2C7820103038500F = some (.cbc true false gd 8 4 12 14) := by decide
theorem test_word_coll : decodeTableWord 64 0x2938002800000001 = some (.coll gd 10) := by decide
theorem test_word_cbpt : decodeTableWord 64 0x2E7850101800101B = some (.cbpt 1 true gd 20 4 6) := by decide
-- the long and 32-bit immediate forms, laid out by R50 and R51
theorem test_word_movh : decodeTableWord 64 (2 * 2 ^ 62 + 1 * 2 ^ 56 + 6 * 2 ^ 48 + 7 * 2 ^ 45 + 0xAABBCCDD) =
    some (.movh gd (.v 6) 0xAABBCCDD) := by decide
-- the words are encoded back from the same fields
theorem test_encode_mad : encode (.mad .n32 false true ⟨gd, .v 10, .v 2, .v 3, .v 12⟩) = some 0x01B828080C309000 := by decide
theorem test_encode_call : encode (.call gd 0xFFFFFD 8) = some 0x14B803FFFFF40080 := by decide
-- a slot that names a scalar the operation cannot take, an unassigned form, op and special register (R43, R45, R49, R176)
theorem test_word_form11 : decodeTableWord 64 (3 * 2 ^ 62) = none := by decide
theorem test_word_reserved_fn : decodeTableWord 64 (0x02 * 2 ^ 54 + 7 * 2 ^ 51 + 2 ^ 15) = none := by decide
theorem test_word_rds_hole : decodeTableWord 64 (0x1E * 2 ^ 54 + 7 * 2 ^ 51 + 7 * 2 ^ 18 + 2 ^ 17) = none := by decide

/-! ## Each check of WellFormed refuses an ill-formed term -/

def illFormed : List Instr :=
  [.add .s64 false ⟨gd, .v 3, .v 4, .v 6⟩, .add .s64 false ⟨gd, .v 4, .v 3, .v 6⟩, .add .s64 false ⟨gd, .v 4, .v 2, .s 7⟩,
   .mov true ⟨gd, .s 61, .s 2⟩, .mov false ⟨gd, .s 1, .v 2⟩, .abs false false ⟨gd, .v 1, .imm 3⟩,
   .add .s32 false ⟨gd, .v 1, .imm 3, .v 2⟩, .add .s32 false ⟨gd, .s 1, .s 2, .v 3⟩, .mulh .s64 true ⟨gd, .v 2, .v 4, .v 6⟩,
   .mad .s32 false false ⟨gd, .v 1, .v 2, .imm 3, .imm 0⟩, .bool3 false 0 ⟨gd, .v 1, .v 2, .imm 3, .v 4⟩,
   .bool3 false 0 ⟨gd, .v 1, .v 2, .imm 3, .imm 1⟩, .xtr true ⟨gd, .v 1, .v 2, .imm 3, .imm 0⟩,
   .iset .eq .s32 gd (.r (.v 1)) (.imm 1) (.v 2), .iset .eq .s64 gd (.p 1) (.v 1) (.v 2), .iset .eq .s32 gd (.r (.s 1)) (.v 1) (.s 2),
   .lea true 0 ⟨gd, .v 2, .v 4, .imm 1⟩, .pmov gd (.tos 3 1), .pmov gd (.froms 1 5), .rds true gd (.v 2) .groupid,
   .rds true gd (.v 3) .timebase, .rds false gd (.s 2) .laneid, .fset .eq gd (.r (.s 1)) (.v 1) (.s 2),
   .pkadd false .rn false ⟨gd, .s 1, .s 2, .s 3⟩, .frcp ⟨gd, .v 1, .imm 2⟩, .tbl gd 1 2 3, .tbld gd 1 3]
theorem test_illformed_compute : illFormed.map Instr.wf = illFormed.map (fun _ => false) := by decide

def illFormedMore : List Instr :=
  [.cvt .e4m3 .f32 1 0 .rn false false gd (.v 1) (.v 2), .cvt .e4m3 .f32 0 4 .rn false false gd (.v 1) (.v 2),
   .cvt .s64 .f32 0 0 .rn false false gd (.v 1) (.v 2), .cvt .f32 .s64 0 0 .rn false false gd (.v 1) (.v 3),
   .cvt .f32 .s32 0 0 .rn false false gd (.s 1) (.v 3), .cvt .f16 .f32 0 0 (.mode 0) true false gd (.v 1) (.v 3),
   .cvt .s8 .f32 0 0 .rn true false gd (.v 1) (.v 3), .cvtq .int false true false .rn false 1 gd 1 2,
   .cvtq .int false false true .rn false 1 gd 1 2, .cvtd .f32 .rn false 0 true gd 1 2 (.v 3),
   .xlane .at false true gd 1 2 (.v 3) none, .xlane .at false false gd 1 2 (.v 3) (some 5), .xlane .at false false gd 1 2 (.imm 64) none,
   .xlane .at false false gd 1 2 (.imm 3) (some 4), .qx .h true gd 1 2, .vote .all gd 1 2 (some 7), .ballot gd (.v 3) 1 none,
   .ballot gd (.s 4) 1 (some 2), .matchLanes false gd 3 2, .redux .and .f32 .rn gd (.v 1) 2 none, .redux .add .s32 .rn gd (.v 1) 2 none,
   .redux .add .s32 (.mode 0) gd (.s 1) 2 (some 4), .v2s true gd 3 2 none, .v2s false gd 2 2 (some (.imm 256)), .v2s false gd 2 2 (some (.v 1)),
   .mask .lt gd (.s 2) 0, .mask .frag gd (.s 2) 1, .brx gd (.v 3), .call gd 0 7, .ret gd 7, .yield false 3, .nap (.v 1),
   .eret false (.x 3 2 2)]
theorem test_illformed_lanes : illFormedMore.map Instr.wf = illFormedMore.map (fun _ => false) := by decide

def illFormedMem : List Instr :=
  [.ld .b32 ⟨false, true, .pkg⟩ false gd (.v 1) ⟨.v 2, .imm 0⟩, .ld .b32 ⟨false, false, .pkg⟩ false gd (.v 1) ⟨.v 2, .imm 0⟩,
   .ld .b64 noOrd false gd (.v 1) ⟨.v 2, .imm 0⟩, .ld .b128 noOrd false gd (.v 2) ⟨.v 2, .imm 0⟩, .ld .b32 noOrd false gd (.v 1) ⟨.v 3, .imm 0⟩,
   .ld .b32 noOrd false gd (.s 1) ⟨.v 2, .imm 0⟩, .ld .b32 noOrd false gd (.s 1) ⟨.s 2, .v 3⟩, .st .s8 noOrd false gd 1 ⟨.v 2, .imm 0⟩,
   .st .b32 ⟨true, false, .pkg⟩ false gd 1 ⟨.v 2, .imm 0⟩, .ldfe false true .b32 ⟨true, false, .pkg⟩ gd (.v 1) ⟨.v 2, .imm 0⟩,
   .ldfe false false .n8 noOrd gd (.v 1) ⟨.v 2, .imm 0⟩, .ldp gd 3 (.imm 0), .ldp gd 2 (.v 0), .pref true false gd ⟨.v 1, .imm 0⟩,
   .atom .add .s32 noOrd gd (.v 1) ⟨.v 2, .imm 0⟩ (.v 3), .atom .min .f32 noOrd gd (.v 1) ⟨.v 2, .v 3⟩ (.v 3),
   .atom .add .s64 noOrd gd (.v 2) ⟨.v 2, .v 3⟩ (.v 3), .atom .add .s32 noOrd gd (.s 2) ⟨.s 2, .s 3⟩ (.v 3),
   .atomc .n8 noOrd gd (.v 1) (.v 2) (.v 3) (.v 4), .atomc .b64 noOrd gd (.v 2) (.v 2) (.v 3) (.v 4),
   .red .add .s64 noOrd gd 3 ⟨.v 2, .imm 0⟩, .mcas noOrd gd (.v 1) (.v 2) (.imm 9), .mcas noOrd gd (.v 1) (.v 2) (.imm 0),
   .fence noOrd gd, .binit 1 ⟨.grd, 0⟩ 2, .arrive 1 ⟨.cls, 4⟩, .arrive 1 ⟨.blk, 16⟩, .mfmt 1 1 63, .mzero 6,
   .mma ⟨0, 2, 4, 63, 0, false⟩, .mma ⟨6, 2, 4, 6, 0, false⟩, .mlda 0 3, .mvec false false 3 253 0 0, .tcpy gd 3,
   .cbw .s8 false gd 2 2 2, .cbw .b64 false gd 2 2 3, .cbc true false gd 2 2 4 6, .cba true false gd 4 2 3, .peal false gd 3, .pfence gd 3,
   .launch false gd 1 3 1, .cont gd 2 1, .cbpt 3 false gd 2 4 6, .movh gd (.v 3) 0, .addi true gd (.v 3) 0,
   .ldL .b128 gd (.v 4) 2 0, .stL .s8 gd (.v 4) 2 0]
theorem test_illformed_memory : illFormedMem.map Instr.wf = illFormedMem.map (fun _ => false) := by decide

-- a pair for each rule of R48, and for the slots' own fields
theorem test_illformed_pair1 : pairRule ⟨7, .mov, 1, .v 2⟩ ⟨7, .mov, 5, .v 3⟩ = some 1 := by decide
theorem test_illformed_pair2 : pairRule ⟨7, .add, 1, .v 5⟩ ⟨7, .iset .eq false, 2, .v 9⟩ = none ∧
    pairRule ⟨7, .st, 1, .v 4⟩ ⟨7, .add64, 4, .v 8⟩ = some 2 := by decide
theorem test_illformed_pair3 : pairRule ⟨7, .frcp, 1, .v 2⟩ ⟨7, .frsq, 4, .v 3⟩ = some 3 := by decide
theorem test_illformed_pair4 : pairRule ⟨7, .mov, 1, .v 2⟩ ⟨7, .mov, 4, .v 1⟩ = some 4 := by decide
theorem test_illformed_slots : [Instr.pair ⟨7, .nop, 1, .v 0⟩ ⟨7, .mov, 4, .v 1⟩, .pair ⟨7, .ld, 1, .v 3⟩ ⟨7, .mov, 4, .v 2⟩,
    .pair ⟨7, .add64, 3, .v 2⟩ ⟨7, .mov, 4, .v 2⟩, .pair ⟨7, .rds .laneid, 3, .s 2⟩ ⟨7, .mov, 4, .v 2⟩].map Instr.wf =
    [false, false, false, false] := by decide

/-! ## Small states -/

/-- All 32 lanes of the placed group, issuing. -/
def iss : Issue := ⟨3, 0xFFFFFFFF, 0x1000, 0, .none, 0⟩
/-- A kernel's first word is issuing: `State.withFetchWord` with its fragment in `cur`. -/
def base : State := { State.reset.withFetchWord 64 0 with cur := some iss }
def noGroup : Group := freshGroup (newGrid 0 0 none emptyDesc 1 1 1 0 none 0 []) 0 0 0 0 0 0 .active
/-- The placed group. -/
def gof (s : State) : Group := (s.grp 3).getD noGroup

/-- Change the placed group. -/
def upd (s : State) (f : Group → Group) : State := s.updGrp 3 f
/-- The same word in every lane of a vector register; a scalar register; a scalar pair; lane by lane. -/
def vall (n : Nat) (x : Word) (s : State) : State := upd s (fun g => { g with v := (List.range 32).foldl (fun v l => v.set (n * 64 + l) x) g.v })
def vls (n : Nat) (xs : List Word) (s : State) : State := upd s (fun g => { g with v := (List.range xs.length).foldl (fun v l => v.set (n * 64 + l) (xs.getD l 0)) g.v })
def sreg (n : Nat) (x : Word) (s : State) : State := upd s (fun g => { g with s := g.s.set n x })
def spair (n : Nat) (x : Nat) (s : State) : State := sreg (n + 1) (BitVec.ofNat 32 (x / 2 ^ 32)) (sreg n (BitVec.ofNat 32 x) s)
def preg (n : Nat) (m : Mask) (s : State) : State := upd s (fun g => { g with p := g.p.set n m })
def mode (x : Word) (s : State) : State := upd s (fun g => { g with fpMode := x })

/-- What a word leaves in the placed group. -/
def after (i : Instr) (s : State) : Option Group :=
  match exec i s with
  | .next t => t.grp 3
  | _ => none
/-- Register n of a lane afterwards; a scalar register; the flags. -/
def vAt (i : Instr) (s : State) (n l : Nat) : Option Word := (after i s).map (fun g => g.rv n l)
def sAt (i : Instr) (s : State) (n : Nat) : Option Word := (after i s).map (fun g => g.rs n)
def flagsAt (i : Instr) (s : State) : Option Word := (after i s).map (·.fpFlags)

/-- p1 is true in lane 0 alone, which holds a in v1 and b in v2. -/
def two (a b : Word) : State := vls 2 [b] (vls 1 [a] (preg 1 1 base))
def l0 : Guard := ⟨1, false⟩
/-- d = v3, a = v1, b = v2, in lane 0. -/
def o2 : Op2 := ⟨l0, .v 3, .v 1, .v 2⟩

/-! ## The worked values of the spec -/

-- the table of integer limits under R167
theorem test_add_wraps : vAt (.add .s32 false o2) (two 0x7FFFFFFF 1) 3 0 = some 0x80000000 := by decide
theorem test_add_sat : vAt (.add .s32 true o2) (two 0x7FFFFFFF 1) 3 0 = some 0x7FFFFFFF := by decide
theorem test_sub_sat_n32 : vAt (.sub .n32 true o2) (two 3 5) 3 0 = some 0 := by decide
theorem test_mulh_s32 : vAt (.mulh .s32 false o2) (two 0x80000000 2) 3 0 = some 0xFFFFFFFF := by decide
theorem test_mulh_n32 : vAt (.mulh .n32 false o2) (two 0x80000000 2) 3 0 = some 1 := by decide
theorem test_div_truncates : vAt (.div .s32 false o2) (two (-7) 2) 3 0 = some 0xFFFFFFFD := by decide
theorem test_div_rem : vAt (.div .s32 true o2) (two (-7) 2) 3 0 = some 0xFFFFFFFF := by decide
theorem test_div_zero : vAt (.div .n32 false o2) (two 9 0) 3 0 = some 0xFFFFFFFF ∧ vAt (.div .n32 true o2) (two 9 0) 3 0 = some 9 := by decide
theorem test_div_least : vAt (.div .s32 false o2) (two 0x80000000 (-1)) 3 0 = some 0x80000000 := by decide
theorem test_abs : vAt (.abs false false ⟨l0, .v 3, .v 1⟩) (two 0x80000000 0) 3 0 = some 0x80000000 ∧
    vAt (.abs false true ⟨l0, .v 3, .v 1⟩) (two 0x80000000 0) 3 0 = some 0x7FFFFFFF := by decide
-- `MAD.wide.n32 v10, v2, v3, v12` with v2 = 0xFFFF_FFFF, v3 = 2, v12:v13 = 0x1_0000_0000 (09_thread_integer.md)
theorem test_mad_wide : vAt (.mad .n32 false true ⟨l0, .v 10, .v 2, .v 3, .v 12⟩)
      (vls 13 [1] (vls 3 [2] (two 0 0xFFFFFFFF))) 10 0 = some 0xFFFFFFFE ∧
    vAt (.mad .n32 false true ⟨l0, .v 10, .v 2, .v 3, .v 12⟩) (vls 13 [1] (vls 3 [2] (two 0 0xFFFFFFFF))) 11 0 = some 2 := by decide
-- the examples of R170, R171, R175 and the majority table of R168
theorem test_bfx : vAt (.bfx true false ⟨l0, .v 3, .v 1, .imm 0x0804⟩) (two 0xAF0 0) 3 0 = some 0xFFFFFFAF ∧
    vAt (.bfx false false ⟨l0, .v 3, .v 1, .imm 0x0804⟩) (two 0xAF0 0) 3 0 = some 0xAF := by decide
theorem test_bytsel : vAt (.bytsel ⟨l0, .v 3, .v 1, .imm 0x053, .imm 0⟩) (two 0x88442211 0) 3 0 = some 0x11224488 ∧
    vAt (.bytsel ⟨l0, .v 3, .v 1, .imm 0x1003, .imm 0⟩) (two 0x88442211 0) 3 0 = some 0x111111FF := by decide
theorem test_idp4 : vAt (.idp4 true false false false ⟨l0, .v 3, .v 1, .v 2, .v 4⟩) (vls 4 [10] (two 0xFF020380 0x04050607)) 3 0 =
    some 0xFFFFFCA2 := by decide
theorem test_bool3_majority : vAt (.bool3 false 0xE8 ⟨l0, .v 3, .v 1, .v 2, .v 4⟩) (vls 4 [0xF0] (two 0xCC 0xAA)) 3 0 = some 0xE8 := by decide
-- shifts by the width (R169)
theorem test_shl_width : vAt (.shl false false o2) (two 5 32) 3 0 = some 0 ∧ vAt (.shl true false o2) (two 5 33) 3 0 = some 10 := by decide
theorem test_sar_width : vAt (.sar false false o2) (two 0x80000000 40) 3 0 = some 0xFFFFFFFF := by decide
-- a destination that is also a source, and a lane whose guard is false (R41, R162)
theorem test_guard : vAt (.sub .s32 false ⟨l0, .v 1, .v 2, .v 1⟩) (vls 2 [10, 10] (vls 1 [3, 3] (preg 1 2 base))) 1 1 = some 7 ∧
    vAt (.sub .s32 false ⟨l0, .v 1, .v 2, .v 1⟩) (vls 2 [10, 10] (vls 1 [3, 3] (preg 1 2 base))) 1 0 = some 3 := by decide
-- a scalar destination takes the lowest executing lane (R39); vz reads 0 (R38)
theorem test_vz : vAt (.add .s32 false ⟨l0, .v 255, .v 1, .v 255⟩) (two 3 10) 255 0 = some 0 := by decide
theorem test_lea : vAt (.lea true 2 ⟨l0, .v 4, .s 8, .v 1⟩) (spair 8 0xFFFFFFFC (two 3 0)) 5 0 = some 1 ∧
    vAt (.lea true 2 ⟨l0, .v 4, .s 8, .v 1⟩) (spair 8 0xFFFFFFFC (two 3 0)) 4 0 = some 8 := by decide
theorem test_pmov_lop : (after (.pmov gd (.lop 3 1 2 7 0x80)) (preg 1 6 (preg 2 3 base))).map (fun g => (g.rp 3 1, g.rp 3 2)) =
    some (true, false) := by decide

-- the table of E4M3 roundings under R23
def cvtE4 (r : RndSel) (sat : Bool) : Instr := .cvt .e4m3 .f32 0 2 r false sat l0 (.v 5) (.v 2)
theorem test_cvt_rn : vAt (cvtE4 .rn true) (vls 5 [0x11223344] (two 0 0x43960000)) 5 0 = some 0x11793344 ∧
    flagsAt (cvtE4 .rn true) (two 0 0x43960000) = some 0x10 := by decide
theorem test_cvt_rp : vAt (cvtE4 .rp false) (two 0 0x43960000) 5 0 = some 0x7A0000 := by decide
theorem test_cvt_overflow : vAt (cvtE4 .rn false) (two 0 0x43FA0000) 5 0 = some 0x7F0000 ∧
    flagsAt (cvtE4 .rn false) (two 0 0x43FA0000) = some 0x12 ∧ vAt (cvtE4 .rn true) (two 0 0x43FA0000) 5 0 = some 0x7E0000 ∧
    flagsAt (cvtE4 .rn true) (two 0 0x43FA0000) = some 0x32 := by decide
theorem test_cvt_tie : vAt (cvtE4 .rn false) (two 0 0x3BA00000) 5 0 = some 0x020000 ∧
    flagsAt (cvtE4 .rn false) (two 0 0x3BA00000) = some 0x18 := by decide
-- the `.sr` example under R23: lane 0 with seed 1
theorem test_cvt_sr : (match exec (.csrw gd .fpSeed 3) (sreg 3 1 (two 0 0x43960000)) with
    | .next t => (after (.cvt .e4m3 .f32 0 0 (.mode 0) true false l0 (.v 5) (.v 2)) { t with cur := some { iss with pc := 0x1008 } }).map
        (fun g => (g.rv 5 0, (g.lane 0).rng))
    | _ => none) = some (0x7A, 0x51086638) := by decide
-- the block of R20 and R193: lanes 0, 4, 8, 13 of v4 and v5, and v6 from them
def x16 : List Word := [0x3DA00000, 0xBE900000, 0x3F300000, 0x3C800000, 0xBFBC0000, 0x3F900000, 0, 0x3F200000, 0xBE300000, 0x3F500000,
  0x3D800000, 0xBF100000, 0x3EE00000, 0xBD000000, 0x3FA00000, 0x3E600000]
def quant (scale : Bool) : Instr := .cvtq .e2m1 false scale false .rn false 0 gd 4 3
theorem test_cvtq_codes : (after (quant false) (vls 3 x16 base)).map (fun g => (List.range 16).map (fun l => (g.rv 4 l).toNat)) =
    some [1, 10, 5, 0, 15, 6, 0, 4, 9, 5, 0, 12, 4, 8, 6, 2] := by decide
theorem test_cvtq_scale : vAt (.cvtq .e2m1 false true false (.mode 0) false 0 gd 4 3) (vls 3 x16 base) 4 15 = some 0x5E := by decide
theorem test_cvtd : vAt (.cvtd .f32 .rn false 0 false l0 6 4 (.v 5)) (vls 5 [0x5E] (vls 4 [15] (two 0 0))) 6 0 = some 0xBFC00000 ∧
    vAt (.cvtd .f32 .rn false 0 false l0 6 4 (.v 5)) (vls 5 [0x5E] (vls 4 [8] (two 0 0))) 6 0 = some 0x80000000 := by decide
-- the reduction of R33: lanes 1, 3, 4, 9 and 12
theorem test_redux_tree : vAt (.redux .add .f32 .rn ⟨1, false⟩ (.v 5) 2 none)
    (preg 1 0x121A (vls 2 [0, 0x4B800000, 0, 0x3F800000, 0x3F800000, 0, 0, 0, 0, 0xCB800000, 0, 0, 0x40400000] base)) 5 1 =
    some 0x40800000 := by decide
-- the special operands of R182 to R184, R186
theorem test_fma_zero : vAt (.fma .rn false ⟨l0, .v 3, .v 1, .v 2, .v 4⟩) (vls 4 [0x80000000] (two 0 0x3F800000)) 3 0 = some 0 ∧
    vAt (.fma .rm false ⟨l0, .v 3, .v 1, .v 2, .v 4⟩) (vls 4 [0x80000000] (two 0 0x3F800000)) 3 0 = some 0x80000000 := by decide
theorem test_fdiv_zero : vAt (.fdiv .rn false o2) (two 0xBF800000 0) 3 0 = some 0xFF800000 ∧
    flagsAt (.fdiv .rn false o2) (two 0xBF800000 0) = some 4 := by decide
theorem test_fsqrt_negative : vAt (.fsqrt .rn ⟨l0, .v 3, .v 1⟩) (two 0xBF800000 0) 3 0 = some 0x7FC00000 ∧
    vAt (.fsqrt .rn ⟨l0, .v 3, .v 1⟩) (two 0x80000000 0) 3 0 = some 0x80000000 := by decide
theorem test_fmin_nan : vAt (.fmin o2) (two 0x7FC00000 0x40000000) 3 0 = some 0x40000000 ∧
    vAt (.fmin o2) (two 0 0x80000000) 3 0 = some 0x80000000 := by decide
theorem test_frnd : vAt (.frnd .rn ⟨l0, .v 3, .v 1⟩) (two 0xBE99999A 0) 3 0 = some 0x80000000 := by decide
theorem test_fclass : vAt (.fclass .f32 ⟨l0, .v 3, .v 1⟩) (two 0x7F800001 0) 3 0 = some 0x100 := by decide
theorem test_fadd_daz : vAt (.fadd .rn false o2) (mode 4 (two 1 0x3F800000)) 3 0 = some 0x3F800000 ∧
    flagsAt (.fadd .rn false o2) (mode 4 (two 1 0x3F800000)) = some 0x40 := by decide
-- the exact cases of the transcendentals (R188, R189)
theorem test_frcp_exact : vAt (.frcp ⟨l0, .v 3, .v 1⟩) (two 0x40000000 0) 3 0 = some 0x3F000000 := by decide
theorem test_fex2_integer : vAt (.fex2 ⟨l0, .v 3, .v 1⟩) (two 0x40400000 0) 3 0 = some 0x41000000 := by decide
-- the interpolation of R196
def tbl137 : State := { spair 10 0x2000 (vls 8 [0x3E99999A] (two 0 0)) with cores := [(0, { emptyCore with
  tag0 := some (0, 0x2000), img0 := [(0, 0xC0800000), (1, 0x42000000), (290, 0x3E800000), (291, 0x3F000000)] })] }
theorem test_tbl : vAt (.tbl l0 9 8 10) tbl137 9 0 = some 0x3F0CCD00 ∧ flagsAt (.tbl l0 9 8 10) tbl137 = some 0 := by decide
-- a barrier token (R203) and `BTEST` of a phase that has ended (11_barrier.md)
theorem test_arrive_token : sAt (.arrive 4 ⟨.blk, 1⟩) base 4 = some 0x01000000 := by decide
-- the walk of 16_page.md
def walkMem (leaf : Nat) : List Host.Cell :=
  [(0x100000000, 0x100001005), (0x100001000, 0x100002005), (0x100002800, 0x100003005), (0x100003488, leaf)].foldl
    (fun m (e : Nat × Nat) => Memory.write m e.1 (leBytes 8 e.2)) []
def walk4 (leaf : Nat) : State := { base.updCtx 0 (fun c => { c with root := 0x100000000 }) with mem := walkMem leaf }
theorem test_walk : (match ((walk4 0x1234400009).xlat 0 0x4012345678 .write).1 with | .ok p => some p | _ => none) =
    some (.dev 0x1234545678) := by decide
theorem test_walk_no_write : (match ((walk4 0x1234400001).xlat 0 0x4012345678 .write).1 with | .fault k _ => some k | _ => none) =
    some 1 := by decide
theorem test_walk_malformed : (match ((walk4 0x1234500009).xlat 0 0x4012345678 .write).1 with | .bad => true | _ => false) =
    true := by decide
-- branches, rejoin masks and the divergence of lanes (R153, R138)
theorem test_bra : (after (.bra ⟨1, false⟩ 0xFFFFFE) (preg 1 1 base)).map (fun g => ((g.lane 0).pc, (g.lane 1).pc)) = some (0xFF0, 0x1008) := by decide
theorem test_enrol : (after (.enrol gd 2 6) base).map (fun g => SMap.getD g.j 2 (0, 0)) = some (0xFFFFFFFF, 0x1030) := by decide
-- a load issues, and its completion writes the register (R231, R233); a store changes its four bytes (R255)
theorem test_load : (match exec (.ld .b32 noOrd false gd (.s 4) ⟨.s 2, .imm 4⟩) (spair 2 0x2000 { base with mem := Memory.write base.mem 0x2000 (leBytes 8 0x1122334455667788) }) with
    | .next t => (match exec (.loadComplete 3 4 (BitVec.allOnes 64)) t with
      | .next u => (u.grp 3).map (fun g => g.rs 4)
      | _ => none)
    | _ => none) = some 0x11223344 := by decide
theorem test_store : (match exec (.st .b32 noOrd false l0 1 ⟨.s 2, .imm 0⟩) (spair 2 0x2000 (two 0xAABBCCDD 0)) with
    | .next t => (match exec (.storeAck 3 4 (BitVec.allOnes 64) 0) t with
      | .next u => some (Memory.read u.mem 0x2000 8)
      | _ => none)
    | _ => none) = some 0xAABBCCDD := by decide
theorem test_atom_add : (match exec (.atom .add .s32 noOrd l0 (.v 5) ⟨.s 2, .s 63⟩ (.v 1)) (spair 2 0x2000 (two 0xFFFFFFFF 0)) with
    | .next t => (match exec (.atomicPerform 3 4 1 0) { t with mem := Memory.write t.mem 0x2000 [7] } with
      | .next u => (u.grp 3).map (fun g => (g.rv 5 0, Memory.read u.mem 0x2000 8))
      | _ => none)
    | _ => none) = some (7, 6) := by decide
-- the first step from the placed word runs it
theorem test_first_step : (match step (State.reset.withFetchWord 64 0x8007E00012345678) with | .next _ => true | _ => false) = true := by decide

/-! ## States that meet the hypotheses of the statements: words that compute and control flow -/

def readyB (i : Instr) (s : State) (c : Issue) (g : Group) : Bool :=
  s.cur == some c && s.grp c.grp == some g && s.illegalHere g i == false && s.wordReady c g i &&
  decide (c.hold ≠ .none ∨ g.inHandler c.lanes = true ∨ i.isSafept = true ∨ g.spCount < s.spLimit g) &&
  s.seals c g i == false && c.hold.key == none

theorem ready_of {i : Instr} {s : State} {c : Issue} {g : Group} (h : readyB i s c g = true) : Ready i s c g := by
  simp only [readyB, Bool.and_eq_true, beq_iff_eq, decide_eq_true_eq] at h
  obtain ⟨⟨⟨⟨⟨⟨h1, h2⟩, h3⟩, h4⟩, h5⟩, h6⟩, h7⟩ := h
  exact ⟨h1, h2, h3, h4, h5, h6, h7⟩
/-- Where no block holds anything, none holds a line of a table. -/
theorem unheld_of {s : State} (h : s.blocks.all (fun q => q.2.holdsNone) = true) (n : Nat) : Claims.Unheld s n := by
  intro va
  simp only [State.holders, State.holdersOf, List.map_eq_nil_iff, List.filter_eq_nil_iff]
  intro q hq
  have hb := List.all_eq_true.mp h q hq
  simp only [Block.holdsNone, Bool.and_eq_true, List.isEmpty_iff] at hb
  simp [hb.1, hb.2]

/-- Every word of a list is ready in the first state. -/
def allReady (l : List Instr) : Bool := l.all (fun i => readyB i base iss (gof base))
theorem ready_all {l : List Instr} (h : allReady l = true) : ∀ i ∈ l, Ready i base iss (gof base) := fun i hi =>
  ready_of (List.all_eq_true.mp h i hi)

def og : Op1 := ⟨gd, .v 4, .v 2⟩
def pg : Op2 := ⟨gd, .v 4, .v 2, .v 6⟩
def qg : Op3 := ⟨gd, .v 4, .v 2, .v 6, .v 8⟩

theorem witness_ComputingWordsFrame : Claims.writes (.add .s64 false pg) = some { v := [4, 5] } ∧
    Ready (.add .s64 false pg) base iss (gof base) := ⟨rfl, ready_of (by decide)⟩
def arithmetic : List Instr := [.add .s32 false pg, .sub .n64 true pg, .mul .s32 false pg, .mulh .s32 true pg, .mulh .s64 false pg,
  .mad .s32 false false qg, .mad .n32 true true qg, .div .s32 false pg, .div .n64 true pg, .min .s32 pg, .max .n64 pg, .abs false true og, .abs true false og]
theorem witness_IntegerArithmetic : ∀ i ∈ arithmetic, Ready i base iss (gof base) := ready_all (by decide)
def logic : List Instr := [.and true pg, .or false pg, .xor true pg, .bool3 false 0x96 qg, .shl false true pg, .shl true false pg, .shr false false pg,
  .shr true true pg, .sar true false pg, .xtr true qg, .xtr false qg, .popc true og, .clz false og, .brev true og]
theorem witness_LogicAndShifts : ∀ i ∈ logic, Ready i base iss (gof base) := ready_all (by decide)
def fields : List Instr := [.mov true og, .bfx true false pg, .bfi true pg, .bytsel qg, .sel false 1 true pg, .lea false 2 pg, .idp4 true false true true qg,
  .idp4 true false true false qg, .rds true gd (.v 4) .timebase, .movi gd (.v 1) 5, .fmovi gd (.s 1) 5, .movh gd (.v 2) 5, .addi false gd (.v 1) 3,
  .addi true gd (.v 2) 3]
theorem witness_FieldsAndMoves : ∀ i ∈ fields, Ready i base iss (gof base) := ready_all (by decide)
def compares : List Instr := [.iset .lt .s64 gd (.r (.v 1)) (.v 2) (.v 4), .iset .lt .s32 gd (.p 1) (.v 2) (.v 4), .pmov gd (.tov 1 2), .pmov gd (.fromv 1 2),
  .pmov gd (.tos 2 1), .pmov gd (.froms 1 2), .pmov gd (.lop 1 2 3 4 0x80)]
theorem witness_ComparesAndPredicates : ∀ i ∈ compares, Ready i base iss (gof base) := ready_all (by decide)
def floats : List Instr := [.fadd .rn false pg, .fmul .rz true pg, .fma .rp false qg, .fmin pg, .fmax pg, .fdiv .rm false pg, .fsqrt .rn og, .fscale .rn true pg,
  .frnd .rn og, .fset .lt gd (.r (.v 1)) (.v 2) (.v 3), .fset .nan gd (.p 1) (.v 2) (.v 3), .fclass .f16 og]
theorem witness_FloatWords : ∀ i ∈ floats, Ready i base iss (gof base) := ready_all (by decide)
def transcendentals : List Instr := [.frcp og, .frsq og, .fex2 og, .flg2 og, .fsin og, .fcos og, .ftanh og]
theorem witness_TranscendentalWords : ∀ i ∈ transcendentals, Ready i base iss (gof base) := ready_all (by decide)
def packeds : List Instr := [.pkadd true .rn false pg, .pkmul false .rn true pg, .pkfma true .rz false qg, .pkmm true true pg, .fdp2 false .rn false qg]
theorem witness_PackedWords : ∀ i ∈ packeds, Ready i base iss (gof base) := ready_all (by decide)
def conversions : List Instr := [.cvt .e4m3 .f32 0 2 (.mode 0) true false gd (.v 5) (.v 2), .cvtq .e2m1 true false false .rn false 3 gd 4 3,
  .cvtq .int false true false .rn false 0 gd 4 3, .cvtd .f16 .rn false 3 true gd 6 4 (.s 5)]
theorem witness_ConversionWords : ∀ i ∈ conversions, Ready i base iss (gof base) := ready_all (by decide)
def exchanges : List Instr := [.qx .d true gd 4 2, .xlane .back true false gd 1 2 (.v 3) (some 4), .vote .all gd 1 2 none, .vote .any gd 1 2 none, .vote .uni gd 1 2 none,
  .ballot gd (.s 2) 1 none, .matchLanes true gd 4 2, .redux .min .n32 (.mode 0) gd (.s 1) 2 none, .v2s true gd 2 4 none, .v2s false gd 2 4 (some (.imm 40)),
  .mask .frag gd (.s 2) 0, .mask .live gd (.s 2) 0, .mask .helper gd (.s 2) 0, .mask .lt gd (.v 2) 0, .mask .jmask gd (.s 2) 3, .mask .jpc gd (.s 2) 3]
theorem witness_LaneExchangeWords : (∀ i ∈ exchanges, Ready i base iss (gof base)) ∧
    (Mask.lanes ((gof base).nonHelpers ((gof base).guarded iss.lanes gd))).map (fun i => ((gof base).rv 2 i).toNat) = 0 :: List.replicate 31 0 :=
  ⟨ready_all (by decide), by decide⟩
def csrs : List Instr := [.csrr gd (.v 3) .spLimit, .csrw gd .fpSeed 3, .csrw gd .ctxId 3, .csrx gd 4 .fpFlags 3]
theorem witness_ContextRegisterWords : (∀ i ∈ csrs, Ready i base iss (gof base)) ∧ (gof base).nonHelpers ((gof base).guarded iss.lanes gd) ≠ 0 :=
  ⟨ready_all (by decide), by decide⟩
theorem witness_TableWords_match : Ready (.tbl gd 9 8 10) tbl137 iss (gof tbl137) ∧
    (tbl137.core (gof tbl137).core).tag (tbl137.core (gof tbl137).core).bank = some (tbl137.ctxNum (gof tbl137), ((gof tbl137).rs64 10).toNat) :=
  ⟨ready_of (by decide), by decide⟩
theorem witness_TableWords_mismatch : Ready (.tbl gd 9 8 10) base iss (gof base) ∧
    (base.core (gof base).core).tag (base.core (gof base).core).bank ≠ some (base.ctxNum (gof base), ((gof base).rs64 10).toNat) ∧
    (gof base).nonHelpers iss.lanes ≠ 0 := ⟨ready_of (by decide), by decide, by decide⟩

-- branches: the forms, the last word below 2^56, the first address outside it, a misaligned one
def target (x : Nat) : State := spair 8 x base
theorem witness_BranchWords : (∀ i ∈ [Instr.bra gd 5, .braL gd 5], Ready i base iss (gof base)) ∧
    Ready (.brx gd (.s 8)) (target (2 ^ 56 - 8)) iss (gof (target (2 ^ 56 - 8))) ∧ goodTargets (.s 8) gd iss (gof (target (2 ^ 56 - 8))) :=
  ⟨ready_all (by decide), ready_of (by decide), by unfold goodTargets; decide⟩
theorem witness_BranchWords_range : Ready (.brx gd (.s 8)) (target (2 ^ 56)) iss (gof (target (2 ^ 56))) ∧
    targetFault (.s 8) gd iss (gof (target (2 ^ 56))) { cause := 4, addr := 2 ^ 56 } ∧ (gof (target (2 ^ 56))).nonHelpers iss.lanes ≠ 0 :=
  ⟨ready_of (by decide), .inl ⟨0, (List.range 31).map (· + 1), by decide, by decide⟩, by decide⟩
theorem witness_BranchWords_misaligned : Ready (.brx gd (.s 8)) (target 4) iss (gof (target 4)) ∧
    targetFault (.s 8) gd iss (gof (target 4)) { cause := 3, addr := 4 } ∧ (gof (target 4)).nonHelpers iss.lanes ≠ 0 :=
  ⟨ready_of (by decide), .inr ⟨by decide, 0, (List.range 31).map (· + 1), by decide, by decide⟩, by decide⟩

/-- Every lane's return stack holds n entries of a depth. -/
def stacked (n depth : Nat) : State := upd base (fun g => { g with lanes := g.lanes.map (fun x => { x with rs := List.replicate n 0x2000, depth := depth }) })
theorem witness_CallsAndReturns : Ready (.call gd 5 63) (stacked 3 65534) iss (gof (stacked 3 65534)) ∧
    Ready (.callL gd 5) (stacked 3 65534) iss (gof (stacked 3 65534)) ∧ Ready (.callx gd (.s 8) 63) (stacked 3 65534) iss (gof (stacked 3 65534)) ∧
    goodTargets (.s 8) gd iss (gof (stacked 3 65534)) ∧
    ∀ l ∈ Mask.lanes (goes iss (gof (stacked 3 65534)) gd), ((gof (stacked 3 65534)).lane l).depth ≠ 65535 ∧ ((gof (stacked 3 65534)).lane l).rs.length < 4 :=
  ⟨ready_of (by decide), ready_of (by decide), ready_of (by decide), by unfold goodTargets; decide, by decide⟩
theorem witness_CallsAndReturns_full : Ready (.call gd 5 63) (stacked 4 4) iss (gof (stacked 4 4)) ∧ Ready (.callL gd 5) (stacked 4 4) iss (gof (stacked 4 4)) ∧
    Ready (.callx gd (.s 8) 63) (stacked 4 4) iss (gof (stacked 4 4)) ∧ goodTargets (.s 8) gd iss (gof (stacked 4 4)) ∧ (gof (stacked 4 4)).nonHelpers iss.lanes ≠ 0 ∧
    (Mask.lanes (goes iss (gof (stacked 4 4)) gd)).filter (fun l => ((gof (stacked 4 4)).lane l).depth == 65535 ||
      (((gof (stacked 4 4)).lane l).rs.length == 4 && (63 : BitVec 6).toNat == 63)) ≠ [] :=
  ⟨ready_of (by decide), ready_of (by decide), ready_of (by decide), by unfold goodTargets; decide, by decide, by decide⟩
theorem witness_CallsAndReturns_empty : Ready (.ret gd 63) (stacked 0 0) iss (gof (stacked 0 0)) ∧ (gof (stacked 0 0)).nonHelpers iss.lanes ≠ 0 ∧
    (Mask.lanes (goes iss (gof (stacked 0 0)) gd)).filter (fun l => ((gof (stacked 0 0)).lane l).depth == 0 ||
      (((gof (stacked 0 0)).lane l).rs.length == 0 && (63 : BitVec 6).toNat == 63)) ≠ [] := ⟨ready_of (by decide), by decide, by decide⟩
theorem witness_CallsAndReturns_return : Ready (.ret gd 63) (stacked 1 1) iss (gof (stacked 1 1)) ∧
    ∀ l ∈ Mask.lanes (goes iss (gof (stacked 1 1)) gd), ((gof (stacked 1 1)).lane l).depth ≠ 0 ∧
      ∃ a r, ((gof (stacked 1 1)).lane l).rs = a :: r ∧ a.toNat < 2 ^ 56 ∧ a.toNat % 8 = 0 := by
  refine ⟨ready_of (by decide), fun l hl => ⟨?_, 0x2000, [], ?_, by decide, by decide⟩⟩ <;> revert l <;> decide

/-- Mask j0 holds lanes and a PC; lanes 1 and up have arrived or run elsewhere. -/
def joined (m : Mask) (pc : BitVec 56) (rest : LaneSt) : State := upd base (fun g => { g with
  j := [(0, (m, pc))], lanes := (List.range 32).map (fun l => if l = 0 then g.lane 0 else { g.lane l with st := rest, pc := 0x1080 }) })
/-- Lane 0 alone is issuing. -/
def one : Issue := { iss with lanes := 1 }
def alone (s : State) : State := { s with cur := some one }
theorem witness_RejoinWords_enrol : Ready (.enrol gd 0 6) base iss (gof base) ∧ Mask.has (goes iss (gof base) gd) 0 = true ∧
    ((gof base).lane 0).st = .running ∧ (SMap.getD (gof base).j 0 (0, 0)).1 = 0 := ⟨ready_of (by decide), by decide, by decide, by decide⟩
theorem witness_RejoinWords_conflict : let s := joined 2 0x2000 .running
    Ready (.enrol gd 0 6) s iss (gof s) ∧ goes iss (gof s) gd ≠ 0 ∧ (gof s).nonHelpers iss.lanes ≠ 0 ∧ (SMap.getD (gof s).j 0 (0, 0)).1 ≠ 0 ∧
    (SMap.getD (gof s).j 0 (0, 0)).2 ≠ iss.pc + (6 : BitVec 16).signExtend 56 * 8 := ⟨ready_of (by decide), by decide, by decide, by decide, by decide⟩
theorem witness_RejoinWords_waits : let s := alone (joined 3 0x1000 .running)
    Ready (.rejoin 0) s one (gof s) ∧ (SMap.getD (gof s).j 0 (0, 0)).2 = one.pc ∧
    Mask.has ((gof s).nonHelpers one.lanes &&& (SMap.getD (gof s).j 0 (0, 0)).1) 0 = true ∧ 0 < (gof s).lanes.length ∧
    Mask.has (SMap.getD (gof s).j 0 (0, 0)).1 1 = true ∧ Mask.has one.lanes 1 = false ∧ ((gof s).lane 1).st ≠ .arrived 0 :=
  ⟨ready_of (by decide), by decide, by decide, by decide, by decide, by decide, by decide⟩
theorem witness_RejoinWords_all : let s := alone (joined 3 0x1000 (.arrived 0))
    Ready (.rejoin 0) s one (gof s) ∧ (SMap.getD (gof s).j 0 (0, 0)).2 = one.pc ∧
    (∀ k, k < 64 → Mask.has (SMap.getD (gof s).j 0 (0, 0)).1 k = true → k < (gof s).lanes.length ∧
      (Mask.has ((gof s).nonHelpers one.lanes) k = true ∨ ((gof s).lane k).st = .arrived 0)) ∧
    Mask.has (SMap.getD (gof s).j 0 (0, 0)).1 1 = true := ⟨ready_of (by decide), by decide, by decide, by decide⟩
theorem witness_RejoinWords_strike : let s := alone (joined 3 0x1000 .running)
    Ready (.strike gd 0) s one (gof s) ∧ Mask.has (SMap.getD (gof s).j 0 (0, 0)).1 1 = true ∧ Mask.has (goes one (gof s) gd) 1 = false ∧
    ((gof s).lane 1).st ≠ .arrived 0 := ⟨ready_of (by decide), by decide, by decide, by decide⟩

/-- An operation of the counter `ld` is outstanding. -/
def pendOp : PendOp := { id := 4, ctr := .ld, num := 1, pc := 0xFF8, word := 0, kind := .load (.v 1) .b32, order := noOrd, lanes := [], done := false, err := none, since := 0 }
def busyLd (s : State) : State := upd s (fun g => { g with ops := [pendOp], issued := { g.issued with ld := 1 } })
theorem witness_WaitingWords_on : Ready (.wait 1 63 63 63 63) (busyLd base) iss (gof (busyLd base)) ∧ (gof (busyLd base)).waited 1 63 63 63 63 = true ∧
    (gof (busyLd base)).requiredError 1 63 63 63 63 = none := ⟨ready_of (by decide), by decide, by decide⟩
theorem witness_WaitingWords_held : Ready (.wait 0 63 63 63 63) (busyLd base) iss (gof (busyLd base)) ∧
    (gof (busyLd base)).waited 0 63 63 63 63 = false := ⟨ready_of (by decide), by decide⟩
theorem witness_WaitingWords_yield : (∀ i ∈ [Instr.yield true 5, .yield false 0, .nap (.imm 3), .nap (.imm 0)], Ready i base iss (gof base)) ∧
    ((Src.imm 3).get (gof base) 0 .zext).toNat ≠ 0 := ⟨ready_all (by decide), by decide⟩
def holding (h : Hold) (s : State) : State := upd s (fun g => { g with lanes := g.lanes.map (fun x => { x with hold := h }) })
theorem witness_WaitingWords_expiry : let s := { holding (.yield 5) base with clk := 5 }
    s.grp 3 = some (gof s) ∧ ((gof s).lane 0).hold = .yield (4 + 1) ∧ ((gof s).lane 0).st = .running ∧ 4 + 1 ≤ s.clk := by decide
theorem witness_WaitingWords_nap : let s := { holding (.nap 3) base with clk := 100 }
    s.grp 3 = some (gof s) ∧ ((gof s).lane 0).hold = .nap 3 ∧ ((gof s).lane 0).st = .running ∧ 3 ≤ s.timebase := by decide

theorem witness_ExitWords_some : let s := preg 1 1 base
    Ready (.exit l0) s iss (gof s) ∧ goes iss (gof s) l0 ≠ 0 ∧ 31 < (gof s).lanes.length ∧ Mask.has (goes iss (gof s) l0) 31 = false ∧
    ((gof s).lane 31).st = .running := ⟨ready_of (by decide), by decide, by decide, by decide, by decide⟩
theorem witness_ExitWords_last : Ready (.exit gd) base iss (gof base) ∧ (∀ l, l < (gof base).lanes.length → ((gof base).lane l).st = .exited ∨
      Mask.has (goes iss (gof base) gd) l = true) ∧ goes iss (gof base) gd ≠ 0 ∧ (gof base).ops = [] ∧ (gof base).errs = [] ∧ base.ckpt (gof base) = false ∧
    (base.blocks.find (gof base).blk).isSome = true ∧ (((base.blocks.find (gof base).blk).map (·.groups)).getD [0]).all (· == iss.grp) = true :=
  ⟨ready_of (by decide), by decide, by decide, by decide, by decide, by decide, by decide, by decide⟩
theorem witness_ExitWords_waits : let s := busyLd base
    Ready (.exit gd) s iss (gof s) ∧ (∀ l, l < (gof s).lanes.length → ((gof s).lane l).st = .exited ∨ Mask.has (goes iss (gof s) gd) l = true) ∧
    goes iss (gof s) gd ≠ 0 ∧ (gof s).ops ≠ [] := ⟨ready_of (by decide), by decide, by decide, by decide⟩

/-! ## Traps, service calls and handlers -/

def noCtx : Ctx := ⟨.created, 0, 0, false, 0, 0, 0, 2048, false, 0, 0, 0, 0, 0, 0, none, [], false⟩
def cof (s : State) : Ctx := (s.ctxs.find 0).getD noCtx
def grof (s : State) : Grid := (s.grids.find 1).getD (newGrid 0 0 none emptyDesc 1 1 1 0 none 0 [])
def policy (handler : Nat) (hmask fmask : DWord) (s : State) : State :=
  s.updCtx 0 (fun c => { c with handler := handler, hmask := hmask, fmask := fmask, report := 0x2000 })
/-- Every lane is in a handler entered at 0x1000. -/
def handling (s : State) : State := upd s (fun g => { g with lanes := g.lanes.map (fun x => { x with hnd := some 0x1000, saved := some (1, 2) }) })
def flag (s : State) : State := upd s (fun g => { g with flagged := true })
/-- What every clause about a trap asks for. -/
def trappable (s : State) : Bool := s.grp 3 == some (gof s) && s.twinOf (gof s) == none && s.ctxOf (gof s) == some (cof s)

theorem witness_TakingATrap_double : let s := handling base
    trappable s = true ∧ (gof s).inHandler iss.lanes = true ∧ s.grids.find (gof s).grid = some (grof s) ∧ (grof s).parent = none ∧
    (grof s).st = .running := by decide
theorem witness_TakingATrap_handler : let s := policy 0x3000 8 0 base
    trappable s = true ∧ (gof s).inHandler iss.lanes = false ∧ (cof s).handler ≠ 0 ∧ (cof s).hmask.getLsbD 3 = true ∧ 2 ≤ (s.descOf (gof s)).regs ∧
    (gof s).flagged = false := by decide
theorem witness_TakingATrap_flagged : let s := flag (policy 0x3000 8 0 base)
    trappable s = true ∧ (gof s).inHandler iss.lanes = false ∧ (cof s).handler ≠ 0 ∧ (cof s).hmask.getLsbD 3 = true ∧ 2 ≤ (s.descOf (gof s)).regs ∧
    (gof s).flagged = true ∧ (gof s).handlerOpen = false := by decide
theorem witness_TakingATrap_stops : let s := upd (flag (policy 0x3000 8 0 base)) (fun g => { g with lanes := g.lanes.mapIdx (fun l x =>
      if l < 16 then { x with hnd := some 0x1000 } else x) })
    trappable s = true ∧ (gof s).inHandler 0xFFFF0000 = false ∧ (cof s).handler ≠ 0 ∧ (cof s).hmask.getLsbD 3 = true ∧ 2 ≤ (s.descOf (gof s)).regs ∧
    (gof s).flagged = true ∧ (gof s).handlerOpen = true := by decide
theorem witness_TakingATrap_forward : let s := policy 0 0 8 base
    trappable s = true ∧ (gof s).inHandler iss.lanes = false ∧ (cof s).handler = 0 ∧ (cof s).fmask.getLsbD 3 = true := by decide
theorem witness_TakingATrap_fails : let s := base
    trappable s = true ∧ (gof s).inHandler iss.lanes = false ∧ (cof s).handler = 0 ∧ (cof s).fmask.getLsbD 3 = false ∧
    s.grids.find (gof s).grid = some (grof s) ∧ (grof s).parent = none ∧ (grof s).st = .running := by decide

def regs2 (n : Nat) (s : State) : State := s.updGrid 1 (fun g => { g with desc := { g.desc with regs := n } })
theorem witness_TrapsBeforeAWord_illegal : let s := regs2 3 base
    (encode (.mov false ⟨gd, .v 3, .v 0⟩)).isSome = true ∧ s.cur = some iss ∧ s.grp 3 = some (gof s) ∧ (gof s).nonHelpers iss.lanes ≠ 0 ∧
    s.illegalHere (gof s) (.mov false ⟨gd, .v 3, .v 0⟩) = true := by decide
theorem witness_TrapsBeforeAWord_late : let s := upd (base.updCtx 0 (fun c => { c with spLimit := 64 })) (fun g => { g with spCount := 64 })
    s.illegalHere (gof s) (.nop gd) = false ∧ s.wordReady iss (gof s) (.nop gd) = true ∧ iss.hold = .none ∧ (gof s).inHandler iss.lanes = false ∧
    (Instr.nop gd).isSafept = false ∧ s.spLimit (gof s) ≤ (gof s).spCount := by decide

theorem witness_TrapWords : Ready (.brk gd 1) base iss (gof base) ∧ goes iss (counted (.brk gd 1) iss (gof base)) gd ≠ 0 ∧
    Ready (.trap gd 0x42) base iss (gof base) ∧ goes iss (gof base) gd ≠ 0 ∧ base.ckpt (gof base) = false ∧
    (began (.trap gd 0x42) base iss (gof base)).released iss.grp (counted (.trap gd 0x42) iss (gof base)) base.nextId ((gof base).trapping iss.lanes
      (goes iss (gof base) gd)) .sys (base.tenantScope (gof base)) = true ∧ Ready (.safept 3) base iss (gof base) ∧ (gof base).flagged = false :=
  ⟨ready_of (by decide), by decide, ready_of (by decide), by decide, by decide, by decide, ready_of (by decide), by decide⟩
def storeOp (a : LaneAcc) : PendOp := { id := 4, ctr := .st, num := 1, pc := 0xFF8, word := 0, kind := .store, order := noOrd, lanes := [a], done := false, err := none, since := 0 }
def acc (ph : Phys) (n : Nat) (bs : List Byte) : LaneAcc := ⟨0, 1, 0x2000, n, ph, withOffsets bs, .ready⟩
def withOp (o : PendOp) (s : State) : State := { upd s (fun g => { g with ops := [o], issued := { g.issued with st := 1, ld := 1 } }) with nextId := 5 }
theorem witness_TrapWords_release : let s := withOp (storeOp (acc (.dev 0x2000) 4 [1, 2, 3, 4])) base
    Ready (.trap gd 0x42) s iss (gof s) ∧ goes iss (gof s) gd ≠ 0 ∧ s.ckpt (gof s) = false ∧ iss.hold = .none ∧
    (began (.trap gd 0x42) s iss (gof s)).released iss.grp (counted (.trap gd 0x42) iss (gof s)) s.nextId ((gof s).trapping iss.lanes (goes iss (gof s) gd)) .sys
      (s.tenantScope (gof s)) = false := ⟨ready_of (by decide), by decide, by decide, by decide, by decide⟩

def aReport : Report := { cause := 3, reason := 0, detail := 0, ctx := 0, group := 0, flags := 0, pc := 0x1000, lanes := 0xFFFFFFFF, siblings := 0, block := 0, word := 0, addr := 0, info := 0 }
/-- A fragment waits at its word for the handler, whose report is kept. -/
def entering : State := holding .handler (upd (policy 0x3000 8 0 base) (fun g => { g with traps := [⟨aReport, 0x3000, 0x2000, none⟩] }))
theorem witness_HandlerEntryAndReturn_enter : let s := entering
    s.grp 3 = some (gof s) ∧ (gof s).entersNext 0 = true ∧
    (gof s).traps.find? (fun w => Mask.has w.rep.lanes 0) = some ⟨aReport, 0x3000, 0x2000, none⟩ ∧ (gof s).reportOp = none ∧
    s.released 3 (gof s) s.nextId ((gof s).trapLanes aReport) .grp false = true ∧ (gof s).reportSlot 0x2000 < 2 ^ 56 ∧
    ((s.setGrp 3 (gof s).endReport).xlat (s.ctxNum (gof s)) ((gof s).reportSlot 0x2000) .write).1 = .ok (.dev 0x2000) ∧
    s.accessFree (gof s) ⟨0, (gof s).trapLanes aReport, (gof s).reportSlot 0x2000, 64, .dev 0x2000, [], .ready⟩ false = true ∧
    s.holders (gof s).blk [0x2000 / 128] = [] := by decide
theorem witness_HandlerEntryAndReturn_outside : Ready (.eret false .retry) base iss (gof base) ∧
    (gof base).inHandler ((gof base).nonHelpers iss.lanes) = false ∧ (gof base).nonHelpers iss.lanes ≠ 0 := ⟨ready_of (by decide), by decide, by decide⟩
theorem witness_HandlerEntryAndReturn_return : let s := handling base
    Ready (.eret true .next) s iss (gof s) ∧ Ready (.eret false .retry) s iss (gof s) ∧ (gof s).inHandler ((gof s).nonHelpers iss.lanes) = true :=
  ⟨ready_of (by decide), ready_of (by decide), by decide⟩
theorem witness_HandlerEntryAndReturn_chosen : let s := spair 20 1 (handling base)
    Ready (.eret false (.x 10 20 22)) s iss (gof s) ∧ (gof s).inHandler ((gof s).nonHelpers iss.lanes) = true ∧
    (∀ l ∈ Mask.lanes ((gof s).nonHelpers iss.lanes &&& (gof s).rs64 20), ((gof s).rv64 10 l).toNat % 8 = 0 ∧ ((gof s).rv64 10 l).toNat < 2 ^ 56) ∧
    (∀ l, ((gof s).lane l).st ≠ .arrived 0 ∨ ((gof s).rs64 22).toNat % 8 = 0) ∧ Mask.has ((gof s).nonHelpers iss.lanes) 0 = true ∧
    Mask.has ((gof s).rs64 20) 0 = true ∧ ((gof s).lane 0).st = .running :=
  ⟨ready_of (by decide), by decide, by decide, fun _ => .inr (by decide), by decide, by decide, by decide⟩

/-! ## Memory words -/

def isOk {α β : Type} : Except α β → Bool
  | .ok _ => true
  | .error _ => false
def anAddr : MAddr := ⟨.s 2, .imm 0⟩
def rel : Order := ⟨false, true, .pkg⟩
/-- Every form of a memory word that issues and goes on, with its accesses. -/
def memWords : List Instr := [.ld .b32 noOrd false l0 (.v 4) anAddr, .st .b32 noOrd false l0 4 anAddr, .lds .b64 l0 (.v 4) ⟨.s 2, .imm 0⟩, .sts .b64 l0 4 ⟨.s 2, .imm 0⟩,
  .ldc .b32 0 l0 (.v 4) ⟨.s 2, .imm 0⟩, .stfe true .b32 noOrd l0 4 ⟨.s 2, .imm 0⟩, .stfe false .b32 noOrd l0 4 anAddr, .ldL .b32 l0 (.v 4) 2 0, .stL .b32 l0 (.v 4) 2 0,
  .atom .add .s32 noOrd l0 (.v 4) ⟨.s 2, .s 63⟩ (.v 1), .red .add .s32 noOrd l0 1 ⟨.s 2, .s 63⟩, .atomc .b32 noOrd l0 (.v 4) (.v 6) (.v 1) (.v 2),
  .flushH l0 (some anAddr), .invalH l0 (some anAddr)]
def memState : State := vls 6 [0x2000] (spair 2 0x2000 (two 0 0))
def issues (s : State) (i : Instr) : Bool :=
  readyB i s iss (gof s) && (gof s).probeOf iss == none && ((Claims.memWord (began i s iss (gof s)) iss (counted i iss (gof s)) i).map (fun w => isOk w.accs)).getD false
theorem witness_MemoryWordsIssue : (memWords.take 2).all (issues memState) = true := by decide
theorem witness_MemoryWordsIssue_shared : ((memWords.drop 2).take 2).all (issues (spair 2 0 memState)) = true := by decide
theorem witness_MemoryWordsIssue_constants : ((memWords.drop 4).take 1).all (issues (spair 2 0 memState)) = true := by decide
theorem witness_MemoryWordsIssue_fills : ((memWords.drop 5).take 1).all (issues (spair 2 0 memState)) = true ∧
    ((memWords.drop 6).take 1).all (issues memState) = true := by decide
theorem witness_MemoryWordsIssue_local : ((memWords.drop 7).take 2).all (issues memState) = true := by decide
theorem witness_MemoryWordsIssue_atom : ((memWords.drop 9).take 2).all (issues memState) = true := by decide
theorem witness_MemoryWordsIssue_atomc : ((memWords.drop 11).take 1).all (issues memState) = true := by decide
theorem witness_MemoryWordsIssue_caches : (memWords.drop 12).all (issues memState) = true := by decide
def relStore : Instr := .st .b32 rel false l0 4 anAddr
def unreleased : State := withOp (storeOp (acc (.dev 0x3000) 4 [1, 2, 3, 4])) memState
theorem witness_MemoryWordsIssue_release : Ready relStore unreleased iss (gof unreleased) ∧ iss.hold = .none ∧
    issues unreleased relStore = true ∧
    (began relStore unreleased iss (gof unreleased)).released iss.grp (counted relStore iss (gof unreleased))
      unreleased.nextId ((gof unreleased).guarded iss.lanes l0) .pkg ((began relStore unreleased iss (gof unreleased)).tenantScope (counted relStore iss (gof unreleased))) =
      false := ⟨ready_of (by decide), by decide, by decide, by decide⟩
theorem witness_MemoryWordsIssue_trap : let s := spair 2 0x2002 memState
    Ready (.ld .b32 noOrd false gd (.v 4) anAddr) s iss (gof s) ∧ (gof s).nonHelpers iss.lanes ≠ 0 ∧
    ((Claims.memWord (began (.ld .b32 noOrd false gd (.v 4) anAddr) s iss (gof s)) iss (counted (.ld .b32 noOrd false gd (.v 4) anAddr) iss (gof s))
      (.ld .b32 noOrd false gd (.v 4) anAddr)).map (fun w => isOk w.accs)) = some false := ⟨ready_of (by decide), by decide, by decide⟩
def ldReq (g : Group) : MemReq := let _ := g; loadReq anAddr 8 (globalEa anAddr)
theorem witness_MemoryChecks : isOk (memState.memTry (gof memState) 1 (ldReq (gof memState))) = true := by decide
theorem witness_MemoryChecks_misaligned : let s := spair 2 0x2004 memState
    ((ldReq (gof s)).lanes (gof s) 1).filter (fun l => !(gof s).isHelper l && ((ldReq (gof s)).ea (gof s) l).toNat % (ldReq (gof s)).n != 0) = [0] := by decide
theorem witness_MemoryChecks_range : let s := spair 2 (2 ^ 56) memState
    ((ldReq (gof s)).lanes (gof s) 1).filter (fun l => !(gof s).isHelper l && ((ldReq (gof s)).ea (gof s) l).toNat % (ldReq (gof s)).n != 0) = [] ∧
    (ldReq (gof s)).n ≤ 8 ∧
    ((ldReq (gof s)).lanes (gof s) 1).filter (fun l => !(gof s).isHelper l && decide (2 ^ 56 ≤ ((ldReq (gof s)).ea (gof s) l).toNat)) = [0] ∧
    ∀ k ∈ (ldReq (gof s)).lanes (gof s) 1, ((ldReq (gof s)).ea (gof s) k).toNat % (ldReq (gof s)).n = 0 := by decide

-- the worked walk with a fourth table, at its last address below 2^55 and at one below; and a leaf of each kind
def deepMem : List Host.Cell := [(0x100000008, 0x100001005), (0x100001018, 0x100002005), (0x100002020, 0x100003005), (0x100003028, 0x100004005),
  (0x100004030, 0x1000009)].foldl (fun m (e : Nat × Nat) => Memory.write m e.1 (leBytes 8 e.2)) []
def deepVa : Nat := 1 * 2 ^ 48 + 3 * 2 ^ 39 + 4 * 2 ^ 30 + 5 * 2 ^ 21 + 6 * 2 ^ 12 + 7
theorem witness_AddressTranslation_walk : deepVa < 2 ^ 55 ∧
    [0x100000000 + 8 * (deepVa / 2 ^ 48 % 512), 0x100001000 + 8 * (deepVa / 2 ^ 39 % 512), 0x100002000 + 8 * (deepVa / 2 ^ 30 % 512),
      0x100003000 + 8 * (deepVa / 2 ^ 21 % 512), 0x100004000 + 8 * (deepVa / 2 ^ 12 % 512)].map (fun a => Memory.read deepMem a 8) =
      [0x100001005, 0x100002005, 0x100003005, 0x100004005, 0x1000009] ∧
    [(0x100001005 : DWord), 0x100002005, 0x100003005, 0x100004005].map pteFrame = [0x100001000, 0x100002000, 0x100003000, 0x100004000] := by decide
theorem witness_AddressTranslation_entries : [(0x100001005 : DWord), 0x100002005, 0x100003005, 0x100004005].map
      (fun e => (pteKind e, pteReserved e, pteSpace e, ptePkg e, pteC64 e)) = List.replicate 4 (5, 0, 0, 0, false) ∧ pteC64 0x1000009 = false ∧
    leafOk 0x1000009 0 deepVa = true := by decide +kernel
theorem witness_AddressTranslation_frames : ∀ f ∈ [0x100001000, 0x100002000, 0x100003000, 0x100004000], f + 4096 ≤ Config.deviceBytes := by
  simp [Config.deviceBytes]
/-- A state whose leaf for every address of the first gibibyte is this entry. -/
def leafState (e : Nat) : State := { base with mem := Memory.write base.mem 0x12000 (leBytes 8 e) }
theorem witness_AddressTranslation_leaves : (leafState 25).tlb = [] ∧ (leafState 25).mgmt.moving = none ∧ (leafState 25).mgmt.retired = [] ∧
    [0, 1, 9, 25, 0x1000000000000A, 3, 4].map (fun e => (leafState e).walk 0 0x2000) = [0, 1, 9, 25, 0x1000000000000A, 3, 4].map (fun (e : Nat) => WalkRes.leaf (BitVec.ofNat 64 e) 2) ∧
    [0, 1, 9, 25, 0x1000000000000A, 3, 4].map (fun (e : Nat) => (pteKind (BitVec.ofNat 64 e), pteWrite (BitVec.ofNat 64 e), pteExec (BitVec.ofNat 64 e))) =
      [(0, false, false), (1, false, false), (1, true, false), (1, true, true), (2, true, false), (3, false, false), (4, false, false)] ∧
    (leafState 7).walk 0 0x2000 = .malformed := by decide

/-! ## Memory: other words, and the accesses performed -/

def runScratch (n : Nat) (s : State) : State := s.updGrid 1 (fun g => { g with desc := { g.desc with scratch := n } })
/-- Every address of the first gibibyte is in package 1's memory. -/
def remoteState : State := { runScratch 256 memState with mem := Memory.write base.mem 0x12000 (leBytes 8 0x1000000000000A) }
def ldfeIn (scr : Bool) : Instr := .ldfe true scr .b32 noOrd l0 (.v 4) anAddr
theorem witness_OtherMemoryWords_ldfe : Ready (ldfeIn false) memState iss (gof memState) ∧ iss.hold = .none ∧ (gof memState).flagged = false ∧
    isOk ((began (ldfeIn false) memState iss (gof memState)).memTry (counted (ldfeIn false) iss (gof memState))
      (maskFilter (exFor (gof memState) iss.lanes l0 (.v 4)) (fun l => !((gof memState).lane l).feDone)) { loadReq anAddr 4 (globalEa anAddr) with fe := true }) = true :=
  ⟨ready_of (by decide), by decide, by decide, by decide⟩
theorem witness_OtherMemoryWords_ldfe_scratch : let s := runScratch 256 (spair 2 0 memState)
    Ready (ldfeIn true) s iss (gof s) ∧ isOk ((began (ldfeIn true) s iss (gof s)).scratchTry (counted (ldfeIn true) iss (gof s))
      (maskFilter (exFor (gof s) iss.lanes l0 (.v 4)) (fun l => !((gof s).lane l).feDone)) (loadReq anAddr 4 (offsetEa anAddr))) = true :=
  ⟨ready_of (by decide), by decide⟩
/-- The issue of a word whose own operation 4 holds it. -/
def heldIss : Issue := { iss with hold := .op 4 }
def heldState : State := { holding (.op 4) memState with cur := some heldIss }
theorem witness_OtherMemoryWords_ldfe_on : Ready (ldfeIn false) heldState heldIss (gof heldState) ∧ heldIss.hold = .op 4 := ⟨ready_of (by decide), rfl⟩
theorem witness_OtherMemoryWords_pref : Ready (.pref true false gd anAddr) memState iss (gof memState) := ready_of (by decide)
def acqRel : Order := ⟨true, true, .pkg⟩
theorem witness_OtherMemoryWords_fence : Ready (.fence acqRel gd) base iss (gof base) ∧ (gof base).acquired ((gof base).guarded iss.lanes gd) = true ∧
    (began (.fence acqRel gd) base iss (gof base)).released iss.grp (counted (.fence acqRel gd) iss (gof base)) base.nextId ((gof base).guarded iss.lanes gd) .pkg
      (base.tenantScope (gof base)) = true := ⟨ready_of (by decide), by decide, by decide⟩
def acquiring : State := withOp { pendOp with order := ⟨true, false, .pkg⟩, lanes := [⟨0, 1, 0x2000, 4, .dev 0x2000, [], .ready⟩] } base
theorem witness_OtherMemoryWords_fence_waits : Ready (.fence acqRel gd) acquiring iss (gof acquiring) ∧ (gof acquiring).guarded iss.lanes gd ≠ 0 ∧
    (gof acquiring).acquired ((gof acquiring).guarded iss.lanes gd) = false := ⟨ready_of (by decide), by decide, by decide⟩
theorem witness_OtherMemoryWords_caches : Ready (.flushH gd none) base iss (gof base) ∧ Ready (.invalH gd none) base iss (gof base) ∧
    (gof base).nonHelpers ((gof base).guarded iss.lanes gd) ≠ 0 := ⟨ready_of (by decide), ready_of (by decide), by decide⟩
def isRemote (x : Xlat × State) : Bool := x.1 == .remote 1 0x2000
theorem witness_OtherMemoryWords_lines : let s := remoteState
    Ready (.ldp gd 2 (.imm 1)) s iss (gof s) ∧ Ready (.stp gd 2 (.imm 1)) s iss (gof s) ∧ ((gof s).rs64 2).toNat = 0x2000 ∧
    128 * ((Src.imm 1).get (gof s) 0 .zext).toNat + 128 ≤ (s.descOf (gof s)).scratch ∧ s.owned = [] ∧
    isRemote ((began (.ldp gd 2 (.imm 1)) s iss (gof s)).xlat (s.ctxNum (gof s)) 0x2000 .read) = true ∧
    isRemote ((began (.stp gd 2 (.imm 1)) s iss (gof s)).xlat (s.ctxNum (gof s)) 0x2000 .pod) = true :=
  ⟨ready_of (by decide), ready_of (by decide), by decide, by decide, by decide, by decide, by decide⟩
def okTry (x : Try) : Bool := x.cause == 0 && x.acc.map (·.st) == some .ready
theorem witness_OtherMemoryWords_tbld : Ready (.tbld gd 4 2) memState iss (gof memState) ∧ ((gof memState).rs64 2).toNat % 64 = 0 ∧ (gof memState).probeOf iss = none ∧
    ((began (.tbld gd 4 2) memState iss (gof memState)).tryAll (memState.ldOf (gof memState)) (memState.ctxNum (gof memState)) .read ((List.range 33).map (fun i =>
      ((Mask.lanes ((gof memState).nonHelpers ((gof memState).guarded iss.lanes gd))).headD 0, (gof memState).rs64 2 + BitVec.ofNat 64 (64 * i))))).1.all okTry = true :=
  ⟨ready_of (by decide), by decide, by decide, by decide +kernel⟩
/-- One entry of `MCAS` at 0x2000 that names 0x4000. -/
def casState : State := { memState with mem := Memory.write memState.mem 0x2000 (leBytes 8 0x4000) }
def casWord : Instr := .mcas noOrd l0 (.v 4) (.s 2) (.imm 1)
def casBlocks : List Try × State := (began casWord casState iss (gof casState)).tryAll (casState.ldOf (gof casState)) (casState.ctxNum (gof casState)) .write
  ((List.range 3).map (fun i => (0, (Reg.s 2).get64 (gof casState) 0 + BitVec.ofNat 64 (8 * i))))
theorem witness_OtherMemoryWords_mcas : Ready casWord casState iss (gof casState) ∧ (gof casState).probeOf iss = none ∧ (gof casState).shadow = [] ∧
    Mask.lanes ((gof casState).nonHelpers (exFor (gof casState) iss.lanes l0 (.v 4))) = [0] ∧
    (counted casWord iss (gof casState)).lanesClear ((counted casWord iss (gof casState)).nonHelpers (exFor (gof casState) iss.lanes l0 (.v 4))) = true ∧
    mcasCount (.imm 1) (gof casState) 0 = 1 ∧ ((Reg.s 2).get64 (gof casState) 0).toNat % 8 = 0 :=
  ⟨ready_of (by decide), by decide, by decide, by decide, by decide, by decide, by decide⟩
theorem witness_OtherMemoryWords_mcas_blocks : (casBlocks.1.all (fun x => okTry x && casBlocks.2.accessFree (counted casWord iss (gof casState))
      ⟨0, 0, 0, 8, x.phys, [], .ready⟩ true)) = true ∧
    (casBlocks.2.readBlock 3 0 (counted casWord iss (gof casState)) 0 (casBlocks.1.map (·.phys))).getD 0 0 = 0x4000 ∧
    ((casBlocks.2.tryAll (casState.ldOf (gof casState)) (casState.ctxNum (gof casState)) .write [(0, 0x4000)]).1.all
      (fun x => okTry x && x.phys == .dev 0x4000)) = true := by decide +kernel

def pendB (s : State) (k id : Nat) (g : Group) (o : PendOp) : Bool :=
  s.grp k == some g && g.op id == some o && !o.done && s.holders g.blk (o.devLines s.pkg) == [] && s.crowders g o == []
theorem pend_of {s : State} {k id : Nat} {g : Group} {o : PendOp} (h : pendB s k id g o = true) : Claims.Pending s k id g o := by
  simp only [pendB, Bool.and_eq_true, beq_iff_eq, Bool.not_eq_true'] at h
  exact ⟨h.1.1.1.1, h.1.1.1.2, h.1.1.2, h.1.2, h.2⟩
def perfB (s : State) (k : Nat) (g : Group) (o : PendOp) (a : LaneAcc) (wr rd : Bool) : Bool :=
  a.st == .ready && s.mayPerform k g o a wr && s.accessFree g a rd && s.shareOk k a
theorem perf_of {s : State} {k : Nat} {g : Group} {o : PendOp} {a : LaneAcc} {wr rd : Bool} (h : perfB s k g o a wr rd = true) :
    Claims.Performable s k g o a wr rd := by
  simp only [perfB, Bool.and_eq_true, beq_iff_eq] at h
  exact ⟨h.1.1.1, h.1.1.2, h.1.2, h.2⟩
/-- Operation 4 of the group is this one, with this one access. -/
def opOf (kd : OpKind) (ct : Ctr) (a : LaneAcc) : PendOp := { storeOp a with kind := kd, ctr := ct }
def doing (kd : OpKind) (ct : Ctr) (a : LaneAcc) (s : State) : State := withOp (opOf kd ct a) s
/-- The operation is pending, and its access may be performed. -/
def canDo (kd : OpKind) (ct : Ctr) (a : LaneAcc) (wr rd : Bool) (s : State) : Bool :=
  let t := doing kd ct a s
  pendB t 3 4 (gof t) (opOf kd ct a) && perfB t 3 (gof t) (opOf kd ct a) a wr rd && (opOf kd ct a).named 1 true == [a] &&
    (opOf kd ct a).named 1 (Config.freeBit t.free) == [a] && (opOf kd ct a).localLine t.pkg == none
def rd4 : LaneAcc := acc (.dev 0x2000) 4 []
def full2000 : State := { base with full := [0x200] }
theorem witness_LoadReturns : canDo (.load (.v 4) .b32) .ld rd4 false true base = true ∧ canDo (.ldc (.v 4) .b32) .ld rd4 false true base = true ∧
    base.invis = [] ∧ ((base.blkOf (gof base)).map (·.held)).getD [] = [] ∧
    SMap.has (((base.gridOf (gof base)).map (·.ccache)).getD []) ((gof base).core * 2 ^ 40 + 0x2000) = false := by decide
theorem witness_LoadReturns_ldfe : canDo (.ldfe (.v 4) .b32 true) .ld rd4 false true full2000 = true ∧ full2000.granuleFull (gof full2000) rd4 = true ∧
    full2000.ckpt (gof full2000) = false ∧ full2000.fillsVisible rd4 = true ∧ (gof full2000).nonHelpers rd4.who ≠ 0 := by decide
theorem witness_LoadReturns_ldfe_scratch : let s := { runScratch 256 base with blocks := base.blocks.upd 2 (fun b => { b with sfe := [0] }) }
    canDo (.ldfe (.v 4) .b32 true) .ld (acc (.scratch 8) 4 []) false true s = true ∧ s.granuleFull (gof s) (acc (.scratch 8) 4 []) = true ∧
    (s.blocks.find (gof s).blk).isSome = true := by decide
def tblAcc (i : Nat) : LaneAcc := ⟨0, 1, 0x2000 + 64 * i, 64, .dev (0x2000 + 64 * i), [], .ready⟩
def tblOp : PendOp := { storeOp (tblAcc 0) with kind := .tbld 4 0x2000, ctr := .ld, lanes := (List.range 33).map tblAcc }
theorem witness_LoadReturns_tbld : let s := withOp tblOp base
    pendB s 3 4 (gof s) tblOp = true ∧ tblOp.lanes.all (fun a => perfB s 3 (gof s) tblOp a false true) = true ∧
    s.groups.all (fun p => p.2.ops.all (fun e => 4 ≤ e.id)) = true ∧ s.groups.all (fun p => p.2.core == (gof s).core) = true := by decide
theorem witness_LoadReturns_tbld_image : let s := withOp tblOp { base with mem := Memory.write base.mem 0x2004 [0, 0, 0, 0x42] }
    tableOk (fun i => if i < 528 then (BitVec.ofNat 32 (leNat (((tblOp.lanes.flatMap (fun a =>
      s.groupBytes 3 (gof s) a)).drop (4 * i)).take 4))).toNat else 0) = true := by decide +kernel
def back : State := { base with mem := Memory.write base.mem 0x2000 (leBytes 8 (2 ^ 56 - 8)) }
theorem witness_LoadReturns_refill : let s := doing (.refill 1) .own (acc (.dev 0x2000) 8 []) back
    canDo (.refill 1) .own (acc (.dev 0x2000) 8 []) false true back = true ∧ Mask.lanes 1 = [0] ∧ 0 < (gof s).lanes.length ∧ 0 < (gof s).width ∧
    ((gof s).lane 0).st = .running ∧ leNat (s.readPhys 3 (gof s) 0 (.dev 0x2000) 8).1 = 2 ^ 56 - 8 := by decide
def podAcc (bs : List Byte) : LaneAcc := ⟨0, 1, 0x2000, 128, .remote 0 0x2000, withOffsets bs, .ready⟩
theorem witness_LoadReturns_line : let s := doing (.ldp 1) .ld (podAcc []) (runScratch 256 base)
    pendB s 3 4 (gof s) (opOf (.ldp 1) .ld (podAcc [])) = true ∧ s.pkg = 0 ∧ (podAcc []).who &&& 1 ≠ 0 ∧ (gof s).remoteTurn (opOf (.ldp 1) .ld (podAcc [])) 0 = true ∧
    s.podLine 0x2000 = true ∧ s.isMoving 0x2000 = false ∧ s.owned = [] ∧ s.locks = [] ∧ s.clean 0x2000 128 = true ∧ s.invis = [] ∧
    (s.blkOf (gof s)).isSome = true ∧ ((s.blkOf (gof s)).map (·.held)).getD [] = [] := by decide

def st4 (ph : Phys) : LaneAcc := acc ph 4 [1, 2, 3, 4]
theorem witness_StoresPerformed : canDo .store .st (st4 (.dev 0x2000)) true false base = true ∧ canDo .stfe .st (st4 (.dev 0x2000)) true false base = true ∧
    base.ckpt (gof base) = false ∧ base.invis = [] ∧ canDo .store .st (st4 (.scratch 12)) true false (runScratch 256 base) = true ∧
    (base.blocks.find (gof base).blk).isSome = true := by decide
theorem witness_StoresPerformed_host : canDo .store .st (st4 (.host 0x2000)) true false base = true ∧ base.ckpt (gof base) = false := by decide
def cacheOp (kd : OpKind) : PendOp := { storeOp rd4 with kind := kd, lanes := [] }
theorem witness_StoresPerformed_caches : [OpKind.flushH true, .invalH true, .flushH false, .status 4 7].all (fun kd =>
      let s := withOp (cacheOp kd) base
      pendB s 3 4 (gof s) (cacheOp kd) && (gof s).hostStoresDone 4 && s.hostHolders (s.l1Core (gof s)) true (s.hostHalves (gof s) (cacheOp kd) true) == [] &&
      s.hostHolders (s.l1Core (gof s)) false (s.hostHalves (gof s) (cacheOp kd) false) == []) = true := by decide
def line128 : List Byte := (List.range 128).map (BitVec.ofNat 8)
theorem witness_StoresPerformed_line : let s := doing .stp .st (podAcc line128) base
    pendB s 3 4 (gof s) (opOf .stp .st (podAcc line128)) = true ∧ (gof s).remoteTurn (opOf .stp .st (podAcc line128)) 0 = true ∧ s.podLine 0x2000 = true ∧
    s.isMoving 0x2000 = false ∧ s.owned = [] ∧ s.locks = [] ∧ s.invis = [] ∧
    s.relOk 3 (gof s) (opOf .stp .st (podAcc line128)) (podAcc line128).who = true := by decide

theorem witness_AtomicsPerformed : [OpKind.atom .add .s32 (.v 5) [(0, 7)], .red .max .n32 [(0, 7)], .atomc .b32 (.v 5) [(0, 0)] [(0, 9)],
      .atomc .b32 (.v 5) [(0, 1)] [(0, 9)]].all (fun kd => canDo kd .ld rd4 true true base) = true ∧ base.invis = [] ∧ base.ckpt (gof base) = false ∧
    (base.atomRead 3 (gof base) rd4).1 = 0 := by decide
theorem witness_AtomicsPerformed_host : canDo (.atom .exch .n32 (.v 5) [(0, 7)]) .ld (acc (.host 0x2000) 4 []) true true base = true := by decide

def prog (locked : List Nat) (vals : List (Nat × Nat)) (n : Nat) (broken : Bool) : McasProg := ⟨[0], locked, n, broken, [], vals, none⟩
/-- Two entries, in lines 0x20 and 0x1FF. -/
def casOp (p : McasProg) : OpKind := .mcas (.v 5) [(0, 0x2000, [.dev 0x2000])] [(0, [(0x1000, 0x1000), (0xFF80, 0xFF80)])] p
theorem witness_McasSteps_commit : [0, 1].all (fun e => let p := prog [0x20, 0x1FF] [(0, 5), (e, 6)] 0 false
    let s := doing (casOp p) .ld (acc (.dev 0x2000) 8 []) base
    pendB s 3 4 (gof s) (opOf (casOp p) .ld (acc (.dev 0x2000) 8 [])) && s.invis == [] && s.ckpt (gof s) == false &&
    (mcasLines [(0x1000, 0x1000), (0xFF80, 0xFF80)]).all (p.locked.contains) && s.clean 0x1000 8 && s.clean 0xFF80 8 &&
    [leNat (plainRead s 0x1000 8), leNat (plainRead s 0xFF80 8)] == [0, 0]) = true := by decide
theorem witness_McasSteps_break : [14, 15].all (fun n => let p := prog [0x20] [] n true
    let s := doing (casOp p) .ld (acc (.dev 0x2000) 8 []) base
    pendB s 3 4 (gof s) (opOf (casOp p) .ld (acc (.dev 0x2000) 8 []))) = true := by decide

/-! ## Faults served, groups, pre-emption, pairs and barriers -/

/-- Fault 7 of context 0 at 0x2000, a read that found this leaf. -/
def aFault (st : FaultSt) : PFault := ⟨0, 0, 0x2000, 0, 0, st, false, []⟩
def faulting (leaf : Nat) (st : FaultSt) (s : State) : State := { s with mem := Memory.write s.mem 0x12000 (leBytes 8 leaf), faults := [(7, aFault st)] }
def level2 (e : Nat) : State := { faulting 0x13005 .asked base with mem := Memory.write (Memory.write base.mem 0x12000 (leBytes 8 0x13005)) 0x13000 (leBytes 8 e), ldevs := base.ldevs.upd 0 (fun d => { d with poolBase := 2 ^ 30, poolSize := 2 ^ 30 }) }
theorem witness_FaultsServed_there : let s := faulting 25 .asked base
    s.faults.find 7 = some (aFault .asked) ∧ s.sagePlan (aFault .asked) = some none := by decide
theorem witness_FaultsServed_allocates : let s := level2 0x28
    s.faults.find 7 = some (aFault .asked) ∧ s.sagePlan (aFault .asked) = some (some (0x13000, 1, 2 ^ 30, 2 ^ 21)) ∧ s.ldevs.find 0 ≠ none := by decide +kernel
theorem witness_FaultsServed_forwards : let s := faulting 0 .asked base
    s.faults.find 7 = some (aFault .asked) ∧ s.sagePlan (aFault .asked) = none ∧ s.ldevs.find 0 ≠ none := by decide
def waitAcc : LaneAcc := ⟨0, 1, 0x2000, 4, .zero, [], .fault 7⟩
theorem witness_FaultsServed_replay : let s := faulting 25 .resolved (doing (.load (.v 4) .b32) .ld waitAcc base)
    pendB s 3 4 (gof s) (opOf (.load (.v 4) .b32) .ld waitAcc) = true ∧ (OpKind.load (.v 4) .b32).holds = false ∧ waitAcc.va < 2 ^ 56 ∧
    s.faults.find 7 = some (aFault .resolved) ∧ (OpKind.load (.v 4) .b32).admits (.dev 0x2000) 4 = true ∧
    (s.xlat (s.ctxNum (gof s)) 0x2000 (OpKind.load (.v 4) .b32).access).1 = .ok (.dev 0x2000) := by decide
theorem witness_FaultsServed_fetch : let s := faulting 25 .resolved (holding (.fault 7) base)
    s.grp 3 = some (gof s) ∧ ((gof s).lane 0).hold = .fault 7 ∧ ((gof s).lane 0).st = .running ∧ s.faults.find 7 = some (aFault .resolved) := by decide
theorem witness_FaultsServed_release : let s := holding (.release true true .pkg) base
    s.grp 3 = some (gof s) ∧ ((gof s).lane 0).hold = .release true true .pkg ∧ ((gof s).lane 0).st = .running ∧ (gof s).acquired ((gof s).fragment 0) = true ∧
    s.released 3 (gof s) s.nextId ((gof s).fragment 0) .pkg (s.tenantScope (gof s)) = true := by decide
theorem witness_FaultsServed_persistent : let s := { doing (.load (.v 4) .b32) .ld rd4 base with clk := 1024 }
    s.unserved 0 0x40 1024 = true ∧ s.persistent = [] := by decide

def gst (st : GState) (s : State) : State := upd s (fun g => { g with state := st })
theorem witness_GroupEvents_enter : let s := gst .pending { base with cur := none }
    s.grp 3 = some (gof s) ∧ (gof s).state = .pending ∧ s.inSlot (gof s).core ((gof s).idx % 4) .active < 8 ∧
    s.nextPending (gof s).core ((gof s).idx % 4) = some 3 := by decide
/-- 24 pending groups of the slot that are ready, and one active group that waits. -/
def crowd : State := { holding (.sync ⟨.blk, 1⟩ 0) base with groups := (3, gof (holding (.sync ⟨.blk, 1⟩ 0) base)) :: (List.range 24).map (fun k => (10 + k, { gof base with state := .pending, idx := 4 * (k + 1), age := k + 1 })) }
theorem witness_GroupEvents_out : let s := holding (.sync ⟨.blk, 1⟩ 0) base
    s.grp 3 = some (gof s) ∧ (gof s).state = .active ∧ s.groupReady 3 (gof s) = false ∧ 0 ∈ (gof s).leaders ∧ s.longWait 3 (gof s) 0 = true ∧
    s.inSlot (gof s).core ((gof s).idx % 4) .pending < 24 := by decide
theorem witness_GroupEvents_exchange : let s := crowd
    s.grp 3 = some (gof s) ∧ s.groupReady 3 (gof s) = false ∧ 0 ∈ (gof s).leaders ∧ s.longWait 3 (gof s) 0 = true ∧
    24 ≤ s.inSlot (gof s).core ((gof s).idx % 4) .pending ∧ s.nextPending (gof s).core ((gof s).idx % 4) = some 10 := by decide +kernel
theorem witness_GroupEvents_idle : let s := { holding (.sync ⟨.blk, 1⟩ 0) base with clk := 256 }
    s.grp 3 = some (gof s) ∧ (gof s).state = .active ∧ s.groupReady 3 (gof s) = false ∧ (gof s).idleClk + 256 ≤ s.clk ∧
    s.inSlot (gof s).core ((gof s).idx % 4) .pending < 24 := by decide
theorem witness_GroupEvents_line : let s := upd base (fun g => { g with missing := [0, 1039] })
    s.grp 3 = some (gof s) ∧ 1039 ∈ (gof s).missing ∧ (gof s).state ≠ .saved ∧ ((gof s).pinnedLines (s.descOf (gof s)).width).contains 1039 = true := by decide
def unfetched (leaf : Nat) : State := { upd base (fun g => { g with fetched := [] }) with mem := Memory.write base.mem 0x12000 (leBytes 8 leaf) }
theorem witness_GroupEvents_fetch : let s := unfetched 25
    s.grp 3 = some (gof s) ∧ ((gof s).lane 0).st = .running ∧ ((gof s).lane 0).hold = .none ∧ (gof s).fetched.find ((gof s).lane 0).pc.toNat = none ∧
    (gof s).state = .active ∧ (s.xlat (s.ctxNum (gof s)) 0x1000 .fetch).1 = .ok (.dev 0x1000) ∧ s.clean 0x1000 8 = true ∧ 0 < (gof s).width := by decide
theorem witness_GroupEvents_fault : let s := unfetched 9
    s.grp 3 = some (gof s) ∧ ((gof s).lane 0).st = .running ∧ ((gof s).lane 0).hold = .none ∧ (gof s).fetched.find ((gof s).lane 0).pc.toNat = none ∧
    (gof s).state = .active ∧ (s.xlat (s.ctxNum (gof s)) 0x1000 .fetch).1 = .fault 1 false ∧ 0 < (gof s).width := by decide

def stopLanes (k : StopKind) (s : State) : State := flag (upd s (fun g => { g with lanes := g.lanes.map (fun x => { x with st := .stopped k }) }))
theorem witness_PreemptionEvents : (let s := stopLanes .waitPoint base
    s.grp 3 = some (gof s) ∧ (gof s).flagged = true ∧ (gof s).allStopped = true ∧ (gof s).state = .active ∧ s.ungranted 3 (gof s) = [] ∧ (gof s).quiet = true ∧
    s.ckpt (gof s) = false ∧ ((s.blkOf (gof s)).map (·.rolling)).getD false = false) ∧
    ([1, 2 ^ 62].all (fun n => let s := stopLanes (.safePoint ⟨n, n, 1, 1, 1⟩ none) base
      (gof s).allStopped && (gof s).liveSet.s.testBit (if n = 1 then 0 else 62) && !(gof s).liveSet.s.testBit 1)) = true := by decide
def drainState (saved : Bool) (u : Option Nat) : State := { base.updCtx 0 (fun c => { c with st := .draining, drain := u }) with blocks := base.blocks.upd 2 (fun b => { b with saved := saved }) }
theorem witness_PreemptionEvents_saved : let s := drainState true none
    s.ctxs.find 0 = some (cof s) ∧ (cof s).st = .draining ∧ ((s.saveParked 0).ctxBlocks 0).all (fun p => p.2.saved) = true ∧ s.enginesQuiet 0 = true := by decide
theorem witness_PreemptionEvents_limit : let s := drainState false (some 0)
    s.ctxs.find 0 = some (cof s) ∧ (cof s).st = .draining ∧ (cof s).drain = some 0 ∧ 0 ≤ s.timebase := by decide

def pmv (d a : BitVec 8) : PSlot := ⟨7, .mov, d, .v a⟩
theorem witness_PairWords : Ready (.pair (pmv 1 2) (pmv 2 1)) base iss (gof base) ∧ (pmv 1 2).mem base iss (gof base) = none ∧
    (pmv 2 1).mem base iss (gof base) = none ∧ Ready (.pair ⟨7, .add, 1, .v 3⟩ (pmv 2 1)) base iss (gof base) ∧
    Ready (.pair ⟨7, .add64, 4, .v 6⟩ (pmv 8 2)) base iss (gof base) :=
  ⟨ready_of (by decide), by decide, by decide, ready_of (by decide), ready_of (by decide)⟩
def isAccs (x : Option (Ctr × OpKind × Except Trap (List LaneAcc × State))) : Bool := match x with
  | some (_, _, .ok (a :: _, _)) => a.lane == 0
  | _ => false
def slotSt : PSlot := ⟨1, .st, 4, .s 2⟩
theorem witness_PairWords_memory : [(slotSt, pmv 8 5), (pmv 8 5, slotSt)].all (fun p => let i := Instr.pair p.1 p.2; let s := memState
    readyB i s iss (gof s) && (gof s).probeOf iss == none && isAccs ((if p.1.op == .st then p.1 else p.2).mem ((began i s iss (gof s)).setGrp 3 ((counted i iss (gof s)).run (fun h =>
      (p.1.eff (began i s iss (gof s)) iss h).append (p.2.eff (began i s iss (gof s)) iss h)))) iss (counted i iss (gof s)))) = true := by decide

/-- Barrier 1 of the block as given; without one it is as the block was placed. -/
def barSt (b : Barrier) (s : State) : State := { s with blocks := s.blocks.upd 2 (fun x => { x with bars := [(1, b)] }) }
def bar1 : Bar := ⟨.blk, 1⟩
def barOf (s : State) (b : Bar) : Barrier := (s.bar (gof s) b).getD ⟨[], [], 0, 0, 0⟩
def atBarB (i : Instr) (s : State) (c : Issue) (b : Bar) : Bool := readyB i s c (gof s) && (gof s).converged c.lanes && !s.ckpt (gof s) &&
  (s.blkOf (gof s)).isSome && (s.gridOf (gof s)).isSome && (s.bar (gof s) b).isSome
theorem atBar_of {i : Instr} {s : State} {c : Issue} {b : Bar} (h : atBarB i s c b = true) : AtBarrier i s c (gof s) b (barOf s b) := by
  simp only [atBarB, Bool.and_eq_true, Bool.not_eq_true'] at h
  obtain ⟨⟨⟨⟨⟨h1, h2⟩, h3⟩, h4⟩, h5⟩, h6⟩ := h
  exact ⟨ready_of h1, h2, h3, h4, h5, by unfold barOf; cases hb : s.bar (gof s) b with | none => simp [hb] at h6 | some x => rfl⟩
def noneB : Barrier := ⟨[3, 9], [], 0, 0xFFFF, 255⟩
def oneB : Barrier := ⟨[3, 9], [9], 1, 0, 0⟩
def cameB : Barrier := ⟨[3, 9], [3], 1, 0, 0⟩
def otherB : Barrier := ⟨[9], [], 0, 0, 0⟩
-- the list 0, the list of every group, one past it; a barrier in a phase
theorem witness_BarrierWords_binit : [0, 1, 2].all (fun x => atBarB (.binit 4 bar1 5) (sreg 5 x base) iss bar1) = true ∧ (base.descOf (gof base)).groups = 1 ∧
    (barOf base bar1).count = 0 ∧ AtBarrier (.binit 4 bar1 5) (barSt oneB (sreg 5 1 base)) iss (gof (barSt oneB (sreg 5 1 base))) bar1 oneB :=
  ⟨by decide, by decide, by decide, atBar_of (by decide)⟩
def arrives (s : State) : Bool := [Instr.arrive 4 bar1, .bdrop bar1, .bsync bar1].all (fun i => atBarB i s iss bar1 &&
  (began i s iss (gof s)).released 3 (counted i iss (gof s)) s.nextId ((gof s).mask (fun _ => true)) (BScope.order .blk) false)
theorem witness_BarrierWords_arrive : [noneB, oneB].all (fun b => arrives (barSt b base) && decide (3 ∈ b.members ∧ 3 ∉ b.arrived)) = true ∧
    (gof base).flagged = false ∧ oneB.members.length ≤ oneB.count + 1 ∧ noneB.count + 1 < noneB.members.length := by decide
def syncIss : Issue := { iss with hold := .sync bar1 0 }
def syncSt : State := { holding (.sync bar1 0) base with cur := some syncIss }
theorem witness_BarrierWords_over : Ready (.bsync bar1) syncSt syncIss (gof syncSt) ∧ (gof syncSt).converged syncIss.lanes = true ∧
    syncSt.ckpt (gof syncSt) = false := ⟨ready_of (by decide), by decide, by decide⟩
-- tokens of the present phase, of one that has ended, and of none
theorem witness_BarrierWords_tokens : [(0x01FFFFFF, some (bar1, noneB)), (0x01FFFFFE, some (bar1, noneB)), (0xC1FFFFFF, none)].all (fun p =>
      let s := barSt noneB (sreg 5 p.1 base)
      readyB (.bwait 5) s iss (gof s) && readyB (.btest 4 5) s iss (gof s) && (gof s).converged iss.lanes &&
      s.tokenBar (gof s) ((gof s).rs (5 : BitVec 6).toNat) == p.2) = true := by decide
theorem witness_BarrierWords_diverged : [Instr.binit 4 bar1 5, .arrive 4 bar1, .bwait 5, .bdrop bar1, .bsync bar1, .btest 4 5].all (fun i =>
      readyB i (alone (joined 0 0 .running)) one (gof (alone (joined 0 0 .running)))) = true ∧ (gof (alone (joined 0 0 .running))).nonHelpers one.lanes ≠ 0 ∧
    (gof (alone (joined 0 0 .running))).converged one.lanes = false := by decide
theorem witness_BarrierWords_use : [(otherB, false), (cameB, true)].all (fun p => [Instr.arrive 4 bar1, .bsync bar1].all (fun i =>
      atBarB i (barSt p.1 base) iss bar1 && p.1.arrived.contains 3 == p.2 && p.1.members.contains 3 == p.2)) = true ∧ (gof base).nonHelpers iss.lanes ≠ 0 := by decide

/-! ## Matrix engines -/

/-- FP32 blocks of 16 along K, one block. -/
def aFmt : MFmt := ⟨0, 0, 0, 32, 16, 0, 0, 0, 0, 0, 0, 0, 0⟩
def matSt : State := spair 6 0 (spair 4 0x2000 (spair 2 0x2000 (upd base (fun g => { g with mf := [(0, aFmt)] }))))
def args : PassArgs := ⟨0, 2, 4, 6, 0, false⟩
def tableB (i : Instr) (s : State) : Bool := readyB i s iss (gof s) && (gof s).converged iss.lanes && (s.cluster (clusterOf (gof s).core)).room
theorem table_of {i : Instr} {s : State} (h : tableB i s = true) : AtTable i s iss (gof s) := by
  simp only [tableB, Bool.and_eq_true] at h
  exact ⟨ready_of h.1.1, h.1.2, h.2⟩
def pairSt : State := matSt.updGrid 1 (fun g => { g with desc := { g.desc with pair := true } })
theorem witness_MatrixWords : AtTable (.mma args) matSt iss (gof matSt) ∧ (gof matSt).mfPending 0 = false ∧ (gof matSt).mf.find 0 = some aFmt ∧
    Claims.passAligned (gof matSt) args ∧ AtTable (.mmap args) pairSt iss (gof pairSt) ∧ (pairSt.descOf (gof pairSt)).pair = true :=
  ⟨table_of (by decide), by decide, by decide, by unfold Claims.passAligned; decide, table_of (by decide), by decide⟩
theorem witness_MatrixWords_slots : [Instr.mzero 5, .mdrn true 0 2, .mlda 0 2, .mvec true false 3 8 1 0, .mvec false true 7 8 1 0].all (fun i => tableB i matSt) = true ∧
    ((gof matSt).rs64 2).toNat % 64 = 0 := by decide
def isSome1 (x : Except Trap (List LaneAcc × State)) : Bool := match x with
  | .ok (as, _) => as.length == 1
  | .error _ => false
theorem witness_MatrixWords_mfmt : Ready (.mfmt 10 0 2) matSt iss (gof matSt) ∧ (gof matSt).converged iss.lanes = true ∧ (gof matSt).mfPending 0 = false ∧
    ((gof matSt).rs64 2).toNat % 64 = 0 ∧ (gof matSt).probeOf iss = none ∧
    isSome1 ((began (.mfmt 10 0 2) matSt iss (gof matSt)).memTry (counted (.mfmt 10 0 2) iss (gof matSt)) iss.lanes
      { loadReq ⟨.s 2, .imm 0⟩ 64 (fun _ _ => (gof matSt).rs64 2) with uni := true, helpers := false }) = true :=
  ⟨ready_of (by decide), by decide, by decide, by decide, by decide, by decide⟩
theorem witness_MatrixWords_traps : Ready (.mma args) base iss (gof base) ∧ Ready (.mmap args) base iss (gof base) ∧ (gof base).mf.find 0 = none ∧
    Ready (.mlda 0 2) (spair 2 0x2020 base) iss (gof (spair 2 0x2020 base)) ∧ ((gof (spair 2 0x2020 base)).rs64 2).toNat % 64 ≠ 0 ∧
    (gof base).nonHelpers iss.lanes ≠ 0 := ⟨ready_of (by decide), ready_of (by decide), by decide, ready_of (by decide), by decide, by decide⟩

/-- An entry of the placed group for slot 0, numbered 4. -/
def ent (k : MKind) (st : EntSt) : MEntry := ⟨4, 3, 0, 2, 0, 0, 0x1000, k, 0, 0, some 100, st, 0, none, none, false, [], none, []⟩
def pass (paired : Bool) (f : MFmt) : PassCap := ⟨paired, 0x2000, 0x2000, 0, 0, false, f⟩
def tabled (e : MEntry) (sl : SlotSt) : State := { base with clusters := [(0, ⟨[e], 0, 16, 0⟩)], blocks := base.blocks.upd 2 (fun b => { b with slots := b.slots.set 0 ⟨sl, [(0, 7)], 0, none, []⟩ }) }
theorem witness_MatrixArbiter_refill : 159 < Config.numClusters ∧ (([base, { base with clusters := [(159, ⟨[], 4090, 16, 0⟩)] }].map (fun s =>
    decide (((s.cluster 159).refills + 1) * 256 ≤ ({ s with clk := 256 } : State).clk))) = [true, true]) := by decide
theorem witness_MatrixArbiter_grant : [ent (.pass (pass false aFmt)) .posted, ent .zero .posted].all (fun e => let s := tabled e .idle
    s.entry 0 4 == some e && clusterOf e.core == 0 && !e.paired && s.choice 0 e.isPass == some e && !s.pathBusy 0 e.isPass && decide (0 ≤ (s.cluster 0).account) &&
    (s.blocks.find e.blk).isSome) = true := by decide
theorem witness_MatrixArbiter_barred : let e := ent (.drain false 0x2000) .posted; let s := tabled e .halted
    s.entry 0 4 = some e ∧ e.paired = false ∧ s.isHead e = true ∧ s.barred e = true := by decide
theorem witness_MatrixArbiter_lone : let e := ent (.pass (pass true aFmt)) (.granted 0); let s := { tabled e .idle with clk := 64 }
    s.clusters.find 0 = some ⟨[e], 0, 16, 0⟩ ∧ s.loneHalf e = true := by decide
def ctxLd (s : State) (e : MEntry) : Nat := ((s.ctxs.find e.ctx).map (·.ld)).getD 0
def allPages (p : Phys → Bool) (x : Pages × State) : Bool := match x.1 with
  | .ok m => m.all (fun q => p q.2)
  | _ => false
def bare (e : MEntry) : MEntry := { e with weight := none }
theorem witness_MatrixArbiter_estimate : let e := bare (ent (.pass (pass false aFmt)) .posted); let p := pass false aFmt; let s := tabled e .idle
    s.entry 0 4 = some e ∧ allPages Phys.readable (s.engPages (ctxLd s e) e.ctx 0 false ((((List.range 16).map (fun i => (p.panelA, i)) ++
      (List.range 16).map (fun j => (p.panelB, (if e.paired then 256 * (clusterOf e.core % 2) else 0) + j))).flatMap (fun r =>
        pagesFrom (r.1.at r.2 0) (r.1.bytes (Nat.min p.fmt.k 256)))).foldl insertNat [])) = true := by decide +kernel
def numSt (c : NumClass) : State := { base with ldevs := base.ldevs.upd 0 (fun d => { d with num := [(3, c)] }), clk := 65536 * 16 }
theorem witness_MatrixArbiter_window : [(⟨5, 0, 1, 0, 3, 2, true, 0⟩ : NumClass), ⟨5, 0, 0, 0, 3, 1, true, 0⟩].all (fun c => let s := numSt c
    s.ldevs.find 0 != none && c == SMap.getD (s.ld 0).num 3 emptyNum && decide (c.start / 1024 < s.timebase / 1024)) = true := by decide

def slotB (s : State) (e : MEntry) : Bool := s.entry 0 e.eid == some e && clusterOf e.core == 0 && e.isGranted && (s.blocks.find e.blk).isSome && (s.slotOf e).st == .busy
def blkOf2 (s : State) : Block := (s.blocks.find 2).getD ⟨0, 0, 0, false, [], 0, [], [], [], [], none, [], [], false, 0, false, false, []⟩
theorem inSlot_of {s : State} {e : MEntry} (h : slotB s e = true) (hb : s.blocks.find e.blk = some (blkOf2 s)) : Claims.InSlot s 0 e.eid e (blkOf2 s) := by
  simp only [slotB, Bool.and_eq_true, beq_iff_eq] at h
  exact ⟨h.1.1.1.1, h.1.1.1.2, h.1.1.2, hb, h.2⟩
/-- A pass at work, with this leaf for its operands. -/
def passing (leaf : Nat) : State := { tabled (ent (.pass (pass false aFmt)) (.granted 0)) .busy with mem := Memory.write base.mem 0x12000 (leBytes 8 leaf) }
def passE : MEntry := ent (.pass (pass false aFmt)) (.granted 0)
def scanned (s : State) : Scan := (s.scan s (ctxLd s passE) 0 4 (pass false aFmt) 1 0 []).1
def scanCode : Scan → Nat
  | .all _ => 0
  | .wait .. => 1
  | .bad .. => 2
  | .trail .. => 3
theorem witness_MatrixPasses_begins : let s := passing 25
    slotB s passE = true ∧ (s.blocks.find 2).isSome = true ∧ passE.begun = false ∧ s.opReleased passE = true := by decide
/-- A pass that has begun to read. -/
def reading (leaf : Nat) : State := { tabled { passE with begun := true } .busy with mem := Memory.write base.mem 0x12000 (leBytes 8 leaf) }
theorem witness_MatrixPasses : [25, 0, 26].all (fun l => let s := reading l
      slotB s { passE with begun := true } && s.owned == [] && s.poison == [] && s.blocks.all (fun q => q.2.holdsNone) && (s.slotOf passE).progress == 0 &&
      (s.blocks.find 2).isSome) = true := by decide
theorem witness_MatrixPasses_scan : [25, 0, 0x10000000000002].map (fun l => scanCode (scanned (reading l))) = [0, 1, 2] := by decide +kernel
theorem witness_MatrixPasses_resume : let e := ent (.pass (pass false aFmt)) (.stalled 7); let s := tabled e .stalled
    s.entry 0 4 = some e ∧ clusterOf e.core = 0 ∧ s.faultOver 7 = true ∧ s.faultFailed 7 = false ∧ (s.cluster 0).room = true := by decide

theorem witness_MatrixCompletions : [MKind.zero, .mvec false false 8 247 0 0xFFFFFFFF [], .mvec false true 1 0 0x010203 1 [], .mvec true true 1 0 0 3 [(0, 5), (1, 6)]].all (fun k =>
      let e := ent k (.granted 0); let s := tabled e .busy
      slotB s e && (s.blocks.find 2).isSome && (s.grp e.grp).isSome) = true := by decide
/-- An FP32 tensor of two by two elements. -/
def aPart : Part := ⟨0, [(2, 4), (2, 8)], 0x2000, 0, 0, 0, 0, 0, [0, 0, 0, 0, 0, 0]⟩
def aDesc : DrainDesc := ⟨0, 0, false, 0, [aPart]⟩
theorem witness_MatrixCompletions_loadBegins : let e := ent (.mlda 0x3000) (.granted 0); let s := tabled e .busy
    slotB s e = true ∧ (s.blocks.find 2).isSome = true ∧ e.begun = false ∧ s.opReleased e = true := by decide
theorem witness_MatrixCompletions_load : let e := { ent (.mlda 0x3000) (.granted 0) with desc := some aDesc, begun := true }; let s := tabled e .busy
    slotB s e = true ∧ e.wait = none ∧ s.owned = [] ∧ s.poison = [] ∧ s.blocks.all (fun q => q.2.holdsNone) = true ∧
    allPages Phys.readable (s.engPages (ctxLd s e) e.ctx (opKey 4) false ((((aDesc.parts.take 1).flatMap Part.window).flatMap (fun r => pagesFrom r.1 r.2)).foldl insertNat [])) =
      true := by decide +kernel
theorem witness_MatrixCompletions_claim : let e := { ent (.drain true 0x3000) (.granted 0) with desc := some aDesc }; let s := tabled e .busy
    slotB s e = true ∧ e.claim = none ∧ e.wait = none ∧ s.opReleased e = true ∧
    allPages Phys.isDevice (s.engPages (ctxLd s e) e.ctx (opKey 4) true (pagesOf aDesc.targets)) = true ∧ aDesc.targets ≠ [] ∧ aDesc.mode ≠ 2 ∧ s.blocks.all (fun q => q.2.holdsNone) = true := by decide +kernel
theorem witness_MatrixCompletions_drained : [true, false].all (fun z => let e := { ent (.drain z 0x3000) (.granted 0) with claim := some ⟨[], [], [(2, .dev 0x2000)]⟩, desc := some aDesc, begun := true }
    slotB { tabled e .busy with owned := [(0x40, 4)] } e && e.tail == []) = true := by decide
theorem witness_MatrixCompletions_writes : let e := { ent (.drain true 0x3000) (.granted 0) with claim := some ⟨[(0x40, [(.dev 0x2000, 9)])], [], [(2, .dev 0x2000)]⟩, desc := some aDesc }
    let s := { tabled e .busy with owned := [(0x40, 4)] }
    slotB s e = true ∧ (s.blocks.find 2).isSome = true ∧ aDesc.mode ≠ 2 ∧ s.granted 4 0x40 = true := by decide
def fmtBytes (units : Nat) : List Byte := leBytes 3 0 ++ leBytes 1 units ++ leBytes 4 16 ++ leBytes 56 0
def fmtAcc : LaneAcc := acc (.dev 0x2000) 64 []
def fmtSt (units : Nat) : State := { base with mem := Memory.write base.mem 0x2000 (fmtBytes units) }
theorem witness_MatrixCompletions_mfmt : [32, 255].all (fun u => let s := doing (.mfmt 10 0 0x2000) .mx fmtAcc (fmtSt u)
    canDo (.mfmt 10 0 0x2000) .mx fmtAcc false true (fmtSt u) && s.released 3 (gof s) 4 (allLanes (gof s)) .grp false && field (s.readPhys 3 (gof s) 0 (.dev 0x2000) 64).1 3 1 == u &&
    readMfmt (s.readPhys 3 (gof s) 0 (.dev 0x2000) 64).1 == some { aFmt with units := u } && decide (u ≤ s.freeUnits 0)) = true := by decide

/-! ## Transfers, collectives and the loop -/

def eng (s : State) : State := spair 2 0x2000 s
def engWords : List Instr := [.tcpy gd 2, .gath gd 2, .scat gd 2, .fill gd 2, .coll gd 2]
/-- Nothing is in the way of an engine word, whose release is met or not. -/
def engB (met : Bool) (s : State) (i : Instr) : Bool := readyB i s iss (gof s) && (gof s).nonHelpers ((gof s).guarded iss.lanes gd) != 0 &&
  (began i s iss (gof s)).released 3 (counted i iss (gof s)) s.nextId ((gof s).mask (fun _ => true)) .pkg false == met
theorem witness_EngineWords : engWords.all (engB true (eng base)) = true ∧ ((gof (eng base)).rs64 2).toNat % 64 = 0 ∧
    ((gof (spair 2 0x2020 base)).rs64 2).toNat % 64 ≠ 0 := by decide
theorem witness_EngineWords_waits : engWords.all (engB false (withOp (storeOp (acc (.dev 0x3000) 4 [1, 2, 3, 4])) (eng base))) = true := by decide
theorem witness_EngineWords_misaligned : engWords.all (fun i => readyB i (spair 2 0x2020 base) iss (gof (spair 2 0x2020 base))) = true := by decide

/-- A shape record of n FP32 elements, and a copy of them from 0x4000 to 0x5000 (or scratch 0). -/
def shapeRec (n : Nat) : List Byte := leBytes 1 1 ++ leBytes 31 0 ++ leBytes 4 n ++ leBytes 8 4 ++ leBytes 84 0
def copyRec (flags sig : Nat) : List Byte := leBytes 8 0x3000 ++ leBytes 8 0x4000 ++ leBytes 8 0x3080 ++ leBytes 8 (if flags = 2 then 0 else 0x5000) ++ leBytes 8 0 ++
  leBytes 4 0 ++ leBytes 1 0 ++ leBytes 1 flags ++ leBytes 2 0 ++ leBytes 8 sig ++ leBytes 8 77
def copyMem (n flags sig : Nat) : List Host.Cell :=
  Memory.write (Memory.write (Memory.write (Memory.write base.mem 0x2000 (copyRec flags sig)) 0x3000 (shapeRec n)) 0x3080 (shapeRec n)) 0x4000 [1, 2, 3, 4, 5, 6, 7, 8]
def asked (k : TKind) : Transfer := ⟨0, k, 0, 3, 4, 2, 0x1000, 0x2000, .queued, ⟨0, []⟩, ⟨0, []⟩, 0, 0, 0, [], 0, 0, .zero, 0, 0, none⟩
def pair2 : Shape := ⟨0, [(2, 4)]⟩
def moved (flags sig : Nat) : Transfer := { asked .tcpy with st := .moving, src := pair2, dst := pair2, srcBase := 0x4000, dstBase := (if flags = 2 then 0 else 0x5000), flags := flags, sig := sig, sigv := 77 }
def xfer (x : Transfer) (s : State) : State := { withOp (opOf (.transfer 4) .cp rd4) s with transfers := [(4, x)] }
def copySt (x : Transfer) (flags sig : Nat) : State := { xfer x base with mem := copyMem 2 flags sig }
def waits (c : Checked × State) : Bool := match c.1 with
  | .wait _ => true
  | _ => false
theorem witness_TransferEvents : (copySt (asked .tcpy) 0 0).transfers.find 4 = some (asked .tcpy) ∧ (copySt (asked .tcpy) 0 0).inEngine 0 = 0 ∧
    (copySt (asked .tcpy) 0 0).ctxDead 0 = false ∧ (copySt (asked .tcpy) 0 0).transfers.length = 1 ∧
    (asked .tcpy).kind.isPacket = false ∧ (asked (.packet 0 1 2)).kind.isPacket = true := by decide
theorem witness_TransferEvents_ready : ((copySt (asked .tcpy) 0 0).readsNow 4 |>.checkTransfer (asked .tcpy)).1 = .ready (moved 0 0) := by decide +kernel
theorem witness_TransferEvents_bad : ((xfer (asked .gath) base).readsNow 4 |>.checkTransfer (asked .gath)).1 = .bad 1 := by decide +kernel
theorem witness_TransferEvents_wait : waits (({ xfer (asked .tcpy) base with mem := Memory.write base.mem 0x12000 (leBytes 8 0) } : State).checkTransfer (asked .tcpy)) = true := by
  decide +kernel
def okPages (m : SMap Phys) : Pages → Bool
  | .ok x => x == m
  | _ => false
theorem witness_TransferEvents_dead : let s := (copySt (asked .tcpy) 0 0).updCtx 0 (fun c => { c with dead := true })
    s.transfers.find 4 = some (asked .tcpy) ∧ s.ctxDead 0 = true := by decide
theorem witness_TransferEvents_claims : let s := copySt (moved 0 0) 0 0; let x := moved 0 0
    s.transfers.find 4 = some x ∧ x.claimed = none ∧ s.ctxDead 0 = false ∧ okPages [(4, .dev 0x4000)] (s.chunkPages 4 x).1 = true ∧
    okPages [(5, .dev 0x5000)] (s.chunkPages 4 x).2.1 = true ∧ x.elems = [(0, 0), (1, 1)] ∧
    (x.elems.flatMap (x.dstAt [(5, .dev 0x5000)])).all (fun p => p.movable) = true ∧
    (x.elems.flatMap (x.srcAt [(4, .dev 0x4000)])).all (fun p => p.movable && s.lineFree 4 x.blk p && s.engClean p) = true ∧
    s.blocks.all (fun q => q.2.holdsNone) = true := by decide +kernel
/-- A chunk with its lines claimed: it still writes these pieces. -/
def claimedOf (flags sig : Nat) (ps : SMap (List (Phys × Byte))) : Transfer := { moved flags sig with claimed := some ⟨ps, [(4, .dev 0x4000)], [(5, .dev 0x5000)]⟩ }
def claimSt (flags sig : Nat) (ps : SMap (List (Phys × Byte))) : State := { copySt (claimedOf flags sig ps) flags sig with owned := (claimKeys ps).map (fun l => (l, 4)) }
def devPiece : SMap (List (Phys × Byte)) := [(0xA0, [(.dev 0x5000, 1), (.dev 0x5001, 2)])]
def scrPiece : SMap (List (Phys × Byte)) := [(scratchLine 2 0, [(.scratch 0, 1), (.scratch 1, 2)])]
theorem witness_TransferEvents_moves : [devPiece, scrPiece].all (fun ps => let s := claimSt 0 0 ps; let x := claimedOf 0 0 ps
      s.transfers.find 4 == some x && ps.all (fun p => s.granted 4 p.1)) = true ∧ (base.blocks.find 2).isSome = true ∧
    (scrPiece.all (fun p => p.2.all (fun q => q.1 == .scratch 0 || q.1 == .scratch 1))) = true := by decide
theorem witness_TransferEvents_ends : [0, 0x6000].all (fun sig => let s := claimSt 0 sig []; let x := claimedOf 0 sig []
      s.transfers.find 4 == some x && decide (x.dst.count ≤ (x.chunk + 1) * x.span) && s.engVisible x.grp 4) = true := by decide
theorem witness_TransferEvents_more : let x := { claimedOf 0 0 [] with dst := ⟨0, [(16385, 4)]⟩ }
    (x.chunk + 1) * x.span < x.dst.count := by decide
theorem witness_TransferEvents_mapped : [TSt.checking 7, .waiting 7].all (fun st => let s := xfer { moved 0 0 with st := st } base
    s.transfers.find 4 == some { moved 0 0 with st := st } && s.faultOver 7) = true := by decide
def signalling (ph : Phys) : Transfer := { moved 0 0x6000 with st := .signalling, sigPhys := ph }
theorem witness_TransferEvents_signal : [Phys.dev 0x6000, .scratch 0x20].all (fun ph => let s := xfer (signalling ph) base
    s.transfers.find 4 == some (signalling ph) && s.engVisible 3 4 && s.lineFree 4 2 ph && (s.blocks.find 2).isSome && !s.ctxDead 0 && s.blocks.all (fun q => q.2.holdsNone)) = true := by decide

/-- A collective of this package alone, one FP32 element from 0x4000 to 0x5000; its member map is at 0x3000. -/
def collRec (op sig : Nat) : List Byte := leBytes 4 op ++ leBytes 2 1 ++ leBytes 2 0 ++ leBytes 8 1 ++ leBytes 8 0x4000 ++ leBytes 8 0x5000 ++ leBytes 8 0x3000 ++
  leBytes 4 9 ++ leBytes 4 0 ++ leBytes 8 sig ++ leBytes 8 77
def aColl : Coll := ⟨0, 0, 3, 4, 0x1000, 0, 0x2000, .queued, ⟨0, 0, 0, 0, 0, 0, 0, 0, 0, 0, 0, 0⟩, [], [], none, none, .zero, none⟩
def collSt (c : Coll) (op : Nat) : State := { withOp (opOf (.coll 4) .cp rd4) base with colls := [(4, c)], mem := Memory.write (Memory.write base.mem 0x2000 (collRec op 0)) 0x4000 [1, 2, 3, 4] }
def collCode (c : CStart × State) : Nat := match c.1 with
  | .go y src => if y.members = [0] ∧ src = [1, 2, 3, 4] then 1 else 9
  | .fail .. => 2
  | .wait _ => 3
  | .later => 4
  | .held _ => 5
theorem witness_CollectiveEvents : (collSt aColl 0).colls.find 4 = some aColl ∧ (collSt aColl 0).pkg = 0 ∧ (collSt aColl 0).blocks.all (fun q => q.2.holdsNone) = true := by decide
theorem witness_CollectiveEvents_checks : [collSt aColl 0, collSt aColl 4, { collSt aColl 0 with mem := Memory.write base.mem 0x12000 (leBytes 8 0) }].map (fun s =>
    collCode (s.checkColl 4 aColl)) = [1, 2, 3] := by decide +kernel
def runDesc : CDesc := { aColl.d with nranks := 1, count := 1, src := 0x4000, dst := 0x5000, tag := 9 }
def runClaim : Claim := ⟨[], [(4, .dev 0x4000), (5, .dev 0x5000)], [(4, .dev 0x4000), (5, .dev 0x5000)]⟩
def runColl (st : CSt) : Coll := { aColl with st := st, d := runDesc, members := [0], got := [(0, [1, 2, 3, 4])], claimed := some runClaim }
theorem witness_CollectiveEvents_completes : let s := { collSt (runColl .running) 0 with owned := [(0xA0, 4)] }
    s.colls.find 4 = some (runColl .running) ∧ (runColl .running).complete = true ∧ (runColl .running).fail = none := by decide
theorem witness_CollectiveEvents_writes : let x := { runColl .finished with claimed := some { runClaim with pieces := devPiece } }
    let s := { collSt x 0 with owned := [(0xA0, 4)] }
    s.colls.find 4 = some x ∧ x.fail = none ∧ devPiece.all (fun p => s.granted 4 p.1) = true ∧ s.blocks.all (fun q => q.2.holdsNone) = true := by decide
theorem witness_CollectiveEvents_over : let s := collSt (runColl .finished) 0
    s.colls.find 4 = some (runColl .finished) ∧ s.engVisible 3 4 = true ∧ s.collUnsent (runColl .finished) = false ∧ (runColl .finished).d.sig = 0 := by decide

theorem witness_LoopWords : [Instr.cbw .b128 true gd 4 8 9, .cbc true false gd 4 8 9 10, .cba false false gd 4 8 9, .peal true gd 61, .peal false gd 63, .pfence gd 8].all (fun i =>
      readyB i base iss (gof base)) = true ∧ (gof base).nonHelpers ((gof base).guarded iss.lanes gd) ≠ 0 ∧ ((gof base).rs 8).toNat % 16 = 0 := by decide
def edit (e : Nat) : State := spair 20 e (spair 18 (2 ^ 55) base)
theorem witness_LoopWords_edit : (∀ e ∈ [0x1000009, 0x1000029], Ready (.cbpt 0 false gd 4 18 20) (edit e) iss (gof (edit e))) ∧
    [0x1000009, 0x1000029].map (fun e => editOk (0 : BitVec 2).toNat ((gof (edit e)).rs64 18).toNat ((gof (edit e)).rs64 20)) = [true, false] :=
  ⟨fun e h => by simp only [List.mem_cons, List.not_mem_nil, or_false] at h; rcases h with rfl | rfl <;> exact ready_of (by decide), by decide +kernel⟩
/-- Tenant 0's partition is 4,096 bytes from 0x100000. -/
def storeSt : State := { base with store := [(2, 0x10), (5, 0x10)], formed := true, ring := [0, 7] }
theorem witness_LoopWords_cld : (∀ x ∈ [(4092 : Nat), 4096], Ready (.cld .b32 l0 (.v 4) ⟨.s 2, .imm 0⟩) (sreg 2 (BitVec.ofNat 32 x) (preg 1 1 storeSt)) iss (gof (sreg 2 (BitVec.ofNat 32 x) (preg 1 1 storeSt)))) ∧
    storeSt.partition 0 = (0x100000, 4096) ∧ Claims.tenantOf storeSt (gof storeSt) = 0 ∧
    (loadReq ⟨.s 2, .imm 0⟩ 4 (offsetEa ⟨.s 2, .imm 0⟩)).lanes (gof (preg 1 1 storeSt)) (exFor (gof (preg 1 1 storeSt)) iss.lanes l0 (.v 4)) = [0] :=
  ⟨fun x h => by simp only [List.mem_cons, List.not_mem_nil, or_false] at h; rcases h with rfl | rfl <;> exact ready_of (by decide), by decide, by decide, by decide⟩
theorem witness_LoopWords_pfence : [(6, true), (5, true), (7, false)].all (fun p => let s := { spair 8 p.1 base with peal := 6 }
    readyB (.pfence gd 8) s iss (gof s) && decide (((gof s).rs64 8).toNat % 2 ^ 63 ≤ s.peal) == p.2) = true := by decide

def aRec (body : List Byte) : Record := ⟨1, 4, 0, 4092, body⟩
def recOp : PendOp := { storeOp rd4 with kind := .record 4 false (aRec (leBytes 24 0x01020304)) true, ctr := .bc, lanes := [] }
def recSt : State := withOp recOp (holding (.busy 4) storeSt)
theorem witness_LoopEvents_enter : let s := recSt
    s.grp 3 = some (gof s) ∧ (gof s).op 4 = some recOp ∧ (gof s).recordHeld 4 = true ∧ s.sendq.length < Config.sendSlots ∧
    s.released 3 (gof s) 4 ((gof s).mask (fun _ => true)) .pod false = true ∧ (gof s).ops.all (fun e => 4 ≤ e.id) = true ∧
    ((gof s).lane 31).hold = .busy 4 ∧ ((gof s).lane 31).st = .running ∧ 31 < (gof s).width := by decide
def sent : SendRec := ⟨3, 4, some 0, none, none, aRec (leBytes 24 0x01020304), false, false, 0⟩
def applied (s : State) (r : Record) : Bool := match s.applyRecord 1 r with
  | .ok t _ => t.peal == 1
  | .later _ => false
theorem witness_LoopEvents_token : (storeSt.formed = true ∧ storeSt.sendq = []) ∧ applied { withOp recOp storeSt with sendq := [sent] } sent.r = true := by decide
theorem witness_LoopEvents_apply : [4092, 4093].all (fun ad => let r : Record := ⟨1, 4, 0, ad, leBytes 24 9⟩
    storeSt.formed && storeSt.ring.contains 7 && r.body.length == 24 && decide (7 ≠ storeSt.pkg ∧ r.arg ≤ 24 ∧ 0 < (storeSt.partition 0).2) &&
    decide (r.addr + r.arg ≤ (storeSt.partition 0).2) == (ad == 4092)) = true := by decide
theorem witness_LoopEvents_returns : [(false, false), (true, false), (false, true)].all (fun f => let x := { sent with outOfRange := f.1, failed := f.2 }
    let s := { withOp { recOp with kind := .record 58 true sent.r true } storeSt with onLoop := [(9, x)] }
    s.formed && s.onLoop == [(9, x)] && (s.grp x.grp).isSome && ((gof s).op 4).map (·.kind) == some (.record 58 true sent.r true) && !s.ckpt (gof s)) = true := by decide
theorem witness_LoopEvents_retransmit : storeSt.formed = true ∧ 1 = storeSt.peal + 1 := by decide
theorem witness_LoopEvents_reform : storeSt.ring ≠ [] ∧ [Reform.mk 0 none [0], ⟨0, none, [7]⟩, ⟨1, some [(2, 9)], [7, 0]⟩].all storeSt.reformOk = true := by decide
theorem witness_LoopEvents_join : ({ storeSt with ring := [7], peal := 5 } : State).reformOk ⟨1, some [], [7, 0]⟩ = true := by decide

/-! ## Queues and grids -/

/-- A queue of 2^log2 slots at 0x8000, ACTIVE. -/
def queue0 (kind : QKind) (tail head : Nat) (st : QSt) : Queue := ⟨0, kind, 0x8000, 4, 1, 0x7000, tail, head, st, 0, false, [], [], none, false, none, none, []⟩
def withQ (x : Queue) (s : State) : State := { s with ldevs := s.ldevs.upd 0 (fun d => { d with queues := [(5, x)] }) }
def queued (x : Queue) : State := withQ x base
/-- Packets: a launch of the descriptor at 0x3000, a barrier-and of word 0, a copy, a signal, a pod launch, and a bad one. -/
def head16 (ty fl cw cv : Nat) : List Byte := leBytes 1 ty ++ leBytes 1 fl ++ leBytes 2 cw ++ leBytes 4 0 ++ leBytes 8 cv
def launchPkt : List Byte := head16 1 0 0xFFFF 0 ++ leBytes 8 0x3000 ++ leBytes 4 2 ++ leBytes 2 1 ++ leBytes 2 1 ++ leBytes 8 0x55 ++ leBytes 24 0
def barrierPkt (n : Nat) : List Byte := head16 2 0 7 9 ++ leBytes 8 1 ++ leBytes 2 0 ++ leBytes 6 n ++ leBytes 32 0
def copyPkt : List Byte := head16 3 0 7 9 ++ leBytes 8 0x4000 ++ leBytes 8 0x5000 ++ leBytes 8 64 ++ leBytes 24 0
def signalPkt (target op : Nat) : List Byte := head16 4 0 1023 9 ++ leBytes 8 target ++ leBytes 8 3 ++ leBytes 8 op ++ leBytes 24 0
def podPkt : List Byte := head16 5 0 7 9 ++ leBytes 8 0x3000 ++ leBytes 4 2 ++ leBytes 2 1 ++ leBytes 2 1 ++ leBytes 8 0x55 ++ leBytes 1 5 ++ leBytes 23 0
def badPkt : List Byte := leBytes 64 6
/-- A launch descriptor: the entry, width 16 times 2^w, r registers, one group. -/
def descRec (w r : Nat) : List Byte := leBytes 8 0x1000 ++ leBytes 8 0x1000 ++ leBytes 12 0 ++ leBytes 1 w ++ leBytes 1 r ++ leBytes 1 1 ++ leBytes 1 0 ++ leBytes 32 0
def aDesc2 : Desc := (readDesc (descRec 1 16)).getD emptyDesc
theorem test_desc : (readDesc (descRec 1 16)).map (fun d => (d.entry, d.width, d.regs, d.groups, d.consts)) = some (0x1000, 32, 16, 1, 0) ∧
    readDesc (descRec 1 0) = none := by decide
def packetMem (pkt : List Byte) (regs : Nat) : List Host.Cell := Memory.write (Memory.write base.mem 0x2000 pkt) 0x3000 (descRec 1 regs)
def pushing (x : Queue) (pkt : List Byte) (regs q : Nat) : State := sreg 12 (BitVec.ofNat 32 q) (spair 10 0x2000 { queued x with mem := packetMem pkt regs })
/-- What a push has read, when nothing is in its way. -/
def pushReads (i : Instr) (s : State) : Option (List Byte × State) := if !readyB i s iss (gof s) || goes iss (gof s) gd == 0 || !(gof s).storesDone then none
  else match (began i s iss (gof s)).readNow 3 (counted i iss (gof s)) ((Mask.lanes (goes iss (gof s) gd)).headD 0) ((gof s).rs64 10).toNat 64 with
  | .ok p t => some (p, t)
  | _ => none
/-- A queue of another context, of the host, past number 63, in ERROR, with a packet that may not be pushed. -/
theorem witness_QueueWords_status : [(queue0 .device 0 0 .active, 6, 64, launchPkt), (queue0 .host 0 0 .active, 5, 64, launchPkt), (queue0 .device 0 0 .active, 69, 64, launchPkt),
      (queue0 .device 0 0 .error, 5, 64, launchPkt), (queue0 .device 0 0 .active, 5, 64, badPkt)].all (fun p =>
    (pushReads (.launch false gd 4 10 12) (pushing p.1 p.2.2.2 16 p.2.1)).map (fun r => (r.1, (r.2.queue 0 (p.2.1 % 64)).map (·.st))) ==
      some (p.2.2.2, if p.2.1 = 6 then none else some p.1.st)) = true ∧ malformed badPkt ≠ none := by decide +kernel
/-- The queue has been retired. -/
theorem witness_QueueWords_retired : [(true, 0), (false, 0), (true, 1)].all (fun p =>
    let s := (pushing (queue0 .device 0 0 .active) launchPkt 16 6).updLd 0 (fun d => { d with retired := [(6, ⟨0, 0, 0, p.1, p.2⟩)] })
    (pushReads (.launch false gd 4 10 12) s).map (fun r => (r.1, r.2.queue 0 6, SMap.find (r.2.ld 0).retired 6)) ==
      some (launchPkt, none, some ⟨0, 0, 0, p.1, p.2⟩)) = true := by decide +kernel
theorem witness_QueueWords_qpush : [(queue0 .device 16 0 .active, false), (queue0 .device 16 0 .active, true), (queue0 .device 15 0 .active, false)].all (fun p =>
    let s := pushing p.1 copyPkt 16 5; let i := Instr.qpush p.2 gd 4 10 12
    (pushReads i s).map (fun r => (r.1, r.2.queue 0 5)) == some (copyPkt, some p.1)) = true ∧ malformed copyPkt = none := by decide +kernel
def pushIss : Issue := { iss with hold := .push 5 4 }
theorem witness_QueueWords_on : [Instr.qpush true gd 4 10 12, .launch true gd 4 10 12].all (fun i =>
    readyB i { holding (.push 5 4) base with cur := some pushIss } pushIss (gof (holding (.push 5 4) base))) = true ∧
    goes pushIss (gof (holding (.push 5 4) base)) gd ≠ 0 := by decide
def slotIs (r : SlotAt) : Option (List Phys) := match r with
  | .ok ps _ => some ps
  | _ => none
/-- A push under way: its queue open, full or with its slot free. -/
def pushOp (wait : Bool) (child : Option (Desc × List Nat)) : PendOp := { storeOp rd4 with kind := .push 4 5 wait copyPkt child, lanes := [] }
theorem witness_QueueWords_ends : [(queue0 .device 16 0 .active, false, none), (queue0 .device 0 0 .error, true, none), (queue0 .cont 0 0 .active, true, none),
      (queue0 .device 15 0 .active, true, none), (queue0 .device 0 0 .active, false, some (aDesc2, []))].all (fun p =>
    let s := withOp (pushOp p.2.1 p.2.2) (queued p.1)
    pendB s 3 4 (gof s) (pushOp p.2.1 p.2.2) && s.queue 0 5 == some p.1 && s.released 3 (gof s) 4 (allLanes (gof s)) .pkg false &&
    slotIs (s.slotsAt 0 5 p.1 1) == some [.dev (0x8000 + 64 * (p.1.tail % 16))] && s.slotHolders [.dev (0x8000 + 64 * (p.1.tail % 16))] == [] &&
    s.slotsOpen [.dev (0x8000 + 64 * (p.1.tail % 16))] && ((s.gridOf (gof s)).map (fun g => (g.children, g.st))) == some (0, .running)) = true := by decide +kernel
theorem witness_QueueWords_launch : [(16, true), (0, false)].all (fun p =>
    let s := pushing (queue0 .device 3 0 .active) launchPkt p.1 5; let i := Instr.launch false gd 4 10 12
    (match pushReads i s with
      | some r => r.1 == launchPkt && (match r.2.readNow 3 (counted i iss (gof s)) 0 0x3000 64 with
        | .ok bs t => (readDesc bs).isSome == p.2 && t.accepts 0 0 aDesc2 2 1 1 && t.queue 0 5 == some (queue0 .device 3 0 .active) &&
            ((t.gridOf (gof s)).map (·.children)) == some 0
        | _ => false)
      | none => false)) = true ∧ malformed launchPkt = none ∧ ((base.gridOf (gof base)).map (·.depth)) = some 0 := by decide +kernel
theorem witness_QueueWords_rejected : base.accepts 0 0 { aDesc2 with fused := true, cluster := true, cpb := 4 } 2 1 1 = false := by decide
theorem witness_QueueWords_depth : let s := (pushing (queue0 .device 3 0 .active) launchPkt 16 5).updGrid 1 (fun g => { g with depth := 15 })
    (pushReads (.launch false gd 4 10 12) s).isSome = true ∧ ((s.gridOf (gof s)).map (·.depth)).getD 0 = 15 := by decide +kernel
def contOf (tail : Nat) (st : QSt) : State := vall 8 7 (preg 1 3 (queued (queue0 .cont tail 0 st)))
theorem witness_QueueWords_cont : [(contOf 14 .active, l0, true), (contOf 15 .active, l0, false), (contOf 0 .error, l0, false)].all (fun p =>
      readyB (.cont p.2.1 8 3) p.1 iss (gof p.1) && (Mask.lanes (goes iss (gof p.1) p.2.1)).length == 2 && (p.1.contQueue 0 0).isSome &&
      (began (.cont p.2.1 8 3) p.1 iss (gof p.1)).contsComing 0 5 == 0) = true ∧ base.contQueue 0 0 = none ∧ goes iss (gof base) l0 = 0 := by
  decide +kernel
def postOp : PendOp := { storeOp rd4 with kind := .posted 5 [contRecord 3 1 2], lanes := [⟨0, 3, 0, 0, .zero, [], .done⟩] }
theorem witness_QueueWords_posted : let x := queue0 .cont 15 0 .active; let s := withOp postOp (queued x)
    pendB s 3 4 (gof s) postOp = true ∧ s.queue 0 5 = some x ∧ s.released 3 (gof s) 4 3 .pkg false = true ∧
    slotIs (s.slotsAt 0 5 x 1) = some [.dev (0x8000 + 64 * 15)] ∧ s.slotHolders [.dev (0x8000 + 64 * 15)] = [] ∧
    s.slotsOpen [.dev (0x8000 + 64 * 15)] = true := by decide +kernel

/-- The packet at the head of a host queue. -/
def headSt (pkt : List Byte) (st : QSt) (regs : Nat) : State :=
  { queued (queue0 .host 1 0 st) with mem := Memory.write (Memory.write base.mem 0x8000 pkt) 0x3000 (descRec 1 regs) }
def headCode (h : Head) : Nat := match h with
  | .error n => 10 + n
  | .wait _ => 1
  | .unmet _ => 2
  | .later => 4
  | .held _ => 5
  | .go .. => 3
theorem witness_QueueEvents_heads : [launchPkt, barrierPkt 0, copyPkt, podPkt, signalPkt 0 0, barrierPkt 1, badPkt].map (fun p =>
      headCode ((headSt p .active 16).headOf 0 5 (queue0 .host 1 0 .active)).1) = [3, 3, 3, 3, 3, 2, 11] ∧
    headCode ((headSt launchPkt .active 0).headOf 0 5 (queue0 .host 1 0 .active)).1 = 14 ∧
    headCode (({ headSt launchPkt .active 16 with mem := Memory.write base.mem 0x12000 (leBytes 8 0) } : State).headOf 0 5 (queue0 .host 1 0 .active)).1 = 1 := by
  decide +kernel
theorem witness_QueueEvents_turn : let s := headSt launchPkt .active 16
    s.itsTurn (0 * 64 + 5) 1 = true ∧ (s.ld 0).enable = true ∧ s.queue 0 5 = some (queue0 .host 1 0 .active) ∧ s.startable 0 5 (queue0 .host 1 0 .active) = true := by
  decide +kernel
theorem witness_QueueEvents_cont : let x := queue0 .cont 1 0 .active
    headCode (({ queued x with mem := Memory.write base.mem 0x8000 (contRecord 255 1 2) } : State).headOf 0 5 x).1 = 3 := by decide +kernel
theorem witness_QueueEvents_blocked : (headSt (barrierPkt 0) .blocked 16).queue 0 5 = some (queue0 .host 1 0 .blocked) ∧
    headCode ((headSt (barrierPkt 0) .blocked 16).headOf 0 5 (queue0 .host 1 0 .blocked)).1 = 3 := by decide +kernel
def since0 : Queue := { queue0 .host 1 0 .active with since := some 0 }
theorem witness_QueueEvents_promote : let s := { withQ since0 (headSt launchPkt .active 16) with clk := 18500000 }
    s.queue 0 5 = some since0 ∧ s.startable 0 5 since0 = true ∧ 0 + 1000000 ≤ s.timebase := by decide +kernel
def startedQ (p : Started) : Queue := { queue0 .host 1 1 .idle with started := [p] }
def theStart (ty : PType) (body : List Byte) (done : Bool) : Started := ⟨0, ty, 1023, 9, false, 0, done, body⟩
theorem witness_QueueEvents_complete : [(theStart .launch [] false, 0), (theStart .signal (leBytes 8 0) false, 0), (theStart .copy [] true, 0), (theStart .podLaunch [] true, 0)].all
      (fun p => (queued (startedQ p.1)).queue 0 5 == some (startedQ p.1) && (queued (startedQ p.1)).workVisible) = true ∧ (base.grids.find 0) = none := by decide
theorem witness_QueueEvents_signal : [0, 1].all (fun op => let body := (signalPkt 0x6000 op).drop 16; let s := queued (startedQ (theStart .signal body false))
    field body 0 8 == 0x6000 && okPages [(6, .dev 0x6000)] (s.engPages 0 0 (queueKey 0 5) true (pagesFrom 0x6000 8)).1 &&
    s.owned == [] && s.locks == [] && s.invis == [] && s.poison == [] && s.blocks.all (fun b => b.2.holdsNone) && signalValue body 4 == 3 + 4 * op) = true := by decide
/-- Two records of entry 3 whose data lie in lines 1 and 2, and the entry table. -/
def contX : Queue := { queue0 .cont 2 2 .idle with conts := [⟨3, 128, 5⟩, ⟨3, 256, 6⟩] }
def contSt (entry : Nat) : State := { queued contX with mem := Memory.write (Memory.write base.mem 0x7018 (leBytes 8 entry)) 0x3000 (descRec 0 16) }
theorem witness_QueueEvents_conts : [contSt 0x3000, contSt 0, contSt 0x3001].map (fun s => headCode (s.contHead 0 5 contX 3).1) = [3, 12, 12] ∧
    (match ((contSt 0x3000).contHead 0 5 contX 3).1 with | .go [] (some a) => a.1.width | _ => 0) = 16 ∧ ((contSt 0).ld 0).enable = true ∧
    (contSt 0x3000).contQueue 0 0 = some (5, contX) ∧ contRun 3 ((contSt 0x3000).contRunning 0) contX.conts = contX.conts := by
  decide +kernel
theorem witness_QueueEvents_bin : contRun 3 [] (contX.conts.filter (fun r => (contSt 0x3000).binOf 0 r == (contSt 0x3000).binOf 0 (ContRec.mk 3 128 5))) ≠ [] := by
  simp [contX, contRun]

/-- Grid 9 of context 0, with blocks to place. -/
def grid9 (st : GridSt) : Grid := { newGrid 0 0 (some (5, 0)) aDesc2 2 1 1 0x55 none 0 [] with st := st, next := 0 }
def gridSt (g : Grid) : State := { queued (queue0 .host 1 1 .idle) with grids := base.grids.set 9 g }
theorem witness_GridEvents_place : [GridSt.submitted, .dispatching].all (fun st => let g := grid9 st; let s := { gridSt g with blocks := [], groups := [], cur := none }
    s.grids.find 9 == some g && s.gridTaken g && s.mayDispatch 0 && decide (g.next < g.total) && s.unitRoom g.desc 639 &&
    decide (s.poolUsed 0 + g.desc.image ≤ (cof s).poolSize) && (s.placeUnits 9 [639]).isSome) = true := by decide +kernel
theorem witness_GridEvents_complete : [(grid9 .drained), { grid9 .awaiting with queue := none }, { grid9 .drained with parent := some 1 }, { grid9 .drained with children := 1 }].all (fun g =>
    (gridSt g).grids.find 9 == some g && ((gridSt g).grids.find 1).isSome) = true := by decide
/-- The block is saved, and its context may run. -/
def savedSt : State := { gst .saved { base with cur := none } with blocks := base.blocks.upd 2 (fun b => { b with saved := true, core := 7 }), ctxs := base.ctxs.upd 0 (fun c => { c with order := [2] }) }
theorem witness_GridEvents_resume : let s := savedSt
    s.ctxs.find 0 = some (cof s) ∧ (cof s).st = .running ∧ s.mgmt.copy = none ∧
    (s.nextReturn (cof s)).map (fun u => u.filter (fun b => ((s.blocks.find b).map (·.saved)).getD false)) = [[2]] ∧
    (s.returnUnits [([2], 0)]).isSome = true := by decide +kernel

/-! ## Commands -/

/-- A command record at the head of a ring; the device owns every region and tenant. -/
def cmdRec (code ctx o0 o1 o2 : Nat) : List Byte := leBytes 1 code ++ leBytes 1 0 ++ leBytes 2 ctx ++ leBytes 4 0 ++ leBytes 8 o0 ++ leBytes 8 o1 ++ leBytes 8 o2 ++ leBytes 32 0
def cmdRing (busy : Bool) : Ring := ⟨0x10000, 4, 0x85, 0, 1, 0, busy⟩
def owner (s : State) : State := s.updLd 0 (fun d => { d with regCount := 768, tenCount := 65535 })
def cmdSt (fn r : Nat) (busy : Bool) (bs : List Byte) (s : State) : State := { (owner s).setRing fn r (cmdRing busy) with hostMem := Memory.write s.hostMem 0x10000 bs }
def servedB (s : State) (fn r code last : Nat) : Bool := let c := s.headCmd fn r
  (if last = 8 then fn == 16 else decide (fn < 16)) && s.present fn && (fn == 16 || (s.ld fn).enable) && decide (0 < (s.hostRing fn r).size) &&
  decide ((s.hostRing fn r).head < (s.hostRing fn r).tail) && !(s.hostRing fn r).busy && s.mgmt.accepted && c.code == code && decide (1 ≤ code) && decide (code ≤ last) &&
  c.clean && (fn != 16 || c.ctx == 0) && decide (c.ctx < 4096) && (match s.ctxs.find c.ctx with
    | some x => fn == 16 || x.ld == fn
    | none => true)
theorem served_of {s : State} {fn r code last : Nat} (h : servedB s fn r code last = true) : Served s fn r code last (s.headCmd fn r) := by
  simp only [servedB, Bool.and_eq_true, Bool.or_eq_true, beq_iff_eq, decide_eq_true_eq, Bool.not_eq_true', bne_iff_ne] at h
  obtain ⟨⟨⟨⟨⟨⟨⟨⟨⟨⟨⟨⟨⟨h1, h2⟩, h3⟩, h4⟩, h5⟩, h6⟩, h7⟩, h8⟩, h9⟩, h10⟩, h11⟩, h12⟩, h13⟩, h14⟩ := h
  refine ⟨?_, h2, h3, ⟨h4, h5⟩, h6, h7, rfl, ⟨h8, h9, h10⟩, h11, ⟨?_, h13, ?_⟩⟩
  · split at h1 <;> rename_i hl
    · simpa [hl] using h1
    · simpa [hl] using h1
  · intro hf; rcases h12 with h | h
    · exact absurd hf h
    · exact h
  · intro x hx; rw [hx] at h14; simpa using h14
/-- The head command of a ring, when it is served. -/
def headIf (s : State) (fn r code last : Nat) : Option Cmd := if servedB s fn r code last then some (s.headCmd fn r) else none
def cst (st : CtxSt) (s : State) : State := s.updCtx 0 (fun c => { c with st := st })
def noCtxs (s : State) : State := { s with ctxs := [] }
theorem witness_Served : Served (cmdSt 0 0 false (cmdRec 1 0 0 0 0) base) 0 0 1 6 ((cmdSt 0 0 false (cmdRec 1 0 0 0 0) base).headCmd 0 0) ∧
    Served (cmdSt 16 0 false (cmdRec 8 0 15 0 0) base) 16 0 8 8 ((cmdSt 16 0 false (cmdRec 8 0 15 0 0) base).headCmd 16 0) :=
  ⟨served_of (by decide +kernel), served_of (by decide +kernel)⟩
-- a context that is there; a bad operand; a pool of 61,440 bytes and one of 65,536, with limit 0 and 64
theorem witness_ContextCommands_create : [(base, 0x1000, 65536, false), (noCtxs base, 0x1000, 65537, false), (noCtxs base, 0x1000, 61440, true), (noCtxs base, 0x1000, 65536 + 64 * 0, true)].all (fun p =>
      let s := cmdSt 0 0 false (cmdRec 1 0 p.2.1 p.2.2.1 64) p.1
      (headIf s 0 0 1 6).map (fun c => (c.op1, (s.ctxs.find c.ctx).isNone && s.createOk 0 c)) == some (p.2.2.1, p.2.2.2)) = true := by decide +kernel
theorem witness_ContextCommands_bind : [(CtxSt.ready, 0x4000, 15), (.created, 0x4001, 15), (.created, 0x4000, 16), (.created, 0x4000, 15)].all (fun p =>
      let s := cmdSt 0 0 false (cmdRec 2 0 p.2.1 p.2.2 0) (cst p.1 base)
      headIf s 0 0 2 6 == some ⟨2, 0, p.2.1, p.2.2, 0, true⟩ && Claims.ctxSt s 0 == some p.1 && s.ownRange 0 0x4000 4096) = true := by decide +kernel
theorem witness_ContextCommands_preempt : [(CtxSt.created, 0), (.ready, 2 ^ 48), (.ready, 2 ^ 48 - 1), (.running, 0), (.running, 9)].all (fun p =>
      let s := cmdSt 0 0 false (cmdRec 3 0 p.2 0 0) (cst p.1 base)
      headIf s 0 0 3 6 == some ⟨3, 0, p.2, 0, 0, true⟩ && Claims.ctxSt s 0 == some p.1 && s.ctxNum (gof s) == 0 && (gof s).state == .active) = true := by decide +kernel
theorem witness_ContextCommands_resume : [(CtxSt.ready, 0), (.saved, 1), (.saved, 0)].all (fun p => let s := cmdSt 0 0 false (cmdRec 4 0 p.2 0 0) (cst p.1 base)
      headIf s 0 0 4 6 == some ⟨4, 0, p.2, 0, 0, true⟩ && Claims.ctxSt s 0 == some p.1) = true := by decide +kernel
theorem witness_ContextCommands_destroy : [(CtxSt.running, 0), (.ready, 1), (.created, 0), (.ready, 0), (.saved, 0), (.faulted, 0)].all (fun p =>
      let s := cmdSt 0 0 false (cmdRec 5 0 p.2 0 0) (cst p.1 base)
      headIf s 0 0 5 6 == some ⟨5, 0, p.2, 0, 0, true⟩ && Claims.ctxSt s 0 == some p.1) = true := by decide +kernel
theorem witness_ContextCommands_destroyed : let s := cmdSt 0 0 true (cmdRec 5 0 0 0 0) (cst .destroyed base)
    (s.hostRing 0 0).busy = true ∧ (s.headCmd 0 0).code = 5 ∧ s.present 0 = true ∧ (s.ld 0).enable = true ∧ s.ctxEmpty 0 = true ∧
    0 < (s.hostRing 0 0).size ∧ (s.hostRing 0 0).head < (s.hostRing 0 0).tail := by decide +kernel
theorem witness_ContextCommands_setlimit : [(CtxSt.faulted, 64), (.running, 63), (.running, 65536), (.running, 64), (.draining, 65535)].all (fun p =>
      let s := cmdSt 0 0 false (cmdRec 6 0 p.2 0 0) (cst p.1 base)
      headIf s 0 0 6 6 == some ⟨6, 0, p.2, 0, 0, true⟩ && Claims.ctxSt s 0 == some p.1) = true := by decide +kernel

/-- Number 63, of 2^20 slots, priority 3, and each kind. -/
def qarg (kind log2 : Nat) : Nat := 63 + 256 * log2 + 2 ^ 13 * 3 + 2 ^ 15 * kind
theorem witness_QueueCommands_create : [(CtxSt.destroyed, 0, 4, true), (.ready, 3, 4, false), (.ready, 0, 21, false), (.ready, 0, 20, true), (.running, 1, 4, true), (.created, 2, 4, true)].all (fun p =>
      let s := cmdSt 0 1 false (cmdRec 1 0 0x8000 (qarg p.2.1 p.2.2.1) 0) (cst p.1 base)
      (headIf s 0 1 1 5).map (s.qcreateOk 0) == some p.2.2.2 && Claims.ctxSt s 0 == some p.1) = true := by decide +kernel
theorem witness_QueueCommands_operands : [(2, 64), (3, 63), (4, 6), (5, 4)].all (fun p => let s := cmdSt 0 1 false (cmdRec p.1 0 p.2 0 0) (queued (queue0 .host 3 1 .active))
      (headIf s 0 1 p.1 5).isSome && (64 ≤ p.2 || (s.queue 0 p.2).isNone)) = true := by decide +kernel
theorem witness_QueueCommands_states : [2, 3, 4, 5].all (fun code => [QSt.idle, .active, .blocked, .suspended, .error].all (fun st =>
      let s := cmdSt 0 1 false (cmdRec code 0 5 0 0) (queued (queue0 .host 3 1 st))
      headIf s 0 1 code 5 == some ⟨code, 0, 5, 0, 0, true⟩ && s.queue 0 5 == some (queue0 .host 3 1 st))) = true := by decide +kernel

def aTlb : Tlb := ⟨0, 0x2000, 4096, 25⟩
theorem witness_ServiceCommands_inval : [(0, 0), (0x2000, 4096), (2 ^ 55 - 4096, 2 ^ 55)].all (fun p => let s := cmdSt 0 2 false (cmdRec 1 0 p.1 p.2 0) { base with tlb := [aTlb] }
      headIf s 0 2 1 4 == some ⟨1, 0, p.1, p.2, 0, true⟩ && (s.ctxs.find 0).isSome) = true ∧
    (headIf (cmdSt 0 2 false (cmdRec 1 4095 0 0 0) base) 0 2 1 4).map (·.ctx) = some 4095 ∧ base.ctxs.find 4095 = none := by decide +kernel
theorem witness_ServiceCommands_inflight : [(withOp { pendOp with lanes := [⟨0, 1, 0x2000, 4, .dev 0x2000, [], .ready⟩] } base, true), (base, false)].all (fun p =>
      p.1.inFlight (fun x => x == 0) false 0x2000 4096 == p.2 && p.1.blocks.all (fun q => q.2.holdsNone)) = true := by decide
theorem witness_ServiceCommands_inval_ends : let s := cmdSt 0 2 true (cmdRec 1 0 0x2000 4096 0) base
    (s.hostRing 0 2).busy = true ∧ (s.headCmd 0 2).code = 1 ∧
    (s.dropTlb 0 (invalRange (s.headCmd 0 2)).1 (invalRange (s.headCmd 0 2)).2).inFlight (fun x => x == 0) false 0x2000 4096 = false := by decide +kernel
theorem witness_Waits : Waits (cmdSt 0 2 true (cmdRec 1 0 0x2000 4096 0) base) 0 2 1 4 ((cmdSt 0 2 true (cmdRec 1 0 0x2000 4096 0) base).headCmd 0 2) ∧
    Waits (cmdSt 0 0 true (cmdRec 5 0 0 0 0) (cst .destroyed base)) 0 0 5 6 ((cmdSt 0 0 true (cmdRec 5 0 0 0 0) (cst .destroyed base)).headCmd 0 0) :=
  ⟨⟨by decide, by decide, by decide +kernel, by decide +kernel, by decide +kernel, rfl, by decide +kernel⟩,
   ⟨by decide, by decide, by decide +kernel, by decide +kernel, by decide +kernel, rfl, by decide +kernel⟩⟩
theorem witness_ServiceCommands_faultdone : [0, 1].all (fun o => let s := cmdSt 0 2 false (cmdRec 2 0 7 o 0) (faulting 0 .forwarded base)
      headIf s 0 2 2 4 == some ⟨2, 0, 7, o, 0, true⟩ && s.faults.find 7 == some (aFault .forwarded)) = true := by decide +kernel
theorem witness_ServiceCommands_pool : let s := cmdSt 0 2 false (cmdRec 3 0 (767 * 2 ^ 30) (2 ^ 30) 0) base
    headIf s 0 2 3 4 = some ⟨3, 0, 767 * 2 ^ 30, 2 ^ 30, 0, true⟩ ∧ s.mgmt.retired = [] := by decide +kernel
theorem witness_ServiceCommands_pool_end : 767 * 2 ^ 30 + 2 ^ 30 ≤ Config.deviceBytes := by simp [Config.deviceBytes]
theorem witness_ServiceCommands_retireok : [767, 766].all (fun r => let s := cmdSt 0 2 false (cmdRec 4 0 r 0 0) { base with mgmt := { base.mgmt with announced := 766, vacated := [767] } }
      headIf s 0 2 4 4 == some ⟨4, 0, r, 0, 0, true⟩ && decide (s.mgmt.announced ≤ r)) = true := by decide +kernel
theorem witness_ServiceCommands_policy : [(1, 2 ^ 56 - 8, 9, 2 ^ 56 - 4096), (2, 9, 0, 0)].all (fun p => [CtxSt.running, .faulted].all (fun st =>
      let s := cmdSt 0 3 false (cmdRec p.1 0 p.2.1 p.2.2.1 p.2.2.2) (cst st base)
      headIf s 0 3 p.1 3 == some ⟨p.1, 0, p.2.1, p.2.2.1, p.2.2.2, true⟩ && Claims.ctxSt s 0 == some st)) = true := by decide +kernel
/-- Lane 0 waits for record 9. -/
def serving (code : Option Nat) (s : State) : State :=
  { upd s (fun g => { g with lanes := g.lanes.set 0 { g.lane 0 with st := .service 9 } }) with records := [(9, ⟨0, 3, 1, 0x1000, code, leBytes 2112 0, true, 0x40000⟩)] }
theorem witness_ServiceCommands_trapdone : [(some 0xF000, 0), (some 0xF000, 1), (none, 1), (none, 2)].all (fun p => let s := cmdSt 0 3 false (cmdRec 3 0 9 p.2 0) (serving p.1 base)
      headIf s 0 3 3 3 == some ⟨3, 0, 9, p.2, 0, true⟩ && (s.records.find 9).map (fun x => (x.ld, x.announced, x.code)) == some (0, true, p.1) &&
      field (leBytes 2112 0) 4 2 == 0 && (gof s).state == .active && !(gof s).flagged && ((gof s).lane 0).st == .service 9 &&
      ((s.grids.find 1).map (·.parent)) == some none) = true := by decide +kernel
theorem witness_ServiceCommands_sage : [0xF000, 0xFFFF].all (fun code => let s := serving (some code) base
      (s.records.find 9).map (fun x => (x.ld, x.code)) == some (0, some code) && (gof s).state == .active && ((gof s).lane 0).st == .service 9) = true := by decide

-- the last region and tenant; one past; a device that is bound
theorem witness_ManagementCommands_bind : [(0, 0, 0), (31, 767 + 2 ^ 16 * 1, 65534 + 65536), (32, 0, 0)].all (fun p => let s := cmdSt 16 0 false (cmdRec 1 0 p.1 p.2.1 p.2.2) base
      headIf s 16 0 1 8 == some ⟨1, 0, p.1, p.2.1, p.2.2, true⟩ && (s.ld (p.1 % 16)).bound == decide (p.1 % 16 = 0)) = true ∧
    bindFields ⟨1, 0, 31, 767 + 2 ^ 16 * 1, 65534 + 65536, true⟩ = true ∧ bindFields ⟨1, 0, 47, 0, 0, true⟩ = false := by decide +kernel
def unowned (s : State) : State := { s with ldevs := s.ldevs.mapV (fun _ d => { d with regCount := 0, tenCount := 0 }) }
theorem witness_ManagementCommands_bind_free : let s := unowned (cmdSt 16 0 false (cmdRec 1 0 31 (767 + 2 ^ 16) (65534 + 65536)) base)
    headIf s 16 0 1 8 = some ⟨1, 0, 31, 767 + 2 ^ 16, 65534 + 65536, true⟩ ∧ (s.ld 15).bound = false ∧
    s.ldevs.all (fun p => !p.2.bound || (!rangesOverlap 767 1 p.2.regFirst p.2.regCount && !rangesOverlap 65534 1 p.2.tenFirst p.2.tenCount)) = true := by decide +kernel
theorem witness_ManagementCommands_reset : [2, 8].all (fun code => [0, 15, 16].all (fun o => let s := cmdSt 16 0 false (cmdRec code 0 o 0 0) base
      headIf s 16 0 code 8 == some ⟨code, 0, o, 0, 0, true⟩ && (s.ld (o % 16)).bound == decide (o % 16 = 0))) = true ∧ base.present 0 = true := by decide +kernel
theorem witness_ManagementCommands_partition : [(65534, 0x100000, true), (65535, 0x100000, false), (0, 0xFF000, false)].all (fun p =>
      let s := cmdSt 16 0 false (cmdRec 3 0 p.1 p.2.1 0x1000) base
      (headIf s 16 0 3 8).map s.partitionOk == some p.2.2 && s.sendq.isEmpty) = true := by decide +kernel
theorem witness_ManagementCommands_topology : [(65536 + 1, false), (65536 + 1, true), (1, false), (65536, false)].all (fun p =>
      let s := { cmdSt 16 0 false (cmdRec 4 0 p.1 0 0) base with topen := p.2 }
      headIf s 16 0 4 8 == some ⟨4, 0, p.1, 0, 0, true⟩ && s.tbank == 0 && s.tver == 0) = true := by decide +kernel
theorem witness_ManagementCommands_loopform : [0, 1].all (fun o => let s := cmdSt 16 0 false (cmdRec 5 0 o 0 0) base
      headIf s 16 0 5 8 == some ⟨5, 0, o, 0, 0, true⟩ && s.reformOk ⟨0, none, [0, 1]⟩) = true := by decide +kernel
theorem witness_ManagementCommands_copies : [(6, base, 4096), (6, cst .ready base, 4097), (6, cst .ready base, 4096), (7, base, 4096), (7, noCtxs base, 1), (7, noCtxs base, 4096)].all (fun p =>
      let s := cmdSt 16 0 false (cmdRec p.1 0 p.2.2 (2 ^ 50) 0) p.2.1
      (headIf s 16 0 p.1 8).map tierOk == some (p.2.2 == 4096)) = true := by decide +kernel

/-! ## Rings and the host's writes -/

def ringSt (fn r : Nat) (x : Ring) : State := (owner base).setRing fn r x
theorem witness_Rings_tail : [(0, 3), (16, 0)].all (fun p => let s := ringSt p.1 p.2 ⟨0x10000, 4, 0, 0, 5, 3, false⟩
      s.present p.1 && ringExists p.1 p.2 && hostProduced p.1 p.2 && decide ((s.hostRing p.1 p.2).head = 3 ∧ (s.hostRing p.1 p.2).size = 16)) = true := by decide
theorem witness_Rings_head : [(0, 4), (0, 6), (16, 1)].all (fun p => let s := ringSt p.1 p.2 ⟨0x10000, 4, 0, 0, 5, 3, false⟩
      s.present p.1 && ringExists p.1 p.2 && !hostProduced p.1 p.2 && decide ((s.hostRing p.1 p.2).head = 3 ∧ (s.hostRing p.1 p.2).tail = 5)) = true := by decide
theorem witness_Rings_bell : [queue0 .device 3 1 .idle, queue0 .host 3 1 .active, { queue0 .host 1 1 .idle with log2 := 4 }].all (fun x => let s := queued x
      s.present 0 && s.queue 0 5 == some x && x.size == 16) = true ∧ base.queue 0 63 = none ∧ (queued (queue0 .host 1 1 .idle)).runnable (queue0 .host 1 1 .idle) = true := by decide
theorem witness_Rings_command : [(7, 0, true), (0, 4096, true), (1, 4096, true), (1, 0, false)].all (fun p =>
      let s := cmdSt 0 0 false (cmdRec p.1 p.2.1 0 0 0) (if p.2.2 then base else { base with ctxs := base.ctxs.upd 0 (fun c => { c with ld := 3 }) })
      (s.headCmd 0 0).code == p.1 && (s.headCmd 0 0).ctx == p.2.1 && !(s.hostRing 0 0).busy && s.present 0 && (s.ld 0).enable &&
      (match s.ctxs.find p.2.1 with | some x => (x.ld == 0) == p.2.2 | none => p.2.2)) = true := by decide +kernel
def waitingE (r : Nat) (tail : Nat) : State := (ringSt 0 r ⟨0x10000, 4, 0x85, 7, tail, 3, false⟩).updLd 0 (fun d => { d with waiting := [⟨r, leBytes 64 9⟩] })
theorem witness_Rings_post : [(4, 18), (6, 18), (6, 19)].all (fun p => let s := waitingE p.1 p.2
      (s.ld 0).enable && (s.ld 0).waiting.find? (fun x => x.ring == p.1) == some ⟨p.1, leBytes 64 9⟩ &&
      decide ((s.hostRing 0 p.1).tail - (s.hostRing 0 p.1).head < (s.hostRing 0 p.1).size) == (p.2 == 18)) = true := by decide
def toSay : SvcRec := ⟨0, 3, 1, 0x1000, some 5, leBytes 2112 5, false, 0x40000⟩
theorem witness_Rings_announce : let s := { ringSt 0 5 ⟨0x10000, 4, 0x85, 0, 18, 3, false⟩ with records := [(9, toSay)] }
    s.present 0 = true ∧ (s.ld 0).enable = true ∧ s.toAnnounce 0 = some (9, toSay) ∧ (s.hostRing 0 5).tail - (s.hostRing 0 5).head < (s.hostRing 0 5).size := by decide
theorem witness_Rings_management : let s := { ringSt 16 1 ⟨0x10000, 4, 0x85, 0, 18, 3, false⟩ with mgmt := { (ringSt 16 1 ⟨0x10000, 4, 0x85, 0, 18, 3, false⟩).mgmt with evWaiting := [⟨1, leBytes 128 9⟩] } }
    s.mgmt.evWaiting = [⟨1, leBytes 128 9⟩] ∧ s.mgmt.ev.tail - s.mgmt.ev.head < s.mgmt.ev.size := by decide

theorem witness_HostWrites : base.present 0 = true ∧ (base.ld 0).enable = true ∧ (base.ld 0).expert = false ∧
    ((base.updLd 0 (fun d => { d with expert := true, enable := false })).ld 0).expert = true ∧
    ((base.updLd 0 (fun d => { d with expert := true, enable := false })).ld 0).enable = false ∧ base.mgmt.expert = false ∧ base.tbank = 0 ∧ base.pkg = 0 := by decide
theorem witness_HostWrites_reach : (let s := owner base
      [767 * 2 ^ 30 + 2 ^ 30 - 64, 768 * 2 ^ 30 - 1].all (s.hostReach 0) && !s.hostReach 0 (768 * 2 ^ 30) && s.present 0 && s.owned == [] && s.locks == [] && s.invis == [] &&
      s.blocks.all (fun b => b.2.holdsNone) && s.mgmt.moving == none && s.mgmt.copy == none && s.poolsHit (767 * 2 ^ 30 + 2 ^ 30 - 64) 64 == [] &&
      s.poolsHit 0x40000000 1 == [0] && s.poolsHit 0x3FFFFFFF 1 == []) = true := by decide +kernel
theorem witness_HostWrites_snoop : ∀ b ∈ [(0x80, (3 : Byte)), (0xBF, 4)], b.1 / 64 = 2 := by decide

/-! ## The fabric -/

def upColour : Colour := { emptyColour with st := .up, tenant := 0, enable := true, ccorr := 7, cwarn := 7 }
/-- Port 40 with eight colours like this one. -/
def portSt (c : Colour) : State := base.setLink 40 { emptyLink with colours := List.replicate 8 c }
def aFlit (ty seq : Nat) : Flit := ⟨ty, false, 0, 0, 0, 0, 1, 9, seq, leBytes 8 0x2000 ++ leBytes 4 128 ++ leBytes 116 0⟩
def anArrival (ty errs : Nat) (bad : Bool) (seq : Nat) : Arrival := ⟨40, 7, errs, bad, aFlit ty seq⟩
theorem witness_FlitEvents : [1, 2, 3, 4, 5, 6, 7].all (fun ty => [(6, false), (7, false), (0, true)].all (fun p => let a := anArrival ty p.1 p.2 0
      validLink a.link && decide (a.colour < 8 ∧ a.flit.ty = ty ∧ a.flit.payload.length = 128 ∧ a.flit.seq < 2 ^ 32) && ((portSt upColour).link 40).colour 7 == upColour &&
      upColour.isUp)) = true := by decide
theorem witness_FlitEvents_order : [5, 6, 7].all (fun q => let s := (portSt upColour).setLink 40 { (portSt upColour).link 40 with rxSeq := [(0, 6)] }
      SMap.getD (s.link 40).rxSeq (aFlit 1 q).tenant 0 == 6 && (s.link 40).rxHeld == [] && decide ((aFlit 1 q).seq = q)) = true := by decide
theorem witness_FlitEvents_pod : let s := base; let f := aFlit 1 0
    f.rgen = s.resetGen f.tenant ∧ s.versionOk f = true ∧ f.dst = s.pkg ∧ field f.payload 0 8 = 0x2000 ∧ field f.payload 8 4 = 128 ∧ s.podLine 0x2000 = true ∧
    s.isMoving 0x2000 = false ∧ s.owned = [] ∧ s.locks = [] ∧ s.poison = [] ∧ s.invis = [] ∧ s.blocks.all (fun b => b.2.holdsNone) = true := by decide
theorem witness_FlitEvents_old : ({ aFlit 1 0 with rgen := 1 } : Flit).rgen ≠ base.resetGen 0 ∧ base.versionOk { aFlit 1 0 with version := 1 } = false := by decide
def asking : State := { doing (.ldp 1) .ld { podAcc [] with phys := .remote 1 0x2000 } (runScratch 256 base) with remotes := [⟨9, 3, 4, 1, 0, 0⟩] }
theorem witness_FlitEvents_answer : asking.remotes = [⟨9, 3, 4, 1, 0, 0⟩] ∧ ((gof asking).op 4).map (·.kind) = some (.ldp 1) ∧
    (gof asking).remoteTurn (opOf (.ldp 1) .ld { podAcc [] with phys := .remote 1 0x2000 }) 1 = true ∧ asking.owned = [] ∧ (asking.blocks.find (gof asking).blk).isSome = true ∧
    (aFlit 2 0).payload.length = 128 := by decide

def keptSt : State := (portSt upColour).setLink 40 { (portSt upColour).link 40 with unacked := [⟨0, 5, 2, aFlit 1 5, false⟩], last := [(0, 2)] }
theorem witness_LinkEvents_retry : validLink 40 = true ∧ (keptSt.link 40).unacked.find? (fun x => x.tenant == 0 && x.seq == 5) = some ⟨0, 5, 2, aFlit 1 5, false⟩ ∧
    (keptSt.link 40).nextColour 0 = some 3 := by decide
theorem witness_LinkEvents_slots : (let s := (portSt upColour).setLink 40 { (portSt upColour).link 40 with slots := [(0, 60)] }
      [1, 4].all (fun n => decide ((s.link 40).free 0 true + n ≤ 64) || decide ((s.link 40).free 0 false + n ≤ 64)) && s.links.all (fun p => p.2.out == [])) = true := by decide
theorem witness_LinkEvents_colours : [(upColour, true), ({ upColour with st := .dark }, false), ({ upColour with st := .training, attempt := 1 }, false),
      ({ upColour with st := .retraining, attempt := 2 }, false), ({ upColour with st := .watch, calm := 3, calmP := 4 }, true)].all (fun p => let s := portSt p.1
      (s.link 40).colour 7 == p.1 && p.1.isUp == p.2 && p.1.enable && (s.link 40).preq.testBit 7 && s.feedLight 40 && decide (7 < (s.link 40).colours.length)) = true := by decide
theorem witness_LinkEvents_alarm : (5, 7) ∉ base.mgmt.alarms ∧ branchOf 15 true = branchOf 15 true ∧ base.feedOf 15 = false ∧ base.feedAlarm 15 true = false ∧
    (branchOf 15 false) ∉ base.mgmt.alarms ∧ (branchOf 15 false).1 < 6 ∧ (branchOf 15 false).2 < 8 := by decide
theorem witness_LinkEvents_restored : let s := { base with mgmt := { base.mgmt with alarms := [(5, 7)] } }
    (5, 7) ∈ s.mgmt.alarms := by decide
theorem witness_LinkEvents_hold : let s := { base with ingress := [⟨0, { aFlit 1 0 with version := 1 }⟩] }
    s.ingress[0]? = some ⟨0, { aFlit 1 0 with version := 1 }⟩ ∧ s.versionOk { aFlit 1 0 with version := 1 } = false ∧ 0 ≤ s.timebase := by decide
theorem witness_LinkEvents_write : let f : Flit := { aFlit 3 0 with version := 1 }
    let s := { base with ingress := [⟨0, f⟩, ⟨1, { f with seq := 1 }⟩] }
    s.versionOk f = false ∧ f.ty = 3 ∧ ∃ j ∈ s.ingress.eraseIdx 0, oneWrite f j.f = true := by decide
theorem witness_LinkEvents_generation : let s := { State.reset with topen := true }
    s.topen = true ∧ s.tclose ≤ s.timebase ∧ s.remotes = [] ∧ s.ingress = [] ∧ s.groups = [] ∧ s.colls = [] := by decide

/-! ## Failures, regions and copies -/

/-- The block has a shadow of its one group, and has lost so many checkpoints. -/
def shadowed (rolls : Nat) (rolling : Bool) : State := { base with blocks := base.blocks.upd 2 (fun b => { b with
  shadow := some ⟨[(3, gof (sreg 4 9 base))], [(5, 6)], [1], []⟩, rollbacks := rolls, rolling := rolling, halt := rolling }) }
theorem witness_ErrorEvents_fatal : [(base, true), (shadowed 0 false, false), (shadowed 3 false, true)].all (fun p => let s := p.1
      s.grp 3 == some (gof s) && (s.blkOf (gof s)).isSome && (s.ctxs.find (s.ctxNum (gof s))).isSome && (gof s).state == .active &&
      (match s.blkOf (gof s) with | some b => !b.rolling && (b.shadow == none || !p.2 || !s.slotsStill (gof s).blk b || decide (3 ≤ b.rollbacks)) | none => false)) = true := by decide
theorem witness_ErrorEvents_rolls : [(2, false), (2, true)].all (fun p => let s := shadowed p.1 p.2
      s.grp 3 == some (gof s) && (match s.blkOf (gof s) with | some b => b.shadow.isSome && b.rolling == p.2 && s.slotsStill (gof s).blk b && decide (b.rollbacks < 3) && s.blockRetired b && decide (((b.shadow.map (·.groups.map (·.1))).getD []).Nodup) | none => false)) =
      true := by decide
theorem witness_ErrorEvents_transfer : (xfer (moved 0 0) base).transfers.find 4 = some (moved 0 0) := by decide
theorem witness_ErrorEvents_image : let s := savedSt
    (s.blocks.find 2).map (·.saved) = some true ∧ (s.grids.find 1).map (·.ctx) = some 0 ∧ (s.ctxs.find 0).map (·.st) = some .running := by decide
theorem witness_ErrorEvents_matrix : [MKind.drain true 0x3000, .mlda 0x3000].all (fun k => let e := ent k (.granted 0); let s := tabled e .busy
      s.entry 0 4 == some e && e.isGranted && (s.slotOf e).st == .busy && e.claim == none) = true := by decide
theorem witness_ErrorEvents_dies : 7 < Config.dies ∧ 7 ∉ base.mgmt.deadDies ∧ base.ctxs.map (fun p => (p.1, p.2.st)) = [(0, .running)] ∧
    (cst .ready base).ctxs.map (fun p => (p.1, p.2.st)) = [(0, .ready)] := by decide
theorem witness_ErrorEvents_cores : 639 < Config.numCores ∧ base.mgmt.stperiod ≠ 0 ∧ dieOf 639 ∉ base.mgmt.deadDies ∧
    base.blocks.map (fun p => (p.1, p.2.saved, p.2.core)) = [(2, false, 0)] ∧ CtxSt.running.live = true := by decide
def banks (n : Nat) : State := { base with mgmt := { base.mgmt with dropped := List.range n } }
theorem witness_ErrorEvents_banks : [14, 15].all (fun n => !(banks n).mgmt.dropped.contains 12287 && decide (0 < (banks n).mgmt.announced)) = true := by decide
theorem witness_ErrorEvents_migrate : [(none, [767]), (some 0, [767]), (some 767, [767])].all (fun p => let s := { base with mgmt := { base.mgmt with moving := p.1, vacated := p.2 } }
      s.mgmt.moving == p.1 && s.mgmt.vacated.any (fun r => !s.mgmt.retired.contains r) && s.owned == []) = true := by decide
def copying (out : Bool) : State := let s := cmdSt 16 0 true (cmdRec 6 0 4096 (2 ^ 50) 0) (cst .ready base); { s with mgmt := { s.mgmt with copy := some out } }
theorem witness_ErrorEvents_copies : [true, false].all (fun out => (copying out).mgmt.cmd.busy && (copying out).mgmt.copy == some out &&
      ((copying out).headCmd 16 0).op0 == 4096) = true := by decide +kernel

/-! ## Encodings and the step -/

theorem witness_DecodeEncode : [Instr.add .s32 true ⟨⟨3, true⟩, .v 255, .v 255, .imm 0xFFFF⟩, .movi ⟨7, true⟩ (.s 63) 0xFFFFFFFF, .bra gd 0x800000,
      .pair ⟨6, .add, 1, .s 62⟩ ⟨7, .fmul (.mode 0), 255, .v 255⟩, .mma ⟨5, 60, 60, 60, 7, true⟩].all (fun i => i.wf && (encode i).isSome) = true := by decide
/-- The placed word in a word's turn. -/
def turnSt (w : Nat) : State := State.reset.withFetchWord 64 w
theorem witness_StepRunsDecoded : [0x8007E00012345678, 2 ^ 64 - 1].all (fun w => (turnSt w).turn && ((turnSt w).nextIssue).map (fun c => (c.grp, c.pc, c.word.toNat)) ==
      some (3, 0x1000, w) && (match decodeWord w with | .ok i => i == .movi gd (.v 7) 0x12345678 || w == 2 ^ 64 - 1 | .error _ => w == 2 ^ 64 - 1)) = true := by decide
theorem witness_StepKeepsMemories : MemOk (turnSt 0) ∧ (match step (turnSt 0) with | .next _ => true | _ => false) = true :=
  ⟨by unfold MemOk; decide, by decide⟩
def spillState : State := spair 10 0x2000 (stacked 4 4)
def okAll (x : List Try) : Bool := x.all (fun y => y.cause == 0)
theorem witness_CallsAndReturns_spill : let s := spillState
    Ready (.call gd 5 10) s iss (gof s) ∧ Ready (.callx gd (.s 8) 10) s iss (gof s) ∧ goodTargets (.s 8) gd iss (gof s) ∧ (10 : BitVec 6).toNat ≠ 63 ∧
    ((gof s).rs64 10).toNat % 8 = 0 ∧ (∀ l ∈ Mask.lanes (goes iss (gof s) gd), ((gof s).lane l).depth ≠ 65535 ∧ ((gof s).lane l).rs.length = 4) ∧
    [Instr.call gd 5 10, .callx gd (.s 8) 10].all (fun i => okAll ((began i s iss (gof s)).tryAll (s.ldOf (gof s)) (s.ctxNum (gof s)) .write
      (((Mask.lanes (goes iss (gof s) gd)).filter (fun l => ((gof s).lane l).rs.length == 4)).map
      (fun l => (l, spillPlace (gof s) 10 (((gof s).lane l).depth - 4) l)))).1) = true :=
  ⟨ready_of (by decide), ready_of (by decide), by unfold goodTargets; decide, by decide, by decide, by decide, by decide +kernel⟩
theorem witness_CallsAndReturns_refill : let s := spair 10 0x2000 (stacked 0 3)
    Ready (.ret gd 10) s iss (gof s) ∧ ((gof s).rs64 10).toNat % 8 = 0 ∧
    (∀ l ∈ Mask.lanes (goes iss (gof s) gd), ((gof s).lane l).depth ≠ 0 ∧ ((gof s).lane l).rs.length = 0) ∧
    okAll ((began (.ret gd 10) s iss (gof s)).tryAll (s.ldOf (gof s)) (s.ctxNum (gof s)) .read (((Mask.lanes (goes iss (gof s) gd)).filter (fun l =>
      ((gof s).lane l).rs.length == 0)).map (fun l => (l, spillPlace (gof s) 10 (((gof s).lane l).depth - 1) l)))).1 = true :=
  ⟨ready_of (by decide), by decide, by decide, by decide +kernel⟩
theorem witness_TableWords_none : let s := preg 1 0 base
    Ready (.tbl l0 9 8 10) s iss (gof s) ∧ (s.core (gof s).core).tag (s.core (gof s).core).bank ≠ some (s.ctxNum (gof s), ((gof s).rs64 10).toNat) ∧
    (gof s).nonHelpers ((gof s).guarded iss.lanes l0) = 0 := ⟨ready_of (by decide), by decide, by decide⟩
theorem witness_ExitWords_ends : (began (.exit gd) base iss (gof base)).exitReady iss.grp (counted (.exit gd) iss (gof base)) = true ∧
    (began (.exit gd) base iss (gof base)).exitCkpt iss.grp (counted (.exit gd) iss (gof base)) = false ∧
    (base.blocks.find (gof base).blk).map (fun b => (b.held, b.heldFe)) = some ([], []) := by decide
/-- A twin block with one group, whose one paired request is posted. -/
def twinned (s : State) : State := let t := s.updGrid 1 (fun g => { g with desc := { g.desc with pair := true, cpb := 1 } })
  { t with
    blocks := t.blocks.set 12 { blkOf2 t with b := 1, groups := [13] }
    groups := t.groups.set 13 { gof t with blk := 12 }
    clusters := [(0, ⟨[{ ent (.pass (pass true aFmt)) .posted with grp := 13, blk := 12 }], 0, 16, 0⟩)] }
theorem witness_TakingATrap_twin : [policy 0x3000 8 0 base, policy 0 0 8 base].all (fun s0 => let s := twinned s0
    s.grp 3 == some (gof s) && s.twinOf (gof s) == some 13 && (s.grp 13).isSome && s.ctxOf (gof s) == some (cof s) && !(gof s).inHandler iss.lanes &&
    (((cof s).handler != 0 && (cof s).hmask.getLsbD 3 && decide (2 ≤ (s.descOf (gof s)).regs)) || (cof s).fmask.getLsbD 3) &&
    !(unmatched s 3 13).isEmpty) = true := by decide
/-- The grid is a child of grid 9. -/
def childSt : State := { base.updGrid 1 (fun g => { g with parent := some 9 }) with grids := (base.grids.upd 1 (fun g => { g with parent := some 9 })).set 9 { grof base with children := 1 } }
theorem witness_TakingATrap_child : let s := childSt
    s.grp 3 = some (gof s) ∧ s.twinOf (gof s) ≠ some 3 ∧ s.ctxOf (gof s) = some (cof s) ∧ (gof s).inHandler iss.lanes = false ∧ (cof s).handler = 0 ∧
    (cof s).fmask.getLsbD 3 = false ∧ (s.grids.find 1).map (fun g => (g.parent, g.st)) = some (some 9, .running) ∧ (gof s).grid = 1 ∧
    (s.grids.find 9).map (fun g => (g.parent, g.st)) = some (none, .running) ∧ descendants s 16 [ancestor s 16 (gof s).grid] = [9, 1] := by decide
def waitedSnap : State := { holding (.gate 7 false .sys) (sreg 4 9 base) with cur := some { iss with hold := .gate 7 false .sys } }
theorem witness_TrapWords_resumes : let s := waitedSnap; let c : Issue := { iss with hold := .gate 7 false .sys }
    s.cur = some c ∧ s.grp 3 = some (gof s) ∧ s.illegalHere (gof s) (.trap gd 0x42) = false ∧ s.wordReady c (gof s) (.trap gd 0x42) = true ∧
    s.ckpt (gof s) = false ∧ goes c ((gof s).asIssued c.hold) gd ≠ 0 := by decide
theorem witness_HandlerEntryAndReturn_report : let s := entering
    (s.setGrp 3 (gof s).endReport).ckpt (gof s) = false ∧ s.invis = [] ∧ ((aReport.bytes)[63]?).isSome = true ∧ Mask.has ((gof s).trapLanes aReport) 0 = true := by decide
theorem witness_Unheld : Claims.Unheld base 0 ∧ Claims.Unheld memState 0 ∧ Claims.Unheld remoteState 0 :=
  ⟨unheld_of (by decide) 0, unheld_of (by decide) 0, unheld_of (by decide) 0⟩
theorem witness_AddressTranslation_tables : (leafState 25).poison = [] ∧ (leafState 25).ctxs.find 0 = some (cof base) ∧
    [Access.read, .write, .fetch, .pod].map (fun a => (leafState 25).walkFor a.ofEngine 0 0x2000) = List.replicate 4 (WalkRes.leaf 25 2) := by decide
def lateState : State := { memState with mem := Memory.write base.mem 0x12000 (leBytes 8 0) }
theorem witness_OtherMemoryWords_tbld_waits : let s := lateState
    Ready (.tbld gd 4 2) s iss (gof s) ∧ ((gof s).rs64 2).toNat % 64 = 0 ∧
    ((began (.tbld gd 4 2) s iss (gof s)).tryAll (s.ldOf (gof s)) (s.ctxNum (gof s)) .read ((List.range 33).map (fun i =>
      ((Mask.lanes ((gof s).nonHelpers ((gof s).guarded iss.lanes gd))).headD 0, (gof s).rs64 2 + BitVec.ofNat 64 (64 * i))))).1.all
      (fun x => x.cause == 0 && (x.acc.map (fun b => b.waiting && b.st != .failed)).getD false) = true := ⟨ready_of (by decide), by decide, by decide +kernel⟩
theorem witness_OtherMemoryWords_mcas_open : (casBlocks.2.holders (gof casState).blk (casBlocks.1.filterMap (fun x => x.devAddr.map (· / 128)))) = [] := by decide +kernel
def rd4x : LaneAcc := { rd4 with who := 3 }
theorem witness_LoadReturns_some : canDo (.load (.v 4) .b32) .ld rd4x false true base = true ∧ rd4x.who &&& ~~~(rd4x.who &&& 1) ≠ 0 ∧
    (let o := opOf (.load (.v 4) .b32) .ld { rd4x with who := 2, data := withOffsets [1, 2, 3, 4], st := .got }
     let s := withOp o base
     pendB s 3 4 (gof s) o && o.named 2 (Config.freeBit s.free) == o.lanes) = true := by decide
theorem witness_LoadReturns_ldfe_held : let s := { (full2000.updGrid 1 (fun g => { g with desc := { g.desc with ckpt := true } })) with mem := base.mem }
    canDo (.ldfe (.v 4) .b32 true) .ld rd4 false true s = true ∧ s.granuleFull (gof s) rd4 = true ∧ s.ckpt (gof s) = true ∧ s.fillsVisible rd4 = true ∧
    (s.blocks.find (gof s).blk).isSome = true := by decide
theorem witness_LoadReturns_tbld_stores : let s := withOp tblOp base
    (gof s).earlierStoresDone 4 = true ∧ tableOk (fun i => if i < 528 then (BitVec.ofNat 32 (leNat (((tblOp.lanes.flatMap (fun a =>
      s.groupBytes 3 (gof s) a)).drop (4 * i)).take 4))).toNat else 0) = false := by decide +kernel
def landing (vis : Nat) : InvWrite := ⟨3, 4, 1, (withOffsets [1, 2]).map (fun x => (0x2000 + x.1, x.2)), [], vis⟩
theorem witness_StoresPerformed_tick : (landing 0).vis ≤ ({ base with invis := [landing 0] } : State).tick.timebase := Nat.zero_le _
theorem witness_StoresPerformed_later : let n := timebaseOf (base.clk + Config.order (8 * base.free)) + 1
    ({ base with invis := [landing n] } : State).tick.timebase < (landing n).vis := by
  show timebaseOf _ < timebaseOf (base.clk + Config.order (8 * base.free)) + 1
  simp [State.tick, State.mergeVisible, landing, State.timebase, Nat.not_succ_le_self]
theorem witness_AtomicsPerformed_lanes : [OpKind.atom .add .s32 (.v 5) [(0, 7), (1, 8)], .red .add .s32 [(0, 7), (1, 8)]].all (fun kd => canDo kd .ld rd4x true true base) = true ∧
    (([(0, 7), (1, 8)] : List (Nat × DWord)).filter (fun p => Mask.has rd4x.who p.1)).length = 2 := by decide
theorem witness_McasSteps_grant : [([], 0x20), ([0x20], 0x1FF)].all (fun q => let p := prog q.1 [(0, 5), (0, 6)] 0 false
    let s := doing (casOp p) .ld (acc (.dev 0x2000) 8 []) base
    pendB s 3 4 (gof s) (opOf (casOp p) .ld (acc (.dev 0x2000) 8 [])) && !p.stale.contains 0 &&
    (mcasLines [(0x1000, 0x1000), (0xFF80, 0xFF80)]).find? (fun x => !p.locked.contains x) == some q.2 &&
    (opOf (casOp p) .ld (acc (.dev 0x2000) 8 [])).ofLane 0 == [acc (.dev 0x2000) 8 []] &&
    s.mayPerform 3 (gof s) (opOf (casOp p) .ld (acc (.dev 0x2000) 8 [])) (acc (.dev 0x2000) 8 []) true && s.owned == [] && (s.locks.find q.2).isNone &&
    s.settled 3 1 (q.2 * 128) 128 && s.accessFree (gof s) ⟨0, 0, 0, 8, .dev 0x2000, [], .ready⟩ true) = true := by decide
theorem witness_McasSteps_anew : let p := { prog [] [] 0 false with stale := [0] }; let o := opOf (casOp p) .ld (acc (.dev 0x2000) 8 [])
    let s := doing (casOp p) .ld (acc (.dev 0x2000) 8 []) base
    pendB s 3 4 (gof s) o = true ∧ p.todo.head? = some 0 ∧ 0 ∈ p.stale ∧ (∀ a ∈ o.ofLane 0, a.st = .ready) ∧ s.replayUsed (gof s).core < 64 ∧
    ((s.tryAll (s.ldOf (gof s)) (s.ctxNum (gof s)) .write [(0, 0x1000), (0, 0xFF80)]).1.map (fun y => (y.cause, y.acc.map (·.st), y.phys))) =
      [(0, some .ready, .dev 0x1000), (0, some .ready, .dev 0xFF80)] := by decide
def sageSame (s : State) (x : PFault) : Bool := (s.sageReads x).isSome && ((s.sageReads x).map (fun s1 => s1.sagePlan x)) == some (s.sagePlan x) &&
  ((s.sageReads x).map (fun s1 => (s1.ldevs.find 0).isSome)) == some true && x.ld == 0 && x.st == .asked && !x.serviceless
theorem witness_FaultsServed_reads : [faulting 25 .asked base, faulting 0 .asked base].all (fun s => sageSame s (aFault .asked)) = true ∧
    sageSame (level2 0x28) (aFault .asked) = true := by decide +kernel
theorem witness_FaultsServed_page : (2 ^ 30 : Nat) < 2 ^ 56 ∧ (0x13000 : Nat) < 2 ^ 30 := by decide
theorem witness_GroupEvents_fetches : [Hold.none, .yield 3, .yield 0].map (·.fetches) = [true, true, true] ∧ Claims.Unheld (unfetched 25) 0 :=
  ⟨by decide, unheld_of (by decide) 0⟩
theorem witness_PreemptionEvents_before : (stopLanes .waitPoint base).drainOver 0 = false ∧ (drainState true none).drainOver 0 = false ∧
    ((drainState false (some 0)).ctxBlocks 0).any (fun p => !p.2.saved) = true ∧ (drainState true (some 0)).ctxs.find 0 = some (cof (drainState true (some 0))) ∧
    ((drainState true (some 0)).ctxBlocks 0).any (fun p => !p.2.saved) = false ∧
    (drainState true (some 0)).grids.any (fun p => p.2.ctx == 0 && p.2.st == .dispatching) = false := by decide
def cls1 : Bar := ⟨.cls, 1⟩
def clustered : State := (sreg 5 1 base).updGrid 1 (fun g => { g with desc := { g.desc with cluster := true, cpb := 1 } })
theorem witness_BarrierWords_cluster : atBarB (.binit 4 cls1 5) clustered iss cls1 = true ∧ (barOf clustered cls1).count = 0 ∧
    (clustered.descOf (gof clustered)).cpb = 1 ∧ ((clustered.scopeGroups (gof clustered) .cls).any (fun k => k == 3)) = true := by decide
theorem witness_BarrierWords_leaver : AtBarrier (.bdrop bar1) (barSt otherB base) iss (gof (barSt otherB base)) bar1 otherB ∧ 3 ∉ otherB.members ∧
    iss.grp = 3 ∧ iss.hold = .none := ⟨atBar_of (by decide), by decide, rfl, rfl⟩
theorem witness_BarrierWords_absent : [Instr.arrive 4 cls1, .binit 4 cls1 5, .bsync cls1, .bdrop cls1].all (fun i => readyB i base iss (gof base)) = true ∧
    base.bar (gof base) cls1 = none ∧ base.ckpt (gof base) = false ∧ (gof base).converged iss.lanes = true := by decide
theorem witness_MatrixWords_twin : (began (.mmap args) pairSt iss (gof pairSt)).twinFits iss.grp = true ∧ (pairSt.descOf (gof pairSt)).pair = true ∧
    (gof pairSt).mfPending 0 = false ∧ (gof pairSt).mf.find 0 = some aFmt ∧ Claims.passAligned (gof pairSt) args :=
  ⟨by decide, by decide, by decide, by decide, by unfold Claims.passAligned; decide⟩
def skew (n : Nat) (s : State) : State := spair n 0x2008 s
theorem witness_MatrixWords_misaligned : [2, 4, 6].all (fun n => readyB (.mma args) (skew n matSt) iss (gof (skew n matSt)) &&
      readyB (.mmap args) (skew n pairSt) iss (gof (skew n pairSt)) && (gof (skew n matSt)).converged iss.lanes &&
      (began (.mmap args) (skew n pairSt) iss (gof (skew n pairSt))).twinFits 3 && (gof (skew n matSt)).mf.find 0 == some aFmt) = true ∧
    (∀ n ∈ [2, 4, 6], ¬ Claims.passAligned (gof (skew n matSt)) args) := ⟨by decide, by unfold Claims.passAligned; decide⟩
theorem witness_MatrixWords_operands : [Instr.mdrn true 0 2, .mfmt 10 1 2, .mlda 0 2].all (fun i => let s := spair 2 0x2020 matSt
      readyB i s iss (gof s) && (gof s).converged iss.lanes && !(gof s).mfPending 1 && ((gof s).rs64 2).toNat % 64 != 0) = true ∧
    (gof matSt).nonHelpers iss.lanes ≠ 0 := by decide
theorem witness_MatrixWords_diverged : [Instr.mma args, .mmap args, .mzero 0, .mdrn true 0 2, .mlda 0 2, .mvec false false 3 8 1 0, .mfmt 10 0 2].all (fun i =>
      readyB i (alone (joined 0 0 .running)) one (gof (alone (joined 0 0 .running)))) = true := by decide
/-- A pass and its twin's, at work in two clusters; and the two requests as one sees them. -/
def half (gid blk core eid : Nat) : MEntry := { ent (.pass (pass true aFmt)) (.granted 0) with eid := eid, grp := gid, blk := blk, core := core, begun := true }
def bothHalves : State := let t := (tabled (half 3 2 0 4) .busy).updGrid 1 (fun g => { g with desc := { g.desc with pair := true, cpb := 1 } })
  { t with
    blocks := t.blocks.set 12 { blkOf2 t with b := 1, core := 4, groups := [13] }
    groups := t.groups.set 13 { gof t with blk := 12, core := 4 }
    clusters := [(0, ⟨[half 3 2 0 4], 0, 16, 0⟩), (1, ⟨[half 13 12 4 5], 0, 16, 0⟩)] }
theorem witness_MatrixPasses_paired : let s := bothHalves
    slotB s (half 3 2 0 4) = true ∧ s.matchOf (half 3 2 0 4) = some (half 13 12 4 5) ∧ s.entry 1 5 = some (half 13 12 4 5) ∧
    clusterOf (half 13 12 4 5).core = 1 ∧ (half 13 12 4 5).isGranted = true ∧ (s.blocks.find 12).isSome = true ∧
    (s.slotOf (half 13 12 4 5)).st = .busy ∧ s.owned = [] ∧ s.poison = [] ∧ s.blocks.all (fun q => q.2.holdsNone) = true ∧
    scanCode (s.scan s (ctxLd s (half 3 2 0 4)) 0 4 (pass true aFmt) 1 0 []).1 = 0 := by decide +kernel
def addDesc : DrainDesc := ⟨2, 0, false, 0, [aPart]⟩
def adding (claim : Claim) (begun : Bool) : MEntry := { ent (.drain true 0x3000) (.granted 0) with claim := some claim, desc := some addDesc, begun := begun }
theorem witness_MatrixCompletions_adds : (let e := { ent (.drain true 0x3000) (.granted 0) with desc := some addDesc }; let s := tabled e .busy
      slotB s e && e.claim == none && e.wait == none && s.opReleased e &&
      allPages Phys.isDevice (s.engPages (ctxLd s e) e.ctx (opKey 4) true (pagesOf addDesc.targets))) = true ∧
    (let e := adding ⟨[(0x40, []), (0x41, [])], [], [(2, .dev 0x2000)]⟩ false; let s := { tabled e .busy with owned := [(0x40, 4)] }
      slotB s e && s.holdsLine 4 0x40 && [0x40, 0x41].find? (fun x => !s.owned.any (fun o => o == (x, 4))) == some 0x41 &&
      s.blocks.all (fun q => q.2.holdsNone)) = true ∧
    (let e := adding ⟨[(0x40, [])], [], [(2, .dev 0x2000)]⟩ false; let s := { tabled e .busy with owned := [(0x40, 4)] }
      slotB s e && s.holdsLine 4 0x40 && s.poison == [] && s.invis == []) = true ∧
    (let e := adding ⟨[(0x40, [(.dev 0x2000, 9)])], [], [(2, .dev 0x2000)]⟩ true; let s := { tabled e .busy with owned := [(0x40, 4)] }
      slotB s e && s.granted 4 0x40 && s.invis == []) = true := by decide +kernel
theorem witness_MatrixCompletions_apart : Claims.Apart ⟨[(0x40, [(.dev 0x2000, 9)])], [], [(2, .dev 0x2000)]⟩ := by unfold Claims.Apart; decide
theorem witness_MatrixCompletions_sum : aPart.width ≠ 0 ∧ aPart.width * 8 = (fmtOf aPart.fmt).width ∧ aPart.addr 1 1 + aPart.width ≤ 2 ^ 64 := by decide
def trailPart : Part := { aPart with trail := 0x2040 }
def trailDesc : DrainDesc := ⟨0, 0, false, 0, [trailPart]⟩
theorem witness_MatrixCompletions_trailer : let e := { ent (.drain true 0x3000) (.granted 0) with claim := some ⟨[], [], [(2, .dev 0x2000)]⟩, desc := some trailDesc, tail := [(0, [1, 2])] }
    let s := { tabled e .busy with owned := [(0x40, 4)] }
    slotB s e = true ∧ trailDesc.parts[0]? = some trailPart ∧ s.invis = [] ∧ ((addrLines [(2, Phys.dev 0x2000)] [trailPart.trail]).all (s.holdsLine 4)) = true ∧
    ((withOffsets [(1 : Byte), 2]).map (fun x => pageAt [(2, Phys.dev 0x2000)] (trailPart.trail + x.1))).Nodup := by decide
theorem witness_EngineWords_released : engWords.all (fun i => EngineReleased i (eng base) iss (gof (eng base))) = true ∧
    engWords.all (fun i => let s := withOp (storeOp (acc (.dev 0x3000) 4 [1, 2, 3, 4])) (eng base)
      readyB i s iss (gof s) && !EngineReleased i s iss (gof s)) = true ∧ goes iss (gof (eng base)) gd ≠ 0 := by decide
def gateIss : Issue := { iss with hold := .gate 7 true .pkg }
def gated : State := { upd (holding (.gate 7 true .pkg) (eng base)) (fun g => { g with snaps := [(7, ⟨[], [], [(2, 0x4000)], []⟩)] }) with cur := some gateIss }
theorem witness_EngineWords_goesOn : engWords.all (fun i => gated.cur == some gateIss && !gated.illegalHere (gof gated) i && gated.wordReady gateIss (gof gated) i &&
      !gated.ckpt (gof gated)) = true ∧ gated.grp 3 = some (gof gated) ∧ goes gateIss ((gof gated).asIssued gateIss.hold) gd ≠ 0 ∧
    (((gof gated).asIssued gateIss.hold).rs64 2).toNat = 0x4000 := by decide
theorem witness_TransferEvents_checked : let s := copySt { asked .tcpy with st := .checking 7 } 0 0
    s.transfers.find 4 = some { asked .tcpy with st := .checking 7 } ∧ s.faultOver 7 = true ∧ s.ctxDead 0 = false ∧
    (s.checkTransfer { asked .tcpy with st := .checking 7 }).1 = .ready (moved 0 0) ∧ Claims.Unheld s 0 :=
  ⟨by decide, by decide, by decide, by decide +kernel, unheld_of (by decide) 0⟩
def waitPages : Pages → Nat
  | .ok _ => 0
  | .wait _ => 1
  | .bad _ => 2
theorem witness_TransferEvents_pages : [0, 7].map (fun leaf => let s := { copySt (moved 0 0) 0 0 with mem := Memory.write (copyMem 2 0 0) 0x12000 (leBytes 8 leaf) }
      let r := s.chunkPages 4 (moved 0 0); (waitPages r.1, waitPages r.2.1, s.blocks.all (fun q => q.2.holdsNone))) = [(1, 1, true), (2, 2, true)] := by decide +kernel
theorem witness_TransferEvents_reads : let x := { claimedOf 0 0 [] with st := .reading }; let s := copySt x 0 0
    s.transfers.find 4 = some x ∧ s.ctxDead 0 = false ∧ s.blocks.all (fun q => q.2.holdsNone) = true ∧
    (x.elems.flatMap (x.srcAt [(4, .dev 0x4000)])).all (fun a => s.lineFree 4 x.blk a && s.engClean a) = true := by decide
theorem witness_TransferEvents_apart : let x := moved 0 0
    base.olds = [] ∧ ∀ a ∈ x.elems.flatMap (x.srcAt [(4, .dev 0x4000)]), ∀ b ∈ x.elems.flatMap (x.dstAt [(5, .dev 0x5000)]), pieceKey x.blk a ≠ pieceKey x.blk b := by
  decide
theorem witness_TransferEvents_claim : Claims.Apart ⟨devPiece, [(4, .dev 0x4000)], [(5, .dev 0x5000)]⟩ ∧ (claimSt 0 0 devPiece).invis = [] := by
  unfold Claims.Apart; decide
theorem witness_TransferEvents_over : [none, some (2, 0)].all (fun f => let x := { moved 0 0 with st := .finished f }; let s := xfer x base
      s.transfers.find 4 == some x && s.engVisible 3 4 && (s.grp 3).isSome) = true := by decide
/-- Two members, this package and package 1, to which port 40 leads. -/
def collRec2 : List Byte := leBytes 4 0 ++ leBytes 2 2 ++ leBytes 2 0 ++ leBytes 8 1 ++ leBytes 8 0x4000 ++ leBytes 8 0x5000 ++ leBytes 8 0x3000 ++
  leBytes 4 9 ++ leBytes 4 0 ++ leBytes 8 0 ++ leBytes 8 77
def coll2 : State := { collSt aColl 0 with
  mem := Memory.write (Memory.write (Memory.write base.mem 0x2000 collRec2) 0x4000 [1, 2, 3, 4]) 0x3001 [1]
  links := (portSt upColour).links
  routes := [(1, 40)] }
def collMembers (c : CStart × State) : List Nat := match c.1 with
  | .go y _ => y.members
  | _ => []
theorem witness_CollectiveEvents_two : collMembers (coll2.checkColl 4 aColl) = [0, 1] ∧ (match (coll2.checkColl 4 aColl).1 with
    | .go y _ => coll2.route (coll2.bankOf y.d.version) 1
    | _ => none) = some 40 ∧ aColl.wait = none ∧ Claims.Unheld coll2 0 := ⟨by decide +kernel, by decide +kernel, rfl, unheld_of (by decide) 0⟩
theorem witness_CollectiveEvents_signal : let x := { runColl .finished with d := { runDesc with sig := 0x6000, sigv := 77 }, sigPhys := .dev 0x6000, claimed := some { runClaim with pieces := [] } }
    let s := collSt x 0
    s.colls.find 4 = some x ∧ x.fail = none ∧ s.engVisible x.grp x.op = true ∧ s.collUnsent x = false ∧ s.lineFree 4 0 x.sigPhys = true ∧ x.d.sig ≠ 0 := by decide
theorem witness_CollectiveEvents_signalled : let s := collSt (runColl .signalled) 0
    s.colls.find 4 = some (runColl .signalled) ∧ s.engVisible 3 4 = true ∧ (runColl .signalled).claimed = some runClaim := by decide
/-- A page edit of tenant 0's first shared page, whose cached leaf leads to frame 0x2000, where the checkpointed block holds a byte. -/
def editRec : Record := ⟨5, 0, 0, 0, leBytes 8 (2 ^ 55) ++ leBytes 8 0x1000009 ++ leBytes 8 0⟩
def sharedTlb (s : State) : State := { s with tlb := [⟨4096, 2 ^ 55, 4096, 0x2019⟩] }
def heldEdit : State := { sharedTlb storeSt with blocks := base.blocks.upd 2 (fun b => { b with held := [(0x2004, 7)] }) }
def usedEdit : State := sharedTlb (withOp { pendOp with lanes := [⟨0, 1, 2 ^ 55 + 8, 4, .dev 0x2008, [], .ready⟩] } storeSt)
def laterCode (s : State) : Nat := match s.applyRecord (s.peal + 1) editRec with
  | .ok .. => 0
  | .later (some _) => 1
  | .later none => 2
theorem witness_LoopEvents_later : [storeSt, heldEdit, usedEdit].map laterCode = [0, 1, 2] ∧ heldEdit.formed = true ∧ usedEdit.formed = true ∧ 7 ∈ heldEdit.ring ∧
    7 ≠ heldEdit.pkg ∧ editRec.body.length = 24 ∧ [heldEdit, usedEdit].all (fun s => [0, 15].all (fun v =>
      laterCode { s with sendq := [{ sent with r := editRec }], visit := v, peal := 20 } == laterCode s && decide (v < 16 ∧ v ≤ 20))) = true := by decide
theorem witness_LoopEvents_stays : ({ base with stays := true } : State).stays = true := rfl
theorem witness_LoopEvents_again : let s : State := { storeSt with onLoop := [(6, sent)], peal := 5 }
    s.reformOk ⟨5, none, [7, 0]⟩ = true ∧ (∀ p ∈ s.onLoop, 5 < p.1) ∧ s.ring ≠ [] := ⟨by decide, by decide, by decide⟩
theorem witness_LoopEvents_left : storeSt.reformOk ⟨9, none, [7]⟩ = true ∧ storeSt.pkg = 0 := by decide
theorem witness_QueueWords_tables : Claims.Unheld (pushing (queue0 .device 3 0 .active) launchPkt 16 5) 0 ∧ Claims.Unheld (queued (queue0 .device 16 0 .active)) 0 ∧
    (pushing (queue0 .device 3 0 .active) launchPkt 16 5).ctxNum (gof (pushing (queue0 .device 3 0 .active) launchPkt 16 5)) = 0 ∧
    (iss.hold = .none ∧ launchPkt.length = 64) := ⟨unheld_of (by decide) 0, unheld_of (by decide) 0, by decide, by decide⟩
theorem witness_QueueWords_full : let s := (pushing (queue0 .device 3 0 .active) launchPkt 16 5).updGrid 1 (fun g => { g with children := 65535 })
    (pushReads (.launch false gd 4 10 12) s).isSome = true ∧ (s.gridOf (gof s)).map (·.children) = some 65535 := by decide +kernel
theorem witness_QueueEvents_unheld : Claims.Unheld (headSt launchPkt .active 16) 0 ∧ Claims.Unheld (contSt 0x3000) 0 ∧ Claims.Unheld (headSt (barrierPkt 0) .blocked 16) 0 ∧
    contX.ctx = 0 ∧ contX.st = .idle ∧ contX.wait = none := ⟨unheld_of (by decide) 0, unheld_of (by decide) 0, unheld_of (by decide) 0, rfl, rfl, rfl⟩
theorem witness_ContextCommands_none : Claims.NoneHeld (cmdSt 0 0 false (cmdRec 5 0 0 0 0) (cst .ready base)) := fun q h => by
  simpa using List.all_eq_true.mp (show (cmdSt 0 0 false (cmdRec 5 0 0 0 0) (cst .ready base)).blocks.all (fun q => q.2.holdsNone) = true by decide) q h
theorem witness_ServiceCommands_waits : Claims.NoneHeld (cmdSt 0 2 true (cmdRec 1 0 0x2000 4096 0) base) := fun q h => by
  simpa using List.all_eq_true.mp (show (cmdSt 0 2 true (cmdRec 1 0 0x2000 4096 0) base).blocks.all (fun q => q.2.holdsNone) = true by decide) q h
theorem witness_ServiceCommands_gone : (let s := cmdSt 0 3 false (cmdRec 3 0 9 2 0) base; (headIf s 0 3 3 3).isSome && (s.records.find 9).isNone) = true ∧
    [{ serving none base with groups := [] }, upd (serving none base) (fun g => { g with state := .exited })].all (fun s0 => let s := cmdSt 0 3 false (cmdRec 3 0 9 2 0) s0
      headIf s 0 3 3 3 == some ⟨3, 0, 9, 2, 0, true⟩ && (s.records.find 9).map (fun x => (x.ld, x.announced, x.grp, field x.bytes 4 2)) == some (0, true, 3, 0) &&
      Claims.ctxSt s 0 == some .running && ((s.grp 3).map (·.state)).getD .exited == .exited) = true := by decide +kernel
theorem witness_HostWrites_image : (Config.imageSigned [1] = true ∧ base.mgmt.rollback ≤ (0 : DWord).toNat) ∨ (Config.imageSigned [1] = false ∨ (0 : DWord).toNat < base.mgmt.rollback) := by
  cases h : Config.imageSigned [1]
  · exact .inr (.inl rfl)
  · exact .inl ⟨rfl, by decide⟩
theorem witness_HostWrites_module : ({ base with mgmt := { base.mgmt with onModule := false } } : State).mgmt.onModule = false := rfl
theorem witness_FlitEvents_types : [0, 8, 255].all (fun ty => [(0, false), (7, false), (0, true)].all (fun p => let a := anArrival ty p.1 p.2 0
      validLink a.link && decide (a.colour < 8 ∧ (a.flit.ty = 0 ∨ 8 ≤ a.flit.ty) ∧ a.flit.payload.length = 128 ∧ a.flit.seq < 2 ^ 32) &&
      (((portSt upColour).link a.link).colour a.colour).isUp)) = true := by decide
theorem witness_FlitEvents_empty : (portSt upColour).blocks.all (fun q => q.2.holdsNone) = true ∧ ((portSt upColour).link 40).rxHeld = [] ∧
    SMap.getD ((portSt upColour).link 40).rxSeq 0 0 = (aFlit 1 0).seq := by decide
def marked (m : Word) : Link := { emptyLink with colours := List.replicate 8 { upColour with marg := m } }
theorem witness_LinkEvents_good : [0x80000006, 0x80000007, 0x0000000F].map (fun m => ((marked m).nextColour 0, (marked m).nextColour 0 == some 0 && !((marked m).colour 0).clean)) =
      [(some 0, false), (some 0, true), (some 0, false)] ∧
    ((keptSt.setLink 40 { keptSt.link 40 with unacked := [⟨0, 5, 2, aFlit 1 5, true⟩] }).link 40).unacked.find? (fun x => x.tenant == 0 && x.seq == 5 && x.good) =
      some ⟨0, 5, 2, aFlit 1 5, true⟩ ∧ (keptSt.link 40).unacked.find? (fun x => x.tenant == 0 && x.seq == 5 && x.good) = none := by decide
theorem witness_LinkEvents_count : (let s := (portSt upColour).setLink 40 { (portSt upColour).link 40 with slots := [(0, 60)] }
      (s.link 40).count 0 false + 4 ≤ 64 ∧ (∀ p ∈ s.links, p.2.out = [])) ∧ ((portSt upColour).link 40).owns 0 = true ∧ ((portSt upColour).link 40).owns 3 = false := by decide
/-- A narrow port: colours 0 to 4 are tenant 0's, 5 to 7 tenant 9's, and a flit of each waits. -/
def narrowLink (sv : Nat × Nat) : Link := { emptyLink with
  colours := List.replicate 5 upColour ++ List.replicate 3 { upColour with tenant := 9 }
  narrow := true, serving := sv, out := [[{ aFlit 1 0 with tenant := 9 }], [{ aFlit 1 0 with tenant := 0 }]] }
theorem witness_LinkEvents_round : [((0, 3), 0), ((0, 0), 9)].all (fun p => let l := narrowLink p.1
      l.narrow && l.owners == [0, 9] && (l.sendable (fun _ => false) (· == p.2) [] l.out).map (fun b => b.map (·.tenant)) == some [p.2]) = true := by decide
theorem witness_LinkEvents_resend : let l : Link := { emptyLink with colours := { upColour with st := .dark } :: List.replicate 7 upColour, unacked := [⟨0, 5, 0, aFlit 1 5, true⟩] }
    l.unacked = [⟨0, 5, 0, aFlit 1 5, true⟩] ∧ (0 : Nat) ∈ [0] ∧ l.nextColour 0 = some 1 ∧ ((portSt upColour).link 40).alive = true := by decide
theorem witness_LinkEvents_windows : [ColSt.up, .watch].all (fun st => let s := portSt { upColour with st := st, calm := 3, calmP := 4 }
      ((s.link 40).colour 7).isUp && decide (s.timebase < ((s.link 40).colour 7).winAt + windowTicks) &&
      decide (((({ s with clk := 18500 * windowTicks } : State).link 40).colour 7).winAt + windowTicks ≤ ({ s with clk := 18500 * windowTicks } : State).timebase)) = true ∧
    ((portSt upColour).link 40).colour 7 = upColour ∧ upColour.st ≠ .dark ∧ upColour.st ≠ .failed ∧ 7 < ((portSt upColour).link 40).colours.length := by decide
theorem witness_ErrorEvents_reading : let x := { claimedOf 0 0 devPiece with st := .reading }; let s := { copySt x 0 0 with owned := [(0xA0, 4)] }
    s.transfers.find 4 = some x ∧ x.st = .reading ∧ .dev 0x4004 ∈ x.srcPlaces ∧ 0x4004 / 16 = 0x400F / 16 := by decide +kernel
theorem witness_ErrorEvents_drain : let e := adding ⟨[(0x40, [])], [], [(2, .dev 0x2000)]⟩ false; let s := tabled e .busy
    s.entry 0 4 = some e ∧ e.isGranted = true ∧ (s.slotOf e).st = .busy ∧ e.desc.map (·.mode) = some 2 ∧ e.begun = false := by decide
theorem witness_ErrorEvents_moving : let s := { base with mgmt := { base.mgmt with moving := some 767, sweeping := [767] } }
    s.blocks.all (fun q => q.2.holdsNone) = true ∧ (∀ o ∈ s.owned, o.1 * 128 / Config.regionBytes ≠ 767) ∧ s.mgmt.moving = some 767 := by decide
end Sys2Proof.Tests
end

section
/-! PROOFS. Pre-emption (R84 to R86): what the parking of a group keeps of its registers, what saving and waking leave alone, and the
state a context has when its drain ends. -/

namespace Sys2Proof.Machine

/-! ## The registers a parked group keeps (R73, R84) -/

/-- A filter by key keeps the values of the keys it selects and drops the others. -/
theorem SMap.find_filter_keys {α : Type} (q : Nat → Bool) (m : SMap α) (k : Nat) :
    SMap.find (m.filter (fun p => q p.1)) k = if q k = true then SMap.find m k else none := by
  induction m with
  | nil => simp
  | cons p r ih =>
    obtain ⟨i, y⟩ := p
    by_cases hk : i = k
    · subst hk
      by_cases hi : q i = true <;> simp [hi, SMap.find_cons, ih]
    · by_cases hi : q i = true <;> simp [hi, SMap.find_cons, ih, hk]

theorem SMap.getD_filter_keys {α : Type} (q : Nat → Bool) (m : SMap α) (k : Nat) (d : α) :
    SMap.getD (m.filter (fun p => q p.1)) k d = if q k = true then SMap.getD m k d else d := by
  unfold SMap.getD
  rw [SMap.find_filter_keys]
  split <;> rfl

theorem Group.rs_keepLive (g : Group) (l : LiveSet) (n : Nat) :
    (g.keepLive l).rs n = if l.s.testBit n = true then g.rs n else 0 := by
  by_cases h63 : n = 63
  · simp [Group.rs, h63]
  · simp only [Group.rs, if_neg h63]
    exact SMap.getD_filter_keys (fun i => l.s.testBit i) g.s n 0

theorem Group.rv_keepLive (g : Group) (ls : LiveSet) (n : Nat) {l : Nat} (hl : l < 64) :
    (g.keepLive ls).rv n l = if ls.v.testBit n = true then g.rv n l else 0 := by
  by_cases h255 : n = 255
  · simp [Group.rv, h255]
  · have hkey : (n * 64 + l) / 64 = n := by omega
    have hget := SMap.getD_filter_keys (fun i => ls.v.testBit (i / 64)) g.v (n * 64 + l) 0
    rw [hkey] at hget
    simp only [Group.rv, if_neg h255]
    exact hget

theorem Group.rp_keepLive (g : Group) (ls : LiveSet) {n : Nat} (l : Nat) (hn : n < 7) :
    (g.keepLive ls).rp n l = (ls.p.testBit n && g.rp n l) := by
  have hget : SMap.getD (g.keepLive ls).p n 0 = _ := SMap.getD_filter_keys (fun i => ls.p.testBit i) g.p n 0
  simp only [Group.rp, if_neg (Nat.ne_of_lt hn), hget]
  split
  · next hlive => simp [hlive]
  · next hdead => simp [hdead, Mask.has]

/-! ## Saving (R85) -/

@[simp] theorem SMap.find_upd_self {α : Type} (m : SMap α) (k : Nat) (f : α → α) : SMap.find (SMap.upd m k f) k = (SMap.find m k).map f := by
  rw [SMap.find_upd, if_pos rfl]

/-- A reading that changes of blocks and contexts leave alone is left alone by the saving of a unit. -/
theorem State.saveUnit_keeps {γ : Type} (p : State → γ) (hb : ∀ t b f, p (State.updBlk t b f) = p t)
    (hc : ∀ t n f, p (State.updCtx t n f) = p t) (s : State) (bs : List Nat) : p (s.saveUnit bs) = p s := by
  unfold State.saveUnit
  refine List.foldlRecOn (motive := fun t => p t = p s) bs _ rfl (fun t ht b _ => ?_)
  dsimp only
  split
  · exact ht
  · rw [hc, hb, ht]

/-- The same for the saving of every unit of a context whose groups have parked. -/
theorem State.saveParked_keeps {γ : Type} (p : State → γ) (hb : ∀ t b f, p (State.updBlk t b f) = p t)
    (hc : ∀ t n f, p (State.updCtx t n f) = p t) (s : State) (ctx : Nat) : p (s.saveParked ctx) = p s := by
  unfold State.saveParked
  refine List.foldlRecOn (motive := fun t => p t = p s) _ _ rfl (fun t ht b _ => ?_)
  dsimp only
  split
  · rw [State.saveUnit_keeps p hb hc, ht]
  · exact ht

@[simp] theorem State.saveParked_grp (s : State) (ctx k : Nat) : (s.saveParked ctx).grp k = s.grp k :=
  State.saveParked_keeps (fun t => t.grp k) (fun _ _ _ => rfl) (fun _ _ _ => rfl) s ctx

@[simp] theorem State.saveParked_mem (s : State) (ctx : Nat) : (s.saveParked ctx).mem = s.mem :=
  State.saveParked_keeps (fun t => t.mem) (fun _ _ _ => rfl) (fun _ _ _ => rfl) s ctx

@[simp] theorem State.saveParked_hostMem (s : State) (ctx : Nat) : (s.saveParked ctx).hostMem = s.hostMem :=
  State.saveParked_keeps (fun t => t.hostMem) (fun _ _ _ => rfl) (fun _ _ _ => rfl) s ctx

theorem State.ctxs_find_updCtx_isSome (s : State) (m n : Nat) (f : Ctx → Ctx) :
    ((s.updCtx m f).ctxs.find n).isSome = (s.ctxs.find n).isSome := by
  rw [State.updCtx_ctxs, SMap.find_upd]
  split
  · subst_vars; exact Option.isSome_map
  · rfl

/-- Saving makes no context and ends none. -/
theorem State.ctxs_find_saveParked_isSome (s : State) (ctx n : Nat) :
    ((s.saveParked ctx).ctxs.find n).isSome = (s.ctxs.find n).isSome :=
  State.saveParked_keeps (fun t => (t.ctxs.find n).isSome) (fun _ _ _ => rfl)
    (fun t m f => t.ctxs_find_updCtx_isSome m n f) s ctx

/-! ## Completing a command leaves every context as it is (R383) -/

@[simp] theorem State.note_ctxs (s : State) (gid op : Nat) (cells : List (Nat × Byte)) : (s.note gid op cells).ctxs = s.ctxs := by
  unfold State.note
  split <;> rfl

@[simp] theorem State.bridgeWrite_ctxs (s : State) (bs : List (Nat × Byte)) : (s.bridgeWrite bs).ctxs = s.ctxs :=
  State.note_ctxs s 0 0 _

@[simp] theorem State.setRing_ctxs (s : State) (fn r : Nat) (x : Ring) : (s.setRing fn r x).ctxs = s.ctxs := by
  unfold State.setRing
  split <;> rfl

@[simp] theorem State.raiseRing_ctxs (s : State) (fn : Nat) (x : Ring) : (s.raiseRing fn x).ctxs = s.ctxs := by
  unfold State.raiseRing
  split <;> rfl

@[simp] theorem State.finishCmd_ctxs (s : State) (fn r status : Nat) : (s.finishCmd fn r status).ctxs = s.ctxs := by
  unfold State.finishCmd
  rw [State.raiseRing_ctxs, State.setRing_ctxs, State.bridgeWrite_ctxs]

/-! ## Waking groups in place (R86) -/

/-- A reading that changes of groups and clusters leave alone is left alone when withdrawn requests are posted again. -/
theorem State.repost_keeps {γ : Type} (p : State → γ) (hg : ∀ t k x, p (State.setGrp t k x) = p t)
    (hc : ∀ t k x, p (State.setCluster t k x) = p t) (s : State) (k : Nat) : p (s.repost k) = p s := by
  unfold State.repost
  split
  · rfl
  · rw [hg, hc]

/-- The same when groups that had not parked go on in place. -/
theorem State.foldl_wakeInPlace_keeps {γ : Type} (p : State → γ) (hg : ∀ t k x, p (State.setGrp t k x) = p t)
    (hc : ∀ t k x, p (State.setCluster t k x) = p t) (s : State) (ks : List Nat) :
    p (ks.foldl State.wakeInPlace s) = p s := by
  refine List.foldlRecOn (motive := fun t => p t = p s) ks _ rfl (fun t ht k _ => ?_)
  unfold State.wakeInPlace
  split
  · exact ht
  · rw [State.repost_keeps p hg hc, hg, ht]

/-- The same when parked groups enter their slots again. -/
theorem State.wakeFits_keeps {γ : Type} (p : State → γ) (hg : ∀ t k x, p (State.setGrp t k x) = p t)
    (hc : ∀ t k x, p (State.setCluster t k x) = p t) (s : State) (ks : List Nat) : p (s.wakeFits ks) = p s := by
  unfold State.wakeFits
  refine List.foldlRecOn (motive := fun t => p t = p s) ks _ rfl (fun t ht k _ => ?_)
  split
  · split
    · unfold State.wakeParked
      split
      · exact ht
      · rw [State.repost_keeps p hg hc, hg, ht]
    · exact ht
  · exact ht

/-- The contexts, grids and blocks of a package: what the waking of groups leaves alone. -/
def State.owners (s : State) : SMap Ctx × SMap Grid × SMap Block := (s.ctxs, s.grids, s.blocks)

theorem State.foldl_wakeInPlace_owners (s : State) (ks : List Nat) : (ks.foldl State.wakeInPlace s).owners = s.owners :=
  State.foldl_wakeInPlace_keeps State.owners (fun _ _ _ => rfl) (fun _ _ _ => rfl) s ks

theorem State.wakeFits_owners (s : State) (ks : List Nat) : (s.wakeFits ks).owners = s.owners :=
  State.wakeFits_keeps State.owners (fun _ _ _ => rfl) (fun _ _ _ => rfl) s ks

/-! ## A context with nothing of it resident (R70) -/

/-- Something of a context is resident, or a grid of it is being dispatched. -/
def State.occupied (s : State) (ctx : Nat) : Bool :=
  (s.ctxBlocks ctx).any (fun p => !p.2.saved) || s.grids.any (fun p => p.2.ctx == ctx && p.2.st == .dispatching)

/-- Which contexts are occupied is told by the grids, and by the grid of each block and whether it is saved. -/
theorem State.occupied_congr {s t : State} (f : Nat → Block → Block) (hgrids : t.grids = s.grids)
    (hblocks : t.blocks = s.blocks.mapV f) (hgrid : ∀ k b, (f k b).grid = b.grid) (hsaved : ∀ k b, (f k b).saved = b.saved)
    (ctx : Nat) : t.occupied ctx = s.occupied ctx := by
  unfold State.occupied State.ctxBlocks SMap.mapV at *
  simp only [hgrids, hblocks, List.any_filter, List.any_map, Function.comp_def, hgrid, hsaved]

theorem State.idleCtx_eq (s : State) (ctx : Nat) :
    s.idleCtx ctx = s.updCtx ctx (fun x => if x.st == .running && !s.occupied ctx then { x with st := .ready } else x) := by
  refine congrArg (fun busy => s.updCtx ctx (fun x => if x.st == .running && !busy then { x with st := .ready } else x))
    (congrArg (· || _) ?resident)
  case resident =>
    rw [State.ctxBlocks, List.any_filter]
    refine congrArg (List.any s.blocks) (funext fun p => ?_)
    rw [Bool.and_comm]
    cases s.grids.find p.2.grid <;> rfl

/-- A RUNNING context that looks for work stays RUNNING when it is occupied, and else is READY. -/
theorem State.ctxs_find_idleCtx {s : State} {n : Nat} {c : Ctx} (hc : s.ctxs.find n = some c) (hst : c.st = .running) :
    (s.idleCtx n).ctxs.find n = some { c with st := if s.occupied n = true then .running else .ready } := by
  rw [State.idleCtx_eq, State.updCtx_ctxs, SMap.find_upd_self, hc, Option.map_some, hst]
  cases s.occupied n
  · rfl
  · simp [← hst]

/-! ## Going on after a drain limit (R86) -/

/-- A block when a drain of context `n` ends at its limit: what concerned its stop is dropped. -/
def State.undrainBlock (s : State) (n : Nat) (b : Block) : Block :=
  if ((s.grids.find b.grid).map (fun (g : Grid) => g.ctx)) == some n then
    { b with liveSlots := [], halt := b.halt && s.ckptWaits b } else b

/-- The package when a drain of context `n` ends at its limit: the groups of `here` go on in place, every flag is cleared. -/
def State.undrain (s : State) (n : Nat) (here : List Nat) : State :=
  { here.foldl State.wakeInPlace s with
    groups := (here.foldl State.wakeInPlace s).groups.mapV (fun _ (g : Group) => if s.ctxNum g == n then { g with flagged := false } else g)
    blocks := s.blocks.mapV (fun _ b => s.undrainBlock n b) }

/-- The package once, besides, the parked groups of `ks` have entered their slots again and the context is RUNNING. -/
def State.resumed (s : State) (n : Nat) (here ks : List Nat) : State :=
  (((s.undrain n here).wakeFits ks).updCtx n (fun x => { x with st := .running, drain := none })).refreshQueues n

theorem State.undrainBlock_grid (s : State) (n : Nat) (b : Block) : (s.undrainBlock n b).grid = b.grid := by
  unfold State.undrainBlock
  split <;> rfl

theorem State.undrainBlock_saved (s : State) (n : Nat) (b : Block) : (s.undrainBlock n b).saved = b.saved := by
  unfold State.undrainBlock
  split <;> rfl

theorem State.undrain_owners (s : State) (n : Nat) (here : List Nat) :
    (s.undrain n here).owners = (s.ctxs, s.grids, s.blocks.mapV (fun _ b => s.undrainBlock n b)) := by
  have hw := s.foldl_wakeInPlace_owners here
  simp only [State.owners, Prod.mk.injEq] at hw ⊢
  obtain ⟨hctxs, hgrids, -⟩ := hw
  exact ⟨hctxs, hgrids, rfl⟩

theorem State.ctxs_find_resumed (s : State) (n : Nat) (here ks : List Nat) {c : Ctx} (hc : s.ctxs.find n = some c) :
    (s.resumed n here ks).ctxs.find n = some { c with st := .running, drain := none } := by
  have hw : ((s.undrain n here).wakeFits ks).ctxs = s.ctxs :=
    congrArg Prod.fst (((s.undrain n here).wakeFits_owners ks).trans (s.undrain_owners n here))
  show SMap.find (SMap.upd ((s.undrain n here).wakeFits ks).ctxs n _) n = _
  rw [hw, SMap.find_upd_self, hc]
  rfl

/-- Going on changes nothing of what is resident. -/
theorem State.occupied_resumed (s : State) (n : Nat) (here ks : List Nat) : (s.resumed n here ks).occupied n = s.occupied n := by
  have hw := ((s.undrain n here).wakeFits_owners ks).trans (s.undrain_owners n here)
  simp only [State.owners, Prod.mk.injEq] at hw
  obtain ⟨-, hgrids, hblocks⟩ := hw
  exact State.occupied_congr _ hgrids hblocks (fun _ => s.undrainBlock_grid n) (fun _ => s.undrainBlock_saved n) n

/-! ## The three events -/

theorem State.drainOver_eq {s : State} {n : Nat} {c : Ctx} (hc : s.ctxs.find n = some c) {u : Nat} (hu : c.drain = some u) :
    s.drainOver n = decide (u ≤ s.timebase) := by
  simp only [State.drainOver, hc, Option.bind_some, hu]

/-- The group that a parking leaves behind (R84 steps 4 and 5). -/
def Group.parked (g : Group) : Group := { g.keepLive g.liveSet with state := .saved, fetched := [], missing := [] }

@[simp] theorem State.parkGroup_grp (s : State) (k : Nat) (g : Group) : (s.parkGroup k g).grp k = some g.parked :=
  SMap.find_set_self _ _ _

/-- A group in whose way nothing stands parks at once, and the units of its context whose groups have all parked are saved. -/
theorem exec_groupPark {s : State} {k : Nat} {g : Group} (hg : s.grp k = some g) (hflag : g.flagged = true)
    (hstop : g.allStopped = true) (hstate : g.state = .active ∨ g.state = .pending ∨ g.state = .parked)
    (hlimit : s.drainOver (s.ctxNum g) = false) (hreq : s.ungranted k g = []) (hquiet : g.quiet = true) (hckpt : s.ckpt g = false)
    (hroll : ((s.blkOf g).map (·.rolling)).getD false = false) :
    exec (.groupPark k) s = .next ((s.parkGroup k g).saveParked (s.ctxNum g)) := by
  have hset : (g.state == .active || g.state == .pending || g.state == .parked) = true := by
    simpa [or_assoc] using hstate
  show execGroupPark k s = _
  simp [execGroupPark, event, hg, hflag, hstop, hset, hlimit, hreq, hquiet, hckpt, hroll]

/-- A drain that nothing holds up ends in SAVED, with status 0 for the PREEMPT. -/
theorem exec_contextSaved {s : State} {n : Nat} {c : Ctx} (hc : s.ctxs.find n = some c) (hst : c.st = .draining)
    (hsaved : ((s.saveParked n).ctxBlocks n).all (fun p => p.2.saved) = true) (hquiet : s.enginesQuiet n = true)
    (hlimit : s.drainOver n = false) :
    exec (.contextSaved n) s =
      .next (((s.saveParked n).updCtx n (fun x => { x with st := .saved, drain := none })).finishCmd c.ld 0 0) := by
  show execContextSaved n s = _
  simp only [execContextSaved, event, hc, hst, hsaved, hquiet, hlimit]
  rfl

/-- A drain at its limit ends with status 3: the groups of unsaved blocks go on, and then the context looks for work (R70). -/
theorem exec_drainLimitReached {s : State} {n : Nat} {c : Ctx} (hc : s.ctxs.find n = some c) (hst : c.st = .draining)
    (hlimit : s.drainOver n = true) : ∃ here ks, exec (.drainLimitReached n) s =
      .next (((s.resumed n here ks).idleCtx n).finishCmd c.ld 0 3) := by
  show ∃ here ks, execDrainLimitReached n s = .next (((s.resumed n here ks).idleCtx n).finishCmd c.ld 0 3)
  simp only [execDrainLimitReached, event, hc, hst, hlimit]
  exact ⟨_, _, rfl⟩

end Sys2Proof.Machine

namespace Sys2Proof.Claims
open Sys2Proof.Machine

/-- A group with nothing in the way of its parking is saved, and of its registers keeps those that its stops hold live. -/
theorem groupPark_keeps_live {s : State} {k : Nat} {g : Group} (hg : s.grp k = some g) (hflag : g.flagged = true)
    (hstop : g.allStopped = true) (hstate : g.state = .active ∨ g.state = .pending ∨ g.state = .parked)
    (hlimit : s.drainOver (s.ctxNum g) = false) (hreq : s.ungranted k g = []) (hquiet : g.quiet = true) (hckpt : s.ckpt g = false)
    (hroll : ((s.blkOf g).map (·.rolling)).getD false = false) :
    ∃ t h, exec (.groupPark k) s = .next t ∧ t.grp k = some h ∧ SameMem s t ∧ h.state = .saved ∧ h.lanes = g.lanes ∧
      (∀ n, g.liveSet.s.testBit n = true → h.rs n = g.rs n) ∧
      (∀ n l, l < 64 → g.liveSet.v.testBit n = true → h.rv n l = g.rv n l) ∧
      (∀ n l, n < 7 → h.rp n l = (g.liveSet.p.testBit n && g.rp n l)) ∧
      (∀ n, n < 63 → g.liveSet.s.testBit n = false → h.rs n = 0) := by
  refine ⟨_, g.parked, exec_groupPark hg hflag hstop hstate hlimit hreq hquiet hckpt hroll, ?grp, ?mem, rfl, rfl,
    fun n hlive => ?scalar, fun n l hl hlive => ?vector, fun n l hn => g.rp_keepLive g.liveSet l hn, fun n _ hdead => ?dropped⟩
  case grp => rw [State.saveParked_grp, State.parkGroup_grp]
  case mem => exact ⟨State.saveParked_mem _ _, State.saveParked_hostMem _ _⟩
  case scalar => exact (g.rs_keepLive g.liveSet n).trans (if_pos hlive)
  case vector => exact (g.rv_keepLive g.liveSet n hl).trans (if_pos hlive)
  case dropped => exact (g.rs_keepLive g.liveSet n).trans (if_neg (by simp [hdead]))

/-- A draining context with every block saved and no engine at work is SAVED, its drain limit gone. -/
theorem contextSaved_saves {s : State} {n : Nat} {c : Ctx} (hc : s.ctxs.find n = some c) (hst : c.st = .draining)
    (hsaved : ((s.saveParked n).ctxBlocks n).all (fun p => p.2.saved) = true) (hquiet : s.enginesQuiet n = true)
    (hlimit : s.drainOver n = false) :
    ∃ t, exec (.contextSaved n) s = .next t ∧ (t.ctxs.find n).map (·.st) = some .saved ∧ (t.ctxs.find n).map (·.drain) = some none := by
  have hsome : ((s.saveParked n).ctxs.find n).isSome = true := by rw [State.ctxs_find_saveParked_isSome, hc]; rfl
  obtain ⟨x, hx⟩ := Option.isSome_iff_exists.mp hsome
  refine ⟨_, exec_contextSaved hc hst hsaved hquiet hlimit, ?_⟩
  simp [hx]

/-- A draining context at its limit is RUNNING when it is occupied and else READY, its drain limit gone. -/
theorem drainLimitReached_resumes {s : State} {n : Nat} {c : Ctx} {u : Nat} (hc : s.ctxs.find n = some c) (hst : c.st = .draining)
    (hdrain : c.drain = some u) (hu : u ≤ s.timebase) :
    ∃ t, exec (.drainLimitReached n) s = .next t ∧
      (t.ctxs.find n).map (·.st) = some (if s.occupied n = true then .running else .ready) ∧
      (t.ctxs.find n).map (·.drain) = some none := by
  have hlimit : s.drainOver n = true := by rw [State.drainOver_eq hc hdrain, decide_eq_true hu]
  obtain ⟨here, ks, hexec⟩ := exec_drainLimitReached hc hst hlimit
  refine ⟨_, hexec, ?_⟩
  have hidle := State.ctxs_find_idleCtx (s.ctxs_find_resumed n here ks hc) rfl
  rw [State.occupied_resumed] at hidle
  simp [hidle]

end Sys2Proof.Claims

namespace Sys2Proof.Proofs
open Sys2Proof.Machine Sys2Proof.Claims

/-- Settles O32: each of the three events is live under its hypotheses, and what saving, waking and the completion of the PREEMPT do
beside leaves the group's registers, the memories and the state of the context alone. -/
theorem preemptionEvents : Obligations.PreemptionEvents := by
  refine ⟨fun s k g hg hflag hstop hstate hlimit hreq hquiet hckpt hroll => ?park, fun s n c hc hst hsaved hquiet hlimit => ?saved,
    fun s n c u hc hst hdrain hu => ?limit⟩
  case park => exact groupPark_keeps_live hg hflag hstop hstate hlimit hreq hquiet hckpt hroll
  case saved => exact contextSaved_saves hc hst hsaved hquiet hlimit
  case limit => exact drainLimitReached_resumes hc hst hdrain hu

end Sys2Proof.Proofs
end
